-- ==== Sys2Proof/Word.lean ====
section
/-! DEFINITION. The word types of the VC460 and nothing more: what the data sheet treats as bits is a
bit vector, everything else is a natural number, an integer or an inductive type. -/

namespace Sys2Proof

/-- One character's eight data bits, one byte of a frame body or of the clip flash. -/
abbrev Byte := BitVec 8

/-- A 16-bit word: a fleet code, a generation tag, the shift register of R53. -/
abbrev Word16 := BitVec 16

/-- A millisecond count of deck time, modulo 2^32 (R55). -/
abbrev Millis := BitVec 32

/-- An origin on the deck line, 0..63. -/
abbrev Origin := BitVec 6

end Sys2Proof
end

