-- ==== Sys2Proof/Syntax.lean ====
section
/-! DEFINITION. The commands of the block: one constructor of `Instr` for each row of
spec/opcode_table.json, with the operands that arrive from outside the part with that event (the
characters of a frame, the bytes of a flash read, the level of a pin). The table gives its rows no
operands; the choice of them is log entry 1. -/

namespace Sys2Proof

/-- The four seats of the row; the same letters name their jacks. -/
inductive Seat where
  | a | b | c | d
  deriving DecidableEq, Repr

/-- The four commentary voice slots V0..V3. -/
inductive SlotId where
  | v0 | v1 | v2 | v3
  deriving DecidableEq, Repr

/-- The five voices: a commentary slot, or the announcement voice VA. -/
inductive VoiceId where
  | slot (i : SlotId)
  | va
  deriving DecidableEq, Repr

/-- The five audio outputs J-A..J-D and SPK. -/
inductive Output where
  | jack (s : Seat)
  | spk
  deriving DecidableEq, Repr

/-- The six lamp channels CH0..CH5. -/
inductive Chan where
  | ch0 | ch1 | ch2 | ch3 | ch4 | ch5
  deriving DecidableEq, Repr

/-- The two volume buttons of a seat. -/
inductive VolButton where
  | up | down
  deriving DecidableEq, Repr

/-- What the receiver has had on the line for one reception, from the first dominant edge of its BREAK to the
moment of the command: how long, in reference counts, the line stayed at each level, dominant and recessive
in turn and dominant first. What the receiver makes of it, Machine/Receiver.lean says (R4 to R8). -/
structure RxFrame where
  runs : List Nat
  deriving DecidableEq, Repr

/-- The foreign kinds, 0 and 10..15 (R15). -/
inductive ForeignKind where
  | k0 | k10 | k11 | k12 | k13 | k14 | k15
  deriving DecidableEq, Repr

/-- The levels of one seat's five inputs at a sample: true is pressed, or plugged in (R131). -/
structure PanelLevels where
  lang : Bool
  volUp : Bool
  volDown : Bool
  stop : Bool
  detect : Bool
  deriving DecidableEq, Repr

/-- The levels of the twenty seat inputs and of the door switch (true is open) at a sample. -/
structure SeatPins where
  a : PanelLevels
  b : PanelLevels
  c : PanelLevels
  d : PanelLevels
  door : Bool
  deriving DecidableEq, Repr

/-- The sense lines of CH0..CH5 at a lamp check: true reads open (R170). -/
structure SenseLines where
  ch0 : Bool
  ch1 : Bool
  ch2 : Bool
  ch3 : Bool
  ch4 : Bool
  ch5 : Bool
  deriving DecidableEq, Repr

/-- The commands: the rows of spec/opcode_table.json, in the table's order. -/
inductive Instr where
  /-- POWER_ON (R172) with the straps sampled -/
  | powerOn (origin : Origin) (load : Bool)
  /-- HEADER_READ_DONE (R71) with the bytes read from address 0 -/
  | headerReadDone (data : List Byte)
  /-- SCAN_CHUNK_DONE (R71) with the directory bytes read -/
  | scanChunkDone (data : List Byte)
  /-- PROBE_DONE (R80) with the twelve bytes of the entry probed -/
  | probeDone (data : List Byte)
  /-- BLOCK_READ_DONE (R81) with the stored samples read -/
  | blockReadDone (data : List Byte)
  /-- TRANSACTION_TIMEOUT (R83) -/
  | transactionTimeout
  /-- IDLE_GAP (R41) -/
  | idleGap
  /-- ATTEMPT_SENT (R42) -/
  | attemptSent
  /-- ATTEMPT_LOST (R43) with the index of the bit at which the readback differed -/
  | attemptLost (bit : Nat)
  /-- ATTEMPT_FAILED (R44) with the index of the bit at which the readback differed -/
  | attemptFailed (bit : Nat)
  /-- QUIET_PERIOD_END (R18) -/
  | quietPeriodEnd
  /-- LINE_STUCK (R19) -/
  | lineStuck
  /-- JABBER (R22) -/
  | jabber
  /-- JABBER_LOCKOUT_CLEAR (R22) -/
  | jabberLockoutClear
  /-- RECEIVE_TIMEOUT (R14) -/
  | receiveTimeout
  /-- FRAME_ERROR (R12) with the line as the receiver had it -/
  | frameError (f : RxFrame)
  /-- RECEIVE_TIME (R62) -/
  | receiveTime (f : RxFrame)
  /-- RECEIVE_CUE (R87) -/
  | receiveCue (f : RxFrame)
  /-- RECEIVE_HUSH (R91) -/
  | receiveHush (f : RxFrame)
  /-- RECEIVE_ANNOUNCE (R121) -/
  | receiveAnnounce (f : RxFrame)
  /-- RECEIVE_STOP_REQ (R113) -/
  | receiveStopReq (f : RxFrame)
  /-- RECEIVE_DOOR (R116) -/
  | receiveDoor (f : RxFrame)
  /-- RECEIVE_SCENE (R163) -/
  | receiveScene (f : RxFrame)
  /-- RECEIVE_STATUS (R16) -/
  | receiveStatus (f : RxFrame)
  /-- RECEIVE_PARK (R174) -/
  | receivePark (f : RxFrame)
  /-- WAKE_MATCH (R20) with the line as the receiver had it -/
  | wakeMatch (f : RxFrame)
  /-- WAKE_ATTEMPT_END (R21): sent, or failed at a bit of the pattern -/
  | wakeAttemptEnd (failedAt : Option Nat)
  /-- WAKE_WAIT_EXPIRY (R177) -/
  | wakeWaitExpiry
  /-- PARK_TIMER_EXPIRY (R176) -/
  | parkTimerExpiry
  /-- TIME_TIMER_EXPIRY (R67) -/
  | timeTimerExpiry
  /-- STATUS_TIMER_EXPIRY (R180) -/
  | statusTimerExpiry
  /-- CUE_PROMOTION (R90) -/
  | cuePromotion
  /-- CHIME_START (R124) -/
  | chimeStart
  /-- DOOR_ENTRY_EXPIRY (R117) -/
  | doorEntryExpiry
  /-- CLAIM_EXPIRY (R165) -/
  | claimExpiry
  /-- SAMPLE_TICK (R142) -/
  | sampleTick
  /-- BLOCK_BOUNDARY (R103) of one voice -/
  | blockBoundary (v : VoiceId)
  /-- CLIP_END (R105) of one voice -/
  | clipEnd (v : VoiceId)
  /-- NAME_CAP_EXPIRY (R128) -/
  | nameCapExpiry
  /-- SEAT_INPUT_SAMPLE (R131) with the levels of the inputs -/
  | seatInputSample (levels : SeatPins)
  /-- PLUG (R133) -/
  | plug (s : Seat)
  /-- UNPLUG (R135) -/
  | unplug (s : Seat)
  /-- SETTLE_END (R134) -/
  | settleEnd (s : Seat)
  /-- VOL_UP_PRESS (R137) -/
  | volUpPress (s : Seat)
  /-- VOL_DOWN_PRESS (R137) -/
  | volDownPress (s : Seat)
  /-- VOL_RELEASE (R137) -/
  | volRelease (s : Seat) (b : VolButton)
  /-- VOL_REPEAT (R137) -/
  | volRepeat (s : Seat) (b : VolButton)
  /-- LANG_PRESS (R138) -/
  | langPress (s : Seat)
  /-- LANG_RELEASE (R138) -/
  | langRelease (s : Seat)
  /-- LANG_HOLD_EXPIRY (R139) -/
  | langHoldExpiry (s : Seat)
  /-- STOP_PRESS (R112) -/
  | stopPress (s : Seat)
  /-- DOOR_SWITCH_OPEN (R118) -/
  | doorSwitchOpen
  /-- DOOR_SWITCH_CLOSED (R118) -/
  | doorSwitchClosed
  /-- DOOR_REFRESH (R118) -/
  | doorRefresh
  /-- GAIN_UPDATE (R146) -/
  | gainUpdate
  /-- SOURCE_SILENCE_END (R147) of one output -/
  | sourceSilenceEnd (o : Output)
  /-- WIND_SAMPLE (R150) with the noise-microphone level -/
  | windSample (level : Byte)
  /-- WIND_WINDOW_END (R151) -/
  | windWindowEnd
  /-- FADE_TICK (R160) -/
  | fadeTick
  /-- AMBIENT_SAMPLE (R167) with the ambient-light level -/
  | ambientSample (level : Byte)
  /-- WISH_SET (R167) -/
  | wishSet
  /-- LAMP_CHECK (R170) with the sense lines -/
  | lampCheck (sense : SenseLines)
  /-- LAMP_FAULT_CHANGE (R171) of one channel -/
  | lampFaultChange (ch : Chan)
  /-- FOREIGN_FRAME (R15) of one foreign kind -/
  | foreignFrame (k : ForeignKind) (f : RxFrame)
  deriving DecidableEq, Repr

end Sys2Proof
end

