-- ==== Sys2Proof/Config.lean ====
section
/-! DEFINITION. What the VC460 fixes: its durations, in microseconds of reference, its limits, and the
table of gain factors. The data sheet leaves no result value open, so there is no free value here
(INVENTORY.md, What the manual leaves open). -/

namespace Sys2Proof.Config

/-- 5 ms transaction limit (R83). -/
def transactionMicros : Nat := 5000
/-- 5,000 ms QUIET period (R18). -/
def quietMicros : Nat := 5000000
/-- 500 ms, the least first TIME period (R66). -/
def timeFirstMillis : Nat := 500
/-- 1,000 ms, the least regular TIME period (R64). -/
def timeRegularMillis : Nat := 1000
/-- 16 ms, the least shortened TIME remainder (R65). -/
def timeShortMillis : Nat := 16
/-- 500 us, the suppression band (R64). -/
def suppressionMicros : Int := 500
/-- 2,000 ms, the first STATUS period (R180). -/
def statusFirstMillis : Nat := 2000
/-- 10,000 ms, the least later STATUS period (R180). -/
def statusMillis : Nat := 10000
/-- 10,000 ms park timer (R175). -/
def parkMicros : Nat := 10000000
/-- 100 ms wake wait (R177). -/
def wakeWaitMicros : Nat := 100000
/-- 300 ms settle (R133). -/
def settleMicros : Nat := 300000
/-- 500 ms from a volume press to its first repeat (R137). -/
def repeatFirstMicros : Nat := 500000
/-- 250 ms between later repeats (R137). -/
def repeatMicros : Nat := 250000
/-- 1,000 ms LANG hold (R138). -/
def holdMicros : Nat := 1000000
/-- 5,000 ms door refresh (R118). -/
def doorRefreshMicros : Nat := 5000000
/-- 20,000 ms life of an open-door entry (R116). -/
def doorLifeMillis : Nat := 20000
/-- 15,000 ms name cap (R125). -/
def nameCapMicros : Nat := 15000000
/-- 8 ms source-switch silence (R147). -/
def silenceMicros : Nat := 8000
/-- 120 ms fade of an overlay (R159). -/
def overlayFadeMillis : Nat := 120
/-- 2,000 ms park fade (R162). -/
def parkFadeMillis : Nat := 2000
/-- 128 us from the start of a BREAK to the first TUNE edge: 16 bit times of 8 us (R2). -/
def breakToEdgeMicros : Nat := 128
/-- 1,000 us, past which the own driver's dominant run is jabber (R22). -/
def jabberMicros : Nat := 1000
/-- 12 reference counts to the microsecond (R55). -/
def countsPerMicro : Nat := 12
/-- 96 reference counts, the nominal bit time (R1). -/
def nominalBit : Nat := 96
/-- 11 nominal bit times, a dominant run taken as a BREAK or as BROKEN (R1, R4, R13). -/
def breakCounts : Nat := 11 * nominalBit
/-- 12 nominal bit times, the recessive time after a BREAK at which no TUNE has come (R4). -/
def noTuneCounts : Nat := 12 * nominalBit
/-- 12 nominal bit times of recessive line, the idle gap before a frame may begin (R1, R3). -/
def gapCounts : Nat := 12 * nominalBit
/-- 2,000 us: the receive limit from the first TUNE edge (R14), and the longest BREAK (R4). -/
def receiveLimitMicros : Nat := 2000
/-- The same in reference counts. -/
def limitCounts : Nat := receiveLimitMicros * countsPerMicro
/-- 125 us per sample. -/
def sampleMicros : Nat := 125
/-- 256 samples per block, 32 ms. -/
def blockSamples : Nat := 256
/-- 300 s, the hold of the station's own SCENE (R168). -/
def ownHoldSeconds : Nat := 300
/-- The floor of every applied gain (R144). -/
def gainFloor : Int := -72
/-- Requests the reader may take up at one moment without a transaction (log entry 28). -/
def serveFuel : Nat := 100

/-- T8[k], 32,768 times 2^(k/8) rounded (R148). -/
def t8 (k : Nat) : Nat :=
  match k with
  | 0 => 32768
  | 1 => 35734
  | 2 => 38968
  | 3 => 42495
  | 4 => 46341
  | 5 => 50535
  | 6 => 55109
  | _ => 60097

end Sys2Proof.Config
end

