-- ==== Sys2Proof/Machine/State.lean ====
section
/-! DEFINITION. Every piece of state the data sheet gives the VC460, block by block, as plain data; the
reasons a step can stop; and the machine as power finds it. Durations are microseconds of reference. -/

namespace Sys2Proof.Machine

/-! ## Containers -/

/-- One thing for each seat. -/
structure Seats (α : Type) where
  a : α
  b : α
  c : α
  d : α
  deriving DecidableEq, Repr

/-- One thing for each commentary slot. -/
structure Slots (α : Type) where
  v0 : α
  v1 : α
  v2 : α
  v3 : α
  deriving DecidableEq, Repr

/-- One thing for each lamp channel. -/
structure Chans (α : Type) where
  ch0 : α
  ch1 : α
  ch2 : α
  ch3 : α
  ch4 : α
  ch5 : α
  deriving DecidableEq, Repr

/-- One thing for each audio output. -/
structure Outputs (α : Type) where
  ja : α
  jb : α
  jc : α
  jd : α
  spk : α
  deriving DecidableEq, Repr

/-- One thing for each claim priority 0..3. -/
structure Prios (α : Type) where
  p0 : α
  p1 : α
  p2 : α
  p3 : α
  deriving DecidableEq, Repr

/-! ## Time -/

/-- A value of deck time: milliseconds modulo 2^32 and microseconds 0..999 (R55). -/
structure DeckTime where
  ms : Millis
  us : Nat
  deriving DecidableEq, Repr

/-- A timer that the line state can hold: the TIME and STATUS timers (R66, R180). Microseconds left. -/
inductive Timer where
  | stopped
  | running (left : Nat)
  | held (left : Nat)
  deriving DecidableEq, Repr

/-- The Deck Clock (chapter 4). -/
structure DeckClock where
  now : DeckTime
  running : Bool
  capture : DeckTime
  timer : Timer
  firstPeriod : Bool
  deriving DecidableEq, Repr

/-! ## LINE (chapter 1) -/

inductive LineState where
  | off | active | quiet | stuck | asleep
  deriving DecidableEq, Repr

inductive RxPhase where
  | waiting | inBreak | delimiter | tune | characters
  deriving DecidableEq, Repr

/-- The reception record (section 1.2). -/
structure Reception where
  phase : RxPhase
  /-- the reference count at the first TUNE edge -/
  edgeRef : Nat
  /-- TUNE edges seen -/
  edges : Nat
  /-- the bit-time estimate in reference counts -/
  estimate : Nat
  /-- the sampling anchor of the current character, in half counts from the ninth TUNE edge (R6) -/
  anchor : Nat
  /-- the characters received so far -/
  chars : List Byte
  /-- the running CHECK sum -/
  sum : Byte
  /-- LEN once KIND_LEN has arrived -/
  len : Option Nat
  deriving DecidableEq, Repr

/-- The WAKE request that LINE holds (R21). -/
inductive WakeRequest where
  | none | held | sending
  deriving DecidableEq, Repr

/-- The Deck Line Interface. -/
structure Line where
  state : LineState
  /-- the consecutive-failure count, 0..16 -/
  fails : Nat
  /-- the receive-error count, 0..255 -/
  rxErrors : Nat
  clash : Bool
  lockout : Bool
  /-- what is left of the QUIET period, when one runs -/
  quietLeft : Option Nat
  rx : Reception
  wake : WakeRequest
  /-- the characters of the attempt in hand, as the driver sends them; empty with none in hand -/
  driving : List Byte
  /-- the capture that stands until the own first TUNE edge of the attempt in hand, an edge not yet certain (log
  entries 10 and 49) -/
  priorCapture : Option DeckTime
  /-- reference microseconds at which the line last became ACTIVE out of OFF or ASLEEP (R17) -/
  since : Nat
  deriving DecidableEq, Repr

/-! ## Transmit Queue (chapter 3) -/

inductive TxKind where
  | time | stopReq | door | scene | status
  deriving DecidableEq, Repr

/-- A record of the queue (section 3.1). Its class is fixed by its kind. -/
structure Record where
  kind : TxKind
  body : List Byte
  order : Nat
  attempts : Nat
  backoff : Nat
  inFlight : Bool
  withdrawn : Bool
  deriving DecidableEq, Repr

structure TxQueue where
  /-- the records, oldest first -/
  records : List Record
  nextOrder : Nat
  /-- the drop count, 0..255 (R51) -/
  drops : Nat
  /-- the generator (R53) -/
  lfsr : Word16
  deriving DecidableEq, Repr

/-! ## Clip Store Reader (chapters 2 and 5) -/

inductive ImageState where
  | unread | good | bad
  deriving DecidableEq, Repr

/-- The roles of lamp channels (section 2.7). -/
inductive Role where
  | aisle | readAB | readCD | stopInd | accent | unused
  deriving DecidableEq, Repr

/-- An entry of the scene table (section 2.7). -/
structure SceneEntry where
  levels : Chans Nat
  fadeByte : Nat
  speaker : Int
  deriving DecidableEq, Repr

/-- The configuration copy (R34, R35). -/
structure ConfigCopy where
  languages : Nat
  house : Nat
  speakerOn : Bool
  defaultStep : Nat
  announceFloor : Nat
  cap : Nat
  duckDepth : Nat
  noiseFloor : Nat
  lateLimit : Nat
  darkThreshold : Nat
  brightThreshold : Nat
  darkScene : Nat
  lightScene : Nat
  boardingLevel : Nat
  announceLevel : Nat
  roles : Chans Role
  doorInput : Bool
  scenes : List SceneEntry
  deriving DecidableEq, Repr

/-- The key of a directory entry: kind, number, language as unsigned numbers (R33). -/
structure Key where
  kind : Nat
  number : Nat
  language : Nat
  deriving DecidableEq, Repr

/-- A clip as a lookup gives it, its trim clamped (R76). -/
structure Clip where
  start : Nat
  samples : Nat
  trim : Int
  deriving DecidableEq, Repr

/-- A directory entry as read: its trim is the stored signed byte (R33). -/
structure DirEntry where
  key : Key
  start : Nat
  samples : Nat
  trim : Int
  deriving DecidableEq, Repr

/-- A lookup and the progress of its search (R75, R77): no bounds before the first comparison. -/
structure LookupReq where
  key : Key
  second : Bool
  bounds : Option (Nat × Nat)
  deriving DecidableEq, Repr

/-- A block request (R77). -/
structure BlockReq where
  start : Nat
  samples : Nat
  number : Nat
  need : DeckTime
  deriving DecidableEq, Repr

inductive ReqBody where
  | lookup (l : LookupReq)
  | block (b : BlockReq)
  deriving DecidableEq, Repr

/-- A request in its requester's place, with the generation tag it was issued under; `inHand` while
the transaction in hand is its own. -/
structure Request where
  tag : Word16
  body : ReqBody
  inHand : Bool
  deriving DecidableEq, Repr

/-- The scan, which stands in SCAN's place of the request queue while it runs (R71). -/
structure ScanState where
  fleet : Word16
  flashBlocks : Nat
  dirStart : Nat
  count : Nat
  /-- bytes 16..103 of the header read -/
  configBytes : List Byte
  /-- directory bytes not yet asked for -/
  bytesLeft : Nat
  /-- bytes of an entry whose twelfth byte has not arrived -/
  carry : List Byte
  /-- entries judged -/
  judged : Nat
  first : Option DirEntry
  /-- the key of the last entry judged -/
  lastKey : Option Key
  deriving DecidableEq, Repr

/-- The transaction in hand (R69). -/
inductive Transaction where
  | header
  | chunk (bytes : Nat)
  | probe (v : VoiceId) (tag : Word16) (index : Nat)
  | block (v : VoiceId) (tag : Word16) (b : BlockReq)
  deriving DecidableEq, Repr

structure InHand where
  what : Transaction
  /-- what is left of its 5 ms (R83) -/
  left : Nat
  deriving DecidableEq, Repr

structure ClipStore where
  image : ImageState
  fleet : Word16
  config : ConfigCopy
  dirStart : Nat
  entryCount : Nat
  first : Option DirEntry
  /-- SCAN's place -/
  scan : Option ScanState
  /-- the places of V0..V3 -/
  places : Slots (Option Request)
  /-- VA's place -/
  vaPlace : Option Request
  hand : Option InHand
  tags : Slots Word16
  vaTag : Word16
  scanTag : Word16
  failureRun : Nat
  flashFault : Bool
  deriving DecidableEq, Repr

/-! ## Programme and Voice Table (chapter 6) -/

/-- A cue with its start. -/
structure CueAt where
  cue : Nat
  start : Millis
  deriving DecidableEq, Repr

structure Programme where
  current : Option CueAt
  lastTaken : Option CueAt
  queue : List CueAt
  deriving DecidableEq, Repr

inductive PlayState where
  | idle | seeking | playing | silent
  deriving DecidableEq, Repr

/-- The clip field of a voice: the result of its last lookup. -/
inductive ClipField where
  | awaiting
  | none
  | clip (c : Clip)
  deriving DecidableEq, Repr

/-- A block buffer. -/
inductive Buffer where
  | empty
  | filling (block : Nat)
  | full (block : Nat) (samples : List Int)
  deriving DecidableEq, Repr

/-- The playback record common to a slot and VA. -/
structure Play where
  state : PlayState
  clip : ClipField
  anchor : DeckTime
  position : Nat
  bufX : Buffer
  bufY : Buffer
  underruns : Nat
  /-- the position has reached a block boundary that BLOCK_BOUNDARY has not judged yet (log entry 3) -/
  atBoundary : Bool
  deriving DecidableEq, Repr

inductive SlotContent where
  | commentary
  | name (stop : Nat)
  deriving DecidableEq, Repr

/-- A listener set drawn from jacks A..D and SPK. -/
structure Listeners where
  a : Bool
  b : Bool
  c : Bool
  d : Bool
  spk : Bool
  deriving DecidableEq, Repr

structure Slot where
  play : Play
  language : Nat
  listeners : Listeners
  content : SlotContent
  deriving DecidableEq, Repr

inductive VaContent where
  | tone
  | chime
  | name (stop : Nat)
  deriving DecidableEq, Repr

structure VaRecord where
  play : Play
  content : VaContent
  deriving DecidableEq, Repr

/-- The speaker's record. -/
inductive Speaker where
  | notWanted
  | attached (i : SlotId)
  | starved
  deriving DecidableEq, Repr

structure VoiceTable where
  slots : Slots Slot
  va : VaRecord
  speaker : Speaker
  deriving DecidableEq, Repr

/-! ## Announcement Unit (chapter 7) -/

/-- An entry of the open-door table. -/
structure DoorEntry where
  origin : Origin
  expiry : Millis
  deriving DecidableEq, Repr

/-- A filter: its accepted state (true is PRESSED, IN or OPEN) and its run 0..5 (R131). -/
structure Filter where
  accepted : Bool
  run : Nat
  deriving DecidableEq, Repr

/-- The phase of a current announcement; with none the phase is IDLE. -/
inductive AnnPhase where
  | waiting | chime | name
  deriving DecidableEq, Repr

structure Announcement where
  stop : Nat
  start : Millis
  /-- the chime's samples; none while UNKNOWN -/
  chimeLen : Option Nat
  phase : AnnPhase
  deriving DecidableEq, Repr

structure PendingAnn where
  stop : Nat
  start : Millis
  deriving DecidableEq, Repr

inductive SpeakerName where
  | notNeeded | playing | done
  deriving DecidableEq, Repr

inductive VaPurpose where
  | none | tone | chime | name
  deriving DecidableEq, Repr

structure AnnUnit where
  latch : Bool
  ownOpen : Bool
  doors : List DoorEntry
  doorFilter : Filter
  doorRefresh : Option Nat
  current : Option Announcement
  pending : Option PendingAnn
  lastCompleted : Option Millis
  naming : Slots Bool
  speakerName : SpeakerName
  nameCap : Option Nat
  purpose : VaPurpose
  deriving DecidableEq, Repr

/-! ## Jack Unit and Level Chain (chapter 8) -/

inductive JackState where
  | empty | settling | listening | held
  deriving DecidableEq, Repr

structure Jack where
  state : JackState
  language : Nat
  step : Nat
  settle : Option Nat
  plugs : Nat
  deriving DecidableEq, Repr

/-- The five filters of a seat and its buttons' timers. -/
structure Panel where
  lang : Filter
  volUp : Filter
  volDown : Filter
  stop : Filter
  detect : Filter
  upRepeat : Option Nat
  downRepeat : Option Nat
  hold : Option Nat
  deriving DecidableEq, Repr

structure JackUnit where
  jacks : Seats Jack
  panels : Seats Panel
  readAB : Bool
  readCD : Bool
  deriving DecidableEq, Repr

/-- The applied gains of an output's two pairs, and whether the last update muted them (R144). -/
structure PairGains where
  slot : Int
  va : Int
  muted : Bool
  deriving DecidableEq, Repr

structure WindTracker where
  count : Nat
  sum : Nat
  spoiled : Bool
  average : Nat
  boost : Nat
  deriving DecidableEq, Repr

structure LevelChain where
  gains : Outputs PairGains
  /-- what is left of an output's source-switch silence (R147) -/
  silence : Outputs (Option Nat)
  /-- the samples at the five output pins -/
  out : Outputs Int
  wind : WindTracker
  deriving DecidableEq, Repr

/-! ## Lamp Unit (chapter 9) -/

structure Channel where
  role : Role
  /-- the present level, 8.8 fixed point, 0..65,280 -/
  level : Nat
  target : Nat
  step : Nat
  fault : Bool
  faultRun : Nat
  deriving DecidableEq, Repr

/-- A claim; no expiry is PERMANENT. -/
structure Claim where
  scene : Nat
  origin : Origin
  expiry : Option Millis
  deriving DecidableEq, Repr

inductive RunKind where
  | none | dark | bright
  deriving DecidableEq, Repr

inductive Wish where
  | none | dark | light
  deriving DecidableEq, Repr

structure LampUnit where
  chans : Chans Channel
  claims : Prios (Option Claim)
  runKind : RunKind
  runLen : Nat
  wish : Wish
  deriving DecidableEq, Repr

/-! ## Station Control (chapters 10 and 11) -/

inductive StationState where
  | starting | loading | awake | parking | parked
  deriving DecidableEq, Repr

structure Station where
  origin : Origin
  load : Bool
  state : StationState
  parkLeft : Option Nat
  wakeWait : Option Nat
  statusTimer : Timer
  parkedMark : Bool
  quietMark : Bool
  failedAttempts : Nat
  deriving DecidableEq, Repr

/-! ## The model's own fields -/

/-- Microseconds of reference since power-on, and where the sampling grids begin (log entry 23). -/
structure RefClock where
  micros : Nat
  /-- entry to AWAKE or the latest warm start: fade ticks, lamp checks, wind and ambient samples -/
  gridFrom : Nat
  /-- entry to AWAKE: the seat-input samples, which a warm start leaves running (R132) -/
  seatFrom : Nat
  deriving DecidableEq, Repr

/-- The input pins, each at the level it was last sampled at (log entry 25). -/
structure Pins where
  seats : SeatPins
  noise : Byte
  ambient : Byte
  sense : SenseLines
  deriving DecidableEq, Repr

/-! ## The reasons a step can stop -/

/-- No command of the table ends in a fault: the data sheet gives every one an effect (log entry 32).
The type has no constructor; nothing raises it, which is safe. -/
inductive Fault where
  deriving DecidableEq, Repr

/-- `notModelled` would be raised by an arm of `exec` for a command without a meaning; no arm raises it,
and a refusal is safe in any case. -/
inductive Refusal where
  | notModelled (mnemonic : String)
  deriving DecidableEq, Repr

/-! ## The whole -/

/-- The VC460. `pending` is the queue of commands, `raised` the events that a command has brought about
inside the part and that wait to be taken as commands of their own (log entry 3). -/
structure State where
  pending : List Instr
  raised : List Instr
  ref : RefClock
  pins : Pins
  stc : Station
  line : Line
  txq : TxQueue
  dclk : DeckClock
  csr : ClipStore
  prg : Programme
  vtab : VoiceTable
  ann : AnnUnit
  jck : JackUnit
  lvl : LevelChain
  lmp : LampUnit
  deriving DecidableEq, Repr

/-! ## Power-on values -/

def DeckTime.zero : DeckTime := { ms := 0, us := 0 }

/-- Section 4, power-on: 0 ms 0 us, timer stopped, first-period flag set. It runs once the straps have
been sampled (R57). -/
def DeckClock.initial : DeckClock :=
  { now := .zero, running := false, capture := .zero, timer := .stopped, firstPeriod := true }

/-- The reception record emptied, with the estimate it keeps (section 1.2). -/
def Reception.fresh (estimate : Nat) : Reception :=
  { phase := .waiting, edgeRef := 0, edges := 0, estimate := estimate, anchor := 0, chars := [],
    sum := 0, len := none }

/-- Section 1.10, power-on column. -/
def Line.initial : Line :=
  { state := .off, fails := 0, rxErrors := 0, clash := false, lockout := false, quietLeft := none,
    rx := .fresh Config.nominalBit, wake := .none, driving := [], priorCapture := none, since := 0 }

/-- R36, R51, R53 with the generator's seed given. -/
def TxQueue.initial (seed : Word16) : TxQueue :=
  { records := [], nextOrder := 1, drops := 0, lfsr := seed }

/-- The default scene table (R35). -/
def defaultScenes : List SceneEntry :=
  { levels := { ch0 := 0, ch1 := 0, ch2 := 0, ch3 := 0, ch4 := 0, ch5 := 0 }, fadeByte := 25,
    speaker := -8 }
  :: List.replicate 7
    { levels := { ch0 := 120, ch1 := 180, ch2 := 180, ch3 := 255, ch4 := 60, ch5 := 0 },
      fadeByte := 50, speaker := -16 }

/-- The defaults of section 2.7 (R35). -/
def ConfigCopy.defaults : ConfigCopy :=
  { languages := 1, house := 0, speakerOn := false, defaultStep := 8, announceFloor := 6, cap := 8,
    duckDepth := 24, noiseFloor := 96, lateLimit := 2000, darkThreshold := 40, brightThreshold := 70,
    darkScene := 1, lightScene := 0, boardingLevel := 200, announceLevel := 255,
    roles := { ch0 := .aisle, ch1 := .readAB, ch2 := .readCD, ch3 := .stopInd, ch4 := .accent,
               ch5 := .unused },
    doorInput := false, scenes := defaultScenes }

/-- R70. -/
def ClipStore.initial : ClipStore :=
  { image := .unread, fleet := 0, config := .defaults, dirStart := 0, entryCount := 0, first := none,
    scan := none, places := { v0 := none, v1 := none, v2 := none, v3 := none }, vaPlace := none,
    hand := none, tags := { v0 := 0, v1 := 0, v2 := 0, v3 := 0 }, vaTag := 0, scanTag := 0,
    failureRun := 0, flashFault := false }

/-- R86. -/
def Programme.initial : Programme := { current := none, lastTaken := none, queue := [] }

/-- R92. -/
def Play.initial : Play :=
  { state := .idle, clip := .none, anchor := .zero, position := 0, bufX := .empty, bufY := .empty,
    underruns := 0, atBoundary := false }

def Listeners.nobody : Listeners := { a := false, b := false, c := false, d := false, spk := false }

/-- R92. -/
def Slot.initial : Slot :=
  { play := .initial, language := 0, listeners := .nobody, content := .commentary }

/-- R92, R110. -/
def VoiceTable.initial : VoiceTable :=
  { slots := { v0 := .initial, v1 := .initial, v2 := .initial, v3 := .initial },
    va := { play := .initial, content := .tone }, speaker := .notWanted }

def Filter.initial : Filter := { accepted := false, run := 0 }

/-- R111. -/
def AnnUnit.initial : AnnUnit :=
  { latch := false, ownOpen := false, doors := [], doorFilter := .initial, doorRefresh := none,
    current := none, pending := none, lastCompleted := none,
    naming := { v0 := false, v1 := false, v2 := false, v3 := false }, speakerName := .notNeeded,
    nameCap := none, purpose := .none }

/-- Section 8.2, power-on. -/
def Jack.initial : Jack := { state := .empty, language := 0, step := 0, settle := none, plugs := 0 }

def Panel.initial : Panel :=
  { lang := .initial, volUp := .initial, volDown := .initial, stop := .initial, detect := .initial,
    upRepeat := none, downRepeat := none, hold := none }

/-- Sections 8.1 to 8.3, power-on; R140. -/
def JackUnit.initial : JackUnit :=
  { jacks := { a := .initial, b := .initial, c := .initial, d := .initial },
    panels := { a := .initial, b := .initial, c := .initial, d := .initial },
    readAB := false, readCD := false }

/-- R146: every applied gain is -72. -/
def PairGains.closed : PairGains :=
  { slot := Config.gainFloor, va := Config.gainFloor, muted := false }

/-- R142, R146, R153: outputs at 0, gains at -72, the wind average at the default noise floor. -/
def LevelChain.initial : LevelChain :=
  { gains := { ja := .closed, jb := .closed, jc := .closed, jd := .closed, spk := .closed },
    silence := { ja := none, jb := none, jc := none, jd := none, spk := none },
    out := { ja := 0, jb := 0, jc := 0, jd := 0, spk := 0 },
    wind := { count := 0, sum := 0, spoiled := false, average := ConfigCopy.defaults.noiseFloor,
              boost := 0 } }

/-- R154: level and target 0, step 1, OK, run 0. -/
def Channel.initial (role : Role) : Channel :=
  { role := role, level := 0, target := 0, step := 1, fault := false, faultRun := 0 }

/-- R154, R163, section 9.5: power-on values with the default roles. -/
def LampUnit.initial : LampUnit :=
  { chans := { ch0 := .initial .aisle, ch1 := .initial .readAB, ch2 := .initial .readCD,
               ch3 := .initial .stopInd, ch4 := .initial .accent, ch5 := .initial .unused },
    claims := { p0 := none, p1 := none, p2 := none, p3 := none },
    runKind := .none, runLen := 0, wish := .none }

/-- Chapters 10 and 11, power-on columns, with the straps given. -/
def Station.initial (origin : Origin) (load : Bool) : Station :=
  { origin := origin, load := load, state := .starting, parkLeft := none, wakeWait := none,
    statusTimer := .stopped, parkedMark := false, quietMark := false, failedAttempts := 0 }

def RefClock.initial : RefClock := { micros := 0, gridFrom := 0, seatFrom := 0 }

def PanelLevels.released : PanelLevels :=
  { lang := false, volUp := false, volDown := false, stop := false, detect := false }

/-- Nothing pressed, plugged or open, and no level: the pins before any sample (log entry 25). -/
def Pins.initial : Pins :=
  { seats := { a := PanelLevels.released, b := PanelLevels.released, c := PanelLevels.released,
               d := PanelLevels.released, door := false },
    noise := 0, ambient := 0,
    sense := { ch0 := false, ch1 := false, ch2 := false, ch3 := false, ch4 := false, ch5 := false } }

/-- Every block at its power-on value, with the straps and the generator's seed given. -/
def State.atPowerOn (origin : Origin) (load : Bool) (seed : Word16) : State :=
  { pending := [], raised := [], ref := .initial, pins := .initial, stc := .initial origin load,
    line := .initial, txq := .initial seed, dclk := .initial, csr := .initial, prg := .initial,
    vtab := .initial, ann := .initial, jck := .initial, lvl := .initial, lmp := .initial }

/-- The machine right after reset: every block at its power-on value, STARTING, the straps not yet
sampled (POWER_ON samples them; log entry 6). -/
def State.reset : State := State.atPowerOn 0 false 0

end Sys2Proof.Machine
end

