-- ==== Sys2Proof/Machine/Operands.lean ====
section
/-! DEFINITION. What the bytes mean: multi-byte fields, the characters of a frame and their CHECK (R2,
R7, R8), the forms of the kinds (R15), the readback of an attempt (R3, R9, R10), the header,
configuration block and directory entries of the flash image (chapter 2), and sample expansion (R85). -/

namespace Sys2Proof.Machine

/-! ## Multi-byte fields: most significant byte first -/

/-- Byte `i` of a list, 0 beyond its end. -/
def byteAt (bs : List Byte) (i : Nat) : Byte := bs.getD i 0

/-- The 16-bit field at offset `i`. -/
def field16 (bs : List Byte) (i : Nat) : Nat :=
  (byteAt bs i).toNat * 256 + (byteAt bs (i + 1)).toNat

/-- The 24-bit field at offset `i`. -/
def field24 (bs : List Byte) (i : Nat) : Nat :=
  field16 bs i * 256 + (byteAt bs (i + 2)).toNat

/-- The 32-bit field at offset `i`. -/
def field32 (bs : List Byte) (i : Nat) : Millis :=
  BitVec.ofNat 32 (field16 bs i * 65536 + field16 bs (i + 2))

/-- A number's two low bytes, high byte first. -/
def bytes16 (n : Nat) : List Byte := [BitVec.ofNat 8 (n / 256), BitVec.ofNat 8 n]

/-- A number's four low bytes, high byte first. -/
def bytes32 (n : Nat) : List Byte := bytes16 (n / 65536) ++ bytes16 n

/-- A byte read as two's complement. -/
def signedByte (b : Byte) : Int := b.toInt

/-- `x` held within `lo..hi`. -/
def clampInt (lo hi x : Int) : Int := max lo (min hi x)

/-! ## Characters and CHECK (R2, R7, R8) -/

/-- HEAD's origin field, bits 5-0. -/
def headOrigin (head : Byte) : Origin := head.setWidth 6

/-- HEAD's class field, bits 7-6. -/
def headClass (head : Byte) : Nat := head.toNat / 64

/-- HEAD of a class and an origin (R2). -/
def headOf (cls : Nat) (origin : Origin) : Byte := BitVec.ofNat 8 (cls * 64 + origin.toNat)

/-- KIND_LEN: kind in bits 7-4, LEN in bits 3-0 (R2). -/
def kindLen (kind len : Nat) : Byte := BitVec.ofNat 8 (kind * 16 + len)

/-- One addition of the end-around-carry sum: a carry out of bit 7 is added back into bit 0 (R8). -/
def addAround (sum b : Byte) : Byte :=
  BitVec.ofNat 8 ((sum.toNat + b.toNat) % 256 + (sum.toNat + b.toNat) / 256)

/-- The end-around-carry sum of characters (R8). -/
def sumAround (bs : List Byte) : Byte := bs.foldl addAround 0

/-- CHECK: the inverted sum (R8). -/
def checkOf (bs : List Byte) : Byte := ~~~ sumAround bs

/-- The kinds' codes (R15). -/
def TxKind.code : TxKind → Nat
  | .time => 1
  | .stopReq => 4
  | .door => 5
  | .scene => 6
  | .status => 8

/-- The kinds' classes: 0 URGENT, 1 TIMED, 2 STATE, 3 REPORT (section 3.1). -/
def TxKind.cls : TxKind → Nat
  | .time => 1
  | .stopReq => 0
  | .door => 0
  | .scene => 2
  | .status => 3

/-- The class and LEN fixed for each known kind; none for a foreign kind (R15). -/
def formOf (kind : Nat) : Option (Nat × Nat) :=
  match kind with
  | 1 => some (1, 6)
  | 2 => some (1, 6)
  | 3 => some (1, 6)
  | 4 => some (0, 1)
  | 5 => some (0, 1)
  | 6 => some (2, 4)
  | 7 => some (1, 2)
  | 8 => some (3, 12)
  | 9 => some (0, 2)
  | _ => none

/-- The kind nibble of a foreign kind. -/
def foreignCode : ForeignKind → Nat
  | .k0 => 0
  | .k10 => 10
  | .k11 => 11
  | .k12 => 12
  | .k13 => 13
  | .k14 => 14
  | .k15 => 15

/-- The characters of a frame: HEAD, KIND_LEN, the body and CHECK (R2). -/
def frameChars (kind cls : Nat) (origin : Origin) (body : List Byte) : List Byte :=
  let front := headOf cls origin :: kindLen kind body.length :: body
  front ++ [checkOf front]

/-- The characters of the WAKE pattern: HEAD 0x3F and the fleet code four times (R2, R31). -/
def wakeChars (fleet : Word16) : List Byte :=
  let code := bytes16 fleet.toNat
  headOf 0 63 :: (code ++ code ++ code ++ code)

/-- A character's ten bits: a dominant start bit, the data bits most significant first, a recessive
stop bit (R2). Recessive is true. -/
def charBits (c : Byte) : List Bool :=
  false :: [c.getLsbD 7, c.getLsbD 6, c.getLsbD 5, c.getLsbD 4, c.getLsbD 3, c.getLsbD 2, c.getLsbD 1,
    c.getLsbD 0, true]

/-- The bits a transmitter sends for a list of characters: BREAK, delimiter, TUNE, characters (R2). -/
def waveOf (chars : List Byte) : List Bool :=
  List.replicate 14 false ++ List.replicate 2 true
    ++ (List.replicate 9 [false, true]).flatten ++ (chars.map charBits).flatten

/-! ## Readback (R3, R9, R10) -/

/-- How a readback difference at a bit ends an attempt. -/
inductive ReadbackEnd where
  | none | lost | failed
  deriving DecidableEq, Repr

/-- What a difference between the bit sent and the line at bit `n` of the wave ends the attempt as: a
recessive line over a driven dominant bit is BIT_ERR anywhere (R10); a dominant line over the first
delimiter bit (14) is a yield (R3), over a data bit of HEAD (35..42) a lost arbitration (R9), over any
other recessive bit BIT_ERR (R10). Beyond the wave there is nothing to differ from. -/
def readbackAt (wave : List Bool) (n : Nat) : ReadbackEnd :=
  match wave[n]? with
  | Option.none => .none
  | some false => .failed
  | some true => if n = 14 ∨ (35 ≤ n ∧ n ≤ 42) then .lost else .failed

/-! ## Sample expansion (R85) -/

/-- ((16 + m) * 2^e - 16) * 8, negated when bit 7 is set. -/
def expandSample (b : Byte) : Int :=
  let e := b.toNat / 16 % 8
  let m := b.toNat % 16
  let magnitude : Int := (((16 + m) * 2 ^ e - 16) * 8 : Nat)
  if 128 ≤ b.toNat then -magnitude else magnitude

/-- A block's 256 samples from its stored bytes, the tail silent (R81). -/
def expandBlock (stored : List Byte) : List Int :=
  stored.map expandSample ++ List.replicate (256 - stored.length) 0

/-- 256 samples of 0: a block past the clip's end, or a failed one (R81). -/
def silentBlock : List Int := List.replicate 256 0

/-! ## Clips and directory entries (R33, R76) -/

/-- ceil(samples / 256). -/
def blocksOf (samples : Nat) : Nat := (samples + 255) / 256

/-- The stored samples of block `n` of a clip of `samples` (R81). -/
def storedIn (samples n : Nat) : Nat := min 256 (samples - 256 * n)

/-- A directory entry from its twelve bytes (section 2.6). -/
def entryOf (bs : List Byte) : DirEntry :=
  { key := { kind := (byteAt bs 0).toNat, number := field16 bs 1, language := (byteAt bs 3).toNat },
    start := field24 bs 4, samples := field24 bs 7, trim := signedByte (byteAt bs 10) }

/-- The clip an entry gives a lookup, its trim clamped to -16..+8 (R33, R76). -/
def DirEntry.clip (e : DirEntry) : Clip :=
  { start := e.start, samples := e.samples, trim := clampInt (-16) 8 e.trim }

/-- Kind, number, language compared in that order as unsigned numbers (R33). -/
def Key.lt (k l : Key) : Bool :=
  k.kind < l.kind || (k.kind == l.kind && (k.number < l.number ||
    (k.number == l.number && k.language < l.language)))

/-! ## The header and the configuration block (sections 2.5 and 2.7) -/

/-- The marker, the version, the flash size, the count and the directory's extent (R71). -/
def headerPasses (h : List Byte) : Bool :=
  let flash := field24 h 8 * 256
  h.take 4 == [0x56, 0x43, 0x44, 0x53] && byteAt h 4 == 1 && 1 ≤ field24 h 8
    && field16 h 14 ≤ 32768 && field24 h 11 < flash && field24 h 11 + 12 * field16 h 14 ≤ flash

/-- A role byte; 6..255 is UNUSED (section 2.7). -/
def roleOf (b : Byte) : Role :=
  match b.toNat with
  | 0 => .aisle
  | 1 => .readAB
  | 2 => .readCD
  | 3 => .stopInd
  | 4 => .accent
  | _ => .unused

/-- A scene entry from its eight bytes: the speaker level clamped to -32..0 (section 2.7). -/
def sceneOf (bs : List Byte) (at_ : Nat) : SceneEntry :=
  { levels := { ch0 := (byteAt bs at_).toNat, ch1 := (byteAt bs (at_ + 1)).toNat,
                ch2 := (byteAt bs (at_ + 2)).toNat, ch3 := (byteAt bs (at_ + 3)).toNat,
                ch4 := (byteAt bs (at_ + 4)).toNat, ch5 := (byteAt bs (at_ + 5)).toNat },
    fadeByte := (byteAt bs (at_ + 6)).toNat,
    speaker := clampInt (-32) 0 (signedByte (byteAt bs (at_ + 7))) }

/-- The configuration block's 88 bytes (addresses 16..103) clamped field by field; the house language
judged against the clamped L, the bright threshold raised to the dark one (R34). -/
def configOf (bs : List Byte) : ConfigCopy :=
  let languages := max 1 (min 12 (byteAt bs 0).toNat)
  let dark := (byteAt bs 10).toNat
  { languages := languages
    house := if (byteAt bs 1).toNat < languages then (byteAt bs 1).toNat else 0
    speakerOn := byteAt bs 2 != 0
    defaultStep := max 1 (min 15 (byteAt bs 3).toNat)
    announceFloor := min 15 (byteAt bs 4).toNat
    cap := min 16 (byteAt bs 5).toNat
    duckDepth := min 40 (byteAt bs 6).toNat
    noiseFloor := (byteAt bs 7).toNat
    lateLimit := min 10000 (field16 bs 8)
    darkThreshold := dark
    brightThreshold := max dark (byteAt bs 11).toNat
    darkScene := min 7 (byteAt bs 12).toNat
    lightScene := min 7 (byteAt bs 13).toNat
    boardingLevel := (byteAt bs 14).toNat
    announceLevel := (byteAt bs 15).toNat
    roles := { ch0 := roleOf (byteAt bs 16), ch1 := roleOf (byteAt bs 17),
               ch2 := roleOf (byteAt bs 18), ch3 := roleOf (byteAt bs 19),
               ch4 := roleOf (byteAt bs 20), ch5 := roleOf (byteAt bs 21) }
    doorInput := byteAt bs 22 != 0
    scenes := (List.range 8).map fun n => sceneOf bs (24 + 8 * n) }

end Sys2Proof.Machine
end

