-- ==== Sys2Proof/Machine/Receiver.lean ====
section
/-! DEFINITION. The receiver (R4 to R8, R13 to R15, R20): how it takes a BREAK, measures TUNE, finds each start
bit's edge, samples the characters and judges the frame, from the line as it was. Times before the characters
are in reference counts; within the characters they are in half counts from the ninth TUNE edge, since the
middle of a bit of an odd estimate falls between two counts. -/

namespace Sys2Proof.Machine

/-! ## The line as runs -/

/-- The level at a half count from the start of the first run, which is at the level given; recessive is true,
and past the last run the line is recessive. -/
def levelAt : Bool → List Nat → Nat → Bool
  | _, [], _ => true
  | level, d :: rest, t => if t < 2 * d then level else levelAt (!level) rest (t - 2 * d)

/-- The first dominant edge at or after a half count: its count, where the first run begins at a count. -/
def edgeFrom (earliest : Nat) : Bool → Nat → List Nat → Option Nat
  | _, _, [] => none
  | true, t, d :: rest => edgeFrom earliest false (t + d) rest
  | false, t, d :: rest => if earliest ≤ 2 * t then some t else edgeFrom earliest true (t + d) rest

/-- When a dominant run first reaches 11 bit times (R13). -/
def brokenFrom : Bool → Nat → List Nat → Option Nat
  | _, _, [] => none
  | true, t, d :: rest => brokenFrom false (t + d) rest
  | false, t, d :: rest =>
    if Config.breakCounts ≤ d then some (t + Config.breakCounts) else brokenFrom true (t + d) rest

/-- The runs of a list of bits at `b` counts a bit, the run in hand at a level with a length so far. -/
def runsFrom (b : Nat) : Bool → Nat → List Bool → List Nat
  | _, n, [] => [n]
  | level, n, x :: rest => if x = level then runsFrom b level (n + b) rest else n :: runsFrom b x b rest

/-- The line under one driver that sends the bits at `b` counts each, the first of them dominant (R2). -/
def runsOf (b : Nat) (bits : List Bool) : List Nat := runsFrom b false 0 bits

/-! ## BREAK and TUNE (R4, R5) -/

/-- A dominant run that is taken as a BREAK: 11 bit times or more, and no more than 2,000 us (R4). -/
def isBreak (d : Nat) : Bool := Config.breakCounts ≤ d && d ≤ Config.limitCounts

/-- The bit-time estimate of a TUNE span (R5). -/
def tuneEstimate (span : Nat) : Nat := (span + 8) / 16

/-- An estimate in 84..108 is accepted (R5). -/
def estimateOk (est : Nat) : Bool := 84 ≤ est && est ≤ 108

/-- How TUNE goes. -/
inductive TuneEnd where
  /-- the ninth edge has come: the span, and the line from that edge on -/
  | ninth (span : Nat) (rest : List Nat)
  /-- BROKEN at a count from the first edge, with the edges seen -/
  | broken (at_ edges : Nat)
  /-- no ninth edge inside the receive limit -/
  | timeout (edges : Nat)
  deriving DecidableEq, Repr

/-- TUNE from the dominant edge of a number at a count from the first edge (R5, R13, R14). -/
def tuneFrom : Nat → Nat → List Nat → TuneEnd
  | n, _, [] => .timeout (n - 1)
  | n, t, [d] =>
    if Config.limitCounts ≤ t then .timeout (n - 1)
    else if n = 9 then .ninth t [d]
    else if Config.breakCounts ≤ d ∧ t + Config.breakCounts ≤ Config.limitCounts then
      .broken (t + Config.breakCounts) n
    else .timeout n
  | n, t, d :: r :: rest =>
    if Config.limitCounts ≤ t then .timeout (n - 1)
    else if n = 9 then .ninth t (d :: r :: rest)
    else if Config.breakCounts ≤ d then
      if t + Config.breakCounts ≤ Config.limitCounts then .broken (t + Config.breakCounts) n else .timeout n
    else tuneFrom (n + 1) (t + d + r) rest

/-! ## Characters (R6, R7, R8) -/

/-- The reception record once the ninth TUNE edge has given an accepted estimate (R5, R6). -/
def Reception.tuned (edgeRef span : Nat) : Reception :=
  { phase := .characters, edgeRef := edgeRef, edges := 9, estimate := tuneEstimate span, anchor := 0,
    chars := [], sum := 0, len := none }

/-- Where the next start bit is expected: 2 estimated bit times after the ninth TUNE edge, then 10 after the
start bit before (R6). -/
def Reception.expected (r : Reception) : Nat :=
  if r.chars.isEmpty then 4 * r.estimate else r.anchor + 20 * r.estimate

/-- From where its edge is looked for: the middle of the last recessive TUNE bit, then of the stop bit before
(R6). -/
def Reception.lookFrom (r : Reception) : Nat :=
  if r.chars.isEmpty then 3 * r.estimate else r.anchor + 19 * r.estimate

/-- The next character's anchor: the start bit's dominant edge where it is found up to half a bit time after
its expected position, else that position (R6). -/
def Reception.nextAnchor (r : Reception) (line : List Nat) : Nat :=
  match edgeFrom r.lookFrom false 0 line with
  | some e => if 2 * e ≤ r.expected + r.estimate then 2 * e else r.expected
  | none => r.expected

/-- Bit `k` of the character at an anchor, sampled at its middle (R6). -/
def bitAt (line : List Nat) (anchor est k : Nat) : Bool := levelAt false line (anchor + (2 * k + 1) * est)

/-- The eight data bits of the character at an anchor, most significant first (R2, R6). -/
def charAt (line : List Nat) (anchor est : Nat) : Byte :=
  BitVec.ofNat 8 ((List.range 8).foldl (fun n k => 2 * n + if bitAt line anchor est (k + 1) then 1 else 0) 0)

/-- One more character at an anchor. In a frame it is summed, and LEN is taken from the second; the WAKE
pattern, which has neither, is only gathered (R7, R8, R31). -/
def Reception.take (pattern : Bool) (anchor : Nat) (r : Reception) (c : Byte) : Reception :=
  if pattern then { r with chars := r.chars ++ [c], anchor := anchor }
  else { r with
    chars := r.chars ++ [c], anchor := anchor, sum := addAround r.sum c,
    len := if r.chars.length = 1 then some (c.toNat % 16) else r.len }

/-- How one character, or several, went: the record with it, or FRAMING at a half count (R6). -/
inductive CharEnd where
  | good (r : Reception)
  | framing (at_ : Nat)
  deriving DecidableEq, Repr

/-- The next character: start bit dominant, stop bit recessive (R6). -/
def Reception.hear (pattern : Bool) (line : List Nat) (r : Reception) : CharEnd :=
  let a := r.nextAnchor line
  if bitAt line a r.estimate 0 then .framing (a + r.estimate)
  else if bitAt line a r.estimate 9 then .good (r.take pattern a (charAt line a r.estimate))
  else .framing (a + 19 * r.estimate)

/-- The next `n` characters. -/
def Reception.hearMany (pattern : Bool) (line : List Nat) : Nat → Reception → CharEnd
  | 0, r => .good r
  | n + 1, r =>
    match r.hear pattern line with
    | .good r' => r'.hearMany pattern line n
    | .framing t => .framing t

/-- The middle of the stop bit of the last character taken. -/
def Reception.heardUntil (r : Reception) : Nat := r.anchor + 19 * r.estimate

/-! ## A reception (R4 to R7, R12 to R14, R20) -/

/-- The errors that end a reception before its frame is judged (R12). -/
inductive RxError where
  | noTune | tune | framing | formLen | broken | timeout
  deriving DecidableEq, Repr

/-- How a reception ends. -/
inductive RxEnd where
  /-- no BREAK was taken: the receiver still waits (R4) -/
  | waiting
  | error (e : RxError)
  /-- HEAD origin 63 while awake (R7) -/
  | wakeHead
  /-- a HEAD other than 0x3F in ASLEEP (R20) -/
  | notWake
  /-- every character has been read: up to CHECK, or in ASLEEP the eight of the pattern -/
  | whole
  deriving DecidableEq, Repr

/-- What the receiver makes of the line: how the reception ended, the record of an accepted TUNE as it then
stood, and the counts from the start of the line given to BREAK, to the first TUNE edge and to the end. -/
structure Heard where
  fin : RxEnd
  rx : Option Reception
  start : Nat
  edge : Option Nat
  stop : Nat
  deriving DecidableEq, Repr

/-- The last characters of a reception. -/
def hearRest (pattern : Bool) (line : List Nat) (n : Nat) (r : Reception) : Reception × RxEnd × Nat :=
  match r.hearMany pattern line n with
  | .good r' => (r', .whole, r'.heardUntil)
  | .framing t => (r, .error .framing, t)

/-- The characters in their order, HEAD and in a frame KIND_LEN judged as they come (R7, R20). -/
def hearChars (asleep : Bool) (line : List Nat) (r : Reception) : Reception × RxEnd × Nat :=
  match r.hear asleep line with
  | .framing t => (r, .error .framing, t)
  | .good head =>
    if asleep then
      if byteAt head.chars 0 = 0x3F then hearRest true line 8 head else (head, .notWake, head.heardUntil)
    else if headOrigin (byteAt head.chars 0) = 63 then (head, .wakeHead, head.heardUntil)
    else
      match head.hear false line with
      | .framing t => (head, .error .framing, t)
      | .good both =>
        if 13 ≤ both.len.getD 0 then (both, .error .formLen, both.heardUntil)
        else hearRest false line (both.len.getD 0 + 1) both

/-- The characters, unless a dominant run of 11 bit times ends the reception before they do (R13). They end
inside the receive limit: at most fourteen after HEAD, each within 10.5 bit times of the one before. -/
def hearFrame (asleep : Bool) (line : List Nat) (r : Reception) : Reception × RxEnd × Nat :=
  let read := hearChars asleep line r
  match brokenFrom false 0 line with
  | some t => if 2 * t < read.2.2 then (read.1, .error .broken, 2 * t) else read
  | none => read

/-- From the first TUNE edge, at a count, of a reception whose BREAK began at another (R5). -/
def hearTune (asleep : Bool) (start edge : Nat) (line : List Nat) : Heard :=
  match tuneFrom 1 0 line with
  | .timeout _ =>
    { fin := .error .timeout, rx := none, start := start, edge := some edge, stop := edge + Config.limitCounts }
  | .broken t _ => { fin := .error .broken, rx := none, start := start, edge := some edge, stop := edge + t }
  | .ninth span rest =>
    if estimateOk (tuneEstimate span) then
      let read := hearFrame asleep rest (Reception.tuned edge span)
      { fin := read.2.1, rx := some read.1, start := start, edge := some edge,
        stop := edge + span + (read.2.2 + 1) / 2 }
    else { fin := .error .tune, rx := none, start := start, edge := some edge, stop := edge + span }

/-- A BREAK with no TUNE within 12 bit times (R4). -/
def noTuneAfter (start ended : Nat) : Heard :=
  { fin := .error .noTune, rx := none, start := start, edge := none, stop := ended + Config.noTuneCounts }

/-- The first reception of a line from a count on, dominant first: a run too short or too long to be a BREAK is
passed over (R4). -/
def listen (asleep : Bool) : Nat → List Nat → Heard
  | t, [] => { fin := .waiting, rx := none, start := t, edge := none, stop := t }
  | t, [d] =>
    if isBreak d then noTuneAfter t (t + d)
    else { fin := .waiting, rx := none, start := t, edge := none, stop := t + d }
  | t, d :: r :: rest =>
    if isBreak d then
      if Config.noTuneCounts ≤ r ∨ rest = [] then noTuneAfter t (t + d)
      else hearTune asleep t (t + d + r) rest
    else listen asleep (t + d + r) rest

/-- The characters read. -/
def Heard.chars (h : Heard) : List Byte :=
  match h.rx with
  | some r => r.chars
  | none => []

/-- Microseconds from the first TUNE edge to the end: the whole microseconds that the edge lies below (R60). -/
def Heard.age (h : Heard) : Nat := (h.stop - h.edge.getD h.stop + 11) / Config.countsPerMicro

/-- The counts from the start of the BREAK to the end. -/
def Heard.counts (h : Heard) : Nat := h.stop - h.start

/-- The running sum over HEAD, KIND_LEN, the body and CHECK (R8). -/
def Heard.sum (h : Heard) : Byte :=
  match h.rx with
  | some r => r.sum
  | none => 0

end Sys2Proof.Machine

/-! ## What the line of a command gives -/

namespace Sys2Proof

open Machine

/-- The reception of a line while the station is awake. -/
def RxFrame.heard (f : RxFrame) : Heard := listen false 0 f.runs

/-- The reception of a line in ASLEEP (R20). -/
def RxFrame.heardAsleep (f : RxFrame) : Heard := listen true 0 f.runs

def RxFrame.edgeAge (f : RxFrame) : Nat := f.heard.age

def RxFrame.head (f : RxFrame) : Byte := byteAt f.heard.chars 0

def RxFrame.kind (f : RxFrame) : Nat := (byteAt f.heard.chars 1).toNat / 16

def RxFrame.len (f : RxFrame) : Nat := (byteAt f.heard.chars 1).toNat % 16

def RxFrame.body (f : RxFrame) : List Byte := (f.heard.chars.drop 2).take f.len

end Sys2Proof

namespace Sys2Proof.Machine

/-! ## The judgement of a frame (R7, R8, R12, R15) -/

/-- What the receiver makes of a frame under a kind's command. -/
inductive Verdict where
  /-- no frame of the command's kind was on the line (log entry 5) -/
  | other
  /-- dropped without a count: HEAD origin 63, or a good frame of a foreign kind -/
  | dropped
  /-- TUNE_ERR, FRAMING, FORM_ERR, CHECK_ERR, BROKEN or TIMEOUT -/
  | error
  | good
  deriving DecidableEq, Repr

/-- The judgement of a whole frame: CHECK (R8), then class and LEN for the kind (R15). -/
def judgeForm (head : Byte) (kind len : Nat) (sum : Byte) : Verdict :=
  if sum ≠ 0xFF then .error
  else
    match formOf kind with
    | none => .dropped
    | some (cls, fixed) => if headClass head = cls ∧ len = fixed then .good else .error

/-- The verdict on a line, whatever kind its frame bears. -/
def verdictOn (f : RxFrame) : Verdict :=
  match f.heard.fin with
  | .waiting => .other
  | .notWake => .other
  | .wakeHead => .dropped
  | .error _ => .error
  | .whole => judgeForm f.head f.kind f.len f.heard.sum

/-- The verdict under the command of a kind. -/
def judgeFrame (kind : Nat) (f : RxFrame) : Verdict :=
  if f.heard.fin = .whole ∧ f.kind ≠ kind then .other else verdictOn f

/-- The pattern matches when all four copies equal the fleet code (R20); a TUNE out of range reads no
character. -/
def wakeMatches (f : RxFrame) (fleet : Word16) : Bool :=
  f.heardAsleep.fin == .whole && f.heardAsleep.chars == wakeChars fleet

end Sys2Proof.Machine
end

