-- ==== Sys2Proof/Machine/Ops.lean ====
section
/-! DEFINITION. The named operations over the state that every block uses: reading and writing one
element of a container, deck time, timers, saturating counts, the generator, and the events a command
raises. -/

namespace Sys2Proof.Machine

/-! ## Containers -/

def Seats.get {α : Type} (x : Seats α) : Seat → α
  | .a => x.a
  | .b => x.b
  | .c => x.c
  | .d => x.d

def Seats.set {α : Type} (x : Seats α) (i : Seat) (v : α) : Seats α :=
  match i with
  | .a => { x with a := v }
  | .b => { x with b := v }
  | .c => { x with c := v }
  | .d => { x with d := v }

def Seats.map {α β : Type} (f : α → β) (x : Seats α) : Seats β :=
  { a := f x.a, b := f x.b, c := f x.c, d := f x.d }

def Slots.get {α : Type} (x : Slots α) : SlotId → α
  | .v0 => x.v0
  | .v1 => x.v1
  | .v2 => x.v2
  | .v3 => x.v3

def Slots.set {α : Type} (x : Slots α) (i : SlotId) (v : α) : Slots α :=
  match i with
  | .v0 => { x with v0 := v }
  | .v1 => { x with v1 := v }
  | .v2 => { x with v2 := v }
  | .v3 => { x with v3 := v }

/-- The lowest-numbered slot that satisfies `p` (section 6.3: lowest-numbered first). -/
def Slots.first {α : Type} (p : α → Bool) (x : Slots α) : Option SlotId :=
  if p x.v0 then some .v0 else if p x.v1 then some .v1
  else if p x.v2 then some .v2 else if p x.v3 then some .v3 else none

def Chans.get {α : Type} (x : Chans α) : Chan → α
  | .ch0 => x.ch0
  | .ch1 => x.ch1
  | .ch2 => x.ch2
  | .ch3 => x.ch3
  | .ch4 => x.ch4
  | .ch5 => x.ch5

def Chans.set {α : Type} (x : Chans α) (i : Chan) (v : α) : Chans α :=
  match i with
  | .ch0 => { x with ch0 := v }
  | .ch1 => { x with ch1 := v }
  | .ch2 => { x with ch2 := v }
  | .ch3 => { x with ch3 := v }
  | .ch4 => { x with ch4 := v }
  | .ch5 => { x with ch5 := v }

/-- Every channel by a function of its number and itself. -/
def Chans.imap {α β : Type} (f : Chan → α → β) (x : Chans α) : Chans β :=
  { ch0 := f .ch0 x.ch0, ch1 := f .ch1 x.ch1, ch2 := f .ch2 x.ch2, ch3 := f .ch3 x.ch3,
    ch4 := f .ch4 x.ch4, ch5 := f .ch5 x.ch5 }

def Outputs.get {α : Type} (x : Outputs α) : Output → α
  | .jack .a => x.ja
  | .jack .b => x.jb
  | .jack .c => x.jc
  | .jack .d => x.jd
  | .spk => x.spk

def Outputs.set {α : Type} (x : Outputs α) (o : Output) (v : α) : Outputs α :=
  match o with
  | .jack .a => { x with ja := v }
  | .jack .b => { x with jb := v }
  | .jack .c => { x with jc := v }
  | .jack .d => { x with jd := v }
  | .spk => { x with spk := v }

/-- Every output by a function of its name. -/
def Outputs.of {α : Type} (f : Output → α) : Outputs α :=
  { ja := f (.jack .a), jb := f (.jack .b), jc := f (.jack .c), jd := f (.jack .d), spk := f .spk }

def Prios.get {α : Type} (x : Prios α) (p : Nat) : α :=
  match p with
  | 0 => x.p0
  | 1 => x.p1
  | 2 => x.p2
  | _ => x.p3

def Prios.set {α : Type} (x : Prios α) (p : Nat) (v : α) : Prios α :=
  match p with
  | 0 => { x with p0 := v }
  | 1 => { x with p1 := v }
  | 2 => { x with p2 := v }
  | _ => { x with p3 := v }

def Listeners.hears (l : Listeners) : Output → Bool
  | .jack .a => l.a
  | .jack .b => l.b
  | .jack .c => l.c
  | .jack .d => l.d
  | .spk => l.spk

def Listeners.put (l : Listeners) (o : Output) (v : Bool) : Listeners :=
  match o with
  | .jack .a => { l with a := v }
  | .jack .b => { l with b := v }
  | .jack .c => { l with c := v }
  | .jack .d => { l with d := v }
  | .spk => { l with spk := v }

/-! ## Deck time (R55, R56) -/

/-- Deck time advanced by `n` microseconds: the carry goes into the milliseconds modulo 2^32 (R55, R63). -/
def DeckTime.addMicros (t : DeckTime) (n : Nat) : DeckTime :=
  { ms := t.ms + BitVec.ofNat 32 ((t.us + n) / 1000), us := (t.us + n) % 1000 }

/-- What deck time read `n` microseconds ago. -/
def DeckTime.subMicros (t : DeckTime) (n : Nat) : DeckTime :=
  if n % 1000 ≤ t.us then { ms := t.ms - BitVec.ofNat 32 (n / 1000), us := t.us - n % 1000 }
  else { ms := t.ms - BitVec.ofNat 32 (n / 1000 + 1), us := t.us + 1000 - n % 1000 }

/-- `t - u` in microseconds, the millisecond difference in the signed reading of R56. -/
def DeckTime.diffMicros (t u : DeckTime) : Int :=
  (t.ms - u.ms).toInt * 1000 + ((t.us : Int) - (u.us : Int))

/-- now - T in milliseconds, signed (R56). -/
def lateness (t : DeckTime) (T : Millis) : Int := (t.ms - T).toInt

/-- Deck time has reached the instant (R56). -/
def reached (t : DeckTime) (T : Millis) : Bool := 0 ≤ lateness t T

/-- An instant: a millisecond with microsecond part 0. -/
def instant (T : Millis) : DeckTime := { ms := T, us := 0 }

/-- floor((now - anchor) / 125 us) (R98). -/
def timelineIndex (now anchor : DeckTime) : Int := now.diffMicros anchor / 125

/-! ## Timers -/

/-- A timer the line state leaves ACTIVE under keeps its remaining time (R66, R180). -/
def Timer.hold : Timer → Timer
  | .running left => .held left
  | t => t

/-- It runs on from there when the line returns to ACTIVE. -/
def Timer.resume : Timer → Timer
  | .held left => .running left
  | t => t

/-- A restart: a held timer stays held, a stopped one stopped (R64). -/
def Timer.restart (t : Timer) (left : Nat) : Timer :=
  match t with
  | .stopped => .stopped
  | .running _ => .running left
  | .held _ => .held left

/-- Shortened to the smaller of what it had and `most` (R65). -/
def Timer.shorten (t : Timer) (most : Nat) : Timer :=
  match t with
  | .stopped => .stopped
  | .running left => .running (min left most)
  | .held left => .held (min left most)

def Timer.isRunning : Timer → Bool
  | .running _ => true
  | _ => false

/-- It runs and has nothing left. -/
def Timer.ranOut (t : Timer) : Bool := t == .running 0

def Timer.isStopped : Timer → Bool
  | .stopped => true
  | _ => false

/-! ## Counts that saturate -/

/-- `n + k`, stopping at `cap`. -/
def bump (cap n k : Nat) : Nat := min cap (n + k)

/-! ## The generator (R53, R54) -/

/-- One step: the exclusive-or of bits 16, 14, 13 and 11 enters bit 1, the old bit 16 is lost. -/
def lfsrStep (r : Word16) : Word16 :=
  (r <<< 1) ||| BitVec.ofNat 16 (((r.getLsbD 15 ^^ r.getLsbD 13) ^^ (r.getLsbD 12 ^^ r.getLsbD 10)).toNat)

/-- `n` steps. -/
def lfsrSteps : Nat → Word16 → Word16
  | 0, r => r
  | n + 1, r => lfsrSteps n (lfsrStep r)

/-- The register after a draw: sixteen steps on. -/
def lfsrDraw (r : Word16) : Word16 := lfsrSteps 16 r

/-- The value the next draw of `width` bits takes. -/
def drawValue (width : Nat) (s : State) : Nat := (lfsrDraw s.txq.lfsr).toNat % 2 ^ width

/-- The state after a draw. -/
def afterDraw (s : State) : State := { s with txq.lfsr := lfsrDraw s.txq.lfsr }

/-! ## Station, line and events -/

/-- An origin strap of 0 or 63 makes a station receive-only (R24). -/
def receiveOnly (s : State) : Bool := s.stc.origin == 0 || s.stc.origin == 63

def isAwake (s : State) : Bool := s.stc.state == .awake

/-- The receiver takes every frame in ACTIVE, QUIET and STUCK (section 1.7). -/
def receiving (s : State) : Bool :=
  s.line.state == .active || s.line.state == .quiet || s.line.state == .stuck

/-- LINE adds 1 to the receive-error count, which stops at 255 (R12). -/
def countRxError (s : State) : State := { s with line.rxErrors := bump 255 s.line.rxErrors 1 }

/-- The events a command brings about inside the part wait, in order, to be taken (log entry 3). -/
def raise (events : List Instr) (s : State) : State := { s with raised := s.raised ++ events }

/-- Deck time at a first TUNE edge `age` microseconds ago is copied into the capture (R60). -/
def captureEdge (age : Nat) (s : State) : State :=
  { s with dclk.capture := s.dclk.now.subMicros age }

/-- The TIME and STATUS timers are held when the line leaves ACTIVE (R66, R180). -/
def holdPeriodic (s : State) : State :=
  { s with dclk.timer := s.dclk.timer.hold, stc.statusTimer := s.stc.statusTimer.hold }

/-- They run on when the line returns to ACTIVE. -/
def resumePeriodic (s : State) : State :=
  { s with dclk.timer := s.dclk.timer.resume, stc.statusTimer := s.stc.statusTimer.resume }

end Sys2Proof.Machine
end

