-- ==== Sys2Proof/Machine/Queue.lean ====
section
/-! DEFINITION. The Transmit Queue (chapter 3): placing, merging, evicting, withdrawing, the head, and
what the end of an attempt does to the record in flight. -/

namespace Sys2Proof.Machine

/-- A record of the kind that is not in flight. -/
def Record.waits (r : Record) (k : TxKind) : Bool := r.kind == k && !r.inFlight

/-- The body of a record into which a frame of its kind is merged (R38). -/
def mergeBody (k : TxKind) (old new : List Byte) : List Byte :=
  match k with
  | .time => old
  | .stopReq => [byteAt old 0 ||| byteAt new 0]
  | _ => new

/-- A record as it is placed: failed attempts 0, backoff 0, not in flight, not withdrawn (R37). -/
def Record.placed (k : TxKind) (body : List Byte) (order : Nat) : Record :=
  { kind := k, body := body, order := order, attempts := 0, backoff := 0, inFlight := false,
    withdrawn := false }

/-- A new record takes the next queued order (R36, R37). -/
def TxQueue.place (q : TxQueue) (k : TxKind) (body : List Byte) : TxQueue :=
  { q with records := q.records ++ [Record.placed k body q.nextOrder], nextOrder := q.nextOrder + 1 }

/-- The drop count rises, stopping at 255 (R51). -/
def TxQueue.drop (q : TxQueue) (n : Nat) : TxQueue := { q with drops := bump 255 q.drops n }

/-- The least urgent class among the records not in flight (R39). -/
def TxQueue.leastUrgent (q : TxQueue) : Option Nat :=
  ((q.records.filter fun r => !r.inFlight).map fun r => r.kind.cls).foldl
    (fun acc c => some (max c (acc.getD 0))) none

/-- The queued order of the newest record not in flight of a class. -/
def TxQueue.newestOf (q : TxQueue) (cls : Nat) : Nat :=
  ((q.records.filter fun r => !r.inFlight && r.kind.cls == cls).map fun r => r.order).foldl max 0

/-- A full queue and an arrival that merges into nothing (R39). -/
def TxQueue.weigh (q : TxQueue) (k : TxKind) (body : List Byte) : TxQueue :=
  match q.leastUrgent with
  | some worst =>
    if k.cls < worst then
      let out := q.newestOf worst
      (({ q with records := q.records.filter fun r =>
        r.inFlight || !(r.order == out) }).place k body).drop 1
    else q.drop 1
  | none => q.drop 1

/-- A frame accepted by the line state is merged, placed or weighed (R37 to R39). -/
def TxQueue.enqueue (q : TxQueue) (k : TxKind) (body : List Byte) : TxQueue :=
  if q.records.any fun r => r.waits k then
    { q with records := q.records.map fun r =>
        if r.waits k then { r with body := mergeBody k r.body body } else r }
  else if q.records.length < 4 then q.place k body
  else q.weigh k body

/-- Whether the line state lets a request of the kind in (R37, R47). -/
def lineAccepts (l : Line) (k : TxKind) : Bool :=
  match l.state with
  | .off => false
  | .asleep => false
  | .active => true
  | .quiet => k.cls == 0
  | .stuck => l.quietLeft.isNone || k.cls == 0

/-- An owner enqueues a frame (R37). -/
def enqueue (k : TxKind) (body : List Byte) (s : State) : State :=
  if lineAccepts s.line k then { s with txq := s.txq.enqueue k body } else s

/-- An owner withdraws a kind: a waiting record leaves, one in flight is marked (R45, R46). -/
def TxQueue.withdraw (q : TxQueue) (k : TxKind) : TxQueue :=
  { q with records := (q.records.filter fun r => !r.waits k).map fun r =>
      if r.kind == k then { r with withdrawn := true } else r }

def withdraw (k : TxKind) (s : State) : State := { s with txq := s.txq.withdraw k }

/-- The more urgent of two records: lower class, then lower order (R40). -/
def Record.before (r o : Record) : Bool :=
  r.kind.cls < o.kind.cls || (r.kind.cls == o.kind.cls && r.order < o.order)

/-- The head of the queue (R40). -/
def TxQueue.head (q : TxQueue) : Option Record :=
  q.records.foldl (fun acc r =>
    match acc with
    | none => some r
    | some b => if r.before b then some r else some b) none

/-- The record in flight. -/
def TxQueue.flying (q : TxQueue) : Option Record := q.records.find? fun r => r.inFlight

/-- From the start of its BREAK the record is in flight (R40). -/
def TxQueue.fly (q : TxQueue) (order : Nat) : TxQueue :=
  { q with records := q.records.map fun r => if r.order == order then { r with inFlight := true } else r }

/-- A gap at which the head is not handed over lowers every backoff above 0 by one (R41). -/
def TxQueue.countDown (q : TxQueue) : TxQueue :=
  { q with records := q.records.map fun r => { r with backoff := r.backoff - 1 } }

/-- The record of an order leaves the queue. -/
def TxQueue.leave (q : TxQueue) (order : Nat) : TxQueue :=
  { q with records := q.records.filter fun r => !(r.order == order) }

/-- The record `r`, no longer in flight, stays with new attempts and backoff, and a newer waiting record
of its kind merges into it and leaves without a count (R43, R44). -/
def TxQueue.keep (q : TxQueue) (r : Record) (attempts backoff : Nat) : TxQueue :=
  let body :=
    match q.records.find? fun o => o.waits r.kind with
    | some newer => mergeBody r.kind r.body newer.body
    | none => r.body
  { q with records := (q.records.filter fun o => !o.waits r.kind).map fun o =>
      if o.order == r.order then
        { o with body := body, attempts := attempts, backoff := backoff, inFlight := false }
      else o }

/-- The end of an attempt as lost (R43). -/
def TxQueue.lost (q : TxQueue) (r : Record) : TxQueue :=
  if r.withdrawn then q.leave r.order else q.keep r r.attempts r.backoff

/-- The end of an attempt as failed, with the draw of the generator for a backoff (R44). -/
def queueFailed (r : Record) (s : State) : State :=
  if r.withdrawn then { s with txq := s.txq.leave r.order }
  else if 3 ≤ r.attempts + 1 then { s with txq := (s.txq.leave r.order).drop 1 }
  else
    let backoff := drawValue 4 s
    let s := afterDraw s
    { s with txq := s.txq.keep r (r.attempts + 1) backoff }

/-- Entry to QUIET: records of class 1 to 3 are discarded, each counted as a drop (R47). -/
def TxQueue.enterQuiet (q : TxQueue) : TxQueue :=
  ({ q with records := q.records.filter fun r => r.kind.cls == 0 }).drop
    (q.records.countP fun (r : Record) => !(r.kind.cls == 0))

/-- Entry to PARKING: the queue is emptied, counts and generator kept (R49). -/
def TxQueue.emptied (q : TxQueue) : TxQueue := { q with records := [] }

end Sys2Proof.Machine
end

