-- ==== Sys2Proof/Machine/Flags.lean ====
section
/-! DEFINITION. The flags and values that one block computes from its state and presents to others: the
phase flags of R130, the current scene of R166, and the body of STATUS (R30, R181 to R183). -/

namespace Sys2Proof.Machine

/-- The phase is CHIME or NAME. -/
def inAnnouncement (s : State) : Bool :=
  match s.ann.current with
  | some a => a.phase == .chime || a.phase == .name
  | none => false

/-- The phase is NAME. -/
def inName (s : State) : Bool :=
  match s.ann.current with
  | some a => a.phase == .name
  | none => false

def vaIdle (s : State) : Bool := s.vtab.va.play.state == .idle

/-- The duck flag: VA sounds TONE or CHIME, or the phase is NAME (R130). -/
def duckFlag (s : State) : Bool :=
  (!vaIdle s && (s.ann.purpose == .tone || s.ann.purpose == .chime)) || inName s

/-- The floor flag (R130). -/
def floorFlag (s : State) : Bool := inAnnouncement s

/-- The overlay flag (R130). -/
def overlayFlag (s : State) : Bool := inAnnouncement s

/-- The open-door table is non-empty (R116). -/
def doorOpen (s : State) : Bool := !s.ann.doors.isEmpty

/-- Which outputs VA feeds: all five for TONE and CHIME, SPK alone for NAME (R130). -/
def vaFeeds (s : State) (o : Output) : Bool :=
  match s.ann.purpose with
  | .none => false
  | .tone => true
  | .chime => true
  | .name => o == .spk

/-- The scene of the highest-priority claim, or scene 0 (R166). -/
def sceneOfClaims (c : Prios (Option Claim)) : Nat :=
  match c.p3, c.p2, c.p1, c.p0 with
  | some k, _, _, _ => k.scene
  | none, some k, _, _ => k.scene
  | none, none, some k, _ => k.scene
  | none, none, none, some k => k.scene
  | none, none, none, none => 0

def currentScene (s : State) : Nat := sceneOfClaims s.lmp.claims

/-- The current scene's entry of the scene table. -/
def sceneEntry (s : State) : SceneEntry :=
  s.csr.config.scenes.getD (currentScene s)
    { levels := { ch0 := 0, ch1 := 0, ch2 := 0, ch3 := 0, ch4 := 0, ch5 := 0 }, fadeByte := 0, speaker := 0 }

/-- The scene's fade, fade byte x 40 ms (R159). -/
def sceneFade (s : State) : Nat := (sceneEntry s).fadeByte * 40

/-- A flag in a bit. -/
def bit (b : Bool) (n : Nat) : Nat := if b then 2 ^ n else 0

/-- A jack's language nibble: 15 when not LISTENING (R182). -/
def langNibble (j : Jack) : Nat := if j.state == .listening then j.language else 15

def listening (j : Jack) : Bool := j.state == .listening

/-- Byte 0: the eight flags (R181). -/
def statusFlags (s : State) : Nat :=
  bit s.stc.parkedMark 7 + bit s.stc.quietMark 6 + bit (s.csr.image == .bad) 5 + bit s.csr.flashFault 4
    + bit s.line.clash 3 + bit s.ann.latch 2 + bit (doorOpen s) 1 + bit (s.vtab.speaker == .starved) 0

/-- Byte 1: the LISTENING mask and the reading requests (R182). -/
def statusSeats (s : State) : Nat :=
  bit (listening s.jck.jacks.a) 0 + bit (listening s.jck.jacks.b) 1 + bit (listening s.jck.jacks.c) 2
    + bit (listening s.jck.jacks.d) 3 + bit s.jck.readAB 4 + bit s.jck.readCD 5

/-- Byte 4: the lamp FAULT mask (R182). -/
def statusFaults (s : State) : Nat :=
  bit s.lmp.chans.ch0.fault 0 + bit s.lmp.chans.ch1.fault 1 + bit s.lmp.chans.ch2.fault 2
    + bit s.lmp.chans.ch3.fault 3 + bit s.lmp.chans.ch4.fault 4 + bit s.lmp.chans.ch5.fault 5

/-- The underruns of V0..V3 and VA together (R183). -/
def underrunTotal (s : State) : Nat :=
  s.vtab.slots.v0.play.underruns + s.vtab.slots.v1.play.underruns + s.vtab.slots.v2.play.underruns
    + s.vtab.slots.v3.play.underruns + s.vtab.va.play.underruns

/-- The four plug counts together (R183). -/
def plugTotal (s : State) : Nat :=
  s.jck.jacks.a.plugs + s.jck.jacks.b.plugs + s.jck.jacks.c.plugs + s.jck.jacks.d.plugs

/-- The STATUS body assembled from the values standing (R30, section 2.3). -/
def statusBody (s : State) : List Byte :=
  [ BitVec.ofNat 8 (statusFlags s),
    BitVec.ofNat 8 (statusSeats s),
    BitVec.ofNat 8 (langNibble s.jck.jacks.a * 16 + langNibble s.jck.jacks.b),
    BitVec.ofNat 8 (langNibble s.jck.jacks.c * 16 + langNibble s.jck.jacks.d),
    BitVec.ofNat 8 (statusFaults s),
    BitVec.ofNat 8 (currentScene s * 16 + s.lvl.wind.boost),
    BitVec.ofNat 8 s.lvl.wind.average,
    BitVec.ofNat 8 (min 255 (underrunTotal s)),
    BitVec.ofNat 8 (min 255 s.line.rxErrors),
    BitVec.ofNat 8 (min 255 (s.stc.failedAttempts + s.txq.drops)) ]
  ++ bytes16 (min 65535 (plugTotal s))

/-- A lamp drive as the outside sees it: its duty out of 255, the integer part of the channel's level;
none while the drives are released (R154). -/
def lampDuty (s : State) (c : Chan) : Option Nat :=
  match s.stc.state with
  | .starting => none
  | .loading => none
  | _ => some ((s.lmp.chans.get c).level / 256)

end Sys2Proof.Machine
end

