-- ==== Sys2Proof/Machine/Lamps.lean ====
section
/-! DEFINITION. The Lamp Unit's shared operations (chapter 9): targets, fades, the scene claims and the
ambient request. -/

namespace Sys2Proof.Machine

/-- Substitution applies: the latch SET, a STOP_IND channel exists, and every one is in FAULT (R158). R158 lists a
change of the scene among what ends it, which its own conditions and R171 do not: that it stands through a
scene change, at the new scene's level, is the model's reading (log entry 44). -/
def substitution (s : State) : Bool :=
  let c := s.lmp.chans
  let cs := [c.ch0, c.ch1, c.ch2, c.ch3, c.ch4, c.ch5]
  s.ann.latch && cs.any (fun x => x.role == .stopInd)
    && cs.all (fun x => !(x.role == .stopInd) || x.fault)

/-- The highest scene level the current scene gives any STOP_IND channel (R158). -/
def stopIndLevel (s : State) : Nat :=
  let lv (c : Chan) : Nat :=
    if (s.lmp.chans.get c).role == .stopInd then (sceneEntry s).levels.get c else 0
  max (lv .ch0) (max (lv .ch1) (max (lv .ch2) (max (lv .ch3) (max (lv .ch4) (lv .ch5)))))

/-- A channel's target by its role (R155 to R158). -/
def targetOf (s : State) (c : Chan) : Nat :=
  let scene := (sceneEntry s).levels.get c
  match (s.lmp.chans.get c).role with
  | .aisle => if doorOpen s then max scene s.csr.config.boardingLevel else scene
  | .readAB => if s.jck.readAB then scene else 0
  | .readCD => if s.jck.readCD then scene else 0
  | .stopInd => if s.ann.latch then scene else 0
  | .accent =>
    if substitution s then stopIndLevel s
    else if overlayFlag s then s.csr.config.announceLevel else scene
  | .unused => 0

/-- The distance between two levels. -/
def distance (x y : Nat) : Nat := if x ≤ y then y - x else x - y

/-- The step of a fade over `d` in `f` ms: 4d/f to the nearest, halves up, at least 1 (R161). -/
def fadeStep (d f : Nat) : Nat := max 1 ((8 * d + f) / (2 * f))

/-- A fade of `f` ms toward `target` starts from the level standing (R161). -/
def Channel.fadeTo (c : Channel) (target f : Nat) : Channel :=
  if f = 0 then { c with target := target, level := target * 256 }
  else { c with target := target, step := fadeStep (distance c.level (target * 256)) f }

/-- A recomputation: the target already held leaves the fade as it stands (R159). -/
def Channel.retarget (c : Channel) (target f : Nat) : Channel :=
  if c.target = target then c else c.fadeTo target f

/-- One fade tick of a channel (R160). -/
def Channel.tick (c : Channel) : Channel :=
  let goal := c.target * 256
  if distance c.level goal ≤ c.step then { c with level := goal }
  else if c.level < goal then { c with level := c.level + c.step }
  else { c with level := c.level - c.step }

/-- Every target is recomputed, changes fading in `f` ms; while AWAKE only (R159, R162). -/
def relight (f : Nat) (s : State) : State :=
  if isAwake s then
    { s with lmp.chans := s.lmp.chans.imap fun c ch => ch.retarget (targetOf s c) f }
  else s

/-- A recomputation for a change other than of the scene: 120 ms (R159). -/
def relightOverlay (s : State) : State := relight Config.overlayFadeMillis s

/-- Entry to AWAKE: the targets are formed, and a channel whose level differs from its target fades with
the current scene's fade time (R162). -/
def formTargets (s : State) : State :=
  { s with lmp.chans := s.lmp.chans.imap fun c ch =>
      if ch.level = targetOf s c * 256 then { ch with target := targetOf s c }
      else ch.fadeTo (targetOf s c) (sceneFade s) }

/-- Entry to PARKING: every channel fades to 0 over 2,000 ms from its present level (R162). -/
def parkFade (s : State) : State :=
  { s with lmp.chans := s.lmp.chans.imap fun _ ch => ch.fadeTo 0 Config.parkFadeMillis }

/-! ## Scene requests (R168, R169) -/

/-- The scene a wish asks for (R167). -/
def wishedScene (s : State) : Nat :=
  match s.lmp.wish with
  | .none => 0
  | .dark => s.csr.config.darkScene
  | .light => s.csr.config.lightScene

/-- 30 + (origin mod 30) seconds, in milliseconds (R168). -/
def refreshMargin (o : Origin) : Nat := (30 + o.toNat % 30) * 1000

/-- Conditions (a), (b) and (c) of R168. -/
def requestDue (s : State) : Bool :=
  match s.lmp.claims.p0 with
  | none => true
  | some c =>
    if c.scene = wishedScene s then
      match c.expiry with
      | none => false
      | some e => reached s.dclk.now (e - BitVec.ofNat 32 (refreshMargin s.stc.origin))
    else s.lmp.wish == .dark || c.origin == s.stc.origin

/-- The body of the station's own SCENE: scene, priority 0, hold 300 (R28, R168). -/
def sceneBody (scene : Nat) : List Byte :=
  [BitVec.ofNat 8 scene, 0] ++ bytes16 Config.ownHoldSeconds

/-- The request is evaluated: due, SCENE is enqueued; not due, SCENE is withdrawn (R168). -/
def evaluateRequest (s : State) : State :=
  if s.lmp.wish == .none then s
  else if requestDue s then enqueue .scene (sceneBody (wishedScene s)) s
  else withdraw .scene s

/-- A change of the claims table: a change of the current scene recomputes every target with the new
scene's fade (R166), a change of the priority-0 entry evaluates the request (R168). -/
def setClaims (claims : Prios (Option Claim)) (p0Touched : Bool) (s : State) : State :=
  let before := currentScene s
  let s := { s with lmp.claims := claims }
  let s := if currentScene s = before then s else relight (sceneFade s) s
  if p0Touched then evaluateRequest s else s

/-- The hold as taken: 3600..65534 as 3599 (R28). -/
def holdTaken (hold : Nat) : Nat := if 3600 ≤ hold ∧ hold ≤ 65534 then 3599 else hold

/-- The expiry of a claim of `hold` seconds made now; none when permanent (R163). -/
def claimExpiry (s : State) (hold : Nat) : Option Millis :=
  if hold = 65535 then none
  else some (s.dclk.now.ms + BitVec.ofNat 32 (holdTaken hold * 1000))

/-- The fields of a SCENE body are in range (R28). -/
def sceneFieldsOk (body : List Byte) : Bool := (byteAt body 0).toNat ≤ 7 && (byteAt body 1).toNat ≤ 3

/-- A SCENE whose fields passed R28 is applied with the origin it carries (R163, R164). -/
def applyScene (origin : Origin) (body : List Byte) (s : State) : State :=
  let scene := (byteAt body 0).toNat
  let prio := (byteAt body 1).toNat
  let hold := field16 body 2
  if hold = 0 then
    match s.lmp.claims.get prio with
    | some c => if c.origin = origin then setClaims (s.lmp.claims.set prio none) (prio == 0) s else s
    | none => s
  else
    setClaims (s.lmp.claims.set prio
      (some { scene := scene, origin := origin, expiry := claimExpiry s hold })) (prio == 0) s

/-- Whether deck time has reached a claim's expiry. -/
def claimLapsed (now : DeckTime) : Option Claim → Bool
  | some c =>
    match c.expiry with
    | some e => reached now e
    | none => false
  | none => false

/-- Every claim whose expiry deck time has reached is removed (R165). -/
def expireClaims (s : State) : State :=
  let c := s.lmp.claims
  let now := s.dclk.now
  if claimLapsed now c.p0 || claimLapsed now c.p1 || claimLapsed now c.p2 || claimLapsed now c.p3 then
    setClaims
      { p0 := if claimLapsed now c.p0 then none else c.p0
        p1 := if claimLapsed now c.p1 then none else c.p1
        p2 := if claimLapsed now c.p2 then none else c.p2
        p3 := if claimLapsed now c.p3 then none else c.p3 } (claimLapsed now c.p0) s
  else s

end Sys2Proof.Machine
end

