-- ==== Sys2Proof/Machine/Voices.lean ====
section
/-! DEFINITION. The Voice Table's shared operations (chapter 6) and the ways the other blocks reach it:
tags and requests, seeks, slots and their listeners, the speaker, VA, and the playback record. -/

namespace Sys2Proof.Machine

/-! ## A voice's record, place and tag -/

/-- One slot's record replaced. -/
def putSlot (i : SlotId) (x : Slot) (s : State) : State :=
  { s with vtab.slots := s.vtab.slots.set i x }

def playOf (s : State) : VoiceId → Play
  | .slot i => (s.vtab.slots.get i).play
  | .va => s.vtab.va.play

def setPlay (v : VoiceId) (p : Play) (s : State) : State :=
  match v with
  | .slot i => putSlot i { s.vtab.slots.get i with play := p } s
  | .va => { s with vtab.va.play := p }

def placeOf (s : State) : VoiceId → Option Request
  | .slot i => s.csr.places.get i
  | .va => s.csr.vaPlace

def setPlace (v : VoiceId) (r : Option Request) (s : State) : State :=
  match v with
  | .slot i => { s with csr.places := s.csr.places.set i r }
  | .va => { s with csr.vaPlace := r }

def tagOf (s : State) : VoiceId → Word16
  | .slot i => s.csr.tags.get i
  | .va => s.csr.vaTag

/-- A renewal raises the tag and empties the place (R78). -/
def renew (v : VoiceId) (s : State) : State :=
  match v with
  | .slot i =>
    { s with csr.tags := s.csr.tags.set i (s.csr.tags.get i + 1), csr.places := s.csr.places.set i none }
  | .va => { s with csr.vaTag := s.csr.vaTag + 1, csr.vaPlace := none }

/-- A request takes its requester's place with the present tag (R77). -/
def issue (v : VoiceId) (body : ReqBody) (s : State) : State :=
  setPlace v (some { tag := tagOf s v, body := body, inHand := false }) s

/-- A lookup of a key, its search not begun (R74, R77). -/
def lookupFor (kind number language : Nat) : ReqBody :=
  .lookup { key := { kind := kind, number := number, language := language }, second := false,
            bounds := none }

/-- The directory kinds (section 2.6), and the language of CHIME and TONE. -/
def kindCue : Nat := 0
def kindStop : Nat := 1
def kindChime : Nat := 2
def kindTone : Nat := 3
def noLanguage : Nat := 255

/-- The samples of a voice's clip; 0 with none. -/
def Play.samples (p : Play) : Nat :=
  match p.clip with
  | .clip c => c.samples
  | _ => 0

/-- The clip's trim, 0 with none (R144). -/
def Play.trim (p : Play) : Int :=
  match p.clip with
  | .clip c => c.trim
  | _ => 0

/-- A seek begins: buffers EMPTY, clip awaiting, position 0, SEEKING from an anchor (R97). -/
def Play.seek (p : Play) (anchor : DeckTime) : Play :=
  { p with state := .seeking, clip := .awaiting, anchor := anchor, position := 0, bufX := .empty,
           bufY := .empty, atBoundary := false }

/-- SILENT: both buffers EMPTY; clip and anchor are kept (R105). -/
def Play.silence (p : Play) : Play :=
  { p with state := .silent, bufX := .empty, bufY := .empty, atBoundary := false }

/-- A COMMENTARY seek with no cue current: clip NONE, position 0, SILENT at once (R97). -/
def Play.seekNothing (p : Play) : Play :=
  { p with state := .silent, clip := .none, position := 0, bufX := .empty, bufY := .empty,
           atBoundary := false }

/-- IDLE: buffers EMPTY, clip NONE, position 0 (R95). VA's clip and position when it is stopped the spec does not
name (R110); that they go as a released slot's is the model's choice (log entry 42). -/
def Play.stop (p : Play) : Play :=
  { p with state := .idle, clip := .none, position := 0, bufX := .empty, bufY := .empty,
           atBoundary := false }

/-- The clip is over: the position of a PLAYING voice has reached its samples (R105). -/
def Play.over (p : Play) : Bool := p.state == .playing && decide (p.samples ≤ p.position)

/-! ## VA (R110) -/

/-- The lookup VA makes for a content (R110). -/
def vaLookup (house : Nat) : VaContent → ReqBody
  | .tone => lookupFor kindTone 0 noLanguage
  | .chime => lookupFor kindChime 0 noLanguage
  | .name stop => lookupFor kindStop stop house

/-- The Announcement Unit gives VA a purpose, a content and an anchor, and its seek starts (R110). -/
def vaStart (purpose : VaPurpose) (content : VaContent) (anchor : DeckTime) (s : State) : State :=
  let s := renew .va s
  let s := { s with
    ann.purpose := purpose, vtab.va.content := content, vtab.va.play := s.vtab.va.play.seek anchor }
  issue .va (vaLookup s.csr.config.house content) s

/-- VA is stopped and its purpose becomes NONE (R110). -/
def vaStop (s : State) : State :=
  let s := renew .va s
  { s with ann.purpose := .none, vtab.va.play := s.vtab.va.play.stop }

/-! ## Slots -/

/-- The name anchor: S + c x 125 us (R125). -/
def nameAnchor (s : State) : DeckTime :=
  match s.ann.current with
  | some a => (instant a.start).addMicros (Config.sampleMicros * a.chimeLen.getD 0)
  | none => s.dclk.now

/-- A slot seeks what its content asks for (R97). -/
def seekSlot (i : SlotId) (s : State) : State :=
  let s := renew (.slot i) s
  let slot := s.vtab.slots.get i
  match slot.content with
  | .name stop =>
    issue (.slot i) (lookupFor kindStop stop slot.language)
      (setPlay (.slot i) (slot.play.seek (nameAnchor s)) s)
  | .commentary =>
    match s.prg.current with
    | some c =>
      issue (.slot i) (lookupFor kindCue c.cue slot.language)
        (setPlay (.slot i) (slot.play.seek (instant c.start)) s)
    | none => setPlay (.slot i) slot.play.seekNothing s

def setContent (i : SlotId) (c : SlotContent) (s : State) : State :=
  putSlot i { s.vtab.slots.get i with content := c } s

def setListeners (i : SlotId) (l : Listeners) (s : State) : State :=
  putSlot i { s.vtab.slots.get i with listeners := l } s

/-- A slot not IDLE. -/
def slotBusy (s : State) (i : SlotId) : Bool := !((s.vtab.slots.get i).play.state == .idle)

/-- The stop named now: the phase is NAME and its cap timer runs (R126). -/
def namedStop (s : State) : Option Nat :=
  match s.ann.current with
  | some a => if a.phase == .name && s.ann.nameCap.isSome then some a.stop else none
  | none => none

/-- A busy slot is given the stop's name, joins the naming set and seeks (R125, R126). -/
def giveName (stop : Nat) (i : SlotId) (s : State) : State :=
  if slotBusy s i then
    seekSlot i { setContent i (.name stop) s with ann.naming := s.ann.naming.set i true }
  else s

/-- A slot of the naming set leaves it and is returned to COMMENTARY, seeking the cue then current
(R126, R128). -/
def returnSlot (i : SlotId) (s : State) : State :=
  if s.ann.naming.get i then
    let s := { s with ann.naming := s.ann.naming.set i false }
    if slotBusy s i then seekSlot i (setContent i .commentary s) else s
  else s

/-- The same for every slot in order. -/
def forSlots (f : SlotId → State → State) (s : State) : State := f .v3 (f .v2 (f .v1 (f .v0 s)))

/-- A slot is taken: language, listener set and the content the Announcement Unit gives; it seeks (R93,
R96, R126). -/
def takeSlot (i : SlotId) (language : Nat) (l : Listeners) (s : State) : State :=
  let x := s.vtab.slots.get i
  let s := putSlot i { x with language := language, listeners := l, content := .commentary } s
  match namedStop s with
  | some stop =>
    seekSlot i { setContent i (.name stop) s with ann.naming := s.ann.naming.set i true }
  | none => seekSlot i { s with ann.naming := s.ann.naming.set i false }

/-- A slot is released to IDLE: tag renewed, buffers EMPTY, clip NONE, position 0, COMMENTARY; it leaves
the naming set (R95, R126). -/
def releaseSlot (i : SlotId) (s : State) : State :=
  let s := renew (.slot i) s
  let x := s.vtab.slots.get i
  let s := putSlot i { x with play := x.play.stop, listeners := .nobody, content := .commentary } s
  { s with ann.naming := s.ann.naming.set i false }

/-- The slot an output listens to. -/
def slotHeardBy (s : State) (o : Output) : Option SlotId :=
  s.vtab.slots.first fun x => x.listeners.hears o

/-- The busy slot of a language. -/
def slotOfLanguage (s : State) (language : Nat) : Option SlotId :=
  s.vtab.slots.first fun x => !(x.play.state == .idle) && x.language == language

def idleSlot (s : State) : Option SlotId := s.vtab.slots.first fun x => x.play.state == .idle

/-- The listener set of one output alone. -/
def only (o : Output) : Listeners := Listeners.nobody.put o true

/-- The slot whose only listener is SPK. -/
def speakerOnlySlot (s : State) : Option SlotId :=
  s.vtab.slots.first fun x => x.listeners == only .spk

/-- An output leaves its slot, which is released if nobody is left (R94, R95). -/
def leaveSlot (o : Output) (s : State) : State :=
  match slotHeardBy s o with
  | none => s
  | some i =>
    let l := (s.vtab.slots.get i).listeners.put o false
    let s := setListeners i l s
    if l = .nobody then releaseSlot i s else s

/-- An output joins a slot without a seek (R93, R96). -/
def joinSlot (o : Output) (i : SlotId) (s : State) : State :=
  setListeners i ((s.vtab.slots.get i).listeners.put o true) s

/-! ## Source switches (R147) -/

/-- The output carries 0 for 8 ms from now and its slot pair's gain stands at -72 (R147). -/
def switchSource (o : Output) (s : State) : State :=
  { s with
    lvl.silence := s.lvl.silence.set o (some Config.silenceMicros),
    lvl.gains := s.lvl.gains.set o { s.lvl.gains.get o with slot := Config.gainFloor },
    lvl.out := s.lvl.out.set o 0 }

/-- An output that is live no more: 0, both pairs held at -72, no silence running (R142, R146). -/
def closeOutput (o : Output) (s : State) : State :=
  { s with
    lvl.silence := s.lvl.silence.set o none, lvl.gains := s.lvl.gains.set o .closed,
    lvl.out := s.lvl.out.set o 0 }

/-! ## The speaker (R96, R127) -/

/-- VA names the stop for a speaker that is in no slot (R127). -/
def nameOnSpeaker (stop : Nat) (s : State) : State :=
  let s := vaStart .name (.name stop) (nameAnchor s) s
  { s with ann.speakerName := .playing }

/-- The speaker's slot is gone to a jack: STARVED, told to the Level Chain, and in a NAME phase not yet
DONE VA names the stop (R96, R127). -/
def starveSpeaker (s : State) : State :=
  let s := switchSource .spk { s with vtab.speaker := .starved }
  match s.ann.current with
  | some a => if a.phase = .name ∧ s.ann.speakerName ≠ .done then nameOnSpeaker a.stop s else s
  | none => s

/-- The speaker is ATTACHED, told to the Level Chain; a name that VA was giving it is the slot's now
(R96, R127). -/
def attachSpeaker (i : SlotId) (s : State) : State :=
  let s := switchSource .spk { s with vtab.speaker := .attached i }
  if inName s && s.ann.purpose == .name then
    let s := vaStop s
    { s with ann.speakerName := .notNeeded }
  else s

/-- A wanting speaker is placed: in the busy slot of the house language, else in the lowest IDLE slot,
else it is STARVED (R96). -/
def placeSpeaker (s : State) : State :=
  if s.csr.config.speakerOn && isAwake s then
    match slotOfLanguage s s.csr.config.house with
    | some i => attachSpeaker i (joinSlot .spk i s)
    | none =>
      match idleSlot s with
      | some i => attachSpeaker i (takeSlot i s.csr.config.house (only .spk) s)
      | none => { s with vtab.speaker := .starved }
  else s

/-- A STARVED speaker retries (R96). -/
def retrySpeaker (s : State) : State :=
  if s.vtab.speaker == .starved then placeSpeaker s else s

/-- A jack entering LISTENING, or with a new language, is placed: it joins the busy slot of its
language, else takes the lowest IDLE slot, else the slot the speaker holds alone (R93). -/
def placeJack (j : Seat) (language : Nat) (s : State) : State :=
  match slotOfLanguage s language with
  | some i => switchSource (.jack j) (joinSlot (.jack j) i s)
  | none =>
    match idleSlot s with
    | some i => switchSource (.jack j) (takeSlot i language (only (.jack j)) s)
    | none =>
      match speakerOnlySlot s with
      | some i => starveSpeaker (switchSource (.jack j) (takeSlot i language (only (.jack j)) s))
      | none => s

/-! ## The playback record -/

/-- What a step of a voice's playback leaves: its record, a block it asks for, and whether it became
SILENT. -/
structure PlayOut where
  play : Play
  ask : Option Nat
  ended : Bool
  deriving DecidableEq, Repr

def Play.same (p : Play) : PlayOut := { play := p, ask := none, ended := false }
def Play.ends (p : Play) : PlayOut := { play := p.silence, ask := none, ended := true }

def Buffer.isFull (b : Buffer) (k : Nat) : Bool :=
  match b with
  | .full n _ => n == k
  | _ => false

def Buffer.isFilling (b : Buffer) (k : Nat) : Bool :=
  match b with
  | .filling n => n == k
  | _ => false

def Buffer.holds (b : Buffer) (k : Nat) : Bool := b.isFull k || b.isFilling k

/-- Deck time has not reached the anchor (R56, R98). -/
def beforeAnchor (now : DeckTime) (p : Play) : Bool := decide (now.diffMicros p.anchor < 0)

/-- The timeline index as a sample index. -/
def indexNow (now : DeckTime) (p : Play) : Nat := (timelineIndex now p.anchor).toNat

/-- A lookup's result reaches its voice (R98). -/
def Play.lookedUp (p : Play) (now : DeckTime) (result : Option Clip) : PlayOut :=
  match result with
  | none => { p with clip := .none }.ends
  | some c =>
    let p := { p with clip := .clip c }
    if beforeAnchor now p then { play := { p with bufX := .filling 0 }, ask := some 0, ended := false }
    else if c.samples ≤ indexNow now p then p.ends
    else
      let k := indexNow now p / 256
      { play := { p with bufX := .filling k }, ask := some k, ended := false }

/-- The first block reaches a SEEKING voice (R99). -/
def Play.firstBlock (p : Play) (now : DeckTime) (k : Nat) (xs : List Int) : PlayOut :=
  if p.bufX.isFilling k then
    if beforeAnchor now p then
      { p with bufX := .full k xs, state := .playing, position := 0 }.same
    else if p.samples ≤ indexNow now p then p.ends
    else if indexNow now p / 256 = k then
      { p with bufX := .full k xs, state := .playing, position := indexNow now p }.same
    else
      let k' := indexNow now p / 256
      { play := { p with bufX := .filling k' }, ask := some k', ended := false }
  else p.same

/-- A late block has been set aside: the block that holds the position is asked for, or the clip is over. R101 ends
the clip by the position and R105 by the timeline index; either one at or beyond the samples ends it (log entry
46). R101 names no buffer for the block asked for; that it is the one the late block has left is the model's choice (log
entry 43). -/
def Play.afterLate (p : Play) (now : DeckTime) (intoX : Bool) : PlayOut :=
  let k := p.position / 256
  if p.samples ≤ p.position ∨ p.samples ≤ indexNow now p then p.ends
  else if p.bufX.isFull k || p.bufY.isFull k then p.same
  else if intoX then { play := { p with bufX := .filling k }, ask := some k, ended := false }
  else { play := { p with bufY := .filling k }, ask := some k, ended := false }

/-- A block reaches a PLAYING voice (R101, R105). -/
def Play.placed (p : Play) (now : DeckTime) (k : Nat) (xs : List Int) : PlayOut :=
  if p.bufX.isFilling k then
    if p.position < (k + 1) * 256 then { p with bufX := .full k xs }.same
    else { p with bufX := .empty }.afterLate now true
  else if p.bufY.isFilling k then
    if p.position < (k + 1) * 256 then { p with bufY := .full k xs }.same
    else { p with bufY := .empty }.afterLate now false
  else p.same

/-- A block handed on with the present tag (R99, R101, R105). -/
def Play.blockCame (p : Play) (now : DeckTime) (k : Nat) (xs : List Int) : PlayOut :=
  match p.state with
  | .seeking => p.firstBlock now k xs
  | .playing => p.placed now k xs
  | _ => p.same

/-- The next block is asked for into the other buffer: no request outstanding, the position's block
FULL, the next one below the clip's end and in no buffer (R100). -/
def Play.topUp (p : Play) (outstanding : Bool) : PlayOut :=
  let b := p.position / 256
  if p.state == .playing && !p.atBoundary && !outstanding && decide (b + 1 < blocksOf p.samples)
      && !p.bufX.holds (b + 1) && !p.bufY.holds (b + 1) then
    if p.bufX.isFull b then
      { play := { p with bufY := .filling (b + 1) }, ask := some (b + 1), ended := false }
    else if p.bufY.isFull b then
      { play := { p with bufX := .filling (b + 1) }, ask := some (b + 1), ended := false }
    else p.same
  else p.same

/-- A buffer FULL with a block becomes EMPTY. -/
def Buffer.spent (b : Buffer) (k : Nat) : Buffer := if b.isFull k then .empty else b

/-- A buffer that holds neither of two blocks becomes EMPTY. -/
def Buffer.keepOnly (b : Buffer) (k l : Nat) : Buffer := if b.holds k || b.holds l then b else .empty

/-- A realignment to index `e` (R103). Where neither buffer holds the block after, the spec says only that a buffer
is set FILLING; that it is X is the model's choice (log entry 43). -/
def Play.realign (p : Play) (e : Nat) (outstanding : Bool) : PlayOut :=
  if p.samples ≤ e then p.ends
  else
    let k := e / 256
    let p := { p with position := e, bufX := p.bufX.keepOnly k (k + 1), bufY := p.bufY.keepOnly k (k + 1) }
    if p.bufX.isFull k || p.bufY.isFull k then p.same
    else if outstanding && (p.bufX.isFilling k || p.bufY.isFilling k) then p.same
    else if p.bufX.holds (k + 1) then
      { play := { p with bufY := .filling k }, ask := some k, ended := false }
    else { play := { p with bufX := .filling k }, ask := some k, ended := false }

/-- The block entered at a boundary without a realignment (R104). Which buffer is set FILLING for the missing block
the spec does not say; that it is X, unless X is FULL, is the model's choice (log entry 43). -/
def Play.enter (p : Play) (outstanding : Bool) : PlayOut :=
  let b := p.position / 256
  if p.bufX.isFull b || p.bufY.isFull b then p.same
  else
    let p := { p with underruns := bump 65535 p.underruns 1 }
    if outstanding then p.same
    else
      match p.bufX with
      | .full _ _ => { play := { p with bufY := .filling b }, ask := some b, ended := false }
      | _ => { play := { p with bufX := .filling b }, ask := some b, ended := false }

/-- A block boundary: the block just left is spent; a lag of more than 64 samples realigns (R100, R103,
R104). -/
def Play.boundary (p : Play) (now : DeckTime) (outstanding : Bool) : PlayOut :=
  let left := p.position / 256 - 1
  let p := { p with atBoundary := false, bufX := p.bufX.spent left, bufY := p.bufY.spent left }
  if (p.position : Int) + 64 < timelineIndex now p.anchor then p.realign (indexNow now p) outstanding
  else p.enter outstanding

/-- The sample at the position, 0 when its block is in no buffer (R100). -/
def Play.sample (p : Play) : Int :=
  let b := p.position / 256
  match p.bufX, p.bufY with
  | .full n xs, .full m ys =>
    if n = b then xs.getD (p.position % 256) 0 else if m = b then ys.getD (p.position % 256) 0 else 0
  | .full n xs, _ => if n = b then xs.getD (p.position % 256) 0 else 0
  | _, .full m ys => if m = b then ys.getD (p.position % 256) 0 else 0
  | _, _ => 0

/-- A voice sounds at this tick: PLAYING, and deck time has reached its anchor (R99, R100). -/
def Play.sounds (p : Play) (now : DeckTime) : Bool := p.state == .playing && !beforeAnchor now p

/-- The sample a voice hands the Level Chain at a tick (R100). -/
def Play.tickSample (p : Play) (now : DeckTime) : Int := if p.sounds now then p.sample else 0

/-- The position rises by one; a multiple of 256 inside the clip is a block boundary (R100). At the end of a clip whose
samples are a multiple of 256 the tick is a boundary by R100 and the clip's end by R105; that the end alone is taken,
and no underrun counted under R104, is the model's choice (log entry 50). -/
def Play.tick (p : Play) (now : DeckTime) : Play :=
  if p.sounds now then
    { p with
      position := p.position + 1,
      atBoundary := (p.position + 1) % 256 == 0 && decide (p.position + 1 < p.samples) }
  else p

/-- A block request of a voice: its clip, the block, and the need instant anchor + 32 ms x block (R98,
R100). -/
def issueBlock (v : VoiceId) (k : Nat) (s : State) : State :=
  match (playOf s v).clip with
  | .clip c =>
    let need := (playOf s v).anchor.addMicros (32000 * k)
    issue v (.block { start := c.start, samples := c.samples, number := k, need := need }) s
  | _ => s

/-- The record of a step of playback stands, and the block it asks for is requested. -/
def settlePlay (v : VoiceId) (o : PlayOut) (s : State) : State :=
  let s := setPlay v o.play s
  match o.ask with
  | some k => issueBlock v k s
  | none => s

/-- A request of the voice waits or is in hand. -/
def outstanding (s : State) (v : VoiceId) : Bool := (placeOf s v).isSome

/-- The voice asks for its next block where R100 says so. -/
def topUpVoice (v : VoiceId) (s : State) : State :=
  settlePlay v ((playOf s v).topUp (outstanding s v)) s

end Sys2Proof.Machine
end

