-- ==== Sys2Proof/Machine/Levels.lean ====
section
/-! DEFINITION. The Level Chain's arithmetic (sections 8.5 to 8.7): targets, ramps, scaling, mixing and the
wind tracker. -/

namespace Sys2Proof.Machine

/-- Round toward the nearest with ties away from zero: a magnitude divided by 2^shift (R148). -/
def scaleMagnitude (m shift : Nat) : Nat := (m + 2 ^ (shift - 1)) / 2 ^ shift

/-- A sample scaled by an applied gain: g = 8q + k, x * T8[k] divided by 2^(15 - q), rounded, the sign
restored (R148). -/
def scale (x g : Int) : Int :=
  let shift := (15 - g / 8).toNat
  let m : Int := scaleMagnitude (x.natAbs * Config.t8 (g % 8).toNat) shift
  if x < 0 then -m else m

/-- A sum held within -32,767..+32,767 (R149). -/
def saturate (x : Int) : Int := clampInt (-32767) 32767 x

/-- The effective step of a jack (R143). -/
def effectiveStep (s : State) (j : Seat) : Nat :=
  let step := (s.jck.jacks.get j).step
  if floorFlag s then max step s.csr.config.announceFloor else step

/-- An output is live: a LISTENING jack, or SPK while AWAKE (R142). -/
def live (s : State) (o : Output) : Bool :=
  match o with
  | .jack j => listening (s.jck.jacks.get j)
  | .spk => isAwake s

/-- The slot an output takes its slot pair's samples from (section 8.4). -/
def sourceOf (s : State) (o : Output) : Option SlotId :=
  match o with
  | .jack j => slotHeardBy s (.jack j)
  | .spk =>
    match s.vtab.speaker with
    | .attached i => some i
    | _ => none

/-- vol of a jack, P of SPK (R144). -/
def baseLevel (s : State) (o : Output) : Int :=
  match o with
  | .jack j => 3 * ((effectiveStep s j : Int) - 12)
  | .spk => (sceneEntry s).speaker

/-- D: minus the duck depth for COMMENTARY while the duck flag is up (R144). -/
def duckTerm (s : State) (c : SlotContent) : Int :=
  if duckFlag s && c == .commentary then -(s.csr.config.duckDepth : Int) else 0

/-- A target from its terms, clamped to -72..cap (R144). -/
def targetGain (s : State) (o : Output) (trim duck : Int) : Int :=
  clampInt Config.gainFloor s.csr.config.cap (baseLevel s o + trim + (s.lvl.wind.boost : Int) + duck)

/-- The slot pair's target (R144). -/
def slotTarget (s : State) (o : Output) : Int :=
  match sourceOf s o with
  | some i => targetGain s o (s.vtab.slots.get i).play.trim (duckTerm s (s.vtab.slots.get i).content)
  | none => targetGain s o 0 0

/-- The VA pair's target (R144). -/
def vaTarget (s : State) (o : Output) : Int :=
  targetGain s o (if vaFeeds s o then s.vtab.va.play.trim else 0) 0

/-- One unit toward the target (R146). -/
def toward (g target : Int) : Int := if g < target then g + 1 else if target < g then g - 1 else g

/-- A jack whose effective step is 0 is muted (R144). -/
def mutes (s : State) (o : Output) : Bool :=
  match o with
  | .jack j => effectiveStep s j == 0
  | .spk => false

/-- A 2 ms update of an output's pairs (R144, R146, R147). -/
def updatedGains (s : State) (o : Output) : PairGains :=
  let g := s.lvl.gains.get o
  if !live s o then .closed
  else if mutes s o then { PairGains.closed with muted := true }
  else
    { slot := if (s.lvl.silence.get o).isSome then g.slot else toward g.slot (slotTarget s o)
      va := toward g.va (vaTarget s o)
      muted := false }

/-- The output's sample at a tick, from the samples the voices hand over (R142, R149). -/
def mix (s : State) (slots : Slots Int) (va : Int) (o : Output) : Int :=
  let g := s.lvl.gains.get o
  if !live s o || (s.lvl.silence.get o).isSome || g.muted then 0
  else
    let fromSlot :=
      match sourceOf s o with
      | some i => scale (slots.get i) g.slot
      | none => 0
    let fromVa := if vaFeeds s o then scale va g.va else 0
    saturate (fromSlot + fromVa)

/-! ## Wind (R150 to R152) -/

/-- The change of A for a difference: |d| + 4 divided by 8, with the sign of d (R151). -/
def averageChange (d : Int) : Int :=
  let m : Int := ((d.natAbs + 4) / 8 : Nat)
  if d < 0 then -m else m

/-- The target boost: floor((A - noise floor) / 12), clamped to 0..8 (R152). -/
def boostTarget (average noiseFloor : Nat) : Nat :=
  (clampInt 0 8 (((average : Int) - (noiseFloor : Int)) / 12)).toNat

/-- One unit toward the target boost (R152). -/
def boostStep (w target : Nat) : Nat := if w < target then w + 1 else if target < w then w - 1 else w

/-- The tracker after an unspoiled window (R151, R152). -/
def WindTracker.update (w : WindTracker) (noiseFloor : Nat) : WindTracker :=
  let average := ((w.average : Int) + averageChange ((w.sum / 8 : Nat) - (w.average : Int))).toNat
  { w with average := average, boost := boostStep w.boost (boostTarget average noiseFloor) }

/-- The window in hand discarded, the next one clean. -/
def WindTracker.cleared (w : WindTracker) : WindTracker := { w with count := 0, sum := 0, spoiled := false }

/-- The end of a window: spoiled too when it finds VA not IDLE (R150). -/
def windEnd (s : State) : State :=
  let w := s.lvl.wind
  if w.spoiled || !vaIdle s then { s with lvl.wind := w.cleared }
  else { s with lvl.wind := (w.update s.csr.config.noiseFloor).cleared }

end Sys2Proof.Machine
end

