-- ==== Sys2Proof/Machine/Announce.lean ====
section
/-! DEFINITION. The shared operations of the Programme Unit (section 6.1) and of the Announcement Unit
(chapter 7): the cue in hand, the stop latch, the open-door table, and the course of an announcement. -/

namespace Sys2Proof.Machine

/-! ## The programme -/

/-- `a` is later than `b`: their difference is positive in the signed reading of R56. Of two starts exactly 2^31 ms
apart neither is later, which is the model's choice (log entry 47). -/
def later (a b : Millis) : Bool := 0 < (a - b).toInt

/-- A busy COMMENTARY slot seeks at a change of the current cue (R106). -/
def reseek (i : SlotId) (s : State) : State :=
  if slotBusy s i && (s.vtab.slots.get i).content == .commentary then seekSlot i s else s

/-- The current cue changes, and the Voice Table is told (R86, R106). -/
def changeCue (c : Option CueAt) (s : State) : State :=
  forSlots reseek { s with prg.current := c }

/-- A cue becomes current, and the last taken (R88, R90). -/
def takeCue (c : CueAt) (s : State) : State :=
  changeCue (some c) { s with prg.lastTaken := some c }

/-- Every due entry leaves the queue, and the one with the latest start becomes current (R90). -/
def promoteDue (s : State) : State :=
  let due := s.prg.queue.filter fun e => reached s.dclk.now e.start
  match due.getLast? with
  | some c =>
    takeCue c { s with prg.queue := s.prg.queue.filter fun e => !reached s.dclk.now e.start }
  | none => s

/-- The queue with an entry at its place in start order. -/
def insertCue (c : CueAt) (q : List CueAt) : List CueAt :=
  (q.takeWhile fun e => later c.start e.start) ++ c :: (q.dropWhile fun e => later c.start e.start)

/-- A cue not yet due is placed in the pending queue (R89). -/
def placeCue (c : CueAt) (s : State) : State :=
  let q := s.prg.queue
  if q.any fun e => e.start == c.start then
    { s with prg.queue := q.map fun e => if e.start == c.start then { e with cue := c.cue } else e }
  else if q.length < 4 then { s with prg.queue := insertCue c q }
  else if q.all fun e => later c.start e.start then countRxError s
  else countRxError { s with prg.queue := insertCue c q.dropLast }

/-- A CUE whose field passed R26 (R87 to R89). It is stale where the last taken's start is later; an arrival exactly
2^31 ms from the last taken is not stale (the model's choice, log entry 47). -/
def judgeCue (c : CueAt) (s : State) : State :=
  let stale :=
    match s.prg.lastTaken with
    | some t => later t.start c.start
    | none => false
  if stale then s
  else if s.prg.lastTaken == some c || s.prg.queue.contains c then s
  else if reached s.dclk.now c.start then takeCue c s
  else placeCue c s

/-- A HUSH whose field passed R29: cue `n`, or all at 0xFFFF (R91). -/
def hush (n : Nat) (s : State) : State :=
  let named (c : CueAt) : Bool := n == 65535 || c.cue == n
  let s := { s with prg.queue := s.prg.queue.filter fun c => !named c }
  match s.prg.current with
  | some c => if named c then changeCue none s else s
  | none => s

/-! ## The stop latch and the open-door table -/

/-- The latch rises: the indicators light and the tone sounds unless a chime or a name does (R114). -/
def raiseLatch (s : State) : State :=
  let s := relightOverlay { s with ann.latch := true }
  if inAnnouncement s then s else vaStart .tone .tone s.dclk.now s

/-- The latch is cleared: own request CLOSED, STOP_REQ withdrawn, the Lamp Unit told (R115). -/
def clearLatch (s : State) : State :=
  relightOverlay (withdraw .stopReq { s with ann.latch := false, ann.ownOpen := false })

/-- The table with an origin's report made or refreshed: at most four entries (R116). -/
def doorsWith (origin : Origin) (expiry : Millis) (ds : List DoorEntry) : List DoorEntry :=
  if ds.any fun d => d.origin == origin then
    ds.map fun d => if d.origin == origin then { d with expiry := expiry } else d
  else if ds.length < 4 then ds ++ [{ origin := origin, expiry := expiry }]
  else ds

/-- DOOR open for an origin: entry with expiry 20,000 ms ahead, latch cleared (R116). -/
def doorReported (origin : Origin) (s : State) : State :=
  let expiry := s.dclk.now.ms + BitVec.ofNat 32 Config.doorLifeMillis
  clearLatch { s with ann.doors := doorsWith origin expiry s.ann.doors }

/-- DOOR closed for an origin: its entry leaves (R116). -/
def doorRemoved (origin : Origin) (s : State) : State :=
  relightOverlay { s with ann.doors := s.ann.doors.filter fun d => !(d.origin == origin) }

/-- A DOOR whose body passed R27, received or delivered as own (R116). -/
def applyDoor (origin : Origin) (body : List Byte) (s : State) : State :=
  if byteAt body 0 = 1 then doorReported origin s else doorRemoved origin s

/-- Every entry whose expiry deck time has reached is removed (R117). -/
def expireDoors (s : State) : State :=
  if s.ann.doors.any fun d => reached s.dclk.now d.expiry then
    relightOverlay { s with ann.doors := s.ann.doors.filter fun d => !reached s.dclk.now d.expiry }
  else s

/-! ## The announcement -/

/-- The CHIME phase begins: VA takes the CHIME from S on all outputs (R124). -/
def startChime (s : State) : State :=
  match s.ann.current with
  | some a =>
    vaStart .chime .chime (instant a.start)
      { s with ann.current := some { a with phase := .chime, chimeLen := none } }
  | none => s

/-- An announcement becomes current: WAITING, or CHIME at once when its start is reached (R122). -/
def makeCurrent (stop : Nat) (start : Millis) (s : State) : State :=
  let s := { s with
    ann.current := some { stop := stop, start := start, chimeLen := none, phase := .waiting },
    ann.naming := { v0 := false, v1 := false, v2 := false, v3 := false },
    ann.speakerName := .notNeeded }
  if reached s.dclk.now start then startChime s else s

/-- The displaced announcement ends without completing (R123). -/
def abandon (s : State) : State :=
  let s := { s with ann.nameCap := none, ann.current := none }
  let s := if s.ann.purpose == .chime || s.ann.purpose == .name then vaStop s else s
  forSlots returnSlot s

/-- An ANNOUNCE that passed R121 is placed (R122). -/
def placeAnnouncement (stop : Nat) (start : Millis) (s : State) : State :=
  if inAnnouncement s && !reached s.dclk.now start then
    { s with ann.pending := some { stop := stop, start := start } }
  else
    let s := if s.ann.current.isSome then abandon s else s
    relightOverlay (makeCurrent stop start s)

/-- An ANNOUNCE whose stop passed R26: stale, duplicate, too late, or placed (R121). -/
def judgeAnnounce (stop : Nat) (start : Millis) (s : State) : State :=
  let staleByCurrent :=
    match s.ann.current with
    | some a => later a.start start
    | none => false
  let staleByCompleted :=
    match s.ann.lastCompleted with
    | some t => later t start
    | none => false
  let duplicate :=
    (match s.ann.current with
      | some a => a.stop == stop && a.start == start
      | none => false)
    || s.ann.pending == some { stop := stop, start := start }
  if staleByCurrent || staleByCompleted then s
  else if duplicate then s
  else if (s.csr.config.lateLimit : Int) < lateness s.dclk.now start then countRxError s
  else placeAnnouncement stop start s

/-- No slot is in the naming set. -/
def namingEmpty (s : State) : Bool :=
  !s.ann.naming.v0 && !s.ann.naming.v1 && !s.ann.naming.v2 && !s.ann.naming.v3

/-- The announcement completes and the pending one, if any, is promoted (R129). -/
def complete (s : State) : State :=
  match s.ann.current with
  | some a =>
    let s := { s with ann.lastCompleted := some a.start, ann.nameCap := none, ann.current := none }
    match s.ann.pending with
    | some p => relightOverlay (makeCurrent p.stop p.start { s with ann.pending := none })
    | none => relightOverlay s
  | none => s

/-- It completes at the moment the naming set is empty and the speaker name is not PLAYING (R129). -/
def completeIfDone (s : State) : State :=
  if inName s && namingEmpty s && !(s.ann.speakerName == .playing) then complete s else s

/-- The NAME phase begins: VA stopped, the cap timer started, every busy slot given the name, and the
speaker's name settled (R125, R127). -/
def startName (s : State) : State :=
  match s.ann.current with
  | some a =>
    let s := vaStop s
    let s := { s with ann.current := some { a with phase := .name }, ann.nameCap := some Config.nameCapMicros }
    let s := forSlots (giveName a.stop) s
    let s :=
      match s.vtab.speaker with
      | .attached _ => { s with ann.speakerName := .notNeeded }
      | _ => nameOnSpeaker a.stop s
    completeIfDone s
  | none => s

/-- The phase is CHIME. -/
def inChime (s : State) : Bool :=
  match s.ann.current with
  | some a => a.phase == .chime
  | none => false

/-- VA has become SILENT (R120, R125, R127). -/
def vaDone (s : State) : State :=
  match s.ann.purpose with
  | .none => s
  | .tone => vaStop s
  | .chime => if inChime s then startName s else s
  | .name =>
    let s := vaStop s
    completeIfDone { s with ann.speakerName := .done }

/-- A NAME slot's name is done (R126). -/
def slotDone (i : SlotId) (s : State) : State :=
  if s.ann.naming.get i then completeIfDone (returnSlot i s) else s

/-- A voice has become SILENT: NAME slots and VA are reported to the Announcement Unit (R105, R110). -/
def voiceDone (v : VoiceId) (s : State) : State :=
  match v with
  | .va => vaDone s
  | .slot i =>
    match (s.vtab.slots.get i).content with
    | .name _ => slotDone i s
    | .commentary => s

/-- What a step of a voice's playback brings about: the record stands, the block asked for is requested,
an end is reported, and the next block is asked for where one is wanted. -/
def actOn (v : VoiceId) (o : PlayOut) (s : State) : State :=
  let s := settlePlay v o s
  let s := if o.ended then voiceDone v s else s
  topUpVoice v s

/-- VA's CHIME lookup gives the chime length too (R124). -/
def learnChime (v : VoiceId) (result : Option Clip) (s : State) : State :=
  if v = .va ∧ s.ann.purpose = .chime then
    match s.ann.current with
    | some a =>
      { s with ann.current := some { a with chimeLen := some ((result.map Clip.samples).getD 0) } }
    | none => s
  else s

end Sys2Proof.Machine
end

