-- ==== Sys2Proof/Machine/Serve.lean ====
section
/-! DEFINITION. The Clip Store Reader (chapter 5): search, the request queue's service, completions and
the failure run. -/

namespace Sys2Proof.Machine

/-! ## Search (R74, R75) -/

/-- Where a search stands when the reader takes it up. -/
inductive SearchNext where
  /-- the entry to probe, with the progress it is probed under -/
  | probe (index : Nat) (l : LookupReq)
  /-- absent in the language asked: the second search is due -/
  | second (l : LookupReq)
  /-- the result: a clip or NONE -/
  | result (c : Option Clip)
  deriving DecidableEq, Repr

/-- The search has concluded absent: a CUE or STOP lookup not in the house language searches again with
it, otherwise the result is NONE (R74). -/
def searchAbsent (house : Nat) (l : LookupReq) : SearchNext :=
  if (l.key.kind = kindCue ∨ l.key.kind = kindStop) ∧ ¬ l.second ∧ l.key.language ≠ house then
    .second { key := { l.key with language := house }, second := true, bounds := none }
  else .result none

/-- The halving: the middle of the bounds is probed while the lowest does not exceed the highest (R75). -/
def searchHalve (house : Nat) (l : LookupReq) (lo hi : Nat) : SearchNext :=
  if lo ≤ hi then .probe ((lo + hi) / 2) { l with bounds := some (lo, hi) } else searchAbsent house l

/-- The search as far as it goes without a probe (R75, R76). -/
def searchNext (c : ClipStore) (l : LookupReq) : SearchNext :=
  match l.bounds with
  | some (lo, hi) => searchHalve c.config.house l lo hi
  | none =>
    match c.first with
    | some e =>
      if c.entryCount = 0 then searchAbsent c.config.house l
      else if l.key.lt e.key then searchAbsent c.config.house l
      else if l.key = e.key then .result (some e.clip)
      else searchHalve c.config.house l 1 (c.entryCount - 1)
    | none => searchAbsent c.config.house l

/-- The search after a probe has read entry `e` at `index` (R75, R80). -/
def searchProbed (c : ClipStore) (l : LookupReq) (index : Nat) (e : DirEntry) : SearchNext :=
  if e.key = l.key then .result (some e.clip)
  else
    match l.bounds with
    | some (lo, hi) =>
      if l.key.lt e.key then searchHalve c.config.house l lo (index - 1)
      else searchHalve c.config.house l (index + 1) hi
    | none => .result none

/-! ## The failure run (R84) -/

/-- A good transaction sets the run to 0 and clears FLASH_FAULT; no transaction is in hand. -/
def transactionGood (s : State) : State :=
  { s with csr.failureRun := 0, csr.flashFault := false, csr.hand := none }

/-- A failed one adds 1, stopping at 8; at 8 FLASH_FAULT is set. -/
def transactionFailed (s : State) : State :=
  { s with
    csr.failureRun := bump 8 s.csr.failureRun 1,
    csr.flashFault := s.csr.flashFault || bump 8 s.csr.failureRun 1 == 8, csr.hand := none }

/-- The next transaction begins, with its 5 ms (R83). -/
def begin (t : Transaction) (s : State) : State :=
  { s with csr.hand := some { what := t, left := Config.transactionMicros } }

/-- What the flash pins ask for: the byte address and the number of bytes of the transaction in hand (R69,
R71, R81). The outside answers it with the data of the command that ends the transaction. -/
def readAsked (c : ClipStore) : Option (Nat × Nat) :=
  match c.hand with
  | none => none
  | some h =>
    match h.what with
    | .header => some (0, 104)
    | .chunk n =>
      match c.scan with
      | some sc => some (sc.dirStart + (12 * sc.count - sc.bytesLeft - n), n)
      | none => none
    | .probe _ _ index => some (c.dirStart + 12 * index, 12)
    | .block _ _ b => some ((b.start + b.number) * 256, storedIn b.samples b.number)

/-! ## Completions (R82) -/

/-- A lookup's result, under the tag it was issued with. -/
def deliverLookup (v : VoiceId) (tag : Word16) (result : Option Clip) (s : State) : State :=
  if tag = tagOf s v then
    let s := learnChime v result s
    actOn v ((playOf s v).lookedUp s.dclk.now result) s
  else s

/-- A block's 256 samples, under the tag it was issued with. -/
def deliverBlock (v : VoiceId) (tag : Word16) (k : Nat) (xs : List Int) (s : State) : State :=
  if tag = tagOf s v then actOn v ((playOf s v).blockCame s.dclk.now k xs) s else s

/-- A lookup stands with the progress of its search, waiting, or has reached its result and leaves its
place (R80). -/
def lookupStands (v : VoiceId) (r : Request) (n : SearchNext) (s : State) : State :=
  match n with
  | .probe _ l => setPlace v (some { r with body := .lookup l, inHand := false }) s
  | .second l => setPlace v (some { r with body := .lookup l, inHand := false }) s
  | .result c => deliverLookup v r.tag c (setPlace v none s)

/-! ## Service (R79 to R81) -/

/-- The due instant of a waiting request against now, in microseconds: a lookup's is now (R79). -/
def dueIn (s : State) (r : Request) : Int :=
  match r.body with
  | .lookup _ => 0
  | .block b => b.need.diffMicros s.dclk.now

/-- A waiting request of a slot, with its due instant. -/
def waitingAt (s : State) (i : SlotId) : Option (SlotId × Request × Int) :=
  match s.csr.places.get i with
  | some r => if r.inHand then none else some (i, r, dueIn s r)
  | none => none

/-- The earlier of two, the first on a tie. -/
def earlier (x y : Option (SlotId × Request × Int)) : Option (SlotId × Request × Int) :=
  match x, y with
  | some a, some b => if b.2.2 < a.2.2 then some b else some a
  | some a, none => some a
  | none, y => y

/-- The request the reader takes up next: VA's, else the earliest due, ties to the lower number (R79). -/
def choose (s : State) : Option (VoiceId × Request) :=
  let bySlot :=
    match earlier (earlier (earlier (waitingAt s .v0) (waitingAt s .v1)) (waitingAt s .v2)) (waitingAt s .v3) with
    | some (i, r, _) => some (VoiceId.slot i, r)
    | none => none
  match s.csr.vaPlace with
  | some r => if r.inHand then bySlot else some (.va, r)
  | none => bySlot

/-- A chosen request begins its transaction, or is finished without one (R79 to R81). -/
def takeUp (v : VoiceId) (r : Request) (s : State) : State :=
  match r.body with
  | .lookup l =>
    match searchNext s.csr l with
    | .probe index l' =>
      begin (.probe v r.tag index) (setPlace v (some { r with body := .lookup l', inHand := true }) s)
    | n => lookupStands v r n s
  | .block b =>
    if b.number < blocksOf b.samples then
      begin (.block v r.tag b) (setPlace v (some { r with inHand := true }) s)
    else deliverBlock v r.tag b.number silentBlock (setPlace v none s)

/-- While no transaction is in hand and a request waits, the reader takes one up (R69, R79). -/
def serveFor : Nat → State → State
  | 0, s => s
  | n + 1, s =>
    if s.csr.hand.isSome then s
    else
      match choose s with
      | some (v, r) => serveFor n (takeUp v r s)
      | none => s

/-- The reader's service at the end of a command. Irreducible, so that no proof by reflexivity unrolls it;
`serve_frame` and `serve_plays` say what it can change. -/
@[irreducible] def serve (s : State) : State := serveFor Config.serveFuel s

/-- The place of a voice is emptied if it still holds the request whose transaction is in hand (R77). -/
def closePlace (v : VoiceId) (s : State) : State :=
  match placeOf s v with
  | some r => if r.inHand then setPlace v none s else s
  | none => s

end Sys2Proof.Machine
end

