-- ==== Sys2Proof/Machine/Control.lean ====
section
/-! DEFINITION. Station Control's changes of state (chapter 10), each carried out in every block, and the
shared course of a received frame and of an attempt's end (chapter 1). -/

namespace Sys2Proof.Machine

/-! ## Entry to AWAKE and warm start -/

/-- A start of the TIME timer: a first period where the first-period flag is set, which power-on and
every entry to PARKING leave it, and a regular one otherwise; the flag is cleared (R66). -/
def startTimeTimer (s : State) : State :=
  let period :=
    if s.dclk.firstPeriod then Config.timeFirstMillis + drawValue 10 s
    else Config.timeRegularMillis + drawValue 6 s
  let s := afterDraw s
  { s with dclk.timer := .running (period * 1000), dclk.firstPeriod := false }

/-- The wind tracker starts: A at the noise floor, W 0, a clean window (R153). -/
def freshWind (noiseFloor : Nat) : WindTracker :=
  { count := 0, sum := 0, spoiled := false, average := noiseFloor, boost := 0 }

/-- What entry to AWAKE and a warm start have in common: the station AWAKE with its STATUS timer at
2,000 ms, the line ACTIVE with an empty reception record and no failures, the clock running, the TIME
timer's first period, the wind tracker and the sampling grids begun (R17, R173, R179). A WAKE pattern going
out when the wake wait runs out is cut off at once; R177 leaves it open (the model's choice, log entry 41). -/
def comeUp (s : State) : State :=
  let s := { s with
    stc.state := .awake, stc.parkLeft := none, stc.wakeWait := none,
    stc.statusTimer := .running (Config.statusFirstMillis * 1000),
    line.state := .active, line.fails := 0, line.quietLeft := none,
    line.rx := .fresh s.line.rx.estimate, line.wake := .none, line.driving := [],
    line.priorCapture := none, line.since := s.ref.micros,
    dclk.running := true,
    lvl.wind := freshWind s.csr.config.noiseFloor,
    ref.gridFrom := s.ref.micros }
  startTimeTimer s

/-- The last of an awakening: the speaker placed, the targets formed, the reader served (R96, R162). -/
def settleUp (s : State) : State := serve (formTargets (placeSpeaker s))

/-- Channels take their roles from the configuration copy (R154). -/
def takeRoles (s : State) : State :=
  { s with lmp.chans := s.lmp.chans.imap fun c ch => { ch with role := s.csr.config.roles.get c } }

/-- Entry to AWAKE from power-on (R173). -/
def enterAwake (s : State) : State :=
  let s := comeUp (takeRoles s)
  settleUp { s with
    jck.panels := JackUnit.initial.panels, ann.doorFilter := .initial, ref.seatFrom := s.ref.micros }

/-- A HELD jack becomes SETTLING with a full 300 ms (R136). -/
def Jack.resettle (j : Jack) : Jack :=
  if j.state = .held then { j with state := .settling, settle := some Config.settleMicros } else j

/-- A warm start (R179), from PARKING or PARKED alone. -/
def warmStart (s : State) : State :=
  if s.stc.state = .parking ∨ s.stc.state = .parked then
    let s := comeUp s
    settleUp { s with jck.jacks := s.jck.jacks.map Jack.resettle, ann.doorFilter := .initial }
  else s

/-! ## Entry to PARKING -/

/-- A SETTLING or LISTENING jack becomes HELD (R136). -/
def Jack.hold (j : Jack) : Jack :=
  if j.state = .settling ∨ j.state = .listening then { j with state := .held, settle := none }
  else { j with settle := none }

/-- Every repeat and hold timer is stopped (R141). -/
def Panel.stopTimers (p : Panel) : Panel := { p with upRepeat := none, downRepeat := none, hold := none }

/-- Every output carries 0 and every pair is held at -72 (R142, R146). -/
def closeAll (s : State) : State :=
  closeOutput .spk (closeOutput (.jack .d) (closeOutput (.jack .c) (closeOutput (.jack .b)
    (closeOutput (.jack .a) s))))

/-- Entry to PARKING in every block (R175): the park timer and the parked mark (R181), the line ASLEEP
(R20), the queue emptied (R49), the TIME timer stopped with its flag set (R66), the programme and the
announcement unit emptied (R86, R111), every slot released and the speaker NOT WANTED (R109), jacks HELD
(R136, R141), gains closed and the wind window discarded (R153), the claims and the ambient run emptied and
every channel fading to 0 (R162, R165, R167). -/
def enterParking (s : State) : State :=
  let s := forSlots releaseSlot (vaStop s)
  let s := closeAll { s with
    stc.state := .parking, stc.parkLeft := some Config.parkMicros, stc.statusTimer := .stopped,
    stc.parkedMark := true,
    line.state := .asleep, line.quietLeft := none, line.rx := .fresh s.line.rx.estimate,
    line.wake := .none, line.driving := [], line.priorCapture := none,
    txq := s.txq.emptied,
    dclk.timer := .stopped, dclk.firstPeriod := true,
    prg := .initial, ann := .initial, vtab.speaker := .notWanted,
    jck.jacks := s.jck.jacks.map Jack.hold, jck.panels := s.jck.panels.map Panel.stopTimers,
    lvl.wind := s.lvl.wind.cleared,
    lmp.claims := LampUnit.initial.claims, lmp.runKind := .none, lmp.runLen := 0, lmp.wish := .none }
  parkFade s

/-! ## Wake requests -/

/-- A wake request accepted while PARKED (R177): the WAKE pattern is asked of LINE once and the wake wait
starts; a receive-only station makes the warm start itself. -/
def wakeRequest (s : State) : State :=
  if receiveOnly s then warmStart s
  else if s.stc.wakeWait.isSome then s
  else { s with
    line.wake := if s.line.wake = .none then .held else s.line.wake,
    stc.wakeWait := some Config.wakeWaitMicros }

/-! ## A received frame -/

/-- The end of a reception: the record is emptied and keeps the estimate of an accepted TUNE (section 1.2); a
BROKEN run is the BREAK of a new frame (R13). -/
def endReception (h : Heard) (s : State) : State :=
  let estimate :=
    match h.rx with
    | some r => r.estimate
    | none => s.line.rx.estimate
  let phase : RxPhase := if h.fin = .error .broken then .inBreak else .waiting
  { s with line.rx := { Reception.fresh estimate with phase := phase } }

/-- The first TUNE edge of a reception, where it had one, was signalled, and the reception has ended (R5, R60). -/
def heard (h : Heard) (s : State) : State :=
  endReception h (match h.edge with
    | some _ => captureEdge h.age s
    | none => s)

/-- What the line has carried for `counts` up to now did not begin before the line last became ACTIVE (R17). -/
def sinceActive (counts : Nat) (s : State) : Bool :=
  decide (counts ≤ Config.countsPerMicro * (s.ref.micros - s.line.since))

/-- LINE takes for its own reception what the line has carried for `counts` up to now: the station is not itself
driving it (R12, R16), and it began on an ACTIVE line (R17). -/
def follows (counts : Nat) (s : State) : Bool := s.line.driving.isEmpty && sinceActive counts s

/-- A line of another sender's that the station receives awake. -/
def hears (f : RxFrame) (s : State) : Bool := receiving s && follows f.heard.counts s

/-- The count at which the own BREAK began: the record's first TUNE edge is 128 us on (R2, log entry 31). -/
def ownBreak (s : State) : Nat := s.line.rx.edgeRef - Config.countsPerMicro * Config.breakToEdgeMicros

/-- While the station drives a frame: what the line has carried for `counts` up to now began before the idle gap
that the own BREAK ended. It is another sender's, and the own BREAK found its reception open (R3, R12, log entry
49). -/
def openBeforeOwn (counts : Nat) (s : State) : Bool :=
  receiving s && !s.line.driving.isEmpty && sinceActive counts s
    && decide (Config.countsPerMicro * s.ref.micros + Config.gapCounts ≤ ownBreak s + counts)

/-- Another sender's reception ends in error under the own BREAK and is counted (R12, R13, R14). The record is already
that of the own BREAK. A first TUNE edge `age` microseconds ago was captured before the own one, whose capture stands
(R5, R60, log entry 49). -/
def endUnderOwn (age : Option Nat) (s : State) : State :=
  countRxError (match age with
    | some n => { s with line.priorCapture := some (s.dclk.now.subMicros n) }
    | none => s)

/-- In ASLEEP a reception moves the record alone (R20). -/
def sleepHears (f : RxFrame) (s : State) : State :=
  if s.line.state == .asleep && follows f.heardAsleep.counts s then endReception f.heardAsleep s else s

/-- A line that is not taken for a frame: an error of another sender's reception that the own BREAK found open is
counted (R12, R13); in ASLEEP the record alone moves (R20). -/
def notHeard (f : RxFrame) (s : State) : State :=
  if openBeforeOwn f.heard.counts s && verdictOn f == .error then
    endUnderOwn (f.heard.edge.map fun _ => f.heard.age) s
  else sleepHears f s

/-- A good frame that bears the station's own origin sets the clash flag, on a station that is not
receive-only (R23, R24). -/
def noteClash (head : Byte) (s : State) : State :=
  if headOrigin head = s.stc.origin ∧ ¬ receiveOnly s then { s with line.clash := true } else s

/-- A frame of a known kind from another sender: dropped, counted, refused by its owner's field check, or
dispatched to its owner (R12, R15, R16). In ASLEEP the reception ends at HEAD without a count (R20); in OFF
nothing is taken (R17). -/
def receiveFrame (kind : Nat) (f : RxFrame) (fieldsOk : Bool) (owner : State → State) (s : State) : State :=
  if hears f s then
    match judgeFrame kind f with
    | .other => s
    | .dropped => heard f.heard s
    | .error => countRxError (heard f.heard s)
    | .good =>
      let s := noteClash f.head (heard f.heard s)
      if fieldsOk then owner s else countRxError s
  else notHeard f s

/-! ## Attempts -/

/-- The line enters QUIET from ACTIVE: records of class 1 to 3 discarded, the period started, the quiet
mark set, the periodic timers held (R18, R47, R181). -/
def enterQuiet (s : State) : State :=
  holdPeriodic { s with
    line.state := .quiet, line.quietLeft := some Config.quietMicros, txq := s.txq.enterQuiet,
    stc.quietMark := true }

/-- A failed attempt of a record: the queue's part (R44), the failed-attempt count (R183), then LINE's
count, which brings QUIET from 15 to 16 in ACTIVE (R11, R18). -/
def failAttempt (r : Record) (s : State) : State :=
  let s := queueFailed r s
  let entering := s.line.state == .active && s.line.fails == 15
  let s := { s with
    line.driving := [], line.fails := bump 16 s.line.fails 1,
    stc.failedAttempts := bump 255 s.stc.failedAttempts 1 }
  if entering then enterQuiet s else s

/-- A WAKE attempt sent or failed: the request ends and Station Control makes the warm start (R21, R177). -/
def endWake (s : State) : State := warmStart { s with line.wake := .none, line.driving := [] }

/-- The own wave's first TUNE edge is on the line: the line agreed with bit 16 (R5). -/
def ownEdgeCame (bit : Nat) : Bool := 17 ≤ bit

/-- The record of a frame of the station's own as far as a bit of its wave at which the station stopped driving
(R3, R4, R9, R10): what has been received up to there is kept, and the record goes on with the other sender's
frame. A recessive reading before the eleventh bit leaves no BREAK, a dominant first delimiter bit is still
the other sender's BREAK, the ninth TUNE edge at bit 32 measures 1,536 counts, and the characters of the WAKE pattern
are not summed (R31; log entry 31). -/
def followedTo (pattern : Bool) (edgeRef estimate : Nat) (chars : List Byte) (bit : Nat) : Reception :=
  if bit < 11 then .fresh estimate
  else if bit = 14 then { Reception.fresh estimate with phase := .inBreak }
  else if bit < 17 then { Reception.fresh estimate with phase := .delimiter }
  else if bit < 33 then
    { Reception.fresh estimate with phase := .tune, edgeRef := edgeRef, edges := (bit - 15) / 2 }
  else (chars.take ((bit - 34) / 10)).foldl (fun r c => r.take pattern r.expected c) (Reception.tuned edgeRef 1536)

/-- The capture at the end of an own attempt: that of its own first TUNE edge if the edge came, else the one that
stood before the attempt (R60, log entry 10). -/
def settleCapture (came : Bool) (s : State) : State :=
  { s with
    dclk.capture := if came then s.dclk.capture else s.line.priorCapture.getD s.dclk.capture,
    line.priorCapture := none }

/-- The station stops driving at a bit of its wave, and its receiver follows the line (R9, R10). -/
def stopDriving (bit : Nat) (s : State) : State :=
  settleCapture (ownEdgeCame bit) { s with
    line.driving := [],
    line.rx := followedTo (s.line.wake == .sending) s.line.rx.edgeRef s.line.rx.estimate s.line.driving bit }

/-- The receiver follows a frame of the station's own from the start of its BREAK, its first TUNE edge 128 us on
(R2, R5). -/
def followOwn (chars : List Byte) (s : State) : State :=
  { s with
    line.driving := chars,
    line.rx := { Reception.fresh s.line.rx.estimate with
      phase := .inBreak,
      edgeRef := Config.countsPerMicro * (s.ref.micros + Config.breakToEdgeMicros) } }

/-- The body of a record as it goes out: a TIME body is the capture of the frame's own first TUNE edge
(R25, R61). -/
def bodySent (capture : DeckTime) (r : Record) : List Byte :=
  match r.kind with
  | .time => bytes32 capture.ms.toNat ++ bytes16 capture.us
  | _ => r.body

/-- LINE begins the head's BREAK: in flight from here, captured at its own first TUNE edge 128 us on
(R2, R40, R60, log entry 10). -/
def beginRecord (r : Record) (s : State) : State :=
  let capture := s.dclk.now.addMicros Config.breakToEdgeMicros
  let s := { s with
    line.priorCapture := some s.dclk.capture, dclk.capture := capture, txq := s.txq.fly r.order }
  followOwn (frameChars r.kind.code r.kind.cls s.stc.origin (bodySent capture r)) s

/-- The head, where the line state and the station let it begin (R3, R40, R24). -/
def headOffered (s : State) : Option Record :=
  if s.line.lockout || receiveOnly s then none
  else
    match s.txq.head with
    | some r =>
      if r.backoff = 0 ∧ (s.line.state = .active ∨ (s.line.state = .quiet ∧ r.kind.cls = 0)) then some r
      else none
    | none => none

/-- An idle gap signalled to the queue: the head begins, or every backoff counts down (R41). -/
def gap (s : State) : State :=
  match headOffered s with
  | some r => beginRecord r s
  | none => { s with txq := s.txq.countDown }

/-- STUCK is left: for QUIET while its period still runs, else for ACTIVE (R19). -/
def leaveStuck (s : State) : State :=
  if s.line.quietLeft.isSome then { s with line.state := .quiet }
  else resumePeriodic { s with line.state := .active }

/-! ## The scan's end (R72) -/

/-- GOOD: fleet code, directory and first entry as read, the configuration clamped; then AWAKE. -/
def scanGood (c : ScanState) (s : State) : State :=
  enterAwake { s with
    csr.image := .good, csr.fleet := c.fleet, csr.config := configOf c.configBytes,
    csr.dirStart := c.dirStart, csr.entryCount := c.count, csr.first := c.first, csr.scan := none }

/-- BAD: fleet code 0, an empty directory, the defaults; then AWAKE all the same. -/
def scanBad (s : State) : State :=
  enterAwake { s with
    csr.image := .bad, csr.fleet := 0, csr.config := .defaults, csr.dirStart := 0, csr.entryCount := 0,
    csr.first := none, csr.scan := none }

/-- One entry judged: samples 1 or more, the last block inside the flash, the key above the one before
(R71). -/
def judgeEntry (c : ScanState) (e : DirEntry) : Option ScanState :=
  let ordered :=
    match c.lastKey with
    | some k => k.lt e.key
    | none => true
  if 1 ≤ e.samples ∧ e.start + blocksOf e.samples - 1 < c.flashBlocks ∧ ordered = true then
    some { c with
      judged := c.judged + 1, lastKey := some e.key,
      first := match c.first with
        | some f => some f
        | none => some e }
  else none

/-- The whole entries at the front of the bytes are judged in order; what is left is carried (R71). -/
def judgeEntries : Nat → ScanState → List Byte → Option ScanState
  | 0, c, bs => some { c with carry := bs }
  | n + 1, c, bs =>
    match judgeEntry c (entryOf (bs.take 12)) with
    | some c' => judgeEntries n c' (bs.drop 12)
    | none => none

/-- The next scan chunk: 4,096 bytes, or the remainder (R71). -/
def nextChunk (c : ScanState) (s : State) : State :=
  let n := min 4096 c.bytesLeft
  begin (.chunk n) { s with csr.scan := some { c with bytesLeft := c.bytesLeft - n } }

end Sys2Proof.Machine
end

