-- ==== Sys2Proof/Machine/Flash.lean ====
section
/-! DEFINITION. The meanings of POWER_ON and of the clip flash's commands: HEADER_READ_DONE,
SCAN_CHUNK_DONE, PROBE_DONE, BLOCK_READ_DONE, TRANSACTION_TIMEOUT. -/

namespace Sys2Proof.Machine

/-- What a meaning answers. -/
abbrev Answer := Host.Outcome State Fault Refusal

/-- The generator's seed: the origin in both bytes (R53). -/
def seedOf (origin : Origin) : Word16 := origin.setWidth 16 * 257

/-- SCAN's place before the header has been read. -/
def ScanState.initial : ScanState :=
  { fleet := 0, flashBlocks := 0, dirStart := 0, count := 0, configBytes := [], bytesLeft := 0,
    carry := [], judged := 0, first := none, lastKey := none }

/-- Every block at its power-on value with the straps sampled; the queue and the input pins are outside
the part and stay. -/
def poweredOn (origin : Origin) (load : Bool) (s : State) : State :=
  { State.atPowerOn origin load (seedOf origin) with pending := s.pending, pins := s.pins }

/-- POWER_ON: LOADING with the clock held, or STARTING with the clock running and the image scan begun
with the header read (R57, R70, R71, R172, R173). -/
def execPowerOn (origin : Origin) (load : Bool) (s : State) : Answer :=
  let s := poweredOn origin load s
  if load then .next { s with stc.state := .loading }
  else .next (begin .header { s with dclk.running := true, csr.scan := some .initial })

/-- The scan's state once a header has passed (R71). -/
def scanOfHeader (h : List Byte) : ScanState :=
  { fleet := BitVec.ofNat 16 (field16 h 6), flashBlocks := field24 h 8, dirStart := field24 h 11,
    count := field16 h 14, configBytes := (h.drop 16).take 88, bytesLeft := 12 * field16 h 14,
    carry := [], judged := 0, first := none, lastKey := none }

/-- The header read is good: the header is judged (R71). -/
def headerRead (h : List Byte) (s : State) : State :=
  let s := transactionGood s
  if headerPasses h then
    if field16 h 14 = 0 then scanGood (scanOfHeader h) s else nextChunk (scanOfHeader h) s
  else scanBad s

/-- HEADER_READ_DONE (R71). -/
def execHeaderReadDone (data : List Byte) (s : State) : Answer :=
  match s.csr.hand with
  | some { what := .header, .. } => if 104 ≤ data.length then .next (headerRead data s) else .next s
  | _ => .next s

/-- A scan chunk is good: its entries are judged, and the scan goes on or ends (R71). -/
def chunkRead (c : ScanState) (bytes : List Byte) (s : State) : State :=
  let s := transactionGood s
  let all := c.carry ++ bytes
  match judgeEntries (all.length / 12) c all with
  | some c' => if c'.bytesLeft = 0 then scanGood c' s else nextChunk c' s
  | none => scanBad s

/-- SCAN_CHUNK_DONE (R71). -/
def execScanChunkDone (data : List Byte) (s : State) : Answer :=
  match s.csr.hand, s.csr.scan with
  | some { what := .chunk n, .. }, some c =>
    if n ≤ data.length then .next (chunkRead c (data.take n) s) else .next s
  | _, _ => .next s

/-- A probe is good: the search moves, and the lookup waits again or has its result (R75, R80). A probe
whose request is gone moves no search (R78). -/
def probeRead (v : VoiceId) (index : Nat) (e : DirEntry) (s : State) : State :=
  let s := transactionGood s
  match placeOf s v with
  | some r =>
    match r.inHand, r.body with
    | true, .lookup l => serve (lookupStands v r (searchProbed s.csr l index e) s)
    | _, _ => serve s
  | none => serve s

/-- PROBE_DONE (R80). -/
def execProbeDone (data : List Byte) (s : State) : Answer :=
  match s.csr.hand with
  | some { what := .probe v _ index, .. } =>
    if 12 ≤ data.length then .next (probeRead v index (entryOf data) s) else .next s
  | _ => .next s

/-- A block read is good: its samples are handed on under the tag it was issued with (R81, R82). -/
def blockRead (v : VoiceId) (tag : Word16) (b : BlockReq) (stored : List Byte) (s : State) : State :=
  serve (deliverBlock v tag b.number (expandBlock stored) (closePlace v (transactionGood s)))

/-- BLOCK_READ_DONE (R81). -/
def execBlockReadDone (data : List Byte) (s : State) : Answer :=
  match s.csr.hand with
  | some { what := .block v tag b, .. } =>
    if storedIn b.samples b.number ≤ data.length then
      .next (blockRead v tag b (data.take (storedIn b.samples b.number)) s)
    else .next s
  | _ => .next s

/-- TRANSACTION_TIMEOUT: the scan ends BAD, the lookup with NONE, the block as silence (R83, R84). -/
def execTransactionTimeout (s : State) : Answer :=
  match s.csr.hand with
  | some h =>
    let s := transactionFailed s
    match h.what with
    | .header => .next (scanBad s)
    | .chunk _ => .next (scanBad s)
    | .probe v tag _ => .next (serve (deliverLookup v tag none (closePlace v s)))
    | .block v tag b => .next (serve (deliverBlock v tag b.number silentBlock (closePlace v s)))
  | none => .next s

end Sys2Proof.Machine
end

