-- ==== Sys2Proof/Machine/Attempts.lean ====
section
/-! DEFINITION. The meanings of the line's commands that are not received frames: IDLE_GAP, the ends of
attempts, QUIET_PERIOD_END, LINE_STUCK, the jabber lockout, RECEIVE_TIMEOUT, FRAME_ERROR. -/

namespace Sys2Proof.Machine

/-- IDLE_GAP (R3, R19, R21, R41): the head begins or every backoff counts down; STUCK ends where it
stood; in ASLEEP a held WAKE request begins. While an attempt is in hand the line gives no gap. -/
def execIdleGap (s : State) : Answer :=
  if s.line.driving.isEmpty then
    match s.line.state with
    | .off => .next s
    | .active => .next (gap s)
    | .quiet => .next (gap s)
    | .stuck => .next (gap (leaveStuck s))
    | .asleep =>
      if s.line.wake = .held ∧ ¬ s.line.lockout then
        .next (followOwn (wakeChars s.csr.fleet) { s with line.wake := .sending })
      else .next s
  else .next s

/-- Own delivery of a sent SCENE or DOOR, with the station's own origin, under the field judgement of a
received frame (R50). It does not pass through LINE, so a refused body is not counted. -/
def ownDelivery (r : Record) (s : State) : State :=
  match r.kind with
  | .scene => if sceneFieldsOk r.body then applyScene s.stc.origin r.body s else s
  | .door => if (byteAt r.body 0).toNat ≤ 1 then applyDoor s.stc.origin r.body s else s
  | _ => s

/-- ATTEMPT_SENT: the record leaves, the failure count is 0, a SCENE or DOOR is delivered; the own frame has
measured an estimate of 96 (R5, R11, R42, R50). -/
def execAttemptSent (s : State) : Answer :=
  match s.txq.flying with
  | some r =>
    .next (ownDelivery r { s with
      line.fails := 0, line.driving := [], line.priorCapture := none,
      line.rx := .fresh Config.nominalBit, txq := s.txq.leave r.order })
  | none => .next s

/-- ATTEMPT_LOST at a bit of the wave: a yield or a lost arbitration (R3, R9, R43); a lost WAKE attempt
waits for the next gap (R21). -/
def execAttemptLost (bit : Nat) (s : State) : Answer :=
  if readbackAt (waveOf s.line.driving) bit = .lost then
    match s.txq.flying with
    | some r => .next (stopDriving bit { s with txq := s.txq.lost r })
    | none =>
      if s.line.wake = .sending then .next (stopDriving bit { s with line.wake := .held }) else .next s
  else .next s

/-- ATTEMPT_FAILED by BIT_ERR at a bit of the wave (R10, R11, R44). -/
def execAttemptFailed (bit : Nat) (s : State) : Answer :=
  if readbackAt (waveOf s.line.driving) bit = .failed then
    match s.txq.flying with
    | some r => .next (failAttempt r (stopDriving bit s))
    | none => .next s
  else .next s

/-- QUIET_PERIOD_END: the count is set to 8; QUIET returns to ACTIVE, STUCK stays (R18, R19). -/
def execQuietPeriodEnd (s : State) : Answer :=
  if s.line.quietLeft.isSome then
    let s := { s with line.quietLeft := none, line.fails := 8 }
    if s.line.state = .quiet then .next (resumePeriodic { s with line.state := .active }) else .next s
  else .next s

/-- LINE_STUCK: STUCK from ACTIVE or QUIET, the periodic timers held (R19, R66, R180). The run is no BREAK, and
the receiver waits for the next one, in STUCK and in ASLEEP too (R4, R13). -/
def execLineStuck (s : State) : Answer :=
  if s.line.state = .active ∨ s.line.state = .quiet then
    .next (holdPeriodic { s with line.state := .stuck, line.rx := .fresh s.line.rx.estimate })
  else if s.line.state = .stuck ∨ s.line.state = .asleep then .next { s with line.rx := .fresh s.line.rx.estimate }
  else .next s

/-- The count at which the own driver's dominant run that JABBER ends began (R22). -/
def jabberFrom (s : State) : Nat := Config.countsPerMicro * (s.ref.micros - Config.jabberMicros)

/-- The receiver under a jabbering driver: the run is still the own BREAK, or one that has broken the reception
and is taken as a BREAK (R4, R13); an own TUNE that the run left whole has measured 96 (R5). -/
def jabberedReception (s : State) : State :=
  let r := s.line.rx
  let estimate := if r.edgeRef + 1536 ≤ jabberFrom s then Config.nominalBit else r.estimate
  settleCapture (decide (r.edgeRef ≤ jabberFrom s))
    { s with line.rx := { Reception.fresh estimate with phase := .inBreak } }

/-- JABBER: the lockout is set and the attempt in hand fails (R22). -/
def execJabber (s : State) : Answer :=
  if s.line.state = .off then .next s
  else
    let s := { s with line.lockout := true }
    match s.txq.flying with
    | some r => .next (failAttempt r (jabberedReception s))
    | none => if s.line.wake = .sending then .next (endWake (jabberedReception s)) else .next s

/-- JABBER_LOCKOUT_CLEAR: the line has been recessive for 50 ms (R22). -/
def execJabberLockoutClear (s : State) : Answer := .next { s with line.lockout := false }

/-- The counts of a reception that the receive limit ends, its BREAK at the shortest (R4, R14). -/
def timeoutCounts : Nat := Config.breakCounts + Config.limitCounts

/-- RECEIVE_TIMEOUT: an unfinished reception ends 2,000 us after its first TUNE edge and is counted, under the own
BREAK too (R14); in ASLEEP it is not counted (R20). -/
def execReceiveTimeout (s : State) : Answer :=
  if follows timeoutCounts s then
    if receiving s then
      .next (countRxError (captureEdge Config.receiveLimitMicros
        { s with line.rx := .fresh s.line.rx.estimate }))
    else if s.line.state = .asleep then .next { s with line.rx := .fresh s.line.rx.estimate }
    else .next s
  else if openBeforeOwn timeoutCounts s then .next (endUnderOwn (some Config.receiveLimitMicros) s)
  else .next s

/-- FRAME_ERROR: a reception that ends in error is dropped and counted once (R12), under the own BREAK too (R13); one
that HEAD origin 63 ends is not counted (R7), nor is any in ASLEEP (R20). Errors in a frame that the station is itself
sending are not counted. A line with no error on it is no FRAME_ERROR (log entry 5). -/
def execFrameError (f : RxFrame) (s : State) : Answer :=
  if hears f s then
    match verdictOn f with
    | .error => .next (countRxError (heard f.heard s))
    | .dropped => if f.heard.fin = .wakeHead then .next (heard f.heard s) else .next s
    | .other => .next s
    | .good => .next s
  else .next (notHeard f s)

/-- FOREIGN_FRAME: a good frame of a foreign kind is dropped without a count (R15). -/
def execForeignFrame (k : ForeignKind) (f : RxFrame) (s : State) : Answer :=
  .next (receiveFrame (foreignCode k) f true id s)

end Sys2Proof.Machine
end

