-- ==== Sys2Proof/Machine/Frames.lean ====
section
/-! DEFINITION. The meanings of the received frames of the known kinds (R16 and the owners' chapters). -/

namespace Sys2Proof.Machine

/-! ## TIME -/

/-- The WAITING announcement's start is reached: its CHIME phase begins (R124). -/
def chimeIfDue (s : State) : State :=
  match s.ann.current with
  | some a =>
    if a.phase = .waiting ∧ reached s.dclk.now a.start = true then relightOverlay (startChime s) else s
  | none => s

/-- A forward step: the offset is added whole, and every instant it carries past is reached at that moment
(R58, R63). -/
def forwardStep (offset : Nat) (s : State) : State :=
  let s := { s with dclk.now := s.dclk.now.addMicros offset }
  expireClaims (chimeIfDue (expireDoors (promoteDue s)))

/-- TIME is withdrawn and its timer restarts with a regular period, unless it is stopped (R64). -/
def quietTime (s : State) : State :=
  let s := withdraw .time s
  if s.dclk.timer.isStopped then s
  else
    let d := drawValue 6 s
    let s := afterDraw s
    { s with
      dclk.timer := s.dclk.timer.restart ((Config.timeRegularMillis + d) * 1000),
      dclk.firstPeriod := false }

/-- The timer is shortened to at most 16 + d ms, unless it is stopped (R65). -/
def hastenTime (s : State) : State :=
  if s.dclk.timer.isStopped then s
  else
    let d := drawValue 6 s
    let s := afterDraw s
    { s with dclk.timer := s.dclk.timer.shorten ((Config.timeShortMillis + d) * 1000) }

/-- The sender's deck time in a TIME body (R25). -/
def timeOfBody (body : List Byte) : DeckTime := { ms := field32 body 0, us := field16 body 4 }

/-- The offset decides: step, suppression band, or a slow sender (R62). -/
def takeTime (body : List Byte) (s : State) : State :=
  let offset := (timeOfBody body).diffMicros s.dclk.capture
  if 0 < offset then quietTime (forwardStep offset.toNat s)
  else if -Config.suppressionMicros ≤ offset then quietTime s
  else hastenTime s

/-- RECEIVE_TIME (R25, R62). -/
def execReceiveTime (f : RxFrame) (s : State) : Answer :=
  .next (serve (receiveFrame 1 f (decide (field16 f.body 4 ≤ 999)) (takeTime f.body) s))

/-! ## CUE, HUSH -/

/-- RECEIVE_CUE (R26, R87). -/
def execReceiveCue (f : RxFrame) (s : State) : Answer :=
  .next (serve (receiveFrame 2 f (decide (field16 f.body 0 < 1024))
    (judgeCue { cue := field16 f.body 0, start := field32 f.body 2 }) s))

/-- RECEIVE_HUSH (R29, R91). -/
def execReceiveHush (f : RxFrame) (s : State) : Answer :=
  .next (serve (receiveFrame 7 f (decide (field16 f.body 0 < 1024 ∨ field16 f.body 0 = 65535))
    (hush (field16 f.body 0)) s))

/-! ## ANNOUNCE, STOP_REQ, DOOR -/

/-- RECEIVE_ANNOUNCE (R26, R121). -/
def execReceiveAnnounce (f : RxFrame) (s : State) : Answer :=
  .next (serve (receiveFrame 3 f (decide (field16 f.body 0 < 512))
    (judgeAnnounce (field16 f.body 0) (field32 f.body 2)) s))

/-- Another sender's STOP_REQ: the own record withdrawn, the own request CLOSED, and the latch rises if it
is CLEAR and no door is open (R113). -/
def stopHeard (s : State) : State :=
  let s := withdraw .stopReq { s with ann.ownOpen := false }
  if doorOpen s || s.ann.latch then s else raiseLatch s

/-- RECEIVE_STOP_REQ (R113); any mask is accepted (R27). -/
def execReceiveStopReq (f : RxFrame) (s : State) : Answer :=
  .next (serve (receiveFrame 4 f true stopHeard s))

/-- RECEIVE_DOOR (R27, R116). -/
def execReceiveDoor (f : RxFrame) (s : State) : Answer :=
  .next (receiveFrame 5 f (decide ((byteAt f.body 0).toNat ≤ 1)) (applyDoor (headOrigin f.head) f.body) s)

/-! ## SCENE, STATUS, PARK -/

/-- RECEIVE_SCENE (R28, R163). -/
def execReceiveScene (f : RxFrame) (s : State) : Answer :=
  .next (receiveFrame 6 f (sceneFieldsOk f.body) (applyScene (headOrigin f.head) f.body) s)

/-- RECEIVE_STATUS: dropped without a count, its body not judged (R16). -/
def execReceiveStatus (f : RxFrame) (s : State) : Answer := .next (receiveFrame 8 f true id s)

/-- PARK for this station's fleet, while AWAKE (R174). -/
def parkHeard (body : List Byte) (s : State) : State :=
  if field16 body 0 = s.csr.fleet.toNat ∧ s.stc.state = .awake then enterParking s else s

/-- RECEIVE_PARK (R29, R174). -/
def execReceivePark (f : RxFrame) (s : State) : Answer :=
  .next (receiveFrame 9 f true (parkHeard f.body) s)

end Sys2Proof.Machine
end

