-- ==== Sys2Proof/Machine/Timed.lean ====
section
/-! DEFINITION. The meanings of waking, of Station Control's and the Deck Clock's timers, and of the
instants of deck time: WAKE_MATCH to CLAIM_EXPIRY. -/

namespace Sys2Proof.Machine

/-- WAKE_MATCH: in ASLEEP a pattern whose four copies are the station's fleet code makes a warm start (R20,
R177), the station's own pattern as well (R178); a report that finds the station AWAKE is ignored (R178,
R179). A pattern heard awake ends its reception at HEAD, which is FRAME_ERROR's to take (R7). -/
def execWakeMatch (f : RxFrame) (s : State) : Answer :=
  if s.line.state = .asleep then
    let s := endReception f.heardAsleep s
    if wakeMatches f s.csr.fleet then .next (warmStart s) else .next s
  else .next s

/-- WAKE_ATTEMPT_END: sent, or failed at a bit, the request ends and the warm start is made (R21, R177, R178); the
own TUNE, if its ninth edge came, has measured 96 (R5). A bit at which a difference is a yield or
a lost arbitration (14, 37 to 42) can end no attempt as failed (R3, R9): that the command is taken for a failure there
all the same, and the warm start made, is the model's choice (log entry 48). -/
def execWakeAttemptEnd (failedAt : Option Nat) (s : State) : Answer :=
  if s.line.wake = .sending then
    .next (endWake (match failedAt with
      | some bit => stopDriving bit s
      | none => { s with line.rx := .fresh Config.nominalBit }))
  else .next s

/-- WAKE_WAIT_EXPIRY: the warm start without a report (R177). -/
def execWakeWaitExpiry (s : State) : Answer :=
  if s.stc.wakeWait.isSome then .next (warmStart s) else .next s

/-- PARK_TIMER_EXPIRY: PARKED, the deck clock held (R57, R176). -/
def execParkTimerExpiry (s : State) : Answer :=
  if s.stc.state = .parking then
    .next { s with stc.state := .parked, stc.parkLeft := none, dclk.running := false }
  else .next s

/-- TIME_TIMER_EXPIRY: TIME enqueued, the timer restarted with a regular period (R67). A timer that a TIME has
restarted since it ran out does not expire (R68). -/
def execTimeTimerExpiry (s : State) : Answer :=
  if s.dclk.timer.ranOut then
    let s := enqueue .time [] s
    let d := drawValue 6 s
    let s := afterDraw s
    .next { s with dclk.timer := .running ((Config.timeRegularMillis + d) * 1000) }
  else .next s

/-- STATUS_TIMER_EXPIRY: the report assembled, its marks cleared, enqueued, the timer restarted (R180,
R181). -/
def execStatusTimerExpiry (s : State) : Answer :=
  if s.stc.statusTimer.isRunning then
    let body := statusBody s
    let s := enqueue .status body { s with stc.parkedMark := false, stc.quietMark := false }
    let d := drawValue 10 s
    let s := afterDraw s
    .next { s with stc.statusTimer := .running ((Config.statusMillis + d) * 1000) }
  else .next s

/-- CUE_PROMOTION (R90). -/
def execCuePromotion (s : State) : Answer := .next (serve (promoteDue s))

/-- CHIME_START (R124). -/
def execChimeStart (s : State) : Answer := .next (serve (chimeIfDue s))

/-- DOOR_ENTRY_EXPIRY (R117). -/
def execDoorEntryExpiry (s : State) : Answer := .next (expireDoors s)

/-- CLAIM_EXPIRY (R165, R166, R168). -/
def execClaimExpiry (s : State) : Answer := .next (expireClaims s)

end Sys2Proof.Machine
end

