-- ==== Sys2Proof/Machine/Audio.lean ====
section
/-! DEFINITION. The meanings of the audio commands: SAMPLE_TICK, BLOCK_BOUNDARY, CLIP_END,
NAME_CAP_EXPIRY, GAIN_UPDATE, SOURCE_SILENCE_END and the wind tracker's. -/

namespace Sys2Proof.Machine

/-- The five voices, V0 to V3 and VA. -/
def allVoices : List VoiceId := [.slot .v0, .slot .v1, .slot .v2, .slot .v3, .va]

/-- A voice's clip is over: SILENT, and its end reported (R105). -/
def endClip (v : VoiceId) (s : State) : State :=
  if (playOf s v).over then actOn v (playOf s v).ends s else s

/-- A voice at a block boundary that has not been judged (R103, R104). -/
def crossBoundary (v : VoiceId) (s : State) : State :=
  if (playOf s v).state == .playing && (playOf s v).atBoundary then
    actOn v ((playOf s v).boundary s.dclk.now (outstanding s v)) s
  else s

/-- A clip's end or a boundary that an earlier tick left is taken before the next one (log entry 3). -/
def settleVoices (s : State) : State :=
  allVoices.foldl (fun s v => crossBoundary v (endClip v s)) s

/-- The event a tick has brought a voice to. -/
def tickEvents (s : State) (v : VoiceId) : List Instr :=
  if (playOf s v).over then [.clipEnd v]
  else if (playOf s v).atBoundary then [.blockBoundary v]
  else []

/-- The samples the slots hand over at a tick (R100). -/
def slotSamples (s : State) : Slots Int :=
  { v0 := s.vtab.slots.v0.play.tickSample s.dclk.now
    v1 := s.vtab.slots.v1.play.tickSample s.dclk.now
    v2 := s.vtab.slots.v2.play.tickSample s.dclk.now
    v3 := s.vtab.slots.v3.play.tickSample s.dclk.now }

/-- One voice's position moves on (R100). -/
def tickVoice (s : State) (v : VoiceId) : State := setPlay v ((playOf s v).tick s.dclk.now) s

/-- Every voice hands its sample over, every output is mixed, every position moves on (R100, R142, R149). -/
def soundTick (s : State) : State :=
  let va := s.vtab.va.play.tickSample s.dclk.now
  let s := { s with lvl.out := Outputs.of (mix s (slotSamples s) va) }
  allVoices.foldl tickVoice s

/-- SAMPLE_TICK (R100, R142). -/
def execSampleTick (s : State) : Answer :=
  let s := soundTick (settleVoices s)
  let s := raise (allVoices.flatMap (tickEvents s)) s
  .next (serve (allVoices.foldl (fun s v => topUpVoice v s) s))

/-- BLOCK_BOUNDARY (R100, R103, R104). -/
def execBlockBoundary (v : VoiceId) (s : State) : Answer := .next (serve (crossBoundary v s))

/-- CLIP_END (R105). -/
def execClipEnd (v : VoiceId) (s : State) : Answer := .next (serve (endClip v s))

/-- The names are cut: every naming slot returned, VA stopped, the announcement complete (R128). -/
def cutNames (s : State) : State :=
  let s := forSlots returnSlot s
  let s :=
    if s.ann.purpose == .name then
      let s := vaStop s
      { s with ann.speakerName := .done }
    else s
  complete s

/-- NAME_CAP_EXPIRY (R128). -/
def execNameCapExpiry (s : State) : Answer :=
  if inName s && s.ann.nameCap.isSome then .next (serve (cutNames s)) else .next s

/-- GAIN_UPDATE: every output's pairs (R144, R146). -/
def execGainUpdate (s : State) : Answer := .next { s with lvl.gains := Outputs.of (updatedGains s) }

/-- SOURCE_SILENCE_END of an output whose 8 ms have passed; a silence that a later change has restarted runs on
(R147, log entry 4). -/
def execSourceSilenceEnd (o : Output) (s : State) : Answer :=
  if s.lvl.silence.get o = some 0 then .next { s with lvl.silence := s.lvl.silence.set o none } else .next s

/-- The sample enters the present window, spoiled if VA is not IDLE (R150). -/
def windTake (n : Nat) (s : State) : State :=
  let w := s.lvl.wind
  { s with lvl.wind := { w with
      count := w.count + 1, sum := w.sum + n, spoiled := w.spoiled || !vaIdle s } }

/-- WIND_SAMPLE: while AWAKE; the eighth sample brings the window's end (R150). A full window that an
earlier sample left is ended first (log entry 3). -/
def execWindSample (level : Byte) (s : State) : Answer :=
  let s := { s with pins.noise := level }
  if isAwake s then
    let s := if 8 ≤ s.lvl.wind.count then windEnd s else s
    let s := windTake level.toNat s
    if 8 ≤ s.lvl.wind.count then .next (raise [.windWindowEnd] s) else .next s
  else .next s

/-- WIND_WINDOW_END at the eighth sample (R150 to R152). -/
def execWindWindowEnd (s : State) : Answer :=
  if isAwake s && decide (8 ≤ s.lvl.wind.count) then .next (windEnd s) else .next s

end Sys2Proof.Machine
end

