-- ==== Sys2Proof/Machine/SeatPanel.lean ====
section
/-! DEFINITION. The meanings of the seat inputs, the jacks, the buttons and the door switch:
SEAT_INPUT_SAMPLE to DOOR_REFRESH. -/

namespace Sys2Proof.Machine

/-! ## Filters (R131) -/

/-- A sample: equal to the accepted state, the run is 0; the fifth differing one is accepted (R131). -/
def Filter.sample (f : Filter) (level : Bool) : Filter :=
  if level = f.accepted then { f with run := 0 }
  else if 5 ≤ f.run + 1 then { accepted := level, run := 0 }
  else { f with run := f.run + 1 }

/-- The event of an accepted change. -/
def changed (f : Filter) (level : Bool) (press release : List Instr) : List Instr :=
  if (f.sample level).accepted = f.accepted then [] else if level then press else release

/-- One seat's five filters take a sample. -/
def Panel.sample (p : Panel) (l : PanelLevels) : Panel :=
  { p with
    lang := p.lang.sample l.lang, volUp := p.volUp.sample l.volUp, volDown := p.volDown.sample l.volDown,
    stop := p.stop.sample l.stop, detect := p.detect.sample l.detect }

/-- The events of one seat's accepted changes; the release of STOP is not passed on (R140). R131 lets changes accepted
at one sample be taken in either order; the model takes a seat's in the order below (log entry 22). -/
def panelEvents (j : Seat) (p : Panel) (l : PanelLevels) : List Instr :=
  changed p.detect l.detect [.plug j] [.unplug j]
    ++ changed p.lang l.lang [.langPress j] [.langRelease j]
    ++ changed p.volUp l.volUp [.volUpPress j] [.volRelease j .up]
    ++ changed p.volDown l.volDown [.volDownPress j] [.volRelease j .down]
    ++ changed p.stop l.stop [.stopPress j] []

/-- The filters run while AWAKE, PARKING or PARKED (R132). -/
def filtersRun (s : State) : Bool :=
  s.stc.state == .awake || s.stc.state == .parking || s.stc.state == .parked

/-- The door input is sampled while AWAKE, when the configuration has it on (R118). -/
def doorSampled (s : State) : Bool := isAwake s && s.csr.config.doorInput

/-- The twenty seat inputs take a sample; accepted changes are taken from seat A to seat D (R131, log entry 22). -/
def sampleSeats (l : SeatPins) (s : State) : State :=
  let p := s.jck.panels
  raise (panelEvents .a p.a l.a ++ panelEvents .b p.b l.b ++ panelEvents .c p.c l.c ++ panelEvents .d p.d l.d)
    { s with jck.panels :=
        { a := p.a.sample l.a, b := p.b.sample l.b, c := p.c.sample l.c, d := p.d.sample l.d } }

/-- The door input takes a sample (R118). -/
def sampleDoor (level : Bool) (s : State) : State :=
  let f := s.ann.doorFilter
  raise (changed f level [.doorSwitchOpen] [.doorSwitchClosed])
    { s with ann.doorFilter := f.sample level }

/-- SEAT_INPUT_SAMPLE (R118, R131, R132). -/
def execSeatInputSample (levels : SeatPins) (s : State) : Answer :=
  let s := { s with pins.seats := levels }
  let s := if filtersRun s then sampleSeats levels s else s
  if doorSampled s then .next (sampleDoor levels.door s) else .next s

/-! ## Jacks (R133 to R136) -/

def jackOf (s : State) (j : Seat) : Jack := s.jck.jacks.get j

def setJack (j : Seat) (x : Jack) (s : State) : State := { s with jck.jacks := s.jck.jacks.set j x }

def panelOf (s : State) (j : Seat) : Panel := s.jck.panels.get j

def setPanel (j : Seat) (p : Panel) (s : State) : State := { s with jck.panels := s.jck.panels.set j p }

/-- An input's accepted state as an accepted event leaves it. -/
def Filter.settled (level : Bool) : Filter := { accepted := level, run := 0 }

/-- A plugged jack: house language, default step, the plug counted (R133, R136). -/
def Jack.plugged (x : Jack) (c : ConfigCopy) (state : JackState) (settle : Option Nat) : Jack :=
  { state := state, language := c.house, step := c.defaultStep, settle := settle,
    plugs := bump 65535 x.plugs 1 }

/-- PLUG: on an EMPTY jack, SETTLING while AWAKE (R133), HELD while PARKING or PARKED, where PARKED makes
it a wake request (R136, R177). -/
def execPlug (j : Seat) (s : State) : Answer :=
  if filtersRun s ∧ (jackOf s j).state = .empty then
    let s := setPanel j { panelOf s j with detect := .settled true } s
    let x := jackOf s j
    if isAwake s then
      .next (setJack j (x.plugged s.csr.config .settling (some Config.settleMicros)) s)
    else
      let s := setJack j (x.plugged s.csr.config .held none) s
      if s.stc.state = .parked then .next (wakeRequest s) else .next s
  else .next s

/-- A jack that leaves LISTENING leaves its slot, the speaker retries, and an announcement with nothing
left to name completes (R95, R126, R129). -/
def jackLeaves (j : Seat) (s : State) : State :=
  serve (completeIfDone (retrySpeaker (closeOutput (.jack j) (leaveSlot (.jack j) s))))

/-- UNPLUG: EMPTY from any state; from LISTENING the jack leaves its slot (R135). -/
def execUnplug (j : Seat) (s : State) : Answer :=
  if filtersRun s ∧ (jackOf s j).state ≠ .empty then
    let was := (jackOf s j).state
    let s := setPanel j { panelOf s j with detect := .settled false } s
    let s := setJack j { jackOf s j with state := .empty, settle := none } s
    if was = .listening then .next (jackLeaves j s) else .next s
  else .next s

/-- SETTLE_END: the jack becomes LISTENING and is placed; a speaker left STARVED retries, and if the slot
takes over its name an announcement with nothing left to name completes (R134, R93, R96, R127, R129). -/
def execSettleEnd (j : Seat) (s : State) : Answer :=
  if (jackOf s j).state = .settling then
    let x := jackOf s j
    let s := setJack j { x with state := .listening, settle := none } s
    .next (serve (completeIfDone (retrySpeaker (placeJack j x.language s))))
  else .next s

/-! ## Buttons (R137 to R141) -/

/-- A button press accepted while PARKED is a wake request and does nothing else (R141). -/
def pressWakes (s : State) : State := if s.stc.state = .parked then wakeRequest s else s

/-- The step one up or down, within 0..15 (R137). -/
def stepMoved (b : VolButton) (step : Nat) : Nat :=
  match b with
  | .up => min 15 (step + 1)
  | .down => step - 1

/-- A press or a repeat acts when the station is AWAKE and the jack LISTENING at that moment (R137). -/
def volumeActs (s : State) (j : Seat) : Bool := isAwake s && listening (jackOf s j)

def moveStep (b : VolButton) (j : Seat) (s : State) : State :=
  let x := jackOf s j
  setJack j { x with step := stepMoved b x.step } s

def Panel.repeatOf (p : Panel) : VolButton → Option Nat
  | .up => p.upRepeat
  | .down => p.downRepeat

def Panel.setRepeat (p : Panel) (b : VolButton) (t : Option Nat) : Panel :=
  match b with
  | .up => { p with upRepeat := t }
  | .down => { p with downRepeat := t }

def Panel.setVolume (p : Panel) (b : VolButton) (level : Bool) : Panel :=
  match b with
  | .up => { p with volUp := .settled level }
  | .down => { p with volDown := .settled level }

/-- A volume press: the step moves and the repeat timer starts at 500 ms (R137). -/
def pressVolume (b : VolButton) (j : Seat) (s : State) : State :=
  if filtersRun s then
    let s := setPanel j ((panelOf s j).setVolume b true) s
    if volumeActs s j then
      let s := moveStep b j s
      setPanel j ((panelOf s j).setRepeat b (some Config.repeatFirstMicros)) s
    else pressWakes s
  else s

/-- VOL_UP_PRESS (R137). -/
def execVolUpPress (j : Seat) (s : State) : Answer := .next (pressVolume .up j s)

/-- VOL_DOWN_PRESS (R137). -/
def execVolDownPress (j : Seat) (s : State) : Answer := .next (pressVolume .down j s)

/-- VOL_RELEASE: the button's repeat timer is stopped (R137). -/
def execVolRelease (j : Seat) (b : VolButton) (s : State) : Answer :=
  if filtersRun s then
    .next (setPanel j (((panelOf s j).setVolume b false).setRepeat b none) s)
  else .next s

/-- VOL_REPEAT: a further press, where it may act, and the timer restarts at 250 ms (R137). -/
def execVolRepeat (j : Seat) (b : VolButton) (s : State) : Answer :=
  if ((panelOf s j).repeatOf b).isSome then
    let s := setPanel j ((panelOf s j).setRepeat b (some Config.repeatMicros)) s
    if volumeActs s j then .next (moveStep b j s) else .next s
  else .next s

/-- LANG_PRESS: while AWAKE the hold timer starts at 1,000 ms (R138). -/
def execLangPress (j : Seat) (s : State) : Answer :=
  if filtersRun s then
    let s := setPanel j { panelOf s j with lang := .settled true } s
    if isAwake s then .next (setPanel j { panelOf s j with hold := some Config.holdMicros } s)
    else .next (pressWakes s)
  else .next s

/-- A LISTENING jack moves to the next language and to that language's slot (R94, R138). -/
def nextLanguage (j : Seat) (s : State) : State :=
  let x := jackOf s j
  let language := (x.language + 1) % s.csr.config.languages
  let s := setJack j { x with language := language } s
  serve (completeIfDone (retrySpeaker (placeJack j language (leaveSlot (.jack j) s))))

/-- LANG_RELEASE before the hold timer runs out (R138). -/
def execLangRelease (j : Seat) (s : State) : Answer :=
  if filtersRun s then
    let running := (panelOf s j).hold.isSome
    let s := setPanel j { panelOf s j with lang := .settled false, hold := none } s
    if running ∧ listening (jackOf s j) ∧ 2 ≤ s.csr.config.languages then .next (nextLanguage j s)
    else .next s
  else .next s

/-- The reading request of the seat's pair is toggled and told to the Lamp Unit (R139). -/
def toggleReading (j : Seat) (s : State) : State :=
  match j with
  | .a => relightOverlay { s with jck.readAB := !s.jck.readAB }
  | .b => relightOverlay { s with jck.readAB := !s.jck.readAB }
  | .c => relightOverlay { s with jck.readCD := !s.jck.readCD }
  | .d => relightOverlay { s with jck.readCD := !s.jck.readCD }

/-- LANG_HOLD_EXPIRY: the press is spent and the pair's request toggled (R139). -/
def execLangHoldExpiry (j : Seat) (s : State) : Answer :=
  if (panelOf s j).hold.isSome then
    .next (toggleReading j (setPanel j { panelOf s j with hold := none } s))
  else .next s

/-- The bit of a seat in a seat mask (R27). -/
def seatMask : Seat → Byte
  | .a => 1
  | .b => 2
  | .c => 4
  | .d => 8

/-- A STOP press judged by the latch and the open-door table (R112). -/
def judgeStop (j : Seat) (s : State) : State :=
  if doorOpen s then s
  else if s.ann.latch then
    if s.ann.ownOpen then enqueue .stopReq [seatMask j] s else s
  else
    let s := raiseLatch s
    enqueue .stopReq [seatMask j] { s with ann.ownOpen := true }

/-- STOP_PRESS: judged while AWAKE, a wake request while PARKED (R112, R140, R141). -/
def execStopPress (j : Seat) (s : State) : Answer :=
  if filtersRun s then
    let s := setPanel j { panelOf s j with stop := .settled true } s
    if isAwake s then .next (serve (judgeStop j s)) else .next (pressWakes s)
  else .next s

/-! ## The door switch (R118) -/

/-- DOOR_SWITCH_OPEN: own entry and cleared latch at once, DOOR open enqueued, the refresh timer started. -/
def execDoorSwitchOpen (s : State) : Answer :=
  if doorSampled s then
    let s := doorReported s.stc.origin { s with ann.doorFilter := .settled true }
    let s := enqueue .door [1] s
    .next { s with ann.doorRefresh := some Config.doorRefreshMicros }
  else .next s

/-- DOOR_SWITCH_CLOSED: own entry removed at once, DOOR closed enqueued, the refresh timer stopped. -/
def execDoorSwitchClosed (s : State) : Answer :=
  if doorSampled s then
    let s := doorRemoved s.stc.origin { s with ann.doorFilter := .settled false }
    let s := enqueue .door [0] s
    .next { s with ann.doorRefresh := none }
  else .next s

/-- DOOR_REFRESH: DOOR open enqueued again, the timer restarted. -/
def execDoorRefresh (s : State) : Answer :=
  if s.ann.doorRefresh.isSome then
    let s := enqueue .door [1] s
    .next { s with ann.doorRefresh := some Config.doorRefreshMicros }
  else .next s

end Sys2Proof.Machine
end

