-- ==== Sys2Proof/Machine/Lighting.lean ====
section
/-! DEFINITION. The meanings of the Lamp Unit's commands: FADE_TICK, AMBIENT_SAMPLE, WISH_SET,
LAMP_CHECK, LAMP_FAULT_CHANGE. -/

namespace Sys2Proof.Machine

/-- Fade ticks and lamp checks come while AWAKE or PARKING (R160, R170). -/
def lampsRun (s : State) : Bool := s.stc.state == .awake || s.stc.state == .parking

/-- FADE_TICK: every channel moves toward its target by its step or lands on it (R160). -/
def execFadeTick (s : State) : Answer :=
  if lampsRun s then .next { s with lmp.chans := s.lmp.chans.imap fun _ ch => ch.tick } else .next s

/-- The class of an ambient sample (R167). -/
def ambientClass (c : ConfigCopy) (n : Nat) : RunKind :=
  if n < c.darkThreshold then .dark else if c.brightThreshold < n then .bright else .none

/-- The wish of a run of 120 (R167). -/
def wishOf : RunKind → Wish
  | .none => .none
  | .dark => .dark
  | .bright => .light

/-- The run after a sample of a class (R167). -/
def runMoved (k : RunKind) (s : State) : State :=
  match k with
  | .none => { s with lmp.runKind := .none, lmp.runLen := 0 }
  | k =>
    if s.lmp.runKind = k then { s with lmp.runLen := bump 120 s.lmp.runLen 1 }
    else { s with lmp.runKind := k, lmp.runLen := 1 }

/-- A run of 120 whose wish has not been set. -/
def wishDue (s : State) : Bool :=
  decide (120 ≤ s.lmp.runLen) && !(s.lmp.runKind == .none) && !(s.lmp.wish == wishOf s.lmp.runKind)

/-- A run has reached 120 samples: the wish is its own (R167). -/
def setWish (s : State) : State := if wishDue s then { s with lmp.wish := wishOf s.lmp.runKind } else s

/-- AMBIENT_SAMPLE: while AWAKE the run moves and the request is evaluated (R167, R168). A run that this
sample brings to a new wish is left to WISH_SET, which evaluates with it (log entry 33). -/
def execAmbientSample (level : Byte) (s : State) : Answer :=
  let s := { s with pins.ambient := level }
  if isAwake s then
    let s := runMoved (ambientClass s.csr.config level.toNat) (setWish s)
    if wishDue s then .next (raise [.wishSet] s) else .next (evaluateRequest s)
  else .next s

/-- WISH_SET: the wish becomes the run's, and the request is evaluated with it (R167, R168). -/
def execWishSet (s : State) : Answer :=
  if isAwake s && wishDue s then .next (evaluateRequest (setWish s)) else .next s

/-- One channel's reading: only at an integer level of 16 or more (R170). -/
def Channel.check (c : Channel) (open_ : Bool) : Channel :=
  if 16 ≤ c.level / 256 then
    if open_ = c.fault then { c with faultRun := 0 } else { c with faultRun := c.faultRun + 1 }
  else c

/-- A run of 3: the channel changes between OK and FAULT and its run returns to 0 (R170). -/
def Channel.flip (c : Channel) : Channel :=
  if 3 ≤ c.faultRun then { c with fault := !c.fault, faultRun := 0 } else c

/-- One channel's change, and the targets recomputed with 120 ms (R171). -/
def faultChange (ch : Chan) (s : State) : State :=
  if 3 ≤ (s.lmp.chans.get ch).faultRun then
    relightOverlay { s with lmp.chans := s.lmp.chans.set ch (s.lmp.chans.get ch).flip }
  else s

def allChans : List Chan := [.ch0, .ch1, .ch2, .ch3, .ch4, .ch5]

/-- The sense line of a channel. -/
def senseOf (l : SenseLines) : Chan → Bool
  | .ch0 => l.ch0
  | .ch1 => l.ch1
  | .ch2 => l.ch2
  | .ch3 => l.ch3
  | .ch4 => l.ch4
  | .ch5 => l.ch5

/-- Changes that an earlier check left are taken first (log entry 3). -/
def settleLamps (s : State) : State := allChans.foldl (fun s ch => faultChange ch s) s

/-- Every channel against its sense line (R170). -/
def checkLamps (sense : SenseLines) (s : State) : State :=
  { s with lmp.chans := s.lmp.chans.imap fun c ch => ch.check (senseOf sense c) }

/-- A run of 3 brings LAMP_FAULT_CHANGE (R170). -/
def raiseLampChanges (s : State) : State :=
  raise ((allChans.filter fun c => decide (3 ≤ (s.lmp.chans.get c).faultRun)).map .lampFaultChange) s

/-- LAMP_CHECK: every lit channel against its sense line (R170). -/
def execLampCheck (sense : SenseLines) (s : State) : Answer :=
  let s := { s with pins.sense := sense }
  if lampsRun s then .next (raiseLampChanges (checkLamps sense (settleLamps s))) else .next s

/-- LAMP_FAULT_CHANGE (R170, R171). -/
def execLampFaultChange (ch : Chan) (s : State) : Answer := .next (faultChange ch s)

end Sys2Proof.Machine
end

