-- ==== Sys2Proof/Machine/Dispatch.lean ====
section
/-! DEFINITION. One arm for each command, a direct call of its meaning. -/

namespace Sys2Proof.Machine

/-- What a command does to everything but the queue. -/
def exec (i : Instr) (s : State) : Host.Outcome State Fault Refusal :=
  match i with
  | .powerOn origin load => Sys2Proof.Machine.execPowerOn origin load s
  | .headerReadDone data => Sys2Proof.Machine.execHeaderReadDone data s
  | .scanChunkDone data => Sys2Proof.Machine.execScanChunkDone data s
  | .probeDone data => Sys2Proof.Machine.execProbeDone data s
  | .blockReadDone data => Sys2Proof.Machine.execBlockReadDone data s
  | .transactionTimeout => Sys2Proof.Machine.execTransactionTimeout s
  | .idleGap => Sys2Proof.Machine.execIdleGap s
  | .attemptSent => Sys2Proof.Machine.execAttemptSent s
  | .attemptLost bit => Sys2Proof.Machine.execAttemptLost bit s
  | .attemptFailed bit => Sys2Proof.Machine.execAttemptFailed bit s
  | .quietPeriodEnd => Sys2Proof.Machine.execQuietPeriodEnd s
  | .lineStuck => Sys2Proof.Machine.execLineStuck s
  | .jabber => Sys2Proof.Machine.execJabber s
  | .jabberLockoutClear => Sys2Proof.Machine.execJabberLockoutClear s
  | .receiveTimeout => Sys2Proof.Machine.execReceiveTimeout s
  | .frameError f => Sys2Proof.Machine.execFrameError f s
  | .receiveTime f => Sys2Proof.Machine.execReceiveTime f s
  | .receiveCue f => Sys2Proof.Machine.execReceiveCue f s
  | .receiveHush f => Sys2Proof.Machine.execReceiveHush f s
  | .receiveAnnounce f => Sys2Proof.Machine.execReceiveAnnounce f s
  | .receiveStopReq f => Sys2Proof.Machine.execReceiveStopReq f s
  | .receiveDoor f => Sys2Proof.Machine.execReceiveDoor f s
  | .receiveScene f => Sys2Proof.Machine.execReceiveScene f s
  | .receiveStatus f => Sys2Proof.Machine.execReceiveStatus f s
  | .receivePark f => Sys2Proof.Machine.execReceivePark f s
  | .wakeMatch f => Sys2Proof.Machine.execWakeMatch f s
  | .wakeAttemptEnd failedAt => Sys2Proof.Machine.execWakeAttemptEnd failedAt s
  | .wakeWaitExpiry => Sys2Proof.Machine.execWakeWaitExpiry s
  | .parkTimerExpiry => Sys2Proof.Machine.execParkTimerExpiry s
  | .timeTimerExpiry => Sys2Proof.Machine.execTimeTimerExpiry s
  | .statusTimerExpiry => Sys2Proof.Machine.execStatusTimerExpiry s
  | .cuePromotion => Sys2Proof.Machine.execCuePromotion s
  | .chimeStart => Sys2Proof.Machine.execChimeStart s
  | .doorEntryExpiry => Sys2Proof.Machine.execDoorEntryExpiry s
  | .claimExpiry => Sys2Proof.Machine.execClaimExpiry s
  | .sampleTick => Sys2Proof.Machine.execSampleTick s
  | .blockBoundary v => Sys2Proof.Machine.execBlockBoundary v s
  | .clipEnd v => Sys2Proof.Machine.execClipEnd v s
  | .nameCapExpiry => Sys2Proof.Machine.execNameCapExpiry s
  | .seatInputSample levels => Sys2Proof.Machine.execSeatInputSample levels s
  | .plug j => Sys2Proof.Machine.execPlug j s
  | .unplug j => Sys2Proof.Machine.execUnplug j s
  | .settleEnd j => Sys2Proof.Machine.execSettleEnd j s
  | .volUpPress j => Sys2Proof.Machine.execVolUpPress j s
  | .volDownPress j => Sys2Proof.Machine.execVolDownPress j s
  | .volRelease j b => Sys2Proof.Machine.execVolRelease j b s
  | .volRepeat j b => Sys2Proof.Machine.execVolRepeat j b s
  | .langPress j => Sys2Proof.Machine.execLangPress j s
  | .langRelease j => Sys2Proof.Machine.execLangRelease j s
  | .langHoldExpiry j => Sys2Proof.Machine.execLangHoldExpiry j s
  | .stopPress j => Sys2Proof.Machine.execStopPress j s
  | .doorSwitchOpen => Sys2Proof.Machine.execDoorSwitchOpen s
  | .doorSwitchClosed => Sys2Proof.Machine.execDoorSwitchClosed s
  | .doorRefresh => Sys2Proof.Machine.execDoorRefresh s
  | .gainUpdate => Sys2Proof.Machine.execGainUpdate s
  | .sourceSilenceEnd o => Sys2Proof.Machine.execSourceSilenceEnd o s
  | .windSample level => Sys2Proof.Machine.execWindSample level s
  | .windWindowEnd => Sys2Proof.Machine.execWindWindowEnd s
  | .fadeTick => Sys2Proof.Machine.execFadeTick s
  | .ambientSample level => Sys2Proof.Machine.execAmbientSample level s
  | .wishSet => Sys2Proof.Machine.execWishSet s
  | .lampCheck sense => Sys2Proof.Machine.execLampCheck sense s
  | .lampFaultChange ch => Sys2Proof.Machine.execLampFaultChange ch s
  | .foreignFrame k f => Sys2Proof.Machine.execForeignFrame k f s

end Sys2Proof.Machine
end

