-- ==== Sys2Proof/Machine/Tick.lean ====
section
/-! DEFINITION. What happens while no command waits: the events that commands have raised are taken, and
then a microsecond of reference passes, with the commands that it makes due (log entries 2, 3, 22, 23). -/

namespace Sys2Proof.Machine

/-! ## A microsecond of every timer -/

/-- A microsecond off an optional timer. -/
def lessOne : Option Nat → Option Nat
  | some n => some (n - 1)
  | none => none

/-- A microsecond off a TIME or STATUS timer; one the line state holds keeps its time (R66, R180). -/
def Timer.lessOne : Timer → Timer
  | .running left => .running (left - 1)
  | t => t

/-- A microsecond off the transaction in hand (R83). -/
def InHand.lessOne (h : InHand) : InHand := { h with left := h.left - 1 }

def Jack.lessOne (x : Jack) : Jack := { x with settle := Machine.lessOne x.settle }

def Panel.lessOne (p : Panel) : Panel :=
  { p with upRepeat := Machine.lessOne p.upRepeat, downRepeat := Machine.lessOne p.downRepeat,
           hold := Machine.lessOne p.hold }

/-- Deck time counts the reference while it runs (R55, R57). -/
def DeckClock.lessOne (c : DeckClock) : DeckClock :=
  { c with now := if c.running then c.now.addMicros 1 else c.now, timer := c.timer.lessOne }

/-- A microsecond of reference: deck time and every timer. -/
def passMicro (s : State) : State :=
  { s with
    ref.micros := s.ref.micros + 1
    dclk := s.dclk.lessOne
    csr.hand := s.csr.hand.map InHand.lessOne
    line.quietLeft := lessOne s.line.quietLeft
    stc.parkLeft := lessOne s.stc.parkLeft
    stc.wakeWait := lessOne s.stc.wakeWait
    stc.statusTimer := s.stc.statusTimer.lessOne
    ann.nameCap := lessOne s.ann.nameCap
    ann.doorRefresh := lessOne s.ann.doorRefresh
    jck.jacks := s.jck.jacks.map Jack.lessOne
    jck.panels := s.jck.panels.map Panel.lessOne
    lvl.silence := Outputs.of fun o => lessOne (s.lvl.silence.get o) }

/-! ## What is due -/

/-- An optional timer has run out. -/
def ranOut (t : Option Nat) : Bool := t == some 0

/-- A command if a condition holds. -/
def dueIf (b : Bool) (c : Instr) : List Instr := if b then [c] else []

/-- A grid of `period` microseconds from `origin`. -/
def onGrid (micros origin period : Nat) : Bool := (micros - origin) % period == 0

/-- The timers that have run out (R18, R83, R67, R118, R128, R176, R177, R180). -/
def dueTimers (s : State) : List Instr :=
  dueIf (s.csr.hand.any fun h => h.left == 0) .transactionTimeout
    ++ dueIf (ranOut s.line.quietLeft) .quietPeriodEnd
    ++ dueIf (ranOut s.stc.wakeWait) .wakeWaitExpiry
    ++ dueIf (ranOut s.stc.parkLeft) .parkTimerExpiry
    ++ dueIf s.dclk.timer.ranOut .timeTimerExpiry
    ++ dueIf s.stc.statusTimer.ranOut .statusTimerExpiry
    ++ dueIf (ranOut s.ann.nameCap) .nameCapExpiry
    ++ dueIf (ranOut s.ann.doorRefresh) .doorRefresh

/-- The instants deck time has reached (R90, R124, R117, R165). -/
def dueInstants (s : State) : List Instr :=
  dueIf (s.prg.queue.any fun c => reached s.dclk.now c.start) .cuePromotion
    ++ dueIf (s.ann.current.any fun a => a.phase == .waiting && reached s.dclk.now a.start) .chimeStart
    ++ dueIf (s.ann.doors.any fun d => reached s.dclk.now d.expiry) .doorEntryExpiry
    ++ dueIf (claimLapsed s.dclk.now s.lmp.claims.p0 || claimLapsed s.dclk.now s.lmp.claims.p1
        || claimLapsed s.dclk.now s.lmp.claims.p2 || claimLapsed s.dclk.now s.lmp.claims.p3) .claimExpiry

/-- One seat's timers that have run out (R134, R137, R139). -/
def dueSeat (s : State) (j : Seat) : List Instr :=
  let p := s.jck.panels.get j
  dueIf (ranOut (s.jck.jacks.get j).settle) (.settleEnd j)
    ++ dueIf (ranOut p.upRepeat) (.volRepeat j .up) ++ dueIf (ranOut p.downRepeat) (.volRepeat j .down)
    ++ dueIf (ranOut p.hold) (.langHoldExpiry j)

/-- The source-switch silences that have run out (R147). -/
def dueSilences (s : State) : List Instr :=
  [Output.jack .a, .jack .b, .jack .c, .jack .d, .spk].flatMap fun o =>
    dueIf (ranOut (s.lvl.silence.get o)) (.sourceSilenceEnd o)

/-- The periodic commands, each on its own grid, with the levels the pins were last sampled at (R131,
R142, R146, R150, R160, R167, R170). The door input is sampled with the seat inputs, on the grid kept from
entry to AWAKE through a warm start: the spec gives its 4 ms samples no phase, so a door open at a warm start
is accepted 16 to 20 ms after it (the model's choice, log entry 23). A silence that ends at an update ends after
it, since its ramp starts at the first update after the 8 ms (R147, section 8.8). -/
def dueGrids (s : State) : List Instr :=
  let t := s.ref.micros
  let g := s.ref.gridFrom
  dueIf (filtersRun s && onGrid t s.ref.seatFrom 4000) (.seatInputSample s.pins.seats)
    ++ dueIf (isAwake s && onGrid t 0 2000) .gainUpdate
    ++ dueSilences s
    ++ dueIf (isAwake s && onGrid t 0 Config.sampleMicros) .sampleTick
    ++ dueIf (lampsRun s && onGrid t g 4000) .fadeTick
    ++ dueIf (isAwake s && onGrid t g 32000) (.windSample s.pins.noise)
    ++ dueIf (isAwake s && onGrid t g 256000) (.ambientSample s.pins.ambient)
    ++ dueIf (lampsRun s && onGrid t g 256000) (.lampCheck s.pins.sense)

/-- Everything due at this microsecond, in the model's order (log entry 22). -/
def dueNow (s : State) : List Instr :=
  dueTimers s ++ dueInstants s ++ [Seat.a, .b, .c, .d].flatMap (dueSeat s) ++ dueGrids s

/-- The events that commands have raised become the queue. -/
def takeRaised (s : State) : State := { s with pending := s.raised, raised := [] }

/-- A microsecond passes and what it makes due is queued. -/
def tickMicro (s : State) : State :=
  let s := passMicro s
  { s with pending := dueNow s }

/-- The step of an empty queue (log entry 2). -/
def idle (s : State) : State := if s.raised.isEmpty then tickMicro s else takeRaised s

end Sys2Proof.Machine
end

