-- ==== Sys2Proof/Safety.lean ====
section
/-! DEFINITION. What counts as a safe state, in the terms the statements use: the data sheet's rules about
the whole machine, as predicates that every step keeps. No command ends in a fault or a refusal, so every
run is free of them; what is to be shown is that the tables, gains, lamps and counters stay as the rules say. -/

namespace Sys2Proof.Machine

/-- The transaction in hand belongs to the image scan. -/
def scanning (s : State) : Bool :=
  match s.csr.hand with
  | some h =>
    match h.what with
    | .header => true
    | .chunk _ => true
    | _ => false
  | none => false

/-- The Transmit Queue as R36 and R40 bound it, with what ties it to the line: at most 4 records, at most one
waiting record of a kind, at most one in flight, orders rising and never shared, and nothing in flight while
the driver sends nothing; an empty queue while the line is OFF or ASLEEP; the scan only in OFF, a WAKE attempt
only in ASLEEP, and the line ASLEEP while the station is PARKING or PARKED. -/
structure QueueSafe (s : State) : Prop where
  size : s.txq.records.length ≤ 4
  waiting : ∀ k, (s.txq.records.countP fun r => r.waits k) ≤ 1
  flying : (s.txq.records.countP fun r => r.inFlight) ≤ 1
  orders : s.txq.records.Pairwise fun r o => r.order < o.order
  fresh : ∀ r ∈ s.txq.records, r.order < s.txq.nextOrder
  drops : s.txq.drops ≤ 255
  released : s.line.driving = [] → ∀ r ∈ s.txq.records, r.inFlight = false
  shut : s.line.state = .off ∨ s.line.state = .asleep → s.txq.records = []
  scan : scanning s = true → s.line.state = .off
  sender : s.line.wake = .sending → s.line.state = .asleep
  parked : s.stc.state = .parking ∨ s.stc.state = .parked → s.line.state = .asleep

/-- The outputs and the applied gains within the bounds of R144 and R149. -/
structure SoundSafe (s : State) : Prop where
  out : ∀ o, -32767 ≤ s.lvl.out.get o ∧ s.lvl.out.get o ≤ 32767
  slot : ∀ o, -72 ≤ (s.lvl.gains.get o).slot ∧ (s.lvl.gains.get o).slot ≤ (s.csr.config.cap : Int)
  va : ∀ o, -72 ≤ (s.lvl.gains.get o).va ∧ (s.lvl.gains.get o).va ≤ (s.csr.config.cap : Int)
  scan : scanning s = true → s.stc.state = .starting ∧ (∀ j, (s.jck.jacks.get j).state = .empty)
    ∧ ∀ o, (s.lvl.gains.get o).slot = -72 ∧ (s.lvl.gains.get o).va = -72

/-- The stop latch is clear whenever the open-door table is non-empty (R115), and the table holds at most 4
entries (R116). -/
def LatchSafe (s : State) : Prop :=
  (s.ann.doors ≠ [] → s.ann.latch = false) ∧ s.ann.doors.length ≤ 4

/-- The lamps' targets: all 0 unless AWAKE (R154, R162), 0 for UNUSED channels (R154), and for STOP_IND
channels non-zero only while the stop latch is SET (R157). -/
def LampSafe (s : State) : Prop :=
  (s.stc.state ≠ .awake → ∀ c, (s.lmp.chans.get c).target = 0)
  ∧ (∀ c, (s.lmp.chans.get c).role = .unused → (s.lmp.chans.get c).target = 0)
  ∧ ∀ c, (s.lmp.chans.get c).role = .stopInd → (s.lmp.chans.get c).target ≠ 0 → s.ann.latch = true

/-! ## The terms of the statements -/

/-- The reader rests: a transaction is in hand, or no request waits (R69, R79). -/
def ReaderRests (s : State) : Prop := s.csr.hand.isSome = true ∨ ∀ v, placeOf s v = none

/-- No instant of any owner is waited for (R58). -/
def NothingAwaited (s : State) : Prop :=
  s.prg.queue = [] ∧ s.ann.current = none ∧ s.ann.doors = []
  ∧ s.lmp.claims = { p0 := none, p1 := none, p2 := none, p3 := none }

/-- The state in which a good frame reaches its owner: its edge captured, its reception ended, and the clash
flag set where it bears the station's own origin (R5, R16, R23, R60). -/
def heardFrom (f : RxFrame) (s : State) : State := noteClash f.head (heard f.heard s)

/-- A search driven to its result over a directory, at most so many probes and turns (R74, R75). -/
def runSearch (dir : Nat → DirEntry) (c : ClipStore) : Nat → SearchNext → SearchNext
  | 0, n => n
  | k + 1, .probe i l => runSearch dir c k (searchProbed c l i (dir i))
  | k + 1, .second l => runSearch dir c k (searchNext c l)
  | _ + 1, .result r => .result r

/-- `n` samples of one level (R131). -/
def levelSamples (level : Bool) : Nat → Filter → Filter
  | 0, f => f
  | n + 1, f => levelSamples level n (f.sample level)

/-- `n` fade ticks of a channel (R160). -/
def fadeTicks : Nat → Channel → Channel
  | 0, c => c
  | n + 1, c => fadeTicks n c.tick

/-! ## The rules about the whole machine, continued -/

/-- LOADING with no scan in hand (R70, R172). -/
def Loaded (s : State) : Prop := s.stc.state = .loading ∧ scanning s = false

/-- Every counter that STATUS reports stands within its width (R12, R51, R92, R133, R183), and LINE's and the
reader's runs within theirs (R11, R84). -/
def CountsBounded (s : State) : Prop :=
  s.line.rxErrors ≤ 255 ∧ s.txq.drops ≤ 255 ∧ s.stc.failedAttempts ≤ 255 ∧ s.line.fails ≤ 16
  ∧ s.csr.failureRun ≤ 8 ∧ (∀ v, (playOf s v).underruns ≤ 65535) ∧ ∀ j, (s.jck.jacks.get j).plugs ≤ 65535

/-- No counter of `s` stands above the same counter of `t`, and a clash flag set in `s` is set in `t` (R12,
R23, R51, R92, R133, R183). -/
def CountsRise (s t : State) : Prop :=
  s.line.rxErrors ≤ t.line.rxErrors ∧ s.txq.drops ≤ t.txq.drops
  ∧ s.stc.failedAttempts ≤ t.stc.failedAttempts
  ∧ (∀ v, (playOf s v).underruns ≤ (playOf t v).underruns)
  ∧ (∀ j, (s.jck.jacks.get j).plugs ≤ (t.jck.jacks.get j).plugs)
  ∧ (s.line.clash = true → t.line.clash = true)

end Sys2Proof.Machine
end

