-- ==== Sys2Proof/Certificates/Slice0/Obligations.lean ====
section
/-! DEFINITION. The statements for the provers: what each command does, in the terms of the data sheet's
rules, and the rules about the whole machine. `ReaderRests`, `NothingAwaited`, `heardFrom` and the safe-state
predicates stand in Sys2Proof/Safety.lean. -/

open Sys2Proof Sys2Proof.Machine

/-! ## The machine as a whole -/

/-- A step with a command waiting is that command's effect on the state with the queue's rest. -/
def Obligations.FrontCommandRuns : Prop :=
  ∀ (s : State) (c : Instr) (rest : List Instr),
    step { s with pending := c :: rest } = exec c { s with pending := rest }

/-- With no command waiting, events that commands have raised are queued in their order; with none of those
either, one microsecond of reference passes, which deck time counts while it runs. The model's choice (log
entries 2 and 3); that deck time counts the reference is R55. -/
def Obligations.EmptyQueueStep : Prop :=
  ∀ s : State, s.pending = [] →
    (s.raised ≠ [] → step s = .next { s with pending := s.raised, raised := [] })
    ∧ (s.raised = [] → ∃ t, step s = .next t ∧ t.ref.micros = s.ref.micros + 1
        ∧ t.dclk.now = (if s.dclk.running then s.dclk.now.addMicros 1 else s.dclk.now)
        ∧ t.txq = s.txq ∧ t.vtab = s.vtab ∧ t.prg = s.prg ∧ t.lmp = s.lmp ∧ t.stc.state = s.stc.state)

/-- No command of the table ends in a fault or a refusal, whatever state finds it; what each does, the statements
below say. That none stops is the model's reading (log entry 32), and that one that arrives out of its place
leaves the State as it is, its choice (log entry 5). -/
def Obligations.EveryCommandCompletes : Prop :=
  ∀ (c : Instr) (s : State), ∃ t, exec c s = .next t

/-- What every block holds right after reset, where the data sheet states it. The straps, the generator's seed and
whether the clock runs stand as before POWER_ON (log entry 6) and are not spoken of, nor are the values that no rule
gives (log entries 13, 24 and 34). -/
def Obligations.ResetState : Prop :=
  let s := State.reset
  let emptyVoice := fun (p : Play) => p.state = .idle ∧ p.underruns = 0
  let released : Filter := { accepted := false, run := 0 }
  (s.stc.state = .starting ∧ s.stc.parkLeft = none ∧ s.stc.wakeWait = none ∧ s.stc.statusTimer = .stopped
    ∧ s.stc.parkedMark = false ∧ s.stc.quietMark = false ∧ s.stc.failedAttempts = 0)
  ∧ (s.line.state = .off ∧ s.line.fails = 0 ∧ s.line.rxErrors = 0 ∧ s.line.clash = false ∧ s.line.lockout = false
    ∧ s.line.quietLeft = none ∧ s.line.wake = .none ∧ s.line.driving = [] ∧ s.line.rx.estimate = 96
    ∧ s.line.rx.phase = .waiting ∧ s.line.rx.chars = [])
  ∧ (s.txq.records = [] ∧ s.txq.drops = 0)
  ∧ (s.dclk.now = { ms := 0, us := 0 } ∧ s.dclk.capture = { ms := 0, us := 0 } ∧ s.dclk.timer = .stopped
    ∧ s.dclk.firstPeriod = true)
  ∧ (s.csr.image = .unread ∧ s.csr.fleet = 0 ∧ s.csr.config = .defaults ∧ s.csr.entryCount = 0 ∧ s.csr.first = none
    ∧ s.csr.scan = none ∧ s.csr.hand = none ∧ s.csr.scanTag = 0 ∧ s.csr.failureRun = 0 ∧ s.csr.flashFault = false
    ∧ ∀ v, placeOf s v = none ∧ tagOf s v = 0)
  ∧ (s.prg.current = none ∧ s.prg.lastTaken = none ∧ s.prg.queue = [])
  ∧ (s.vtab.speaker = .notWanted ∧ emptyVoice s.vtab.va.play ∧ ∀ i, let x := s.vtab.slots.get i
    emptyVoice x.play ∧ x.play.clip = .none ∧ x.play.anchor = { ms := 0, us := 0 } ∧ x.play.position = 0
      ∧ x.play.bufX = .empty ∧ x.play.bufY = .empty ∧ x.language = 0 ∧ x.listeners = .nobody ∧ x.content = .commentary)
  ∧ s.ann = {
      latch := false, ownOpen := false, doors := [], doorFilter := released, doorRefresh := none, current := none,
      pending := none, lastCompleted := none, naming := { v0 := false, v1 := false, v2 := false, v3 := false },
      speakerName := .notNeeded, nameCap := none, purpose := .none }
  ∧ (s.jck.readAB = false ∧ s.jck.readCD = false ∧ ∀ j,
    s.jck.jacks.get j = { state := .empty, language := 0, step := 0, settle := none, plugs := 0 }
    ∧ s.jck.panels.get j = {
        lang := released, volUp := released, volDown := released, stop := released, detect := released,
        upRepeat := none, downRepeat := none, hold := none })
  ∧ (s.lvl.wind.count = 0 ∧ s.lvl.wind.boost = 0 ∧ ∀ o, s.lvl.out.get o = 0 ∧ (s.lvl.gains.get o).slot = -72
    ∧ (s.lvl.gains.get o).va = -72 ∧ s.lvl.silence.get o = none)
  ∧ (s.lmp.runKind = .none ∧ s.lmp.runLen = 0 ∧ s.lmp.wish = .none ∧ (∀ p, s.lmp.claims.get p = none) ∧ ∀ c,
    s.lmp.chans.get c = {
      role := ConfigCopy.defaults.roles.get c, level := 0, target := 0, step := 1, fault := false, faultRun := 0 })

/-- POWER_ON: every field of every block at its power-on value with the straps sampled; LOADING with the clock held
and no transaction, or STARTING with the clock running and the header read in hand (R36, R51, R53, R55, R57, R60, R66,
R70, R78, R84, R172, R173, R181, R183). The model's choices among these values: that the command queue and the pins stand, no event is left raised and the
reference count starts at 0 (log entries 8 and 23); VA's content and the directory start (log entry 13); the wind
average (log entry 24); the first queued order (log entry 34); no gain muted (log entry 35). -/
def Obligations.PowerOn : Prop :=
  ∀ (origin : Origin) (load : Bool) (s : State), ∃ t, exec (.powerOn origin load) s = .next t
    ∧ t.stc = {
        origin := origin, load := load, state := if load then .loading else .starting, parkLeft := none,
        wakeWait := none, statusTimer := .stopped, parkedMark := false, quietMark := false, failedAttempts := 0 }
    ∧ t.line = .initial
    ∧ t.txq = { records := [], nextOrder := 1, drops := 0, lfsr := BitVec.ofNat 16 (origin.toNat * 257) }
    ∧ t.dclk = {
        now := { ms := 0, us := 0 }, running := !load, capture := { ms := 0, us := 0 }, timer := .stopped,
        firstPeriod := true }
    ∧ t.csr = {
        image := .unread, fleet := 0, config := .defaults, dirStart := 0, entryCount := 0, first := none,
        scan := if load then none else some .initial, places := { v0 := none, v1 := none, v2 := none, v3 := none },
        vaPlace := none, hand := if load then none else some { what := .header, left := 5000 },
        tags := { v0 := 0, v1 := 0, v2 := 0, v3 := 0 }, vaTag := 0, scanTag := 0, failureRun := 0,
        flashFault := false }
    ∧ t.prg = .initial ∧ t.vtab = .initial ∧ t.ann = .initial ∧ t.jck = .initial ∧ t.lvl = .initial
    ∧ t.lmp = .initial ∧ t.ref = { micros := 0, gridFrom := 0, seatFrom := 0 }
    ∧ t.pending = s.pending ∧ t.pins = s.pins ∧ t.raised = []

/-! ## The clip flash -/

/-- HEADER_READ_DONE with the header read in hand: BAD and AWAKE with the defaults, GOOD and AWAKE with the
image's own, or the first scan chunk asked for. A header passes by its marker, version, flash size, count and
directory bounds alone; the configuration copy holds every stored field clamped into its range, the house language
judged against the clamped number of languages and the bright threshold raised to the dark one (R34, R69, R71,
R72, R84, R173). -/
def Obligations.HeaderReadDone : Prop :=
  (∀ (data : List Byte) (left : Nat) (s : State),
    s.csr.hand = some { what := .header, left := left } → 104 ≤ data.length →
    (headerPasses data = false → ∃ t, exec (.headerReadDone data) s = .next t
      ∧ t.csr.image = .bad ∧ t.csr.fleet = 0 ∧ t.csr.entryCount = 0 ∧ t.csr.first = none
      ∧ t.csr.config = .defaults ∧ t.stc.state = .awake ∧ t.line.state = .active
      ∧ t.csr.failureRun = 0 ∧ t.csr.flashFault = false
      ∧ t.stc.statusTimer = .running 2000000 ∧ t.dclk.now = s.dclk.now
      ∧ t.txq.records = s.txq.records ∧ t.prg = s.prg ∧ t.jck.jacks = s.jck.jacks
      ∧ t.pending = s.pending ∧ t.lmp.claims = s.lmp.claims ∧ t.ann.latch = s.ann.latch)
    ∧ (headerPasses data = true → field16 data 14 = 0 → ∃ t, exec (.headerReadDone data) s = .next t
      ∧ t.csr.image = .good ∧ t.csr.fleet.toNat = field16 data 6 ∧ t.csr.entryCount = 0
      ∧ t.csr.config = configOf ((data.drop 16).take 88) ∧ t.csr.dirStart = field24 data 11
      ∧ t.stc.state = .awake ∧ t.line.state = .active
      ∧ t.csr.failureRun = 0 ∧ t.csr.flashFault = false
      ∧ t.stc.statusTimer = .running 2000000 ∧ t.dclk.now = s.dclk.now
      ∧ t.txq.records = s.txq.records ∧ t.prg = s.prg ∧ t.jck.jacks = s.jck.jacks
      ∧ t.pending = s.pending ∧ t.lmp.claims = s.lmp.claims ∧ t.ann.latch = s.ann.latch)
    ∧ (headerPasses data = true → 1 ≤ field16 data 14 → exec (.headerReadDone data) s = .next { s with
        csr.failureRun := 0, csr.flashFault := false,
        csr.hand := some { what := .chunk (min 4096 (12 * field16 data 14)), left := 5000 },
        csr.scan := some {
          fleet := BitVec.ofNat 16 (field16 data 6), flashBlocks := field24 data 8,
          dirStart := field24 data 11, count := field16 data 14,
          configBytes := (data.drop 16).take 88,
          bytesLeft := 12 * field16 data 14 - min 4096 (12 * field16 data 14), carry := [], judged := 0,
          first := none, lastKey := none } }))
  ∧ (∀ h : List Byte,
       let num := fun (n : Nat) => (h.getD n 0).toNat
       let flash := (num 8 * 65536 + num 9 * 256 + num 10) * 256
       let start := num 11 * 65536 + num 12 * 256 + num 13
       let count := num 14 * 256 + num 15
       field16 h 14 = count ∧ field24 h 11 = start ∧ field16 h 6 = num 6 * 256 + num 7
       ∧ (headerPasses h = true ↔ h.take 4 = [0x56, 0x43, 0x44, 0x53] ∧ num 4 = 1 ∧ 1 ≤ flash ∧ count ≤ 32768
           ∧ start < flash ∧ start + 12 * count ≤ flash))
  ∧ (∀ b : List Byte,
       let num := fun (n : Nat) => (b.getD n 0).toNat
       let role := fun (n : Nat) => [Role.aisle, .readAB, .readCD, .stopInd, .accent].getD (num n) .unused
       let c := configOf b
       c.languages = (if num 0 = 0 then 1 else min 12 (num 0))
       ∧ c.house = (if num 1 < c.languages then num 1 else 0)
       ∧ c.speakerOn = decide (1 ≤ num 2) ∧ c.defaultStep = (if num 3 = 0 then 1 else min 15 (num 3))
       ∧ c.announceFloor = min 15 (num 4) ∧ c.cap = min 16 (num 5) ∧ c.duckDepth = min 40 (num 6)
       ∧ c.noiseFloor = num 7 ∧ c.lateLimit = min 10000 (num 8 * 256 + num 9)
       ∧ c.darkThreshold = num 10 ∧ c.brightThreshold = max (num 10) (num 11)
       ∧ c.darkScene = min 7 (num 12) ∧ c.lightScene = min 7 (num 13)
       ∧ c.boardingLevel = num 14 ∧ c.announceLevel = num 15
       ∧ c.roles = { ch0 := role 16, ch1 := role 17, ch2 := role 18, ch3 := role 19, ch4 := role 20, ch5 := role 21 }
       ∧ c.doorInput = decide (1 ≤ num 22) ∧ c.scenes.length = 8
       ∧ ∀ n e, c.scenes[n]? = some e →
           e.levels = { ch0 := num (24 + 8 * n), ch1 := num (25 + 8 * n), ch2 := num (26 + 8 * n), ch3 := num (27 + 8 * n), ch4 := num (28 + 8 * n), ch5 := num (29 + 8 * n) }
           ∧ e.fadeByte = num (30 + 8 * n)
           ∧ e.speaker = max (-32) (min 0 (if num (31 + 8 * n) ≤ 127 then (num (31 + 8 * n) : Int) else (num (31 + 8 * n) : Int) - 256)))

/-- SCAN_CHUNK_DONE with a chunk in hand: the entries whose twelfth byte has arrived, the first of them begun in the
chunk before where that ended inside it, are judged in order; when each has samples, lies inside the flash and has a
key above the one before it, the scan goes on with the bytes of an unfinished entry carried, or ends GOOD after the
last chunk; the first that fails ends it BAD (R71, R72). -/
def Obligations.ScanChunkDone : Prop :=
  ∀ (data : List Byte) (n left : Nat) (c : ScanState) (s : State),
    s.csr.hand = some { what := .chunk n, left := left } → s.csr.scan = some c → n ≤ data.length →
    let all := c.carry ++ data.take n
    let m := all.length / 12
    let e := fun (i : Nat) => entryOf ((all.drop (12 * i)).take 12)
    let before := fun (i : Nat) => if i = 0 then c.lastKey else some (e (i - 1)).key
    let sound := ∀ i, i < m → 1 ≤ (e i).samples ∧ (e i).start + ((e i).samples + 255) / 256 ≤ c.flashBlocks
      ∧ ∀ k, before i = some k → k.lt (e i).key = true
    let first := if c.first = none ∧ 1 ≤ m then some (e 0) else c.first
    (¬ sound → ∃ t, exec (.scanChunkDone data) s = .next t
      ∧ t.csr.image = .bad ∧ t.csr.fleet = 0 ∧ t.csr.entryCount = 0 ∧ t.csr.first = none
      ∧ t.csr.config = .defaults ∧ t.stc.state = .awake ∧ t.line.state = .active
      ∧ t.csr.failureRun = 0 ∧ t.dclk.now = s.dclk.now ∧ t.prg = s.prg)
    ∧ (sound → c.bytesLeft = 0 → ∃ t, exec (.scanChunkDone data) s = .next t
      ∧ t.csr.image = .good ∧ t.csr.fleet = c.fleet ∧ t.csr.entryCount = c.count
      ∧ t.csr.dirStart = c.dirStart ∧ t.csr.config = configOf c.configBytes
      ∧ t.csr.first = first ∧ t.stc.state = .awake ∧ t.line.state = .active
      ∧ t.csr.failureRun = 0 ∧ t.dclk.now = s.dclk.now ∧ t.prg = s.prg)
    ∧ (sound → 1 ≤ c.bytesLeft → exec (.scanChunkDone data) s = .next { s with
        csr.failureRun := 0, csr.flashFault := false,
        csr.hand := some { what := .chunk (min 4096 c.bytesLeft), left := 5000 },
        csr.scan := some { c with
          judged := c.judged + m, lastKey := before m, first := first, carry := all.drop (12 * m),
          bytesLeft := c.bytesLeft - min 4096 c.bytesLeft } })

/-- The halving search finds a key that the directory holds, falls back to the house language for a CUE or a
STOP that it lacks, and otherwise answers NONE, within 31 turns in all: the probes of both searches and the turn
that begins the second (R74 to R76). -/
def Obligations.SearchFindsKey : Prop :=
  ∀ (dir : Nat → DirEntry) (c : ClipStore) (key : Key),
    1 ≤ c.entryCount → c.entryCount ≤ 32768 → c.first = some (dir 0) →
    (∀ i j, i < j → j < c.entryCount → (dir i).key.lt (dir j).key = true) →
    let holds := fun (k : Key) (i : Nat) => i < c.entryCount ∧ (dir i).key = k
    let fallback : Key := { key with language := c.config.house }
    let answer := runSearch dir c 31 (searchNext c { key := key, second := false, bounds := none })
    (∀ i, holds key i → answer = .result (some (dir i).clip))
    ∧ ((∀ i, ¬ holds key i) → (key.kind = 0 ∨ key.kind = 1) →
        ∀ i, holds fallback i → answer = .result (some (dir i).clip))
    ∧ ((∀ i, ¬ holds key i) → ((key.kind = 0 ∨ key.kind = 1) → ∀ i, ¬ holds fallback i) →
        answer = .result none)

/-- PROBE_DONE for the only request waiting: the good transaction ends the failure run. An entry whose key is above
the one sought lowers the highest index below the probe's, one whose key is below raises the lowest above it, and
the next probe is made at the new middle. The key sought is found: a slot takes the clip and its first block is read
with the need instant of the block, block 0 before the anchor. A search that has concluded absent begins the second
one with the house language where a CUE or STOP lookup is due one, and otherwise leaves a COMMENTARY slot SILENT with
its clip NONE (R74, R75, R80, R84, R98). -/
def Obligations.ProbeDone : Prop :=
  ∀ (data : List Byte) (v : VoiceId) (tag : Word16) (index left lo hi : Nat) (r : Request)
    (l : LookupReq) (s : State),
    s.csr.hand = some { what := .probe v tag index, left := left } → 12 ≤ data.length →
    placeOf s v = some r → r.inHand = true → r.body = .lookup l → l.bounds = some (lo, hi) →
    (∀ w, w ≠ v → placeOf s w = none) →
    let e := entryOf data
    let u : State := { s with csr.failureRun := 0, csr.flashFault := false, csr.hand := none }
    let probes := fun (lo hi : Nat) => setPlace v
      (some { r with body := .lookup { l with bounds := some (lo, hi) }, inHand := true })
      { u with csr.hand := some { what := .probe v r.tag ((lo + hi) / 2), left := 5000 } }
    let above := l.key ≠ e.key ∧ l.key.lt e.key = true
    let below := l.key ≠ e.key ∧ l.key.lt e.key = false
    let absent := (above ∧ index - 1 < lo) ∨ (below ∧ hi < index + 1)
    (above → lo ≤ index - 1 → exec (.probeDone data) s = .next (probes lo (index - 1)))
    ∧ (below → index + 1 ≤ hi → exec (.probeDone data) s = .next (probes (index + 1) hi))
    ∧ (absent → (l.key.kind = 0 ∨ l.key.kind = 1) → l.second = false → l.key.language ≠ s.csr.config.house →
        ∀ f, s.csr.first = some f → 2 ≤ s.csr.entryCount →
        let key : Key := { l.key with language := s.csr.config.house }
        key ≠ f.key → key.lt f.key = false → exec (.probeDone data) s = .next (setPlace v
          (some { r with
            body := .lookup { key := key, second := true, bounds := some (1, s.csr.entryCount - 1) }, inHand := true })
          { u with csr.hand := some { what := .probe v r.tag (s.csr.entryCount / 2), left := 5000 } }))
    ∧ (∀ i, v = .slot i → (s.vtab.slots.get i).content = .commentary → r.tag = tagOf s v →
        (playOf s v).state = .seeking →
        let p := playOf s v
        let c : Clip := { start := e.start, samples := e.samples, trim := max (-16) (min 8 e.trim) }
        let late := s.dclk.now.diffMicros p.anchor
        let k := (late / 125).toNat / 256
        let wanted : BlockReq := { start := c.start, samples := c.samples, number := k, need := p.anchor.addMicros (32000 * k) }
        (l.key = e.key → (late < 0 ∨ (0 ≤ late ∧ late / 125 < c.samples)) → 1 ≤ c.samples →
          exec (.probeDone data) s = .next (setPlay v { p with clip := .clip c, bufX := .filling k }
            (setPlace v (some { tag := r.tag, body := .block wanted, inHand := true })
              { u with csr.hand := some { what := .block v r.tag wanted, left := 5000 } })))
        ∧ (absent → (l.second = true ∨ l.key.language = s.csr.config.house) →
            exec (.probeDone data) s = .next (setPlay v
              { p with clip := .none, state := .silent, bufX := .empty, bufY := .empty, atBoundary := false }
              (setPlace v none u))))

/-- BLOCK_READ_DONE with the block of a PLAYING slot's position: its buffer becomes FULL with the expanded
samples, the position stands, and the next block of the clip is asked for into the other buffer and read. The first
block reaches a SEEKING voice: PLAYING from position 0 before the anchor, from the timeline index inside the block,
SILENT past the clip, and otherwise the block that holds the index is asked for. A block that a PLAYING voice has
passed is late: it is set aside and its buffer EMPTY, and the voice is SILENT past the clip, plays on where the other
buffer is FULL with the block of its position, and otherwise asks for that block; one that no buffer is FILLING with is
set aside. That an index past the samples, in the silent tail of a short last block, is past the clip (log entry 16),
and that a late block finds the clip over by the position and by the timeline index alike (log entry 46), is the
model's reading; that the block asked for after a late one goes into the buffer the late one left is its choice (log
entry 43) (R81, R82, R99, R100, R101, R105). -/
def Obligations.BlockReadDone : Prop :=
  (∀ (data : List Byte) (i : SlotId) (tag : Word16) (b : BlockReq) (left : Nat) (r : Request) (c : Clip)
    (s : State),
    s.csr.hand = some { what := .block (.slot i) tag b, left := left } →
    storedIn b.samples b.number ≤ data.length → tag = tagOf s (.slot i) →
    placeOf s (.slot i) = some r → r.inHand = true → (∀ w, w ≠ .slot i → placeOf s w = none) →
    let p := playOf s (.slot i)
    p.state = .playing → p.clip = .clip c → p.atBoundary = false →
    p.bufX = .filling b.number → p.bufY = .empty → b.number = p.position / 256 →
    let x := Buffer.full b.number (expandBlock (data.take (storedIn b.samples b.number)))
    ∃ t, exec (.blockReadDone data) s = .next t ∧ t.csr.failureRun = 0 ∧ t.csr.flashFault = false
      ∧ t.line = s.line ∧ t.txq = s.txq ∧ t.dclk = s.dclk ∧ t.prg = s.prg ∧ t.ann = s.ann ∧ t.jck = s.jck
      ∧ t.lvl = s.lvl ∧ t.lmp = s.lmp ∧ t.stc = s.stc ∧ t.vtab.va = s.vtab.va
      ∧ (∀ k, k ≠ i → t.vtab.slots.get k = s.vtab.slots.get k)
      ∧ (b.number + 1 < blocksOf c.samples →
          playOf t (.slot i) = { p with bufX := x, bufY := .filling (b.number + 1) }
          ∧ t.csr.hand = some { what := .block (.slot i) tag { start := c.start, samples := c.samples, number := b.number + 1, need := p.anchor.addMicros (32000 * (b.number + 1)) }, left := 5000 })
      ∧ (blocksOf c.samples ≤ b.number + 1 →
          playOf t (.slot i) = { p with bufX := x } ∧ t.csr.hand = none))
  ∧ (∀ (p : Play) (c : Clip) (now : DeckTime) (k : Nat) (xs : List Int),
    p.state = .seeking → p.clip = .clip c → p.bufX = .filling k →
    let i := now.diffMicros p.anchor / 125
    (now.diffMicros p.anchor < 0 → p.blockCame now k xs =
        Play.same { p with bufX := .full k xs, state := .playing, position := 0 })
    ∧ (0 ≤ now.diffMicros p.anchor → i < c.samples → i / 256 = k → p.blockCame now k xs =
        Play.same { p with bufX := .full k xs, state := .playing, position := i.toNat })
    ∧ (0 ≤ now.diffMicros p.anchor → i < c.samples → i / 256 ≠ k → p.blockCame now k xs =
        { play := { p with bufX := .filling (i.toNat / 256) }, ask := some (i.toNat / 256), ended := false })
    ∧ (0 ≤ now.diffMicros p.anchor → (c.samples : Int) ≤ i → p.blockCame now k xs =
        Play.ends p ∧ (Play.ends p).play =
          { p with state := .silent, bufX := .empty, bufY := .empty, atBoundary := false }))
  ∧ (∀ (p : Play) (c : Clip) (now : DeckTime) (k : Nat) (xs : List Int),
    p.state = .playing → p.clip = .clip c →
    let n := p.position / 256
    let past := c.samples ≤ p.position ∨ (c.samples : Int) ≤ now.diffMicros p.anchor / 125
    let silent : PlayOut := {
      play := { p with state := .silent, bufX := .empty, bufY := .empty, atBoundary := false },
      ask := none, ended := true }
    (p.bufX = .filling k → k < n → 1 ≤ c.samples → (past → p.blockCame now k xs = silent)
      ∧ (¬ past → p.bufY.isFull n = true → p.blockCame now k xs = Play.same { p with bufX := .empty })
      ∧ (¬ past → p.bufY.isFull n = false → p.blockCame now k xs =
          { play := { p with bufX := .filling n }, ask := some n, ended := false }))
    ∧ (p.bufY = .filling k → p.bufX.isFilling k = false → k < n → 1 ≤ c.samples →
      (past → p.blockCame now k xs = silent)
      ∧ (¬ past → p.bufX.isFull n = true → p.blockCame now k xs = Play.same { p with bufY := .empty })
      ∧ (¬ past → p.bufX.isFull n = false → p.blockCame now k xs =
          { play := { p with bufY := .filling n }, ask := some n, ended := false }))
    ∧ (p.bufX.isFilling k = false → p.bufY.isFilling k = false → p.blockCame now k xs = Play.same p))

/-- The failure run: every abandoned transaction adds 1, stopping at 8, and sets FLASH_FAULT at 8; every good
one, of any form, sets the run to 0 and clears the flag; neither touches deck time, the programme, the jacks'
records or the queue's, and one of a lookup or a block does not touch the line either; a timeout of the scan's ends
the image BAD and the station AWAKE with the defaults (R72, R83, R84). -/
def Obligations.FailureRun : Prop :=
  ∀ (h : InHand) (s : State), s.csr.hand = some h →
    (∃ t, exec .transactionTimeout s = .next t ∧ t.csr.failureRun = min 8 (s.csr.failureRun + 1)
      ∧ t.csr.flashFault = (s.csr.flashFault || decide (7 ≤ s.csr.failureRun))
      ∧ t.dclk.now = s.dclk.now ∧ t.prg = s.prg ∧ t.jck.jacks = s.jck.jacks ∧ t.txq.records = s.txq.records
      ∧ ((∃ v tag i, h.what = .probe v tag i) ∨ (∃ v tag b, h.what = .block v tag b) →
          t.line = s.line ∧ t.txq = s.txq ∧ t.jck = s.jck)
      ∧ ((h.what = .header ∨ ∃ n, h.what = .chunk n) →
          t.csr.image = .bad ∧ t.stc.state = .awake ∧ t.csr.config = .defaults))
    ∧ ∀ (data : List Byte),
        (h.what = .header → 104 ≤ data.length → ∃ t, exec (.headerReadDone data) s = .next t
          ∧ t.csr.failureRun = 0 ∧ t.csr.flashFault = false ∧ t.dclk.now = s.dclk.now ∧ t.prg = s.prg
          ∧ t.jck.jacks = s.jck.jacks ∧ t.txq.records = s.txq.records)
        ∧ (∀ n c, h.what = .chunk n → s.csr.scan = some c → n ≤ data.length →
            ∃ t, exec (.scanChunkDone data) s = .next t
          ∧ t.csr.failureRun = 0 ∧ t.csr.flashFault = false ∧ t.dclk.now = s.dclk.now ∧ t.prg = s.prg
          ∧ t.jck.jacks = s.jck.jacks ∧ t.txq.records = s.txq.records)
        ∧ (∀ v tag i, h.what = .probe v tag i → 12 ≤ data.length → ∃ t, exec (.probeDone data) s = .next t
          ∧ t.csr.failureRun = 0 ∧ t.csr.flashFault = false ∧ t.dclk = s.dclk ∧ t.prg = s.prg
          ∧ t.line = s.line ∧ t.txq = s.txq ∧ t.jck = s.jck)
        ∧ (∀ v tag b, h.what = .block v tag b → storedIn b.samples b.number ≤ data.length →
            ∃ t, exec (.blockReadDone data) s = .next t
          ∧ t.csr.failureRun = 0 ∧ t.csr.flashFault = false ∧ t.dclk = s.dclk ∧ t.prg = s.prg
          ∧ t.line = s.line ∧ t.txq = s.txq ∧ t.jck = s.jck)

/-! ## The line and the Transmit Queue -/

/-- IDLE_GAP where the head may begin: the record is in flight from here, the capture is that of the frame's own
first TUNE edge, the driver sends the frame and the receiver is in its BREAK; everything else stands. That the record
then already holds the count of that edge, 128 us before it comes, is the model's choice (log entry 31). With the head
not handed over every backoff above 0 falls by one; that it falls too under a lockout and on a receive-only origin is
the model's choice (log entry 26), and the capture is written before its edge, with the one before it kept beside it,
by log entry 10. The gap ends STUCK where it stood, for QUIET while its period runs and else for ACTIVE with the
periodic timers resumed, and the line that follows takes the gap, the head beginning or the backoffs falling; in ASLEEP a held WAKE request begins (R2, R3, R19, R21, R24, R31, R40, R41,
R60, R61, R66, R180). -/
def Obligations.IdleGap : Prop :=
  (∀ (r : Record) (s : State),
     s.line.driving = [] → s.line.lockout = false → s.stc.origin ≠ 0 → s.stc.origin ≠ 63 →
     (s.line.state = .active ∨ (s.line.state = .quiet ∧ r.kind.cls = 0)) →
     s.txq.head = some r → r.backoff = 0 →
     let edge := s.dclk.now.addMicros 128
     let body := if r.kind = .time then bytes32 edge.ms.toNat ++ bytes16 edge.us else r.body
     exec .idleGap s = .next { s with
       dclk.capture := edge,
       txq.records := s.txq.records.map fun o =>
         if o.order = r.order then { o with inFlight := true } else o,
       line.driving := frameChars r.kind.code r.kind.cls s.stc.origin body,
       line.priorCapture := some s.dclk.capture,
       line.rx := { phase := .inBreak, edgeRef := 12 * (s.ref.micros + 128), edges := 0, estimate := s.line.rx.estimate, anchor := 0, chars := [], sum := 0, len := none } })
  ∧ (∀ s : State, s.line.driving = [] →
       ((s.line.state = .active ∨ s.line.state = .quiet) →
         (s.line.lockout = true ∨ s.stc.origin = 0 ∨ s.stc.origin = 63 ∨ s.txq.head = none
           ∨ (∃ r, s.txq.head = some r ∧ r.backoff ≠ 0)
           ∨ (∃ r, s.txq.head = some r ∧ s.line.state = .quiet ∧ r.kind.cls ≠ 0)) →
         exec .idleGap s = .next { s with
           txq.records := s.txq.records.map fun r => { r with backoff := r.backoff - 1 } })
       ∧ (s.line.state = .stuck →
           let left : State := if s.line.quietLeft.isSome then { s with line.state := .quiet }
             else { s with
               line.state := .active, dclk.timer := s.dclk.timer.resume,
               stc.statusTimer := s.stc.statusTimer.resume }
           exec .idleGap s = exec .idleGap left ∧ (s.txq.records = [] → exec .idleGap s = .next left))
       ∧ (s.line.state = .asleep → s.line.wake = .held → s.line.lockout = false → s.stc.origin ≠ 0 →
           s.stc.origin ≠ 63 → ∃ t, exec .idleGap s = .next t
             ∧ t = { s with
                 line.wake := .sending, line.rx := t.line.rx,
                 line.driving := 0x3F :: (bytes16 s.csr.fleet.toNat ++ bytes16 s.csr.fleet.toNat
                   ++ bytes16 s.csr.fleet.toNat ++ bytes16 s.csr.fleet.toNat) }))

/-- What an owner's request does to the queue. A frame is let in by an ACTIVE line, by QUIET or a STUCK line with a
QUIET period running only in class 0, by a STUCK line without one, and by no line that is OFF or ASLEEP. A frame let
in merges into a waiting record of its kind, which keeps its order, attempts and backoff: seat masks are combined, a
TIME stays, any other body is replaced. With none waiting and fewer than four records it is placed with the next
queued order. A withdrawal removes the waiting records of its kind and marks those in flight. The head is a record of
the lowest class value, and of that class one of the lowest queued order (R37, R38, R40, R45, R46, R47). -/
def Obligations.QueueRequests : Prop :=
  (∀ (k : TxKind) (body : List Byte) (s : State),
     let shut := s.line.state = .off ∨ s.line.state = .asleep
       ∨ ((s.line.state = .quiet ∨ (s.line.state = .stuck ∧ s.line.quietLeft.isSome = true)) ∧ k.cls ≠ 0)
     (shut → enqueue k body s = s) ∧ (¬ shut → enqueue k body s = { s with txq := s.txq.enqueue k body })
     ∧ withdraw k s = { s with txq := s.txq.withdraw k })
  ∧ (∀ (q : TxQueue) (k : TxKind) (body : List Byte),
       let waits := fun (r : Record) => r.kind = k ∧ r.inFlight = false
       let merged := fun (old : List Byte) => match k with
         | .time => old
         | .stopReq => [old.getD 0 0 ||| body.getD 0 0]
         | _ => body
       ((∃ r ∈ q.records, waits r) → q.enqueue k body = { q with
         records := q.records.map fun r => if waits r then { r with body := merged r.body } else r })
       ∧ ((∀ r ∈ q.records, ¬ waits r) → q.records.length ≤ 3 → q.enqueue k body = { q with
           records := q.records ++ [{ kind := k, body := body, order := q.nextOrder, attempts := 0, backoff := 0, inFlight := false, withdrawn := false }],
           nextOrder := q.nextOrder + 1 })
       ∧ q.withdraw k = { q with
           records := (q.records.filter fun r => !(r.kind == k && !r.inFlight)).map fun r =>
             if r.kind = k then { r with withdrawn := true } else r })
  ∧ (∀ q : TxQueue, (q.head = none ↔ q.records = [])
       ∧ ∀ r, q.head = some r → r ∈ q.records
         ∧ ∀ o ∈ q.records, r.kind.cls < o.kind.cls ∨ (r.kind.cls = o.kind.cls ∧ r.order ≤ o.order))

/-- A full queue and an arrival with nothing to merge into: the newest waiting record of the least urgent
class leaves for an arrival of a more urgent class, which is placed as the newest; any other arrival is
dropped; either way the drop count rises by one and stops at 255 (R39, R51). -/
def Obligations.FullQueue : Prop :=
  ∀ (q : TxQueue) (k : TxKind) (body : List Byte),
    4 ≤ q.records.length → (∀ r ∈ q.records, r.kind = k → r.inFlight = true) →
    (∀ w ∈ q.records, w.inFlight = false →
      (∀ r ∈ q.records, r.inFlight = false →
        r.kind.cls < w.kind.cls ∨ (r.kind.cls = w.kind.cls ∧ r.order ≤ w.order)) →
      k.cls < w.kind.cls →
      q.enqueue k body = { q with
        records := (q.records.filter fun r => r.inFlight || !(r.order == w.order))
          ++ [Record.placed k body q.nextOrder],
        nextOrder := q.nextOrder + 1, drops := min 255 (q.drops + 1) })
    ∧ ((∀ r ∈ q.records, r.inFlight = false → r.kind.cls ≤ k.cls) →
      q.enqueue k body = { q with drops := min 255 (q.drops + 1) })

/-- ATTEMPT_SENT: the record leaves, the failure count is 0, and the own frame has measured an estimate of 96; a SCENE
or DOOR is then applied by its owner with the station's own origin (R5, R11, R42, R50). -/
def Obligations.AttemptSent : Prop :=
  ∀ (r : Record) (s : State), s.txq.flying = some r →
    let u : State := { s with
      line.fails := 0, line.driving := [], line.priorCapture := none, line.rx := .fresh 96,
      txq.records := s.txq.records.filter fun o => !(o.order == r.order) }
    (r.kind ≠ .scene → r.kind ≠ .door → exec .attemptSent s = .next u)
    ∧ (r.kind = .scene → sceneFieldsOk r.body = true →
        exec .attemptSent s = .next (applyScene s.stc.origin r.body u))
    ∧ (r.kind = .door → (byteAt r.body 0 = 0 ∨ byteAt r.body 0 = 1) →
        exec .attemptSent s = .next (applyDoor s.stc.origin r.body u))

/-- ATTEMPT_LOST at a recessive bit over which the line read dominant, the first delimiter bit or a data bit
of HEAD: the record waits again with its attempts and backoff, and a newer waiting record of its kind merges into it
and leaves, or it is discarded if it was withdrawn; no failure is counted. The capture is the one before the attempt
where its own first TUNE edge had not come. A lost WAKE attempt is held again (R3, R9, R11, R21, R43, R60). -/
def Obligations.AttemptLost : Prop :=
  ∀ (bit : Nat) (s : State), (waveOf s.line.driving)[bit]? = some true →
    (bit = 14 ∨ (35 ≤ bit ∧ bit ≤ 42)) →
    let capture := if bit = 14 then s.line.priorCapture.getD s.dclk.capture else s.dclk.capture
    (∀ r, s.txq.flying = some r → ∃ t, exec (.attemptLost bit) s = .next t
      ∧ t = { s with line.driving := [], line.rx := t.line.rx, line.priorCapture := none, dclk.capture := capture, txq.records := t.txq.records }
      ∧ (r.withdrawn = true →
          t.txq.records = s.txq.records.filter fun o => !(o.order == r.order))
      ∧ (r.withdrawn = false → (∀ o ∈ s.txq.records, o.kind = r.kind → o.inFlight = true) →
          t.txq.records = s.txq.records.map fun o =>
            if o.order = r.order then
              { o with body := r.body, attempts := r.attempts, backoff := r.backoff, inFlight := false }
            else o)
      ∧ (r.withdrawn = false → ∀ w ∈ s.txq.records, w.kind = r.kind → w.inFlight = false →
          (∀ o ∈ s.txq.records, o.kind = r.kind → o.inFlight = false → o = w) →
          t.txq.records = (s.txq.records.filter fun o => !(o.kind == r.kind && !o.inFlight)).map fun o =>
            if o.order = r.order then
              { o with body := mergeBody r.kind r.body w.body, attempts := r.attempts, backoff := r.backoff, inFlight := false }
            else o))
    ∧ (s.txq.flying = none → s.line.wake = .sending → ∃ t, exec (.attemptLost bit) s = .next t
      ∧ t = { s with line.driving := [], line.wake := .held, line.rx := t.line.rx, line.priorCapture := none, dclk.capture := capture })

/-- ATTEMPT_FAILED by BIT_ERR, or JABBER with a record in flight, short of QUIET: the consecutive-failure and
failed-attempt counts rise; the record is discarded if withdrawn, discarded and counted at its third failure, and
otherwise stays with a backoff of a 4-bit draw, a newer waiting record of its kind merged into it. JABBER sets the
lockout as well. The capture is the one before the attempt where its own first TUNE edge had not come, in JABBER by the
start of the driver's run of 1,000 us: that the edge came is read so from the run (log entry 10) (R10, R11, R22, R44,
R51, R53, R60, R183). -/
def Obligations.AttemptFailed : Prop :=
  ∀ (c : Instr) (r : Record) (s : State), s.txq.flying = some r → s.line.state ≠ .off →
    (c = .jabber ∨ ∃ bit b, c = .attemptFailed bit ∧ (waveOf s.line.driving)[bit]? = some b
      ∧ (b = false ∨ ¬ (bit = 14 ∨ (35 ≤ bit ∧ bit ≤ 42)))) →
    ¬ (s.line.state = .active ∧ s.line.fails = 15) →
    ∃ t, exec c s = .next t
      ∧ t = { s with
          line.driving := [], line.rx := t.line.rx, line.priorCapture := none,
          line.lockout := s.line.lockout || decide (c = .jabber), line.fails := min 16 (s.line.fails + 1),
          dclk.capture := t.dclk.capture,
          stc.failedAttempts := min 255 (s.stc.failedAttempts + 1), txq := t.txq }
      ∧ (∀ bit, c = .attemptFailed bit → t.dclk.capture =
          if bit ≤ 16 then s.line.priorCapture.getD s.dclk.capture else s.dclk.capture)
      ∧ (c = .jabber → t.dclk.capture = if s.line.rx.edgeRef ≤ 12 * (s.ref.micros - 1000) then s.dclk.capture
          else s.line.priorCapture.getD s.dclk.capture)
      ∧ t.txq.nextOrder = s.txq.nextOrder
      ∧ (r.withdrawn = true → t.txq = { s.txq with
          records := s.txq.records.filter fun o => !(o.order == r.order) })
      ∧ (r.withdrawn = false → 2 ≤ r.attempts → t.txq = { s.txq with
          records := s.txq.records.filter (fun o => !(o.order == r.order)),
          drops := min 255 (s.txq.drops + 1) })
      ∧ (r.withdrawn = false → r.attempts ≤ 1 →
          t.txq.drops = s.txq.drops ∧ t.txq.lfsr = lfsrSteps 16 s.txq.lfsr
          ∧ ((∀ o ∈ s.txq.records, o.kind = r.kind → o.inFlight = true) →
            t.txq.records = s.txq.records.map fun o =>
              if o.order = r.order then
                { o with
                  body := r.body, attempts := r.attempts + 1,
                  backoff := (lfsrSteps 16 s.txq.lfsr).toNat % 16, inFlight := false }
              else o)
          ∧ (∀ w ∈ s.txq.records, w.kind = r.kind → w.inFlight = false →
            (∀ o ∈ s.txq.records, o.kind = r.kind → o.inFlight = false → o = w) →
            t.txq.records = (s.txq.records.filter fun o => !(o.kind == r.kind && !o.inFlight)).map fun o =>
              if o.order = r.order then
                { o with
                  body := mergeBody r.kind r.body w.body, attempts := r.attempts + 1,
                  backoff := (lfsrSteps 16 s.txq.lfsr).toNat % 16, inFlight := false }
              else o))

/-- The failure that brings the count from 15 to 16 in ACTIVE, by BIT_ERR or by jabber, puts the line QUIET
for 5,000 ms with the quiet mark set and the periodic timers held. Of the records that the failed attempt itself
leaves, those of class 0 stay, and each of class 1 to 3 is discarded and counted as a drop (R11, R18, R22, R44, R47,
R66, R180, R181). -/
def Obligations.QuietEntry : Prop :=
  ∀ (c : Instr) (r : Record) (s : State), s.txq.flying = some r → s.line.state = .active →
    s.line.fails = 15 →
    (c = .jabber ∨ ∃ bit b, c = .attemptFailed bit ∧ (waveOf s.line.driving)[bit]? = some b
      ∧ (b = false ∨ ¬ (bit = 14 ∨ (35 ≤ bit ∧ bit ≤ 42)))) →
    let goes := r.withdrawn = true ∨ 2 ≤ r.attempts
    let left := if goes then s.txq.records.filter fun o => !(o.order == r.order)
      else s.txq.records.filter fun o => !(o.kind == r.kind && !o.inFlight)
    ∃ t, exec c s = .next t ∧ t.line.state = .quiet ∧ t.line.fails = 16
      ∧ t.line.quietLeft = some 5000000
      ∧ (∀ o ∈ t.txq.records, o.kind.cls = 0)
      ∧ (∀ o ∈ left, o.kind.cls = 0 → o.order ≠ r.order → o ∈ t.txq.records)
      ∧ (¬ goes → r ∈ s.txq.records → r.kind.cls = 0 → r.inFlight = true →
          ∃ o ∈ t.txq.records, o.order = r.order ∧ o.attempts = r.attempts + 1 ∧ o.inFlight = false)
      ∧ t.txq.drops = min 255 (s.txq.drops + (if r.withdrawn = false ∧ 2 ≤ r.attempts then 1 else 0)
          + left.countP fun o => !(o.kind.cls == 0))
      ∧ t.stc.quietMark = true ∧ t.stc.failedAttempts = min 255 (s.stc.failedAttempts + 1)
      ∧ t.dclk.timer = s.dclk.timer.hold ∧ t.stc.statusTimer = s.stc.statusTimer.hold
      ∧ t.line.lockout = (s.line.lockout || decide (c = .jabber))
      ∧ t.dclk.now = s.dclk.now ∧ t.csr = s.csr ∧ t.prg = s.prg ∧ t.vtab = s.vtab ∧ t.ann = s.ann
      ∧ t.jck = s.jck ∧ t.lvl = s.lvl ∧ t.lmp = s.lmp

/-- QUIET_PERIOD_END sets the count to 8 and returns QUIET to ACTIVE, STUCK staying; LINE_STUCK with no attempt in
hand leaves ACTIVE or QUIET for STUCK, and in STUCK or ASLEEP leaves the receiver waiting for a BREAK alone; the
periodic timers move with the line; a jabber with no attempt in hand sets the lockout alone, and its clearing clears it (R4,
R13, R18, R19, R22, R66, R180). -/
def Obligations.LineTimers : Prop :=
  ∀ s : State,
    (s.line.quietLeft.isSome = true → s.line.state = .quiet → exec .quietPeriodEnd s = .next { s with
      line.quietLeft := none, line.fails := 8, line.state := .active,
      dclk.timer := s.dclk.timer.resume, stc.statusTimer := s.stc.statusTimer.resume })
    ∧ (s.line.quietLeft.isSome = true → s.line.state = .stuck →
        exec .quietPeriodEnd s = .next { s with line.quietLeft := none, line.fails := 8 })
    ∧ ((s.line.state = .stuck ∨ s.line.state = .asleep) →
        exec .lineStuck s = .next { s with line.rx := .fresh s.line.rx.estimate })
    ∧ (s.line.driving = [] → (s.line.state = .active ∨ s.line.state = .quiet) → exec .lineStuck s = .next { s with
      line.state := .stuck, line.rx := .fresh s.line.rx.estimate,
      dclk.timer := s.dclk.timer.hold, stc.statusTimer := s.stc.statusTimer.hold })
    ∧ (s.line.state ≠ .off → s.txq.flying = none → s.line.wake ≠ .sending →
        exec .jabber s = .next { s with line.lockout := true })
    ∧ exec .jabberLockoutClear s = .next { s with line.lockout := false }

/-- What the receiver makes of the line. A dominant run under 11 bit times or over 2,000 us is passed over; a BREAK
with no TUNE within 12 bit times is TUNE_ERR; the next dominant edge after a BREAK is the first TUNE edge. Spans of
1,336 to 1,735 counts are accepted. A frame sent at 84 to 108 counts a bit is heard character by character with that
estimate; HEAD origin 63 is dropped, then a LEN of 13 or more is an error, then a CHECK that does not close the sum
of the characters to 0xFF, then a class or LEN that does not fit a known kind; a foreign kind is dropped; what is left
is good. A frame sent at any other rate that still shows a BREAK is TUNE_ERR. Under the command of another kind than
the frame's, nothing is heard (the model's choice, log entry 5). A station hears what it does not itself drive and
what began after its line last became ACTIVE (log entry 45); hearing copies deck time at the first TUNE edge and ends
the reception with the estimate kept (R4, R5, R6, R7, R8, R12, R14, R15, R16, R17, R60). -/
def Obligations.ReceiverHears : Prop :=
  (∀ (asleep : Bool) (t d r : Nat) (rest : List Nat), rest ≠ [] →
     let h := listen asleep t (d :: r :: rest)
     ((d < 1056 ∨ 24000 < d) → h = listen asleep (t + d + r) rest)
     ∧ (1056 ≤ d → d ≤ 24000 → 1152 ≤ r → h.fin = .error .noTune ∧ h.edge = none ∧ h.stop = t + d + 1152)
     ∧ (1056 ≤ d → d ≤ 24000 → r < 1152 → h.start = t ∧ h.edge = some (t + d + r)))
  ∧ (∀ span : Nat, estimateOk (tuneEstimate span) = true ↔ 1336 ≤ span ∧ span ≤ 1735)
  ∧ (∀ (b : Nat) (chars : List Byte) (k : Nat), 76 ≤ b → b ≤ 575 → (b ≤ 83 ∨ 109 ≤ b) →
       judgeFrame k { runs := runsOf b (waveOf chars) } = .error)
  ∧ (∀ (b : Nat) (head kl : Byte) (rest : List Byte), 84 ≤ b → b ≤ 108 →
       let f : RxFrame := { runs := runsOf b (waveOf (head :: kl :: rest)) }
       let kind := kl.toNat / 16
       let len := kl.toNat % 16
       let total := head.toNat + kl.toNat + (rest.map BitVec.toNat).sum
       let sound := 1 ≤ total ∧ total % 255 = 0
       let fits := (kind, head.toNat / 64, len) ∈ [(1, 1, 6), (2, 1, 6), (3, 1, 6), (4, 0, 1), (5, 0, 1), (6, 2, 4), (7, 1, 2), (8, 3, 12), (9, 0, 2)]
       (head.toNat % 64 = 63 → f.heard.fin = .wakeHead ∧ ∀ k, judgeFrame k f = .dropped)
       ∧ (head.toNat % 64 ≠ 63 → 13 ≤ len → ∀ k, judgeFrame k f = .error)
       ∧ (head.toNat % 64 ≠ 63 → len ≤ 12 → rest.length = len + 1 →
           f.heard.chars = head :: kl :: rest ∧ f.head = head ∧ f.body = rest.take len ∧ f.edgeAge ≤ 2000
           ∧ f.heard.rx.map Reception.estimate = some b
           ∧ (¬ sound → judgeFrame kind f = .error)
           ∧ (sound → (kind = 0 ∨ 10 ≤ kind) → judgeFrame kind f = .dropped)
           ∧ (sound → 1 ≤ kind → kind ≤ 9 → (fits → judgeFrame kind f = .good) ∧ (¬ fits → judgeFrame kind f = .error))
           ∧ ∀ k, k ≠ kind → judgeFrame k f = .other))
  ∧ (∀ (f : RxFrame) (s : State),
       (hears f s = true ↔ (s.line.state = .active ∨ s.line.state = .quiet ∨ s.line.state = .stuck)
         ∧ s.line.driving = [] ∧ f.heard.stop - f.heard.start ≤ 12 * (s.ref.micros - s.line.since))
       ∧ ∃ t, heard f.heard s = t ∧ t = { s with dclk.capture := t.dclk.capture, line.rx := { Reception.fresh t.line.rx.estimate with phase := t.line.rx.phase } }
           ∧ t.dclk.capture = (if f.heard.edge = none then s.dclk.capture else s.dclk.now.subMicros f.edgeAge)
           ∧ t.line.rx.estimate = (f.heard.rx.map Reception.estimate).getD s.line.rx.estimate)

/-- A reception that times out or ends in error is counted once, to at most 255, while the line is ACTIVE, QUIET
or STUCK, and is not counted in ASLEEP, where the receiver's own record alone moves. A frame of a known kind that the
receiver finds in error is counted and reaches no owner; one that HEAD origin 63 ends is not counted. While the station
drives a frame, another sender's reception that its BREAK found open and that then is BROKEN, times out or has no TUNE
is counted, and the capture of its first TUNE edge is the one that stands before the attempt; nothing is taken or
counted of what the station itself drives, nor of a frame that began before the line last became ACTIVE, nor in OFF. A
good foreign frame and a good STATUS are dropped without a count; a STATUS that bears the station's own origin sets
the clash flag, but not on a receive-only station. That a foreign frame of the own origin leaves the flag is the
model's reading (log entry 36), that a frame begun before is known by its length, log entry 45, and that another
sender's reception is known by its length from one idle gap before the own BREAK, log entry 49 (R3, R7, R8, R12, R13,
R14, R15, R16, R17, R20, R23, R24, R60). -/
def Obligations.FramesNotTaken : Prop :=
  (∀ s : State, s.line.driving = [] → 25056 ≤ 12 * (s.ref.micros - s.line.since) →
     ((s.line.state = .active ∨ s.line.state = .quiet ∨ s.line.state = .stuck) →
       exec .receiveTimeout s = .next { s with
         line.rxErrors := min 255 (s.line.rxErrors + 1), line.rx := .fresh s.line.rx.estimate,
         dclk.capture := s.dclk.now.subMicros 2000 })
     ∧ (s.line.state = .asleep →
       exec .receiveTimeout s = .next { s with line.rx := .fresh s.line.rx.estimate }))
  ∧ (∀ (f : RxFrame) (s : State),
       (hears f s = true → verdictOn f = .error →
         exec (.frameError f) s = .next { heard f.heard s with line.rxErrors := min 255 (s.line.rxErrors + 1) })
       ∧ (hears f s = true → f.heard.fin = .wakeHead → exec (.frameError f) s = .next (heard f.heard s))
       ∧ (s.line.state = .asleep → ∃ t, exec (.frameError f) s = .next t ∧ t = { s with line.rx := t.line.rx }))
  ∧ (∀ (c : Instr) (f : RxFrame) (s : State), ReaderRests s →
       (c = .receiveTimeout ∨ c = .frameError f ∨ c = .receiveTime f ∨ c = .receiveCue f ∨ c = .receiveHush f
         ∨ c = .receiveAnnounce f ∨ c = .receiveStopReq f ∨ c = .receiveDoor f ∨ c = .receiveScene f
         ∨ c = .receiveStatus f ∨ c = .receivePark f ∨ ∃ k, c = .foreignFrame k f) →
       let counts := if c = .receiveTimeout then 25056 else f.heard.stop - f.heard.start
       (s.line.driving ≠ [] →
           (s.line.state = .asleep ∨ s.line.rx.edgeRef - 1536 + counts < 12 * s.ref.micros + 1152) → exec c s = .next s)
       ∧ (s.line.state = .off → exec c s = .next s)
       ∧ (s.line.state ≠ .asleep → c ≠ .receiveTimeout → 12 * (s.ref.micros - s.line.since) < f.heard.stop - f.heard.start →
           exec c s = .next s))
  ∧ (∀ (f : RxFrame) (s : State), s.line.driving ≠ [] →
       (s.line.state = .active ∨ s.line.state = .quiet ∨ s.line.state = .stuck) →
       let foreign := fun counts => 12 * s.ref.micros + 1152 ≤ s.line.rx.edgeRef - 1536 + counts
         ∧ counts ≤ 12 * (s.ref.micros - s.line.since)
       (foreign (f.heard.stop - f.heard.start) → verdictOn f = .error → exec (.frameError f) s = .next { s with
         line.rxErrors := min 255 (s.line.rxErrors + 1),
         line.priorCapture := if f.heard.edge = none then s.line.priorCapture
           else some (s.dclk.now.subMicros f.edgeAge) })
       ∧ (foreign 25056 → exec .receiveTimeout s = .next { s with
         line.rxErrors := min 255 (s.line.rxErrors + 1),
         line.priorCapture := some (s.dclk.now.subMicros 2000) }))
  ∧ (∀ (f : RxFrame) (s : State), hears f s = true → ReaderRests s →
       let t : State := { heard f.heard s with line.rxErrors := min 255 (s.line.rxErrors + 1) }
       (judgeFrame 1 f = .error → exec (.receiveTime f) s = .next t)
       ∧ (judgeFrame 2 f = .error → exec (.receiveCue f) s = .next t)
       ∧ (judgeFrame 3 f = .error → exec (.receiveAnnounce f) s = .next t)
       ∧ (judgeFrame 4 f = .error → exec (.receiveStopReq f) s = .next t)
       ∧ (judgeFrame 5 f = .error → exec (.receiveDoor f) s = .next t)
       ∧ (judgeFrame 6 f = .error → exec (.receiveScene f) s = .next t)
       ∧ (judgeFrame 7 f = .error → exec (.receiveHush f) s = .next t)
       ∧ (judgeFrame 8 f = .error → exec (.receiveStatus f) s = .next t)
       ∧ (judgeFrame 9 f = .error → exec (.receivePark f) s = .next t))
  ∧ (∀ (f : RxFrame) (s : State), hears f s = true →
       (∀ k, judgeFrame (foreignCode k) f = .dropped →
         exec (.foreignFrame k f) s = .next (heard f.heard s))
       ∧ (judgeFrame 8 f = .good → headOrigin f.head ≠ s.stc.origin →
           exec (.receiveStatus f) s = .next (heard f.heard s))
       ∧ (judgeFrame 8 f = .good → headOrigin f.head = s.stc.origin → s.stc.origin ≠ 0 →
           s.stc.origin ≠ 63 →
           exec (.receiveStatus f) s = .next { heard f.heard s with line.clash := true })
       ∧ (judgeFrame 8 f = .good → headOrigin f.head = s.stc.origin → (s.stc.origin = 0 ∨ s.stc.origin = 63) →
           exec (.receiveStatus f) s = .next (heard f.heard s)))

/-- The frames that a station sends are heard as sent, and judged good, by every receiver whose measure of a bit time
is 84 to 108 counts: every origin, every body of the kind's length (R2, R5, R6, R8, R15). -/
def Obligations.SentFramesAreGood : Prop :=
  ∀ (k : TxKind) (origin : Origin) (body : List Byte) (b : Nat),
    origin ≠ 63 → formOf k.code = some (k.cls, body.length) → 84 ≤ b → b ≤ 108 →
    let f : RxFrame := { runs := runsOf b (waveOf (frameChars k.code k.cls origin body)) }
    f.heard.chars = frameChars k.code k.cls origin body ∧ judgeFrame k.code f = .good
      ∧ headOrigin f.head = origin ∧ f.body = body

/-! ## Deck time -/

/-- A TIME with a positive offset: deck time advances by the whole offset, the own TIME is withdrawn, and a timer that
is not stopped takes a regular period, held or running as it was. Every instant that the step carries past is reached
at once: due cues are promoted, lapsed doors and claims leave, and a WAITING announcement's chime begins. A TIME of
a sender not ahead moves no clock: within 500 us behind, the own TIME is withdrawn and the timer restarted;
further behind, a queued TIME is kept and the remaining time becomes the smaller of itself and 16 + d ms; a
stopped timer is neither restarted nor shortened and no draw is made; a microsecond field above 999 is counted
(R25, R58, R62, R63, R64, R65). -/
def Obligations.ReceiveTime : Prop :=
  (∀ (f : RxFrame) (s : State), hears f s = true → judgeFrame 1 f = .good → field16 f.body 4 ≤ 999 →
     ReaderRests s → NothingAwaited s → s.dclk.timer ≠ .stopped →
     let u := heardFrom f s
     let offset := (timeOfBody f.body).diffMicros u.dclk.capture
     0 < offset →
     exec (.receiveTime f) s = .next { u with
       dclk.now := u.dclk.now.addMicros offset.toNat,
       dclk.timer := u.dclk.timer.restart ((1000 + (lfsrSteps 16 s.txq.lfsr).toNat % 64) * 1000),
       dclk.firstPeriod := false,
       txq.records := (s.txq.withdraw .time).records, txq.lfsr := lfsrSteps 16 s.txq.lfsr })
  ∧ (∀ (f : RxFrame) (s : State), hears f s = true → judgeFrame 1 f = .good → field16 f.body 4 ≤ 999 →
     s.csr.hand.isSome = true → s.dclk.timer ≠ .stopped →
     let u := heardFrom f s
     let offset := (timeOfBody f.body).diffMicros u.dclk.capture
     0 < offset →
     let now := s.dclk.now.addMicros offset.toNat
     let due := s.prg.queue.filter fun e => reached now e.start
     ∃ t, exec (.receiveTime f) s = .next t ∧ t.dclk.now = now
       ∧ t.dclk.timer = s.dclk.timer.restart ((1000 + (lfsrSteps 16 s.txq.lfsr).toNat % 64) * 1000)
       ∧ t.prg.queue = (s.prg.queue.filter fun e => !reached now e.start)
       ∧ (∀ c, due.getLast? = some c → t.prg.current = some c ∧ t.prg.lastTaken = some c)
       ∧ (due = [] → t.prg = s.prg)
       ∧ t.ann.doors = (s.ann.doors.filter fun d => !reached now d.expiry)
       ∧ (∀ p, t.lmp.claims.get p =
           if claimLapsed now (s.lmp.claims.get p) = true then none else s.lmp.claims.get p)
       ∧ (∀ a, s.ann.current = some a → a.phase = .waiting → reached now a.start = true →
           t.ann.current = some { a with phase := .chime, chimeLen := none } ∧ t.ann.purpose = .chime
           ∧ t.vtab.va.play.state = .seeking ∧ t.vtab.va.play.anchor = { ms := a.start, us := 0 })
       ∧ (∀ a, s.ann.current = some a → (a.phase ≠ .waiting ∨ reached now a.start = false) →
           t.ann.current = some a ∧ t.vtab.va = s.vtab.va)
       ∧ (s.ann.current = none → t.ann.current = none ∧ t.vtab.va = s.vtab.va)
       ∧ t.line = u.line ∧ t.jck = s.jck ∧ t.stc = s.stc ∧ t.lvl = s.lvl ∧ t.ann.latch = s.ann.latch)
  ∧ (∀ (f : RxFrame) (s : State), hears f s = true → judgeFrame 1 f = .good → ReaderRests s →
       let u := heardFrom f s
       let offset := (timeOfBody f.body).diffMicros u.dclk.capture
       (999 < field16 f.body 4 →
         exec (.receiveTime f) s = .next { u with line.rxErrors := min 255 (s.line.rxErrors + 1) })
       ∧ (field16 f.body 4 ≤ 999 → -500 ≤ offset → offset ≤ 0 → s.dclk.timer ≠ .stopped →
           exec (.receiveTime f) s = .next { u with
             dclk.timer := u.dclk.timer.restart ((1000 + (lfsrSteps 16 s.txq.lfsr).toNat % 64) * 1000),
             dclk.firstPeriod := false,
             txq.records := (s.txq.withdraw .time).records, txq.lfsr := lfsrSteps 16 s.txq.lfsr })
       ∧ (field16 f.body 4 ≤ 999 → -500 ≤ offset → offset ≤ 0 → s.dclk.timer = .stopped →
           exec (.receiveTime f) s = .next { u with txq.records := (s.txq.withdraw .time).records })
       ∧ (field16 f.body 4 ≤ 999 → offset < -500 → s.dclk.timer ≠ .stopped →
           exec (.receiveTime f) s = .next { u with
             dclk.timer := u.dclk.timer.shorten ((16 + (lfsrSteps 16 s.txq.lfsr).toNat % 64) * 1000),
             txq.lfsr := lfsrSteps 16 s.txq.lfsr })
       ∧ (field16 f.body 4 ≤ 999 → offset < -500 → s.dclk.timer = .stopped →
           exec (.receiveTime f) s = .next u))

/-- After a forward step the receiver reads what the sender's clock reads at that moment: a capture, the same
elapsed time on both clocks, and the offset added whole (R62, R63). -/
def Obligations.StepAlignsClocks : Prop :=
  ∀ (sender capture : DeckTime) (elapsed : Nat), sender.us ≤ 999 → capture.us ≤ 999 →
    0 < sender.diffMicros capture →
    (capture.addMicros elapsed).addMicros (sender.diffMicros capture).toNat = sender.addMicros elapsed

/-- The TIME timer's expiry enqueues TIME with an empty body and restarts the timer with a regular period; a timer that
a TIME has restarted since it ran out does not expire, which is the model's order of the two (log entry 4); the
STATUS timer's expiry assembles the report with its marks, clears them, enqueues it and restarts the timer at
10,000 ms plus a draw; the park timer's expiry holds the deck clock in PARKED. The report's twelve bytes are the
flags, the jacks LISTENING and the readings, the languages as nibbles with 15 for a jack not LISTENING, the channel
faults, the scene and the wind boost, the wind average, and the four counts, each held at its width
(R30, R57, R67, R68, R176, R180, R181, R182, R183). -/
def Obligations.PeriodicTimers : Prop :=
  (∀ s : State,
    (s.dclk.timer ≠ .running 0 → exec .timeTimerExpiry s = .next s)
    ∧ (s.dclk.timer = .running 0 → exec .timeTimerExpiry s = .next
      (let u := enqueue .time [] s
       { u with
         txq.lfsr := lfsrSteps 16 s.txq.lfsr,
         dclk.timer := .running ((1000 + (lfsrSteps 16 s.txq.lfsr).toNat % 64) * 1000) }))
    ∧ (s.stc.statusTimer.isRunning = true → exec .statusTimerExpiry s = .next
      (let u := enqueue .status (statusBody s) s
       { u with
         stc.parkedMark := false, stc.quietMark := false, txq.lfsr := lfsrSteps 16 s.txq.lfsr,
         stc.statusTimer := .running ((10000 + (lfsrSteps 16 s.txq.lfsr).toNat % 1024) * 1000) }))
    ∧ (s.stc.state = .parking → exec .parkTimerExpiry s = .next { s with
         stc.state := .parked, stc.parkLeft := none, dclk.running := false }))
  ∧ (∀ s : State,
     let b := statusBody s
     let nibble := fun (x : Jack) => if x.state = .listening then x.language else 15
     let j := s.jck.jacks
     b.length = 12
     ∧ ((byteAt b 0).getLsbD 7 = s.stc.parkedMark ∧ (byteAt b 0).getLsbD 6 = s.stc.quietMark
       ∧ (byteAt b 0).getLsbD 5 = decide (s.csr.image = .bad) ∧ (byteAt b 0).getLsbD 4 = s.csr.flashFault
       ∧ (byteAt b 0).getLsbD 3 = s.line.clash ∧ (byteAt b 0).getLsbD 2 = s.ann.latch
       ∧ (byteAt b 0).getLsbD 1 = !s.ann.doors.isEmpty
       ∧ (byteAt b 0).getLsbD 0 = decide (s.vtab.speaker = .starved))
     ∧ ((byteAt b 1).getLsbD 0 = decide (j.a.state = .listening) ∧ (byteAt b 1).getLsbD 1 = decide (j.b.state = .listening)
       ∧ (byteAt b 1).getLsbD 2 = decide (j.c.state = .listening) ∧ (byteAt b 1).getLsbD 3 = decide (j.d.state = .listening)
       ∧ (byteAt b 1).getLsbD 4 = s.jck.readAB ∧ (byteAt b 1).getLsbD 5 = s.jck.readCD
       ∧ (byteAt b 1).getLsbD 6 = false ∧ (byteAt b 1).getLsbD 7 = false)
     ∧ ((∀ i, (j.get i).language ≤ 11) → (byteAt b 2).toNat = nibble j.a * 16 + nibble j.b
       ∧ (byteAt b 3).toNat = nibble j.c * 16 + nibble j.d)
     ∧ ((byteAt b 4).getLsbD 0 = s.lmp.chans.ch0.fault ∧ (byteAt b 4).getLsbD 1 = s.lmp.chans.ch1.fault
       ∧ (byteAt b 4).getLsbD 2 = s.lmp.chans.ch2.fault ∧ (byteAt b 4).getLsbD 3 = s.lmp.chans.ch3.fault
       ∧ (byteAt b 4).getLsbD 4 = s.lmp.chans.ch4.fault ∧ (byteAt b 4).getLsbD 5 = s.lmp.chans.ch5.fault
       ∧ (byteAt b 4).getLsbD 6 = false ∧ (byteAt b 4).getLsbD 7 = false)
     ∧ (currentScene s ≤ 7 → s.lvl.wind.boost ≤ 8 → (byteAt b 5).toNat = currentScene s * 16 + s.lvl.wind.boost)
     ∧ (s.lvl.wind.average ≤ 255 → (byteAt b 6).toNat = s.lvl.wind.average)
     ∧ (byteAt b 7).toNat = min 255 ((playOf s (.slot .v0)).underruns + (playOf s (.slot .v1)).underruns
         + (playOf s (.slot .v2)).underruns + (playOf s (.slot .v3)).underruns + (playOf s .va).underruns)
     ∧ (byteAt b 8).toNat = min 255 s.line.rxErrors
     ∧ (byteAt b 9).toNat = min 255 (s.stc.failedAttempts + s.txq.drops)
     ∧ field16 b 10 = min 65535 (j.a.plugs + j.b.plugs + j.c.plugs + j.d.plugs))

/-! ## Commentary -/

/-- RECEIVE_CUE of a good frame in range: a stale start and a duplicate change nothing; a start reached becomes
the current cue and the last taken, and busy COMMENTARY slots seek it; a start ahead goes into the pending
queue in start order, or into the entry of the same start; a full queue drops a start later than all of its
own and otherwise evicts its latest entry for the arrival, counted either way (R26, R86 to R89, R97, R106). That of two
starts exactly 2^31 ms apart neither is later is the model's choice (log entry 47). -/
def Obligations.ReceiveCue : Prop :=
  ∀ (f : RxFrame) (s : State), hears f s = true → judgeFrame 2 f = .good → ReaderRests s →
    let u := heardFrom f s
    let c : CueAt := { cue := field16 f.body 0, start := field32 f.body 2 }
    let stale := ∃ t, s.prg.lastTaken = some t ∧ later t.start c.start = true
    let known := s.prg.lastTaken = some c ∨ c ∈ s.prg.queue
    (1024 ≤ c.cue → exec (.receiveCue f) s = .next { u with line.rxErrors := min 255 (s.line.rxErrors + 1) })
    ∧ (c.cue ≤ 1023 → (stale ∨ known) → exec (.receiveCue f) s = .next u)
    ∧ (c.cue ≤ 1023 → ¬ stale → ¬ known → reached s.dclk.now c.start = true →
        ∃ t, exec (.receiveCue f) s = .next t
          ∧ t.prg = { s.prg with current := some c, lastTaken := some c }
          ∧ t.line = u.line ∧ t.txq = u.txq ∧ t.dclk = u.dclk ∧ t.jck = u.jck ∧ t.stc = u.stc ∧ t.lvl = u.lvl
          ∧ t.lmp.claims = u.lmp.claims ∧ t.ann.latch = u.ann.latch ∧ t.ann.doors = u.ann.doors
          ∧ (s.csr.hand.isSome = true → ∀ i, slotBusy s i = true →
              (s.vtab.slots.get i).content = .commentary →
              (t.vtab.slots.get i).play.state = .seeking
              ∧ (t.vtab.slots.get i).play.anchor = { ms := c.start, us := 0 }
              ∧ t.csr.tags.get i = s.csr.tags.get i + 1))
    ∧ (c.cue ≤ 1023 → ¬ stale → ¬ known → reached s.dclk.now c.start = false →
        (∀ e ∈ s.prg.queue, e.start ≠ c.start) → s.prg.queue.length ≤ 3 →
        exec (.receiveCue f) s = .next { u with
          prg.queue := (s.prg.queue.takeWhile fun e => later c.start e.start)
            ++ c :: (s.prg.queue.dropWhile fun e => later c.start e.start) })
    ∧ (c.cue ≤ 1023 → ¬ stale → ¬ known → reached s.dclk.now c.start = false →
        (∃ e ∈ s.prg.queue, e.start = c.start) →
        exec (.receiveCue f) s = .next { u with
          prg.queue := s.prg.queue.map fun e => if e.start = c.start then c else e })
    ∧ (c.cue ≤ 1023 → ¬ stale → ¬ known → reached s.dclk.now c.start = false →
        4 ≤ s.prg.queue.length → (∀ e ∈ s.prg.queue, e.start ≠ c.start ∧ later c.start e.start = true) →
        exec (.receiveCue f) s = .next { u with line.rxErrors := min 255 (s.line.rxErrors + 1) })
    ∧ (c.cue ≤ 1023 → ¬ stale → ¬ known → reached s.dclk.now c.start = false →
        ∀ kept latest, s.prg.queue = kept ++ [latest] → 3 ≤ kept.length → (∀ e ∈ s.prg.queue, e.start ≠ c.start) →
        (∃ e ∈ s.prg.queue, later c.start e.start = false) →
        exec (.receiveCue f) s = .next { u with
          line.rxErrors := min 255 (s.line.rxErrors + 1),
          prg.queue := (kept.takeWhile fun e => later c.start e.start)
            ++ c :: (kept.dropWhile fun e => later c.start e.start) })

/-- RECEIVE_HUSH: every pending entry named leaves, and a current cue that is named becomes NONE; the last taken
stands; a field between is refused and counted. CUE_PROMOTION with one or more starts reached: the due entries
leave the queue, and the last of them, the latest start of a queue in start order, becomes current and the last
taken; the others stay. At either, with a read in hand, a busy COMMENTARY slot renews its tag and seeks the new cue
from its start, or is SILENT with its clip NONE where there is none; other slots stand (R29, R90, R91, R97, R106). -/
def Obligations.CueChanges : Prop :=
  (∀ (f : RxFrame) (s : State), hears f s = true → judgeFrame 7 f = .good → ReaderRests s →
     let u := heardFrom f s
     let n := field16 f.body 0
     (1024 ≤ n → n ≠ 65535 →
       exec (.receiveHush f) s = .next { u with line.rxErrors := min 255 (s.line.rxErrors + 1) })
     ∧ ((n ≤ 1023 ∨ n = 65535) → ∃ t, exec (.receiveHush f) s = .next t
         ∧ t.prg.lastTaken = s.prg.lastTaken
         ∧ (n = 65535 → t.prg.current = none ∧ t.prg.queue = [])
         ∧ (n ≤ 1023 → t.prg.queue = s.prg.queue.filter (fun e => !(e.cue == n))
             ∧ t.prg.current = (if (∃ c, s.prg.current = some c ∧ c.cue = n) then none else s.prg.current))
         ∧ (s.csr.hand.isSome = true → ∀ c i, s.prg.current = some c → (n = 65535 ∨ c.cue = n) →
             (slotBusy s i = true → (s.vtab.slots.get i).content = .commentary →
               (t.vtab.slots.get i).play.state = .silent ∧ (t.vtab.slots.get i).play.clip = .none
               ∧ t.csr.tags.get i = s.csr.tags.get i + 1 ∧ t.csr.places.get i = none)
             ∧ ((slotBusy s i = false ∨ (s.vtab.slots.get i).content ≠ .commentary) →
               t.vtab.slots.get i = s.vtab.slots.get i ∧ t.csr.tags.get i = s.csr.tags.get i))
         ∧ t.line = u.line ∧ t.txq = u.txq ∧ t.dclk = u.dclk ∧ t.jck = u.jck ∧ t.stc = u.stc ∧ t.lvl = u.lvl
         ∧ t.lmp.claims = u.lmp.claims ∧ t.ann.latch = u.ann.latch ∧ t.ann.doors = u.ann.doors))
  ∧ (∀ (s : State) (c : CueAt), (s.prg.queue.filter fun e => reached s.dclk.now e.start).getLast? = some c →
       ∃ t, exec .cuePromotion s = .next t
         ∧ t.prg = { current := some c, lastTaken := some c, queue := s.prg.queue.filter fun e => !reached s.dclk.now e.start }
         ∧ (s.csr.hand.isSome = true → ∀ i,
             (slotBusy s i = true → (s.vtab.slots.get i).content = .commentary →
               (t.vtab.slots.get i).play.state = .seeking
               ∧ (t.vtab.slots.get i).play.anchor = { ms := c.start, us := 0 }
               ∧ t.csr.tags.get i = s.csr.tags.get i + 1 ∧ (t.csr.places.get i).isSome = true)
             ∧ ((slotBusy s i = false ∨ (s.vtab.slots.get i).content ≠ .commentary) →
               t.vtab.slots.get i = s.vtab.slots.get i ∧ t.csr.tags.get i = s.csr.tags.get i))
         ∧ t.line = s.line ∧ t.txq = s.txq ∧ t.dclk = s.dclk ∧ t.jck = s.jck ∧ t.stc = s.stc ∧ t.lvl = s.lvl
         ∧ t.lmp.claims = s.lmp.claims ∧ t.ann.latch = s.ann.latch ∧ t.ann.doors = s.ann.doors)

/-- A SETTLING jack's settle ends with the speaker not STARVED and no NAME phase: it is LISTENING; it joins the
slot of its language without a seek, or takes the lowest IDLE slot, which seeks; its output is silent for 8 ms
with the slot pair at -72 (R93, R97, R134, R147). -/
def Obligations.SettleEnd : Prop :=
  ∀ (j : Seat) (s : State), (s.jck.jacks.get j).state = .settling → s.csr.hand.isSome = true →
    s.vtab.speaker ≠ .starved → inName s = false →
    let n := (s.jck.jacks.get j).language
    (∀ i, slotOfLanguage s n = some i → ∃ t, exec (.settleEnd j) s = .next t
      ∧ (t.jck.jacks.get j).state = .listening ∧ (t.jck.jacks.get j).settle = none
      ∧ (t.jck.jacks.get j).language = n
      ∧ (t.vtab.slots.get i).listeners.hears (.jack j) = true
      ∧ (t.vtab.slots.get i).play = (s.vtab.slots.get i).play ∧ t.csr = s.csr
      ∧ t.lvl.silence.get (.jack j) = some 8000 ∧ (t.lvl.gains.get (.jack j)).slot = -72
      ∧ (t.lvl.gains.get (.jack j)).va = (s.lvl.gains.get (.jack j)).va ∧ t.lvl.out.get (.jack j) = 0
      ∧ t.line = s.line ∧ t.txq = s.txq ∧ t.dclk = s.dclk ∧ t.prg = s.prg ∧ t.ann = s.ann ∧ t.lmp = s.lmp)
    ∧ (∀ i, slotOfLanguage s n = none → idleSlot s = some i → ∃ t, exec (.settleEnd j) s = .next t
      ∧ (t.jck.jacks.get j).state = .listening
      ∧ (t.vtab.slots.get i).language = n ∧ (t.vtab.slots.get i).listeners = only (.jack j)
      ∧ (t.vtab.slots.get i).content = .commentary ∧ t.csr.tags.get i = s.csr.tags.get i + 1
      ∧ (∀ c, s.prg.current = some c →
          (t.vtab.slots.get i).play.state = .seeking
          ∧ (t.vtab.slots.get i).play.anchor = { ms := c.start, us := 0 }
          ∧ (t.csr.places.get i).isSome = true)
      ∧ (s.prg.current = none → (t.vtab.slots.get i).play.state = .silent)
      ∧ t.lvl.silence.get (.jack j) = some 8000 ∧ (t.lvl.gains.get (.jack j)).slot = -72
      ∧ t.line = s.line ∧ t.txq = s.txq ∧ t.dclk = s.dclk ∧ t.prg = s.prg ∧ t.lmp = s.lmp)

/-- The speaker and its slot, with a read in hand and outside NAME. A jack whose language is in no slot, with none
IDLE, takes the slot that the speaker alone hears, and the speaker is STARVED and silenced. A jack that leaves a slot
as its last listener releases it: IDLE, tag renewed, place emptied. A STARVED speaker takes a slot so freed with the
house language, or joins the slot a jack has just been given with it. In NAME with the cap timer running, a slot that
a jack takes is given the name and joins the naming set (R78, R93, R95, R96, R97, R126, R147). That a slot taken from
the speaker renews its tag once is the model's reading (log entry 14), and that SPK is silenced for 8 ms when it loses
its slot too, its choice (log entry 27). -/
def Obligations.SpeakerPlaces : Prop :=
  (∀ (j : Seat) (i : SlotId) (s : State), (s.jck.jacks.get j).state = .settling → s.csr.hand.isSome = true →
     let n := (s.jck.jacks.get j).language
     let house := s.csr.config.house
     (inName s = false → slotOfLanguage s n = none → idleSlot s = none → speakerOnlySlot s = some i →
       n ≠ house → (∀ k, k ≠ i → (s.vtab.slots.get k).language ≠ house) → ∃ t, exec (.settleEnd j) s = .next t
         ∧ (t.jck.jacks.get j).state = .listening ∧ t.vtab.speaker = .starved
         ∧ (t.vtab.slots.get i).language = n ∧ (t.vtab.slots.get i).listeners = only (.jack j)
         ∧ (t.vtab.slots.get i).content = .commentary ∧ t.csr.tags.get i = s.csr.tags.get i + 1
         ∧ t.lvl.silence.get (.jack j) = some 8000 ∧ (t.lvl.gains.get (.jack j)).slot = -72
         ∧ t.lvl.silence.get .spk = some 8000 ∧ (t.lvl.gains.get .spk).slot = -72
         ∧ (∀ k, k ≠ i → t.vtab.slots.get k = s.vtab.slots.get k)
         ∧ t.line = s.line ∧ t.txq = s.txq ∧ t.dclk = s.dclk ∧ t.prg = s.prg ∧ t.lmp = s.lmp ∧ t.stc = s.stc)
     ∧ (inName s = false → n = house → slotOfLanguage s n = none → idleSlot s = some i → s.vtab.speaker = .starved →
         s.stc.state = .awake → s.csr.config.speakerOn = true → ∃ t, exec (.settleEnd j) s = .next t
         ∧ t.vtab.speaker = .attached i ∧ (t.vtab.slots.get i).language = house
         ∧ (t.vtab.slots.get i).listeners = (only (.jack j)).put .spk true
         ∧ t.lvl.silence.get .spk = some 8000 ∧ (∀ k, k ≠ i → t.vtab.slots.get k = s.vtab.slots.get k)
         ∧ t.line = s.line ∧ t.txq = s.txq ∧ t.dclk = s.dclk ∧ t.prg = s.prg ∧ t.lmp = s.lmp ∧ t.stc = s.stc)
     ∧ (∀ a, s.ann.current = some a → a.phase = .name → s.ann.nameCap.isSome = true → s.vtab.speaker ≠ .starved →
         slotOfLanguage s n = none → idleSlot s = some i → ∃ t, exec (.settleEnd j) s = .next t
         ∧ (t.vtab.slots.get i).content = .name a.stop ∧ (t.vtab.slots.get i).language = n
         ∧ (t.vtab.slots.get i).listeners = only (.jack j) ∧ (t.vtab.slots.get i).play.state = .seeking
         ∧ (t.vtab.slots.get i).play.anchor
             = DeckTime.addMicros { ms := a.start, us := 0 } (125 * a.chimeLen.getD 0)
         ∧ t.ann = { s.ann with naming := s.ann.naming.set i true }
         ∧ t.line = s.line ∧ t.txq = s.txq ∧ t.dclk = s.dclk ∧ t.prg = s.prg ∧ t.lmp = s.lmp ∧ t.stc = s.stc))
  ∧ (∀ (j : Seat) (i : SlotId) (s : State),
       (s.stc.state = .awake ∨ s.stc.state = .parking ∨ s.stc.state = .parked) → s.csr.hand.isSome = true →
       (s.jck.jacks.get j).state = .listening → slotHeardBy s (.jack j) = some i →
       (s.vtab.slots.get i).listeners.put (.jack j) false = .nobody → inName s = false →
       (s.vtab.speaker ≠ .starved → ∃ t, exec (.unplug j) s = .next t
         ∧ (t.jck.jacks.get j).state = .empty ∧ t.vtab.speaker = s.vtab.speaker
         ∧ (t.vtab.slots.get i).play.state = .idle ∧ (t.vtab.slots.get i).play.clip = .none
         ∧ (t.vtab.slots.get i).play.position = 0 ∧ (t.vtab.slots.get i).play.bufX = .empty
         ∧ (t.vtab.slots.get i).play.bufY = .empty ∧ (t.vtab.slots.get i).listeners = .nobody
         ∧ (t.vtab.slots.get i).content = .commentary ∧ t.csr.tags.get i = s.csr.tags.get i + 1
         ∧ t.csr.places.get i = none ∧ (∀ k, k ≠ i → t.vtab.slots.get k = s.vtab.slots.get k)
         ∧ t.line = s.line ∧ t.txq = s.txq ∧ t.dclk = s.dclk ∧ t.prg = s.prg ∧ t.lmp = s.lmp ∧ t.stc = s.stc)
       ∧ (s.vtab.speaker = .starved → s.stc.state = .awake → s.csr.config.speakerOn = true →
           (∀ k, k ≠ i → slotBusy s k = true ∧ (s.vtab.slots.get k).language ≠ s.csr.config.house) →
           ∃ t, exec (.unplug j) s = .next t
         ∧ (t.jck.jacks.get j).state = .empty ∧ t.vtab.speaker = .attached i
         ∧ (t.vtab.slots.get i).language = s.csr.config.house ∧ (t.vtab.slots.get i).listeners = only .spk
         ∧ (t.vtab.slots.get i).content = .commentary
         ∧ (s.prg.current ≠ none → (t.vtab.slots.get i).play.state = .seeking)
         ∧ t.lvl.silence.get .spk = some 8000 ∧ (t.lvl.gains.get .spk).slot = -72
         ∧ (∀ k, k ≠ i → t.vtab.slots.get k = s.vtab.slots.get k)
         ∧ t.line = s.line ∧ t.txq = s.txq ∧ t.dclk = s.dclk ∧ t.prg = s.prg ∧ t.lmp = s.lmp ∧ t.stc = s.stc))

/-! ## Stop requests, doors and announcements -/

/-- A STOP press: while AWAKE it is refused with a door open; it raises a CLEAR latch and sends the
seat's bit, with a tone unless a chime or a name sounds; it sends the bit alone under an own OPEN request; and it changes nothing under a CLOSED one. While
PARKED it asks for the wake. RECEIVE_STOP_REQ, whatever its mask: the own record is withdrawn and the own
request CLOSED; a CLEAR latch with no door open rises, with a tone unless a chime or a name sounds (R27, R112,
R113, R114, R141, R177). -/
def Obligations.StopRequests : Prop :=
  (∀ (j : Seat) (s : State), ReaderRests s →
     let panel : Panel := { s.jck.panels.get j with stop := { accepted := true, run := 0 } }
     let u : State := { s with jck.panels := s.jck.panels.set j panel }
     let seatBit : Byte := match j with
       | .a => 1
       | .b => 2
       | .c => 4
       | .d => 8
     (s.stc.state = .awake → (s.ann.doors ≠ [] ∨ (s.ann.latch = true ∧ s.ann.ownOpen = false)) →
       exec (.stopPress j) s = .next u)
     ∧ (s.stc.state = .awake → s.ann.doors = [] → s.ann.latch = true → s.ann.ownOpen = true →
         exec (.stopPress j) s = .next (enqueue .stopReq [seatBit] u))
     ∧ (s.stc.state = .awake → s.ann.doors = [] → s.ann.latch = false → inAnnouncement s = false →
         s.csr.hand.isSome = true → ∃ t, exec (.stopPress j) s = .next t
           ∧ t.ann.latch = true ∧ t.ann.ownOpen = true ∧ t.txq = (enqueue .stopReq [seatBit] s).txq
           ∧ t.ann.purpose = .tone ∧ t.vtab.va.content = .tone ∧ t.vtab.va.play.state = .seeking
           ∧ t.vtab.va.play.anchor = s.dclk.now ∧ t.csr.vaTag = s.csr.vaTag + 1
           ∧ t.line = s.line ∧ t.dclk = s.dclk ∧ t.prg = s.prg ∧ t.jck = u.jck ∧ t.stc = s.stc ∧ t.lvl = s.lvl
           ∧ t.vtab.slots = s.vtab.slots ∧ t.ann.doors = s.ann.doors)
     ∧ (s.stc.state = .awake → s.ann.doors = [] → s.ann.latch = false → inAnnouncement s = true →
         ∃ t, exec (.stopPress j) s = .next t
           ∧ t.ann = { s.ann with latch := true, ownOpen := true } ∧ t.txq = (enqueue .stopReq [seatBit] s).txq
           ∧ t.vtab = s.vtab ∧ t.csr = s.csr ∧ t.line = s.line ∧ t.dclk = s.dclk ∧ t.prg = s.prg ∧ t.jck = u.jck
           ∧ t.stc = s.stc ∧ t.lvl = s.lvl ∧ t.lmp.claims = s.lmp.claims)
     ∧ (s.stc.state = .parked → s.stc.origin ≠ 0 → s.stc.origin ≠ 63 → s.stc.wakeWait = none →
         s.line.wake = .none → exec (.stopPress j) s = .next { u with
           line.wake := .held, stc.wakeWait := some 100000 })
     ∧ (s.stc.state = .parking → exec (.stopPress j) s = .next u))
  ∧ (∀ (f : RxFrame) (s : State), hears f s = true → judgeFrame 4 f = .good → ReaderRests s →
       let u := heardFrom f s
       ((s.ann.doors ≠ [] ∨ s.ann.latch = true) → exec (.receiveStopReq f) s = .next { u with
         txq.records := (s.txq.withdraw .stopReq).records, ann.ownOpen := false })
       ∧ (s.ann.doors = [] → s.ann.latch = false → s.csr.hand.isSome = true →
           ∃ t, exec (.receiveStopReq f) s = .next t ∧ t.ann.latch = true ∧ t.ann.ownOpen = false
             ∧ t.txq.records = (s.txq.withdraw .stopReq).records
             ∧ (inAnnouncement s = false → t.ann.purpose = .tone ∧ t.vtab.va.play.state = .seeking
                 ∧ t.vtab.va.play.anchor = s.dclk.now)
             ∧ (inAnnouncement s = true → t.vtab = s.vtab ∧ t.ann.purpose = s.ann.purpose)
             ∧ t.line = u.line ∧ t.dclk = u.dclk ∧ t.prg = s.prg ∧ t.jck = s.jck ∧ t.stc = s.stc ∧ t.lvl = s.lvl))

/-- RECEIVE_DOOR: open adds the sender's entry to a table of fewer than four or refreshes it with an expiry
20,000 ms ahead, and clears the latch, the own request and the own STOP_REQ; closed removes the sender's
entry; any other body is refused and counted. The door switch, where the configuration has it on: an opening
makes the own entry, clears the latch, sends DOOR open and starts the 5,000 ms refresh; a closing removes the
entry, sends DOOR closed and stops it; a refresh sends DOOR open again (R27, R115, R116, R118). -/
def Obligations.Doors : Prop :=
  (∀ (f : RxFrame) (s : State), hears f s = true → judgeFrame 5 f = .good →
     let u := heardFrom f s
     let o := headOrigin f.head
     let expiry := s.dclk.now.ms + 20000
     (2 ≤ (byteAt f.body 0).toNat →
       exec (.receiveDoor f) s = .next { u with line.rxErrors := min 255 (s.line.rxErrors + 1) })
     ∧ (byteAt f.body 0 = 1 → ∃ t, exec (.receiveDoor f) s = .next t
         ∧ t.ann.latch = false ∧ t.ann.ownOpen = false
         ∧ t.txq.records = (s.txq.withdraw .stopReq).records
         ∧ ((∃ d ∈ s.ann.doors, d.origin = o) → t.ann.doors =
             s.ann.doors.map fun d => if d.origin = o then { d with expiry := expiry } else d)
         ∧ ((∀ d ∈ s.ann.doors, d.origin ≠ o) → s.ann.doors.length ≤ 3 →
             t.ann.doors = s.ann.doors ++ [{ origin := o, expiry := expiry }])
         ∧ ((∀ d ∈ s.ann.doors, d.origin ≠ o) → 4 ≤ s.ann.doors.length → t.ann.doors = s.ann.doors)
         ∧ t.line = u.line ∧ t.dclk = u.dclk ∧ t.prg = s.prg ∧ t.vtab = s.vtab ∧ t.csr = s.csr ∧ t.jck = s.jck
         ∧ t.stc = s.stc ∧ t.lvl = s.lvl ∧ t.lmp.claims = s.lmp.claims)
     ∧ (byteAt f.body 0 = 0 → ∃ t, exec (.receiveDoor f) s = .next t
         ∧ t.ann = { s.ann with doors := s.ann.doors.filter fun d => !(d.origin == o) }
         ∧ t.line = u.line ∧ t.txq = s.txq ∧ t.dclk = u.dclk ∧ t.prg = s.prg ∧ t.vtab = s.vtab ∧ t.csr = s.csr
         ∧ t.jck = s.jck ∧ t.stc = s.stc ∧ t.lvl = s.lvl ∧ t.lmp.claims = s.lmp.claims))
  ∧ (∀ s : State,
       (s.stc.state = .awake → s.csr.config.doorInput = true →
         (∃ t, exec .doorSwitchOpen s = .next t ∧ t.ann.latch = false ∧ t.ann.ownOpen = false
           ∧ t.ann.doorFilter = { accepted := true, run := 0 } ∧ t.ann.doorRefresh = some 5000000
           ∧ t.ann.doors = doorsWith s.stc.origin (s.dclk.now.ms + 20000) s.ann.doors
           ∧ t.txq = (enqueue .door [1] { s with txq := s.txq.withdraw .stopReq }).txq
           ∧ t.line = s.line ∧ t.dclk = s.dclk ∧ t.prg = s.prg ∧ t.vtab = s.vtab ∧ t.csr = s.csr ∧ t.jck = s.jck
           ∧ t.stc = s.stc ∧ t.lvl = s.lvl ∧ t.lmp.claims = s.lmp.claims)
         ∧ (∃ t, exec .doorSwitchClosed s = .next t
           ∧ t.ann = { s.ann with
               doors := s.ann.doors.filter fun d => !(d.origin == s.stc.origin),
               doorFilter := { accepted := false, run := 0 }, doorRefresh := none }
           ∧ t.txq = (enqueue .door [0] s).txq
           ∧ t.line = s.line ∧ t.dclk = s.dclk ∧ t.prg = s.prg ∧ t.vtab = s.vtab ∧ t.csr = s.csr ∧ t.jck = s.jck
           ∧ t.stc = s.stc ∧ t.lvl = s.lvl ∧ t.lmp.claims = s.lmp.claims))
       ∧ (s.ann.doorRefresh.isSome = true → exec .doorRefresh s = .next
           { enqueue .door [1] s with ann.doorRefresh := some 5000000 }))

/-- RECEIVE_ANNOUNCE of a good frame in range: too late is counted; ahead of its start it waits, in place of another
that waits, or is pending behind a chime or names; at its start the CHIME phase begins with VA seeking the chime from
it, and a chime or names that it displaces end without completing: the cap timer stops, every naming slot returns to
COMMENTARY and seeks, and a pending announcement is kept (R26, R121, R122, R123, R124). That of two starts exactly 2^31 ms
apart neither is later is the model's choice (log entry 47). -/
def Obligations.ReceiveAnnounce : Prop :=
  ∀ (f : RxFrame) (s : State), hears f s = true → judgeFrame 3 f = .good → ReaderRests s →
    let u := heardFrom f s
    let stop := field16 f.body 0
    let start := field32 f.body 2
    let fresh := (∀ a, s.ann.current = some a → later a.start start = false ∧ ¬ (a.stop = stop ∧ a.start = start))
      ∧ (∀ t, s.ann.lastCompleted = some t → later t start = false)
      ∧ s.ann.pending ≠ some { stop := stop, start := start }
    (512 ≤ stop →
      exec (.receiveAnnounce f) s = .next { u with line.rxErrors := min 255 (s.line.rxErrors + 1) })
    ∧ (stop ≤ 511 → ¬ fresh → exec (.receiveAnnounce f) s = .next u)
    ∧ (stop ≤ 511 → fresh → (s.csr.config.lateLimit : Int) < lateness s.dclk.now start →
        exec (.receiveAnnounce f) s = .next { u with line.rxErrors := min 255 (s.line.rxErrors + 1) })
    ∧ (stop ≤ 511 → fresh → lateness s.dclk.now start ≤ s.csr.config.lateLimit →
        reached s.dclk.now start = false → inAnnouncement s = true →
        exec (.receiveAnnounce f) s = .next { u with ann.pending := some { stop := stop, start := start } })
    ∧ (stop ≤ 511 → fresh → lateness s.dclk.now start ≤ s.csr.config.lateLimit →
        reached s.dclk.now start = false → s.ann.current = none → ∃ t, exec (.receiveAnnounce f) s = .next t
          ∧ t.ann.current = some { stop := stop, start := start, chimeLen := none, phase := .waiting }
          ∧ t.ann.pending = s.ann.pending ∧ t.vtab = s.vtab ∧ t.csr = s.csr ∧ t.line = u.line ∧ t.txq = s.txq
          ∧ t.dclk = u.dclk ∧ t.prg = s.prg ∧ t.jck = s.jck ∧ t.stc = s.stc ∧ t.lvl = s.lvl)
    ∧ (stop ≤ 511 → fresh → lateness s.dclk.now start ≤ s.csr.config.lateLimit →
        reached s.dclk.now start = true → s.ann.current = none → s.csr.hand.isSome = true →
        ∃ t, exec (.receiveAnnounce f) s = .next t
          ∧ t.ann.current = some { stop := stop, start := start, chimeLen := none, phase := .chime }
          ∧ t.ann.purpose = .chime ∧ t.vtab.va.content = .chime ∧ t.vtab.va.play.state = .seeking
          ∧ t.vtab.va.play.anchor = { ms := start, us := 0 } ∧ t.vtab.slots = s.vtab.slots
          ∧ t.ann.lastCompleted = s.ann.lastCompleted ∧ t.ann.pending = s.ann.pending
          ∧ t.line = u.line ∧ t.txq = s.txq ∧ t.dclk = u.dclk ∧ t.prg = s.prg ∧ t.jck = s.jck ∧ t.stc = s.stc
          ∧ t.lvl = s.lvl)
    ∧ (∀ a, stop ≤ 511 → fresh → s.ann.current = some a → a.phase = .waiting → reached s.dclk.now start = false →
        lateness s.dclk.now start ≤ s.csr.config.lateLimit → (∀ i, s.ann.naming.get i = false) →
        s.ann.purpose ≠ .chime → s.ann.purpose ≠ .name → ∃ t, exec (.receiveAnnounce f) s = .next t
          ∧ t.ann.current = some { stop := stop, start := start, chimeLen := none, phase := .waiting }
          ∧ t.ann.lastCompleted = s.ann.lastCompleted ∧ t.ann.pending = s.ann.pending ∧ t.vtab = s.vtab
          ∧ t.csr = s.csr ∧ t.line = u.line ∧ t.txq = s.txq ∧ t.dclk = u.dclk ∧ t.prg = s.prg ∧ t.jck = s.jck
          ∧ t.stc = s.stc ∧ t.lvl = s.lvl)
    ∧ (stop ≤ 511 → fresh → inAnnouncement s = true → reached s.dclk.now start = true →
        lateness s.dclk.now start ≤ s.csr.config.lateLimit → s.csr.hand.isSome = true →
        ∃ t, exec (.receiveAnnounce f) s = .next t
          ∧ t.ann.current = some { stop := stop, start := start, chimeLen := none, phase := .chime }
          ∧ t.ann.lastCompleted = s.ann.lastCompleted ∧ t.ann.pending = s.ann.pending ∧ t.ann.nameCap = none
          ∧ (∀ i, t.ann.naming.get i = false) ∧ t.ann.speakerName = .notNeeded
          ∧ t.ann.purpose = .chime ∧ t.vtab.va.content = .chime ∧ t.vtab.va.play.state = .seeking
          ∧ t.vtab.va.play.anchor = { ms := start, us := 0 }
          ∧ (∀ i, s.ann.naming.get i = true → slotBusy s i = true →
              (t.vtab.slots.get i).content = .commentary ∧ t.csr.tags.get i = s.csr.tags.get i + 1)
          ∧ t.line = u.line ∧ t.txq = s.txq ∧ t.dclk = u.dclk ∧ t.prg = s.prg ∧ t.jck = s.jck ∧ t.stc = s.stc
          ∧ t.lvl = s.lvl)

/-- CHIME_START at the start of a WAITING announcement: VA takes the chime anchored at it and the duck, floor
and overlay flags are up. NAME_CAP_EXPIRY: the announcement completes, no slot is left in the naming set and a name
that VA was giving is stopped; with no announcement pending the flags are down unless a tone or a chime sounds, and a
pending one becomes current, WAITING, or CHIME with VA seeking the chime where its start is reached (R122, R124, R128,
R129, R130). -/
def Obligations.AnnouncementPhases : Prop :=
  (∀ (a : Announcement) (s : State), s.ann.current = some a → a.phase = .waiting →
     reached s.dclk.now a.start = true → s.csr.hand.isSome = true →
     ∃ t, exec .chimeStart s = .next t
       ∧ t.ann.current = some { a with phase := .chime, chimeLen := none }
       ∧ t.ann.purpose = .chime ∧ t.vtab.va.content = .chime ∧ t.vtab.va.play.state = .seeking
       ∧ t.vtab.va.play.anchor = { ms := a.start, us := 0 } ∧ t.csr.vaTag = s.csr.vaTag + 1
       ∧ duckFlag t = true ∧ floorFlag t = true ∧ overlayFlag t = true
       ∧ t.vtab.slots = s.vtab.slots ∧ t.line = s.line ∧ t.txq = s.txq ∧ t.dclk = s.dclk ∧ t.prg = s.prg
       ∧ t.jck = s.jck ∧ t.stc = s.stc ∧ t.lvl = s.lvl ∧ t.ann.latch = s.ann.latch
       ∧ t.ann.doors = s.ann.doors)
  ∧ (∀ (a : Announcement) (left : Nat) (s : State), s.ann.current = some a → a.phase = .name →
       s.ann.nameCap = some left → s.ann.pending = none → s.csr.hand.isSome = true →
       ∃ t, exec .nameCapExpiry s = .next t
         ∧ t.ann.current = none ∧ t.ann.lastCompleted = some a.start ∧ t.ann.nameCap = none
         ∧ (∀ i, t.ann.naming.get i = false) ∧ floorFlag t = false ∧ overlayFlag t = false
         ∧ (s.ann.purpose = .name → t.vtab.va.play.state = .idle ∧ t.ann.purpose = .none
             ∧ t.ann.speakerName = .done)
         ∧ (s.ann.purpose = .none ∨ s.ann.purpose = .name ∨ s.vtab.va.play.state = .idle → duckFlag t = false)
         ∧ (∀ i, s.ann.naming.get i = true → slotBusy s i = true →
             (t.vtab.slots.get i).content = .commentary ∧ t.csr.tags.get i = s.csr.tags.get i + 1)
         ∧ t.line = s.line ∧ t.txq = s.txq ∧ t.dclk = s.dclk ∧ t.prg = s.prg ∧ t.jck = s.jck ∧ t.stc = s.stc
         ∧ t.lvl = s.lvl ∧ t.ann.latch = s.ann.latch ∧ t.ann.doors = s.ann.doors)
  ∧ (∀ (a : Announcement) (p : PendingAnn) (left : Nat) (s : State), s.ann.current = some a → a.phase = .name →
       s.ann.nameCap = some left → s.ann.pending = some p → s.csr.hand.isSome = true →
       ∃ t, exec .nameCapExpiry s = .next t
         ∧ t.ann.current = some { stop := p.stop, start := p.start, chimeLen := none, phase := if reached s.dclk.now p.start = true then .chime else .waiting }
         ∧ t.ann.pending = none ∧ t.ann.lastCompleted = some a.start ∧ t.ann.nameCap = none
         ∧ t.ann.speakerName = .notNeeded ∧ (∀ i, t.ann.naming.get i = false)
         ∧ (reached s.dclk.now p.start = true → t.ann.purpose = .chime ∧ t.vtab.va.play.state = .seeking
             ∧ t.vtab.va.play.anchor = { ms := p.start, us := 0 } ∧ duckFlag t = true ∧ floorFlag t = true)
         ∧ (reached s.dclk.now p.start = false → floorFlag t = false ∧ overlayFlag t = false)
         ∧ t.line = s.line ∧ t.txq = s.txq ∧ t.dclk = s.dclk ∧ t.prg = s.prg ∧ t.jck = s.jck ∧ t.stc = s.stc
         ∧ t.lvl = s.lvl ∧ t.ann.latch = s.ann.latch ∧ t.ann.doors = s.ann.doors)

/-- The end of the chime, CLIP_END of VA with a read in hand, begins NAME: the cap timer starts at 15,000 ms, every
busy slot is given the stop's name anchored where the chime ends, joins the naming set and seeks, and a speaker in no
slot is given it by VA. CLIP_END of the last name that sounds, a slot's or the speaker's, completes the announcement:
its start is the last completed, the cap timer stops, the naming set is empty; another name still sounding, it goes on
(R125, R126, R127, R129). -/
def Obligations.NamePhase : Prop :=
  (∀ (a : Announcement) (s : State), s.csr.hand.isSome = true → s.vtab.va.play.over = true →
     s.ann.current = some a → a.phase = .chime → s.ann.purpose = .chime →
     ((∃ i, slotBusy s i = true) ∨ ∀ i, s.vtab.speaker ≠ .attached i) →
     let anchor := DeckTime.addMicros { ms := a.start, us := 0 } (125 * a.chimeLen.getD 0)
     ∃ t, exec (.clipEnd .va) s = .next t
       ∧ t.ann.current = some { a with phase := .name } ∧ t.ann.nameCap = some 15000000
       ∧ (∀ i, slotBusy s i = true → t.ann.naming.get i = true ∧ (t.vtab.slots.get i).content = .name a.stop
           ∧ (t.vtab.slots.get i).play.state = .seeking ∧ (t.vtab.slots.get i).play.anchor = anchor
           ∧ t.csr.tags.get i = s.csr.tags.get i + 1)
       ∧ (∀ i, slotBusy s i = false → t.vtab.slots.get i = s.vtab.slots.get i)
       ∧ (∀ i, s.vtab.speaker = .attached i → t.ann.speakerName = .notNeeded ∧ t.ann.purpose = .none
           ∧ t.vtab.va.play.state = .idle)
       ∧ ((∀ i, s.vtab.speaker ≠ .attached i) → t.ann.speakerName = .playing ∧ t.ann.purpose = .name
           ∧ t.vtab.va.content = .name a.stop ∧ t.vtab.va.play.state = .seeking ∧ t.vtab.va.play.anchor = anchor)
       ∧ t.line = s.line ∧ t.txq = s.txq ∧ t.dclk = s.dclk ∧ t.prg = s.prg ∧ t.jck = s.jck ∧ t.stc = s.stc
       ∧ t.lvl = s.lvl ∧ t.ann.latch = s.ann.latch ∧ t.ann.doors = s.ann.doors ∧ t.ann.pending = s.ann.pending)
  ∧ (∀ (a : Announcement) (i : SlotId) (stop : Nat) (s : State), s.csr.hand.isSome = true →
       s.ann.current = some a → a.phase = .name → s.ann.pending = none → (playOf s (.slot i)).over = true →
       (s.vtab.slots.get i).content = .name stop → s.ann.naming.get i = true →
       (∀ k, k ≠ i → s.ann.naming.get k = false) → s.ann.speakerName ≠ .playing →
       ∃ t, exec (.clipEnd (.slot i)) s = .next t
         ∧ t.ann.current = none ∧ t.ann.lastCompleted = some a.start ∧ t.ann.nameCap = none
         ∧ (∀ k, t.ann.naming.get k = false) ∧ (t.vtab.slots.get i).content = .commentary
         ∧ t.csr.tags.get i = s.csr.tags.get i + 1
         ∧ t.line = s.line ∧ t.txq = s.txq ∧ t.dclk = s.dclk ∧ t.prg = s.prg ∧ t.jck = s.jck ∧ t.stc = s.stc
         ∧ t.lvl = s.lvl ∧ t.vtab.va = s.vtab.va ∧ t.ann.latch = s.ann.latch ∧ t.ann.doors = s.ann.doors)
  ∧ (∀ (a : Announcement) (s : State), s.csr.hand.isSome = true → s.vtab.va.play.over = true →
       s.ann.current = some a → a.phase = .name → s.ann.purpose = .name → s.ann.pending = none →
       ∃ t, exec (.clipEnd .va) s = .next t
         ∧ t.ann.speakerName = .done ∧ t.ann.purpose = .none ∧ t.vtab.va.play.state = .idle
         ∧ ((∀ i, s.ann.naming.get i = false) →
             t.ann.current = none ∧ t.ann.lastCompleted = some a.start ∧ t.ann.nameCap = none)
         ∧ (∀ i, s.ann.naming.get i = true → t.ann.current = some a ∧ t.ann.nameCap = s.ann.nameCap)
         ∧ t.ann.naming = s.ann.naming ∧ t.vtab.slots = s.vtab.slots ∧ t.line = s.line ∧ t.txq = s.txq
         ∧ t.dclk = s.dclk ∧ t.prg = s.prg ∧ t.jck = s.jck ∧ t.stc = s.stc ∧ t.lvl = s.lvl)

/-- An entry of the open-door table and a claim leave at their expiry, all that deck time has reached together,
and no others; under a wish of NONE the queue stands, and with the current scene as it was the channels do. That
claims which lapse together are one change of the table, after which alone the scene is compared, is the model's
choice (log entry 19) (R117, R165, R166). -/
def Obligations.Expiries : Prop :=
  ∀ s : State,
    ((∃ d ∈ s.ann.doors, reached s.dclk.now d.expiry = true) → ∃ t, exec .doorEntryExpiry s = .next t
      ∧ t.ann = { s.ann with doors := s.ann.doors.filter fun d => !reached s.dclk.now d.expiry }
      ∧ t.line = s.line ∧ t.txq = s.txq ∧ t.dclk = s.dclk ∧ t.prg = s.prg ∧ t.vtab = s.vtab ∧ t.csr = s.csr
      ∧ t.jck = s.jck ∧ t.stc = s.stc ∧ t.lvl = s.lvl ∧ t.lmp.claims = s.lmp.claims)
    ∧ ((∃ p, claimLapsed s.dclk.now (s.lmp.claims.get p) = true) → ∃ t, exec .claimExpiry s = .next t
      ∧ (∀ p, t.lmp.claims.get p =
          if claimLapsed s.dclk.now (s.lmp.claims.get p) = true then none else s.lmp.claims.get p)
      ∧ (s.lmp.wish = .none → t.txq = s.txq)
      ∧ (currentScene t = currentScene s → t.lmp.chans = s.lmp.chans)
      ∧ t.line = s.line ∧ t.dclk = s.dclk ∧ t.prg = s.prg ∧ t.vtab = s.vtab ∧ t.csr = s.csr ∧ t.jck = s.jck
      ∧ t.stc = s.stc ∧ t.lvl = s.lvl ∧ t.ann = s.ann)

/-! ## Scenes, parking and waking -/

/-- RECEIVE_SCENE: a claim replaces the entry of its priority, with the hold clamped; a release removes the
entry of its own origin alone; a scene or a priority out of range is refused and counted; no other entry moves
(R28, R163, R164). -/
def Obligations.ReceiveScene : Prop :=
  ∀ (f : RxFrame) (s : State), hears f s = true → judgeFrame 6 f = .good →
    let u := heardFrom f s
    let prio := (byteAt f.body 1).toNat
    let hold := field16 f.body 2
    let claim : Claim := { scene := (byteAt f.body 0).toNat, origin := headOrigin f.head, expiry := if hold = 65535 then none else some (s.dclk.now.ms + BitVec.ofNat 32 (min hold 3599 * 1000)) }
    ((8 ≤ (byteAt f.body 0).toNat ∨ 4 ≤ prio) →
      exec (.receiveScene f) s = .next { u with line.rxErrors := min 255 (s.line.rxErrors + 1) })
    ∧ ((byteAt f.body 0).toNat ≤ 7 → prio ≤ 3 → 1 ≤ hold → ∃ t, exec (.receiveScene f) s = .next t
        ∧ t.lmp.claims = s.lmp.claims.set prio (some claim)
        ∧ (1 ≤ prio → t.txq = s.txq)
        ∧ (currentScene t = currentScene s → t.lmp.chans = s.lmp.chans)
        ∧ t.line = u.line ∧ t.dclk = u.dclk ∧ t.prg = s.prg ∧ t.vtab = s.vtab ∧ t.csr = s.csr ∧ t.jck = s.jck
        ∧ t.stc = s.stc ∧ t.lvl = s.lvl ∧ t.ann = s.ann)
    ∧ ((byteAt f.body 0).toNat ≤ 7 → prio ≤ 3 → hold = 0 →
        ((s.lmp.claims.get prio = none ∨ ∃ k, s.lmp.claims.get prio = some k ∧ k.origin ≠ headOrigin f.head) →
          exec (.receiveScene f) s = .next u)
        ∧ (∀ k, s.lmp.claims.get prio = some k → k.origin = headOrigin f.head →
            ∃ t, exec (.receiveScene f) s = .next t ∧ t.lmp.claims = s.lmp.claims.set prio none
              ∧ (1 ≤ prio → t.txq = s.txq)
              ∧ t.line = u.line ∧ t.dclk = u.dclk ∧ t.prg = s.prg ∧ t.vtab = s.vtab ∧ t.csr = s.csr
              ∧ t.jck = s.jck ∧ t.stc = s.stc ∧ t.lvl = s.lvl ∧ t.ann = s.ann))

/-- RECEIVE_PARK: the station's own fleet code parks an AWAKE station, in every block; another code changes
nothing (R20, R29, R49, R57, R66, R86, R109, R111, R136, R162, R174, R175). -/
def Obligations.ReceivePark : Prop :=
  ∀ (f : RxFrame) (s : State), hears f s = true → judgeFrame 9 f = .good →
    let u := heardFrom f s
    (field16 f.body 0 ≠ s.csr.fleet.toNat → exec (.receivePark f) s = .next u)
    ∧ (field16 f.body 0 = s.csr.fleet.toNat → s.stc.state = .awake → ∃ t, exec (.receivePark f) s = .next t
        ∧ t.stc.state = .parking ∧ t.stc.parkLeft = some 10000000 ∧ t.stc.statusTimer = .stopped
        ∧ t.stc.parkedMark = true ∧ t.stc.failedAttempts = s.stc.failedAttempts
        ∧ t.line.state = .asleep ∧ t.line.fails = s.line.fails ∧ t.line.rxErrors = s.line.rxErrors
        ∧ t.line.lockout = s.line.lockout ∧ t.line.clash = u.line.clash ∧ t.line.quietLeft = none
        ∧ t.txq = { s.txq with records := [] }
        ∧ t.dclk = { u.dclk with timer := .stopped, firstPeriod := true }
        ∧ t.prg = { current := none, lastTaken := none, queue := [] } ∧ t.ann = .initial
        ∧ t.vtab.speaker = .notWanted ∧ t.vtab.va.play.state = .idle
        ∧ (∀ i, (t.vtab.slots.get i).play.state = .idle ∧ (t.vtab.slots.get i).listeners = .nobody
            ∧ (t.vtab.slots.get i).language = (s.vtab.slots.get i).language
            ∧ (t.vtab.slots.get i).play.underruns = (s.vtab.slots.get i).play.underruns
            ∧ t.csr.tags.get i = s.csr.tags.get i + 1 ∧ t.csr.places.get i = none)
        ∧ t.csr.hand = s.csr.hand ∧ t.csr.config = s.csr.config ∧ t.csr.image = s.csr.image
        ∧ (∀ j, t.jck.jacks.get j = if (s.jck.jacks.get j).state = .settling ∨ (s.jck.jacks.get j).state = .listening then { s.jck.jacks.get j with state := .held, settle := none } else { s.jck.jacks.get j with settle := none })
        ∧ t.jck.readAB = s.jck.readAB ∧ t.jck.readCD = s.jck.readCD
        ∧ (∀ o, t.lvl.out.get o = 0 ∧ (t.lvl.gains.get o).slot = -72 ∧ (t.lvl.gains.get o).va = -72)
        ∧ t.lvl.wind.average = s.lvl.wind.average ∧ t.lvl.wind.boost = s.lvl.wind.boost
        ∧ t.lvl.wind.count = 0 ∧ (∀ p, t.lmp.claims.get p = none) ∧ t.lmp.wish = .none
        ∧ (∀ c, (t.lmp.chans.get c).target = 0 ∧ (t.lmp.chans.get c).level = (s.lmp.chans.get c).level
            ∧ (t.lmp.chans.get c).step = fadeStep (s.lmp.chans.get c).level 2000))

/-- A matching WAKE pattern, the end of the own WAKE attempt, sent or failed, and the end of the wake wait each make a
warm start: AWAKE and ACTIVE, the clock running on, both periodic timers begun, HELD jacks settling, counters and
configuration kept. A pattern matches when, after a HEAD of 0x3F, its four copies are the fleet code; in ASLEEP any
other leaves all but the receiver's record as it was, and a report that finds the station AWAKE changes nothing. That
in any other state too WAKE_ATTEMPT_END with no attempt sending and WAKE_WAIT_EXPIRY with no wait running change nothing
is the model's choice (log entry 5), and so is it that an attempt's end at any bit makes the warm start (log entry 48)
(R20, R21, R31, R57, R66, R136, R153, R177, R178, R179). -/
def Obligations.WarmStart : Prop :=
  (∀ (c : Instr) (s : State), (s.stc.state = .parking ∨ s.stc.state = .parked) → s.line.state = .asleep →
    s.dclk.firstPeriod = true → s.line.priorCapture = none →
    ((∃ w, c = .wakeMatch w ∧ wakeMatches w s.csr.fleet = true)
      ∨ (∃ failedAt, c = .wakeAttemptEnd failedAt ∧ s.line.wake = .sending)
      ∨ (c = .wakeWaitExpiry ∧ s.stc.wakeWait.isSome = true)) →
    ∃ t, exec c s = .next t
      ∧ t.stc.state = .awake ∧ t.stc.parkLeft = none ∧ t.stc.wakeWait = none
      ∧ t.stc.statusTimer = .running 2000000 ∧ t.stc.parkedMark = s.stc.parkedMark
      ∧ t.stc.failedAttempts = s.stc.failedAttempts
      ∧ t.line.state = .active ∧ t.line.fails = 0 ∧ t.line.wake = .none ∧ t.line.rxErrors = s.line.rxErrors
      ∧ t.line.clash = s.line.clash ∧ t.line.lockout = s.line.lockout
      ∧ t.txq.records = s.txq.records ∧ t.txq.drops = s.txq.drops
      ∧ t.txq.lfsr = lfsrSteps 16 s.txq.lfsr
      ∧ t.dclk.now = s.dclk.now ∧ t.dclk.capture = s.dclk.capture ∧ t.dclk.running = true
      ∧ t.dclk.timer = .running ((500 + (lfsrSteps 16 s.txq.lfsr).toNat % 1024) * 1000)
      ∧ t.dclk.firstPeriod = false
      ∧ t.csr.image = s.csr.image ∧ t.csr.config = s.csr.config ∧ t.csr.fleet = s.csr.fleet
      ∧ t.csr.failureRun = s.csr.failureRun ∧ t.prg = s.prg ∧ t.ann.latch = s.ann.latch
      ∧ t.ann.doorFilter = { accepted := false, run := 0 }
      ∧ (∀ j, t.jck.jacks.get j = if (s.jck.jacks.get j).state = .held then { s.jck.jacks.get j with state := .settling, settle := some 300000 } else s.jck.jacks.get j)
      ∧ t.jck.panels = s.jck.panels ∧ t.jck.readAB = s.jck.readAB ∧ t.jck.readCD = s.jck.readCD
      ∧ t.lvl.wind.average = s.csr.config.noiseFloor ∧ t.lvl.wind.boost = 0
      ∧ t.lmp.claims = s.lmp.claims ∧ t.lmp.wish = s.lmp.wish
      ∧ (∀ ch, (t.lmp.chans.get ch).fault = (s.lmp.chans.get ch).fault
          ∧ (t.lmp.chans.get ch).role = (s.lmp.chans.get ch).role))
  ∧ (∀ (b : Nat) (chars : List Byte) (fleet : Word16), 84 ≤ b → b ≤ 108 → chars.length = 9 →
       (wakeMatches { runs := runsOf b (waveOf chars) } fleet = true ↔
         chars = 0x3F :: (bytes16 fleet.toNat ++ bytes16 fleet.toNat ++ bytes16 fleet.toNat ++ bytes16 fleet.toNat)))
  ∧ (∀ (f : RxFrame) (failedAt : Option Nat) (s : State),
       (s.line.state = .asleep → wakeMatches f s.csr.fleet = false →
         ∃ t, exec (.wakeMatch f) s = .next t ∧ t = { s with line.rx := t.line.rx })
       ∧ (s.line.state ≠ .asleep → exec (.wakeMatch f) s = .next s)
       ∧ (s.line.wake ≠ .sending → exec (.wakeAttemptEnd failedAt) s = .next s)
       ∧ (s.stc.wakeWait = none → exec .wakeWaitExpiry s = .next s))

/-! ## Voices and levels -/

/-- SAMPLE_TICK with no end and no boundary left over and a read in hand: every output carries the saturated
sum of its two pairs' scaled samples, or 0 where it is not live, silenced or muted; every voice that sounds
moves on by one sample, and no other does (R100, R142, R144, R147, R149). -/
def Obligations.SampleTick : Prop :=
  ∀ s : State, s.csr.hand.isSome = true →
    (∀ v, (playOf s v).over = false ∧ (playOf s v).atBoundary = false) →
    let slotPart := fun (o : Output) => match sourceOf s o with
      | some i => scale ((s.vtab.slots.get i).play.tickSample s.dclk.now) (s.lvl.gains.get o).slot
      | none => 0
    let vaPart := fun (o : Output) =>
      if vaFeeds s o = true then scale (s.vtab.va.play.tickSample s.dclk.now) (s.lvl.gains.get o).va else 0
    ∃ t, exec .sampleTick s = .next t
      ∧ (∀ o, t.lvl.out.get o =
          if live s o = false ∨ (s.lvl.silence.get o).isSome = true ∨ (s.lvl.gains.get o).muted = true then 0
          else max (-32767) (min 32767 (slotPart o + vaPart o)))
      ∧ (∀ v, (playOf t v).position = (playOf s v).position + (if (playOf s v).sounds s.dclk.now = true then 1 else 0)
          ∧ (playOf t v).state = (playOf s v).state ∧ (playOf t v).underruns = (playOf s v).underruns
          ∧ (playOf t v).anchor = (playOf s v).anchor ∧ (playOf t v).clip = (playOf s v).clip)
      ∧ t.lvl.gains = s.lvl.gains ∧ t.lvl.silence = s.lvl.silence ∧ t.lvl.wind = s.lvl.wind
      ∧ t.line = s.line ∧ t.txq = s.txq ∧ t.dclk = s.dclk ∧ t.prg = s.prg ∧ t.ann = s.ann ∧ t.jck = s.jck
      ∧ t.lmp = s.lmp ∧ t.stc = s.stc ∧ t.csr.hand = s.csr.hand ∧ t.csr.tags = s.csr.tags

/-- T8 holds its eight factors, and a sample scaled by a gain of -72..16 is the product of the sample and T8
divided by its power of two, rounded to the nearest integer with ties away from zero; the product of a sample of
magnitude up to 31,616 stays within 1,900,026,752, the shift is 13 to 24 places, and a sample of 0 gives 0 (R148). -/
def Obligations.ScaleIsNearest : Prop :=
  (List.range 8).map Config.t8 = [32768, 35734, 38968, 42495, 46341, 50535, 55109, 60097]
  ∧ ∀ (x g : Int), -72 ≤ g → g ≤ 16 →
    let p := x * (Config.t8 (g % 8).toNat : Int)
    let d : Int := 2 ^ (15 - g / 8).toNat
    (-31616 ≤ x → x ≤ 31616 → -1900026752 ≤ p ∧ p ≤ 1900026752) ∧ 13 ≤ 15 - g / 8 ∧ 15 - g / 8 ≤ 24
    ∧ (-d ≤ 2 * (p - scale x g * d)) ∧ 2 * (p - scale x g * d) ≤ d
    ∧ (2 * (p - scale x g * d) = d → p < 0) ∧ (2 * (p - scale x g * d) = -d → 0 ≤ p)
    ∧ scale (-x) g = -scale x g ∧ scale 0 g = 0

/-- BLOCK_BOUNDARY with a request outstanding and a read in hand: a block entered that no buffer holds counts
one underrun and the position stays; a lag of more than 64 samples inside the clip moves the position to the
timeline index without a count; a block entered that is FULL plays on (R100, R103, R104). -/
def Obligations.BlockBoundary : Prop :=
  ∀ (v : VoiceId) (s : State), s.csr.hand.isSome = true →
    let p := playOf s v
    let e := timelineIndex s.dclk.now p.anchor
    let left := p.position / 256 - 1
    let q : Play := { p with atBoundary := false, bufX := p.bufX.spent left, bufY := p.bufY.spent left }
    p.state = .playing → p.atBoundary = true → outstanding s v = true →
    (e ≤ p.position + 64 → q.bufX.isFull (p.position / 256) = false → q.bufY.isFull (p.position / 256) = false →
      exec (.blockBoundary v) s = .next (setPlay v { q with underruns := min 65535 (p.underruns + 1) } s))
    ∧ (e ≤ p.position + 64 →
        (q.bufX.isFull (p.position / 256) = true ∨ q.bufY.isFull (p.position / 256) = true) →
        exec (.blockBoundary v) s = .next (setPlay v q s))
    ∧ ((p.position : Int) + 64 < e → e < p.samples → ∃ t, exec (.blockBoundary v) s = .next t
        ∧ (playOf t v).position = e.toNat ∧ (playOf t v).underruns = p.underruns
        ∧ (playOf t v).state = .playing ∧ (∀ w, w ≠ v → playOf t w = playOf s w)
        ∧ t.line = s.line ∧ t.txq = s.txq ∧ t.dclk = s.dclk ∧ t.prg = s.prg ∧ t.ann = s.ann ∧ t.jck = s.jck
        ∧ t.lvl = s.lvl ∧ t.lmp = s.lmp ∧ t.stc = s.stc)

/-- CLIP_END with a read in hand: a COMMENTARY slot becomes SILENT with its clip and anchor kept; VA's tone is
stopped and its purpose NONE; a slot whose name is done while others still name returns to COMMENTARY and
leaves the naming set (R105, R110, R120, R126). -/
def Obligations.ClipEnd : Prop :=
  ∀ s : State, s.csr.hand.isSome = true →
    (∀ i, (playOf s (.slot i)).over = true → (s.vtab.slots.get i).content = .commentary →
      exec (.clipEnd (.slot i)) s = .next (setPlay (.slot i)
        { playOf s (.slot i) with state := .silent, bufX := .empty, bufY := .empty, atBoundary := false } s))
    ∧ (s.vtab.va.play.over = true → s.ann.purpose = .tone → ∃ t, exec (.clipEnd .va) s = .next t
        ∧ t.vtab.va.play.state = .idle ∧ t.ann = { s.ann with purpose := .none }
        ∧ t.csr.vaTag = s.csr.vaTag + 1 ∧ t.vtab.slots = s.vtab.slots
        ∧ t.line = s.line ∧ t.txq = s.txq ∧ t.dclk = s.dclk ∧ t.prg = s.prg ∧ t.jck = s.jck ∧ t.lvl = s.lvl
        ∧ t.lmp = s.lmp ∧ t.stc = s.stc)
    ∧ (∀ i k stop, (playOf s (.slot i)).over = true → (s.vtab.slots.get i).content = .name stop →
        s.ann.naming.get i = true → k ≠ i → s.ann.naming.get k = true →
        ∃ t, exec (.clipEnd (.slot i)) s = .next t
        ∧ (t.vtab.slots.get i).content = .commentary ∧ t.csr.tags.get i = s.csr.tags.get i + 1
        ∧ t.ann = { s.ann with naming := s.ann.naming.set i false }
        ∧ (∀ m, m ≠ i → t.vtab.slots.get m = s.vtab.slots.get m)
        ∧ t.line = s.line ∧ t.txq = s.txq ∧ t.dclk = s.dclk ∧ t.prg = s.prg ∧ t.jck = s.jck ∧ t.lvl = s.lvl
        ∧ t.lmp = s.lmp ∧ t.stc = s.stc)

/-- GAIN_UPDATE moves the pairs of each live output that is not muted by one unit toward their targets, the
slot pair standing through a source-switch silence, and sets the others to -72; a LISTENING jack of effective step 0
is muted, and no other output; SOURCE_SILENCE_END ends one output's silence when its 8 ms have passed; nothing else
moves. That the VA pair ramps on through the silence (log entry 27), and that a SOURCE_SILENCE_END before the 8 ms
have passed does nothing (log entry 4), is the model's choice. The target of a pair: the step's level or the
scene's speaker level, the trim of the source's clip, the boost, and minus the duck depth for COMMENTARY under the
duck flag, held within -72..cap; the step raised to the announcement floor while the floor flag is up (R143, R144,
R146, R147). -/
def Obligations.Gains : Prop :=
  (∀ s : State,
    (∃ t, exec .gainUpdate s = .next t ∧ t = { s with lvl.gains := t.lvl.gains }
      ∧ (∀ o, live s o = false → (t.lvl.gains.get o).slot = -72 ∧ (t.lvl.gains.get o).va = -72)
      ∧ (∀ j, effectiveStep s j = 0 →
          (t.lvl.gains.get (.jack j)).slot = -72 ∧ (t.lvl.gains.get (.jack j)).va = -72)
      ∧ (∀ o, live s o = true → (∀ j, o = .jack j → 1 ≤ effectiveStep s j) →
          (t.lvl.gains.get o).va = toward (s.lvl.gains.get o).va (vaTarget s o)
          ∧ ((s.lvl.silence.get o).isSome = true → (t.lvl.gains.get o).slot = (s.lvl.gains.get o).slot)
          ∧ ((s.lvl.silence.get o).isSome = false →
              (t.lvl.gains.get o).slot = toward (s.lvl.gains.get o).slot (slotTarget s o)))
      ∧ (∀ j, (t.lvl.gains.get (.jack j)).muted =
          (decide ((s.jck.jacks.get j).state = .listening) && decide (effectiveStep s j = 0)))
      ∧ (t.lvl.gains.get .spk).muted = false)
    ∧ ∀ o,
      (s.lvl.silence.get o = some 0 →
        exec (.sourceSilenceEnd o) s = .next { s with lvl.silence := s.lvl.silence.set o none })
      ∧ (s.lvl.silence.get o ≠ some 0 → exec (.sourceSilenceEnd o) s = .next s))
  ∧ (∀ s : State,
    (∀ j, effectiveStep s j =
      if floorFlag s = true then max (s.jck.jacks.get j).step s.csr.config.announceFloor
      else (s.jck.jacks.get j).step)
    ∧ ∀ o,
      let base : Int := match o with
        | .jack j => 3 * ((effectiveStep s j : Int) - 12)
        | .spk => (sceneEntry s).speaker
      let hold := fun (g : Int) => max (-72) (min (s.csr.config.cap : Int) g)
      (sourceOf s o = none → slotTarget s o = hold (base + s.lvl.wind.boost))
      ∧ (∀ i, sourceOf s o = some i →
          slotTarget s o = hold (base + (s.vtab.slots.get i).play.trim + s.lvl.wind.boost
            + if duckFlag s = true ∧ (s.vtab.slots.get i).content = .commentary
              then -(s.csr.config.duckDepth : Int) else 0))
      ∧ vaTarget s o = hold (base + (if vaFeeds s o = true then s.vtab.va.play.trim else 0) + s.lvl.wind.boost))

/-- WIND_SAMPLE adds a sample to the window, spoiled while VA is not IDLE, and the eighth brings the window's
end; WIND_WINDOW_END moves the average by an eighth of the difference, halves away from zero, and the boost by
one toward its target, or discards a spoiled window whole. That the end comes as a command of its own after the
eighth sample (log entry 3), and that the pin keeps its level (log entry 25), is the model's choice (R150, R151,
R152). -/
def Obligations.Wind : Prop :=
  ∀ (level : Byte) (s : State), s.stc.state = .awake →
    let w := s.lvl.wind
    let d : Int := (w.sum / 8 : Nat) - (w.average : Int)
    let average : Int := w.average + (if d < 0 then -(((d.natAbs + 4) / 8 : Nat) : Int) else ((d.natAbs + 4) / 8 : Nat))
    let target : Int := max 0 (min 8 ((average - s.csr.config.noiseFloor) / 12))
    (w.count ≤ 7 → exec (.windSample level) s = .next { s with
      pins.noise := level,
      lvl.wind := { w with
        count := w.count + 1, sum := w.sum + level.toNat,
        spoiled := w.spoiled || !decide (s.vtab.va.play.state = .idle) },
      raised := s.raised ++ if w.count = 7 then [.windWindowEnd] else [] })
    ∧ (8 ≤ w.count → w.spoiled = false → s.vtab.va.play.state = .idle → 0 ≤ average →
        ∃ t, exec .windWindowEnd s = .next t ∧ t = { s with lvl.wind := t.lvl.wind }
          ∧ t.lvl.wind.count = 0 ∧ t.lvl.wind.sum = 0 ∧ t.lvl.wind.spoiled = false
          ∧ (t.lvl.wind.average : Int) = average
          ∧ ((w.boost : Int) < target → t.lvl.wind.boost = w.boost + 1)
          ∧ (target < w.boost → t.lvl.wind.boost = w.boost - 1)
          ∧ (target = w.boost → t.lvl.wind.boost = w.boost))
    ∧ (8 ≤ w.count → (w.spoiled = true ∨ s.vtab.va.play.state ≠ .idle) → exec .windWindowEnd s = .next { s with
        lvl.wind := { w with count := 0, sum := 0, spoiled := false } })

/-! ## Seats -/

/-- SEAT_INPUT_SAMPLE while the filters run: each of the twenty filters takes its level, the door's filter too while
AWAKE with the door input on, and nothing but the filters, the sampled levels and the raised events moves; and five
consecutive differing samples, no fewer, change an accepted state. That an accepted change comes as a command of its
own (log entry 3), and that the pins keep their levels (log entry 25), is the model's choice (R118, R131, R132). -/
def Obligations.SeatInputSample : Prop :=
  (∀ (l : SeatPins) (s : State), (s.stc.state = .awake ∨ s.stc.state = .parking ∨ s.stc.state = .parked) →
    let door := s.stc.state = .awake ∧ s.csr.config.doorInput = true
    let d := s.ann.doorFilter
    ∃ t, exec (.seatInputSample l) s = .next t
      ∧ t = { s with
          pins.seats := l, jck.panels := t.jck.panels, raised := t.raised,
          ann.doorFilter := if door then d.sample l.door else d }
      ∧ (.doorSwitchOpen ∈ t.raised ↔ .doorSwitchOpen ∈ s.raised
          ∨ (door ∧ l.door = true ∧ d.accepted = false ∧ 4 ≤ d.run))
      ∧ (.doorSwitchClosed ∈ t.raised ↔ .doorSwitchClosed ∈ s.raised
          ∨ (door ∧ l.door = false ∧ d.accepted = true ∧ 4 ≤ d.run))
      ∧ (∀ j, let p := s.jck.panels.get j
          let x := match j with
            | .a => l.a
            | .b => l.b
            | .c => l.c
            | .d => l.d
          t.jck.panels.get j = { p with
            lang := p.lang.sample x.lang, volUp := p.volUp.sample x.volUp,
            volDown := p.volDown.sample x.volDown, stop := p.stop.sample x.stop,
            detect := p.detect.sample x.detect }
          ∧ (.plug j ∈ t.raised ↔ .plug j ∈ s.raised ∨ (x.detect = true ∧ p.detect.accepted = false ∧ 4 ≤ p.detect.run))
          ∧ (.unplug j ∈ t.raised ↔ .unplug j ∈ s.raised ∨ (x.detect = false ∧ p.detect.accepted = true ∧ 4 ≤ p.detect.run))
          ∧ (.stopPress j ∈ t.raised ↔ .stopPress j ∈ s.raised ∨ (x.stop = true ∧ p.stop.accepted = false ∧ 4 ≤ p.stop.run))))
  ∧ ∀ (f : Filter) (level : Bool), f.run = 0 → level ≠ f.accepted →
      (∀ n, n ≤ 4 → levelSamples level n f = { accepted := f.accepted, run := n })
      ∧ levelSamples level 5 f = { accepted := level, run := 0 }

/-- PLUG of an EMPTY jack: SETTLING for 300 ms while AWAKE, HELD while PARKING or PARKED, in the house language
at the default step with the plug counted; PARKED, it asks for the wake as well. UNPLUG makes a SETTLING or
HELD jack EMPTY, its language and step kept; a LISTENING one that shares its slot leaves its listeners, the slot
plays on, and the jack's output is closed at 0 with both pairs at -72 (R95, R133, R135, R136, R142, R146,
R177). -/
def Obligations.Jacks : Prop :=
  (∀ (j : Seat) (s : State),
     let x := s.jck.jacks.get j
     let p := s.jck.panels.get j
     let fresh : Jack := { state := .settling, language := s.csr.config.house, step := s.csr.config.defaultStep, settle := some 300000, plugs := min 65535 (x.plugs + 1) }
     let pin : Panel := { p with detect := { accepted := true, run := 0 } }
     let pout : Panel := { p with detect := { accepted := false, run := 0 } }
     (s.stc.state = .awake → x.state = .empty → exec (.plug j) s = .next { s with
       jck.panels := s.jck.panels.set j pin, jck.jacks := s.jck.jacks.set j fresh })
     ∧ (s.stc.state = .parking → x.state = .empty → exec (.plug j) s = .next { s with
       jck.panels := s.jck.panels.set j pin,
       jck.jacks := s.jck.jacks.set j { fresh with state := .held, settle := none } })
     ∧ (s.stc.state = .parked → x.state = .empty → s.stc.origin ≠ 0 → s.stc.origin ≠ 63 →
         s.stc.wakeWait = none → s.line.wake = .none → exec (.plug j) s = .next { s with
       jck.panels := s.jck.panels.set j pin,
       jck.jacks := s.jck.jacks.set j { fresh with state := .held, settle := none },
       line.wake := .held, stc.wakeWait := some 100000 })
     ∧ ((s.stc.state = .awake ∨ s.stc.state = .parking ∨ s.stc.state = .parked) →
         (x.state = .settling ∨ x.state = .held) → exec (.unplug j) s = .next { s with
       jck.panels := s.jck.panels.set j pout,
       jck.jacks := s.jck.jacks.set j { x with state := .empty, settle := none } }))
  ∧ (∀ (j : Seat) (i : SlotId) (s : State),
       (s.stc.state = .awake ∨ s.stc.state = .parking ∨ s.stc.state = .parked) →
       (s.jck.jacks.get j).state = .listening → slotHeardBy s (.jack j) = some i →
       (s.vtab.slots.get i).listeners.put (.jack j) false ≠ .nobody → s.vtab.speaker ≠ .starved →
       inName s = false → ReaderRests s →
       ∃ t, exec (.unplug j) s = .next t
         ∧ (t.jck.jacks.get j).state = .empty ∧ (t.jck.jacks.get j).language = (s.jck.jacks.get j).language
         ∧ (t.jck.jacks.get j).step = (s.jck.jacks.get j).step ∧ (t.jck.jacks.get j).plugs = (s.jck.jacks.get j).plugs
         ∧ (t.vtab.slots.get i).listeners = (s.vtab.slots.get i).listeners.put (.jack j) false
         ∧ (t.vtab.slots.get i).play = (s.vtab.slots.get i).play ∧ t.csr = s.csr
         ∧ t.lvl.out.get (.jack j) = 0 ∧ (t.lvl.gains.get (.jack j)).slot = -72
         ∧ (t.lvl.gains.get (.jack j)).va = -72
         ∧ t.line = s.line ∧ t.txq = s.txq ∧ t.dclk = s.dclk ∧ t.prg = s.prg ∧ t.ann = s.ann ∧ t.lmp = s.lmp
         ∧ t.stc = s.stc)

/-- The volume buttons: a press on a LISTENING jack while AWAKE moves the step by one within 0..15 and starts
the button's repeat at 500 ms; a repeat moves it again and restarts at 250 ms, or runs on without effect; a
release stops the timer; a VOL_UP press while PARKED asks for the wake and moves no step (R21, R137, R141, R177). -/
def Obligations.VolumeButtons : Prop :=
  ∀ (j : Seat) (s : State),
    let x := s.jck.jacks.get j
    let p := s.jck.panels.get j
    let up : Jack := { x with step := min 15 (x.step + 1) }
    let down : Jack := { x with step := x.step - 1 }
    (s.stc.state = .awake → x.state = .listening →
      exec (.volUpPress j) s = .next { s with
        jck.jacks := s.jck.jacks.set j up,
        jck.panels := s.jck.panels.set j { p with volUp := { accepted := true, run := 0 }, upRepeat := some 500000 } }
      ∧ exec (.volDownPress j) s = .next { s with
        jck.jacks := s.jck.jacks.set j down,
        jck.panels := s.jck.panels.set j { p with volDown := { accepted := true, run := 0 }, downRepeat := some 500000 } })
    ∧ (p.upRepeat.isSome = true → exec (.volRepeat j .up) s = .next { s with
        jck.jacks := if s.stc.state = .awake ∧ x.state = .listening then s.jck.jacks.set j up else s.jck.jacks,
        jck.panels := s.jck.panels.set j { p with upRepeat := some 250000 } })
    ∧ (p.downRepeat.isSome = true → exec (.volRepeat j .down) s = .next { s with
        jck.jacks := if s.stc.state = .awake ∧ x.state = .listening then s.jck.jacks.set j down else s.jck.jacks,
        jck.panels := s.jck.panels.set j { p with downRepeat := some 250000 } })
    ∧ ((s.stc.state = .awake ∨ s.stc.state = .parking ∨ s.stc.state = .parked) →
        exec (.volRelease j .up) s = .next { s with
          jck.panels := s.jck.panels.set j { p with volUp := { accepted := false, run := 0 }, upRepeat := none } }
        ∧ exec (.volRelease j .down) s = .next { s with
          jck.panels := s.jck.panels.set j { p with volDown := { accepted := false, run := 0 }, downRepeat := none } })
    ∧ (s.stc.state = .parked → s.stc.origin ≠ 0 → s.stc.origin ≠ 63 → s.stc.wakeWait = none →
        s.line.wake = .none → exec (.volUpPress j) s = .next { s with
          jck.panels := s.jck.panels.set j { p with volUp := { accepted := true, run := 0 } },
          line.wake := .held, stc.wakeWait := some 100000 })

/-- The LANG button: a press while AWAKE starts the hold at 1,000 ms; its expiry toggles the pair's reading
request and spends the press; a release of a spent or stopped press changes no jack; a release in time moves a
LISTENING jack of a station with two languages or more to the next language. With a read in hand: the jack leaves its
slot, which plays on for its other listeners and is released with none, and then, in the order of R93, joins the slot
of the language, takes the lowest-numbered slot that is then IDLE, or takes the one that the speaker alone hears, the
speaker then STARVED; a slot taken in NAME is given the name; a STARVED speaker takes a slot that the jack has freed
once the jack holds its own, or joins the jack in a slot taken with the house language (R78, R93, R94, R95, R96, R97,
R126, R138, R139, R147). That a slot taken from the speaker renews its tag once is the model's reading (log entry 14),
and that SPK is silenced when it loses its slot too, its choice (log entry 27). That an announcement whose naming set the
jack's leaving empties goes on where the jack's slot is then taken in NAME is its reading of R129 as well: completion is
judged only after the whole event (log entry 18). -/
def Obligations.LangButton : Prop :=
  ∀ (j : Seat) (s : State),
    let x := s.jck.jacks.get j
    let p := s.jck.panels.get j
    (s.stc.state = .awake → exec (.langPress j) s = .next { s with
      jck.panels := s.jck.panels.set j { p with lang := { accepted := true, run := 0 }, hold := some 1000000 } })
    ∧ (p.hold.isSome = true → ∃ t, exec (.langHoldExpiry j) s = .next t
        ∧ (t.jck.panels.get j).hold = none ∧ t.jck.jacks = s.jck.jacks
        ∧ ((j = .a ∨ j = .b) → t.jck.readAB = !s.jck.readAB ∧ t.jck.readCD = s.jck.readCD)
        ∧ ((j = .c ∨ j = .d) → t.jck.readCD = !s.jck.readCD ∧ t.jck.readAB = s.jck.readAB)
        ∧ t.line = s.line ∧ t.txq = s.txq ∧ t.dclk = s.dclk ∧ t.prg = s.prg ∧ t.vtab = s.vtab ∧ t.csr = s.csr
        ∧ t.ann = s.ann ∧ t.lvl = s.lvl ∧ t.stc = s.stc)
    ∧ (s.stc.state = .awake → (p.hold = none ∨ x.state ≠ .listening ∨ s.csr.config.languages ≤ 1) →
        exec (.langRelease j) s = .next { s with
          jck.panels := s.jck.panels.set j { p with lang := { accepted := false, run := 0 }, hold := none } })
    ∧ (s.stc.state = .awake → p.hold.isSome = true → x.state = .listening →
        2 ≤ s.csr.config.languages → s.csr.hand.isSome = true → ∀ i k, slotHeardBy s (.jack j) = some i →
        let n := (x.language + 1) % s.csr.config.languages
        let house := s.csr.config.house
        let left := (s.vtab.slots.get i).listeners.put (.jack j) false
        let gone := leaveSlot (.jack j) s
        let moves := fun (t : State) => exec (.langRelease j) s = .next t
          ∧ (t.jck.jacks.get j).language = n ∧ (t.jck.jacks.get j).state = .listening
          ∧ (t.jck.panels.get j).hold = none
          ∧ t.lvl.silence.get (.jack j) = some 8000 ∧ (t.lvl.gains.get (.jack j)).slot = -72
          ∧ (t.lvl.gains.get (.jack j)).va = (s.lvl.gains.get (.jack j)).va
          ∧ t.line = s.line ∧ t.txq = s.txq ∧ t.dclk = s.dclk ∧ t.prg = s.prg ∧ t.lmp = s.lmp ∧ t.stc = s.stc
        let freed := fun (t : State) => if left = .nobody
          then (t.vtab.slots.get i).play.state = .idle ∧ (t.vtab.slots.get i).play.clip = .none
            ∧ (t.vtab.slots.get i).play.position = 0 ∧ (t.vtab.slots.get i).play.bufX = .empty
            ∧ (t.vtab.slots.get i).play.bufY = .empty ∧ (t.vtab.slots.get i).listeners = .nobody
            ∧ (t.vtab.slots.get i).content = .commentary ∧ t.csr.tags.get i = s.csr.tags.get i + 1
            ∧ t.csr.places.get i = none
          else t.vtab.slots.get i = { s.vtab.slots.get i with listeners := left }
            ∧ t.csr.tags.get i = s.csr.tags.get i
        let taken := fun (t : State) => (t.vtab.slots.get k).language = n
          ∧ (t.vtab.slots.get k).listeners = only (.jack j) ∧ t.csr.tags.get k = gone.csr.tags.get k + 1
          ∧ (k ≠ i → freed t) ∧ ∀ m, m ≠ i → m ≠ k → t.vtab.slots.get m = s.vtab.slots.get m
        (s.vtab.speaker ≠ .starved → inName s = false → slotOfLanguage s n = some k → k ≠ i → ∃ t, moves t ∧ freed t
          ∧ t.vtab.slots.get k
              = { s.vtab.slots.get k with listeners := (s.vtab.slots.get k).listeners.put (.jack j) true }
          ∧ (∀ m, m ≠ i → m ≠ k → t.vtab.slots.get m = s.vtab.slots.get m) ∧ t.vtab.speaker = s.vtab.speaker
          ∧ (left ≠ .nobody → t.csr = s.csr ∧ t.ann = s.ann))
        ∧ (s.vtab.speaker ≠ .starved → inName s = false → slotOfLanguage s n = none → idleSlot gone = some k →
            ∃ t, moves t ∧ taken t ∧ (t.vtab.slots.get k).content = .commentary
          ∧ (s.prg.current ≠ none → (t.vtab.slots.get k).play.state = .seeking)
          ∧ t.vtab.speaker = s.vtab.speaker)
        ∧ (inName s = false → slotOfLanguage s n = none → idleSlot gone = none → speakerOnlySlot gone = some k →
            n ≠ house → (∀ m, m ≠ k → (s.vtab.slots.get m).language ≠ house) → ∃ t, moves t ∧ taken t
          ∧ (t.vtab.slots.get k).content = .commentary
          ∧ (s.prg.current ≠ none → (t.vtab.slots.get k).play.state = .seeking) ∧ t.vtab.speaker = .starved
          ∧ t.lvl.silence.get .spk = some 8000 ∧ (t.lvl.gains.get .spk).slot = -72)
        ∧ (s.vtab.speaker ≠ .starved → slotOfLanguage s n = none → idleSlot gone = some k →
            ∀ a, s.ann.current = some a → a.phase = .name → s.ann.nameCap.isSome = true → ∃ t, moves t ∧ taken t
          ∧ (t.vtab.slots.get k).content = .name a.stop ∧ (t.vtab.slots.get k).play.state = .seeking
          ∧ (t.vtab.slots.get k).play.anchor
              = DeckTime.addMicros { ms := a.start, us := 0 } (125 * a.chimeLen.getD 0)
          ∧ t.ann = { s.ann with naming := gone.ann.naming.set k true })
        ∧ (s.vtab.speaker = .starved → s.csr.config.speakerOn = true → inName s = false →
            slotOfLanguage s n = some k → k ≠ i → left = .nobody →
            (∀ m, m ≠ i → slotBusy s m = true ∧ (s.vtab.slots.get m).language ≠ house) → ∃ t, moves t
          ∧ (t.vtab.slots.get k).listeners = (s.vtab.slots.get k).listeners.put (.jack j) true
          ∧ t.vtab.speaker = .attached i ∧ (t.vtab.slots.get i).language = house
          ∧ (t.vtab.slots.get i).listeners = only .spk ∧ (t.vtab.slots.get i).content = .commentary
          ∧ (s.prg.current ≠ none → (t.vtab.slots.get i).play.state = .seeking)
          ∧ t.lvl.silence.get .spk = some 8000 ∧ (t.lvl.gains.get .spk).slot = -72
          ∧ ∀ m, m ≠ i → m ≠ k → t.vtab.slots.get m = s.vtab.slots.get m)
        ∧ (s.vtab.speaker = .starved → s.csr.config.speakerOn = true → inName s = false →
            slotOfLanguage s n = none → n = house → idleSlot gone = some k → ∃ t, moves t
          ∧ (t.vtab.slots.get k).language = house ∧ t.vtab.speaker = .attached k
          ∧ (t.vtab.slots.get k).listeners = (only (.jack j)).put .spk true
          ∧ (t.vtab.slots.get k).content = .commentary ∧ t.csr.tags.get k = gone.csr.tags.get k + 1
          ∧ t.lvl.silence.get .spk = some 8000 ∧ (t.lvl.gains.get .spk).slot = -72 ∧ (k ≠ i → freed t)
          ∧ ∀ m, m ≠ i → m ≠ k → t.vtab.slots.get m = s.vtab.slots.get m))

/-! ## Lamps -/

/-- The targets: AISLE raised to the boarding level by an open door, the reading channels by their requests,
STOP_IND by the latch, ACCENT by the overlay flag unless it stands in for indicators that are all in FAULT,
UNUSED at 0 (R154, R155, R156, R157, R158). That substitution holds by this condition alone, and so through a change of
scene too, is the model's reading (log entry 44). -/
def Obligations.LampTargets : Prop :=
  ∀ (s : State) (c : Chan),
    let role := (s.lmp.chans.get c).role
    let level := (sceneEntry s).levels.get c
    let stands := s.ann.latch = true ∧ (∃ d, (s.lmp.chans.get d).role = .stopInd)
      ∧ ∀ d, (s.lmp.chans.get d).role = .stopInd → (s.lmp.chans.get d).fault = true
    (role = .aisle → s.ann.doors = [] → targetOf s c = level)
    ∧ (role = .aisle → s.ann.doors ≠ [] → targetOf s c = max level s.csr.config.boardingLevel)
    ∧ (role = .readAB → targetOf s c = if s.jck.readAB = true then level else 0)
    ∧ (role = .readCD → targetOf s c = if s.jck.readCD = true then level else 0)
    ∧ (role = .stopInd → targetOf s c = if s.ann.latch = true then level else 0)
    ∧ (role = .accent → ¬ stands → targetOf s c = if overlayFlag s = true then s.csr.config.announceLevel else level)
    ∧ (role = .accent → stands →
        (∃ d, (s.lmp.chans.get d).role = .stopInd ∧ targetOf s c = (sceneEntry s).levels.get d)
        ∧ ∀ d, (s.lmp.chans.get d).role = .stopInd → (sceneEntry s).levels.get d ≤ targetOf s c)
    ∧ (role = .unused → targetOf s c = 0)

/-- FADE_TICK while AWAKE or PARKING: every channel moves toward its target by its step, landing on it when no
more than the step remains; nothing else moves. A fade lands exactly on its target after as many ticks as the distance
takes in steps, and not before, and never leaves it again (R160, R161). -/
def Obligations.Fades : Prop :=
  (∀ s : State, (s.stc.state = .awake ∨ s.stc.state = .parking) →
    ∃ t, exec .fadeTick s = .next t ∧ t = { s with lmp.chans := t.lmp.chans }
      ∧ ∀ c, let x := s.lmp.chans.get c
        let goal := x.target * 256
        t.lmp.chans.get c = { x with
          level := if distance x.level goal ≤ x.step then goal
            else if x.level < goal then x.level + x.step else x.level - x.step })
  ∧ (∀ (c : Channel) (target f : Nat), 1 ≤ f →
    let d := distance c.level (target * 256)
    let step := max 1 ((8 * d + f) / (2 * f))
    let ticks := (d + step - 1) / step
    (c.fadeTo target f).level = c.level
    ∧ (∀ n, ticks ≤ n → (fadeTicks n (c.fadeTo target f)).level = target * 256)
    ∧ (∀ n, n < ticks → distance (fadeTicks n (c.fadeTo target f)).level (target * 256) = d - n * step))

/-- AMBIENT_SAMPLE while AWAKE moves the run of its class, a run of 120 standing, and evaluates the request under the
wish that stands, where no new wish is due; a sample that completes a run of another wish leaves the evaluation to
WISH_SET, which sets the run's wish and evaluates with it. The own request for the wished scene is due with no
priority-0 claim, against another scene under a DARK wish or on the station's own claim, and within the margin of an
expiring claim of the wished scene; due, it is enqueued at priority 0 with hold 300; not due, the kind SCENE is
withdrawn; with no wish nothing is evaluated (R167, R168). That the sample which completes a run leaves the evaluation
to WISH_SET (log entry 33), and that the pin keeps its level (log entry 25), is the model's choice. -/
def Obligations.AmbientRequest : Prop :=
  (∀ (level : Byte) (s : State), s.stc.state = .awake →
     let kind : RunKind := if level.toNat < s.csr.config.darkThreshold then .dark
       else if s.csr.config.brightThreshold < level.toNat then .bright else .none
     let long := if kind = .none then 0 else if s.lmp.runKind = kind then min 120 (s.lmp.runLen + 1) else 1
     let own : Wish := match kind with
       | .none => .none
       | .dark => .dark
       | .bright => .light
     let moved : State := { s with pins.ambient := level, lmp.runKind := kind, lmp.runLen := long }
     let settled := s.lmp.runLen ≤ 119 ∨ (s.lmp.runKind = .dark ∧ s.lmp.wish = .dark)
       ∨ (s.lmp.runKind = .bright ∧ s.lmp.wish = .light)
     (settled → (long ≤ 119 ∨ s.lmp.wish = own) → exec (.ambientSample level) s = .next (evaluateRequest moved))
     ∧ (s.lmp.wish = .none → settled → long ≤ 119 → exec (.ambientSample level) s = .next moved)
     ∧ (settled → long = 120 → s.lmp.wish ≠ own →
         exec (.ambientSample level) s = .next { moved with raised := s.raised ++ [.wishSet] })
     ∧ (s.lmp.runLen = 120 → s.lmp.runKind = .dark → s.lmp.wish ≠ .dark →
         exec .wishSet s = .next (evaluateRequest { s with lmp.wish := .dark }))
     ∧ (s.lmp.runLen = 120 → s.lmp.runKind = .bright → s.lmp.wish ≠ .light →
         exec .wishSet s = .next (evaluateRequest { s with lmp.wish := .light })))
  ∧ (∀ (s : State) (wished : Nat),
       ((s.lmp.wish = .dark ∧ wished = s.csr.config.darkScene) ∨ (s.lmp.wish = .light ∧ wished = s.csr.config.lightScene)) →
       let margin := (30 + s.stc.origin.toNat % 30) * 1000
       let a := s.lmp.claims.p0 = none
       let b := ∃ k, s.lmp.claims.p0 = some k ∧ k.scene ≠ wished
         ∧ (s.lmp.wish = .dark ∨ k.origin = s.stc.origin)
       let c := ∃ k e, s.lmp.claims.p0 = some k ∧ k.scene = wished ∧ k.expiry = some e
         ∧ reached s.dclk.now (e - BitVec.ofNat 32 margin) = true
       ((a ∨ b ∨ c) → evaluateRequest s = enqueue .scene [BitVec.ofNat 8 wished, 0, 0x01, 0x2C] s)
       ∧ (¬ (a ∨ b ∨ c) → evaluateRequest s = withdraw .scene s))

/-- LAMP_CHECK with no change left over: a channel lit at 16 or more counts readings that disagree with its
fault state and starts again at one that agrees, a darker one is held, and a run of 3 raises its change;
LAMP_FAULT_CHANGE turns the channel between OK and FAULT with its run at 0, and no claim, run or wish moves. That
the change comes as a command of its own after the third reading, with the run standing at 3 until then (log entry
3), and that the pins keep their levels (log entry 25), is the model's choice (R159, R170, R171). -/
def Obligations.LampFaults : Prop :=
  (∀ (l : SenseLines) (s : State), (s.stc.state = .awake ∨ s.stc.state = .parking) →
    (∀ c, (s.lmp.chans.get c).faultRun ≤ 2) → ∃ t, exec (.lampCheck l) s = .next t
      ∧ t = { s with pins.sense := l, lmp.chans := t.lmp.chans, raised := t.raised }
      ∧ ∀ c, let x := s.lmp.chans.get c
        t.lmp.chans.get c = { x with
          faultRun := if x.level / 256 ≤ 15 then x.faultRun
            else if senseOf l c = x.fault then 0 else x.faultRun + 1 }
        ∧ (.lampFaultChange c ∈ t.raised ↔ .lampFaultChange c ∈ s.raised
            ∨ (16 ≤ x.level / 256 ∧ senseOf l c ≠ x.fault ∧ x.faultRun = 2)))
  ∧ ∀ (c : Chan) (s : State), (s.lmp.chans.get c).faultRun = 3 →
      ∃ t, exec (.lampFaultChange c) s = .next t ∧ t = { s with lmp.chans := t.lmp.chans }
        ∧ (t.lmp.chans.get c).fault = !(s.lmp.chans.get c).fault ∧ (t.lmp.chans.get c).faultRun = 0
        ∧ (∀ d, d ≠ c → (t.lmp.chans.get d).fault = (s.lmp.chans.get d).fault
            ∧ (t.lmp.chans.get d).faultRun = (s.lmp.chans.get d).faultRun)
        ∧ (s.stc.state = .awake → ∀ d, (t.lmp.chans.get d).target = targetOf t d)

/-! ## Rules about the whole machine, over every step -/

/-- Every step keeps the Transmit Queue within its bounds (R36, R40, R47, R49, R51). -/
def Obligations.QueueStaysSafe : Prop :=
  ∀ s t : State, QueueSafe s → step s = .next t → QueueSafe t

/-- Every step keeps every applied gain between -72 units and the configured cap and every output sample
within -32,767..+32,767 (R144, R149). -/
def Obligations.SoundStaysSafe : Prop :=
  ∀ s t : State, SoundSafe s → step s = .next t → SoundSafe t

/-- Every step keeps the stop latch clear whenever the open-door table is non-empty, and the table at no more
than four entries (R115, R116). -/
def Obligations.LatchStaysSafe : Prop :=
  ∀ s t : State, LatchSafe s → step s = .next t → LatchSafe t

/-- Every step keeps a STOP_IND channel's target non-zero only while the stop latch is set, an UNUSED channel's
target at 0, and every target at 0 outside AWAKE (R154, R157, R162). -/
def Obligations.LampsStaySafe : Prop :=
  ∀ s t : State, LampSafe s → step s = .next t → LampSafe t

/-- LOADING is left only by the next power-on (R70, R172). -/
def Obligations.LoadingStays : Prop :=
  ∀ s t : State, Loaded s → (∀ o l, s.pending.head? ≠ some (.powerOn o l)) → step s = .next t → Loaded t

/-- Deck time moves in two ways alone: by a microsecond of reference with no command waiting while the clock runs,
and by the positive offset of a received TIME; every other command but POWER_ON leaves it. That an idle step is one
microsecond is the model's choice (log entry 2) (R55, R62, R63). -/
def Obligations.DeckTimeMoves : Prop :=
  ∀ s t : State, step s = .next t → (∀ o l, s.pending.head? ≠ some (.powerOn o l)) →
    t.dclk.now = s.dclk.now
    ∨ (s.pending = [] ∧ s.dclk.running = true ∧ t.dclk.now = s.dclk.now.addMicros 1)
    ∨ (∃ f, s.pending.head? = some (.receiveTime f) ∧ hears f s = true ∧ judgeFrame 1 f = .good
        ∧ 0 < (timeOfBody f.body).diffMicros (heardFrom f s).dclk.capture
        ∧ t.dclk.now = s.dclk.now.addMicros ((timeOfBody f.body).diffMicros (heardFrom f s).dclk.capture).toNat)

/-- No counter of STATUS ever falls and none passes its width, and the clash flag stays once set, through
every command but POWER_ON, parking and waking included (R12, R23, R51, R92, R133, R183). -/
def Obligations.CountsOnlyRise : Prop :=
  ∀ s t : State, CountsBounded s → step s = .next t →
    CountsBounded t ∧ ((∀ o l, s.pending.head? ≠ some (.powerOn o l)) → CountsRise s t)

/-- The state after reset is safe in every one of these senses. -/
def Obligations.ResetIsSafe : Prop :=
  QueueSafe State.reset ∧ SoundSafe State.reset ∧ LatchSafe State.reset ∧ LampSafe State.reset
    ∧ CountsBounded State.reset
end

