-- ==== Sys2Proof/Laws/State.lean ====
section
/-! SUPPORT. One lemma for each field and each named update of the state, so that no proof unfolds a record
update; and the reads of a container after a write. -/

set_option Elab.async false

namespace Sys2Proof.Machine

/-! ## Reads after writes -/

@[simp] theorem Slots.get_set {α : Type} (x : Slots α) (i j : SlotId) (v : α) :
    (x.set i v).get j = if i = j then v else x.get j := by cases i <;> cases j <;> rfl

@[simp] theorem Seats.get_set {α : Type} (x : Seats α) (i j : Seat) (v : α) :
    (x.set i v).get j = if i = j then v else x.get j := by cases i <;> cases j <;> rfl

@[simp] theorem Chans.get_set {α : Type} (x : Chans α) (i j : Chan) (v : α) :
    (x.set i v).get j = if i = j then v else x.get j := by cases i <;> cases j <;> rfl

@[simp] theorem Outputs.get_set {α : Type} (x : Outputs α) (i j : Output) (v : α) :
    (x.set i v).get j = if i = j then v else x.get j := by
  rcases i with i | _ <;> rcases j with j | _ <;> (try cases i) <;> (try cases j) <;> rfl

@[simp] theorem Outputs.get_of {α : Type} (f : Output → α) (o : Output) : (Outputs.of f).get o = f o := by
  rcases o with j | _ <;> (try cases j) <;> rfl

@[simp] theorem Chans.get_imap {α β : Type} (f : Chan → α → β) (x : Chans α) (c : Chan) :
    (x.imap f).get c = f c (x.get c) := by cases c <;> rfl

@[simp] theorem Seats.get_map {α β : Type} (f : α → β) (x : Seats α) (j : Seat) :
    (x.map f).get j = f (x.get j) := by cases j <;> rfl

@[simp] theorem Listeners.hears_put (l : Listeners) (o p : Output) (v : Bool) :
    (l.put o v).hears p = if o = p then v else l.hears p := by
  rcases o with i | _ <;> rcases p with j | _ <;> (try cases i) <;> (try cases j) <;> rfl

@[simp] theorem playOf_setPlay (v w : VoiceId) (p : Play) (s : State) :
    playOf (setPlay v p s) w = if v = w then p else playOf s w := by
  rcases v with i | _ <;> rcases w with j | _ <;> (try cases i) <;> (try cases j) <;> rfl

@[simp] theorem placeOf_setPlace (v w : VoiceId) (r : Option Request) (s : State) :
    placeOf (setPlace v r s) w = if v = w then r else placeOf s w := by
  rcases v with i | _ <;> rcases w with j | _ <;> (try cases i) <;> (try cases j) <;> rfl

@[simp] theorem placeOf_renew (v w : VoiceId) (s : State) :
    placeOf (renew v s) w = if v = w then none else placeOf s w := by
  rcases v with i | _ <;> rcases w with j | _ <;> (try cases i) <;> (try cases j) <;> rfl

@[simp] theorem tagOf_renew (v w : VoiceId) (s : State) :
    tagOf (renew v s) w = if v = w then tagOf s v + 1 else tagOf s w := by
  rcases v with i | _ <;> rcases w with j | _ <;> (try cases i) <;> (try cases j) <;> rfl

/-! ## `countRxError` -/

@[simp] theorem countRxError_pending (s : State) : (countRxError s).pending = s.pending := rfl
@[simp] theorem countRxError_raised (s : State) : (countRxError s).raised = s.raised := rfl
@[simp] theorem countRxError_ref (s : State) : (countRxError s).ref = s.ref := rfl
@[simp] theorem countRxError_pins (s : State) : (countRxError s).pins = s.pins := rfl
@[simp] theorem countRxError_stc (s : State) : (countRxError s).stc = s.stc := rfl
@[simp] theorem countRxError_txq (s : State) : (countRxError s).txq = s.txq := rfl
@[simp] theorem countRxError_dclk (s : State) : (countRxError s).dclk = s.dclk := rfl
@[simp] theorem countRxError_csr (s : State) : (countRxError s).csr = s.csr := rfl
@[simp] theorem countRxError_prg (s : State) : (countRxError s).prg = s.prg := rfl
@[simp] theorem countRxError_vtab (s : State) : (countRxError s).vtab = s.vtab := rfl
@[simp] theorem countRxError_ann (s : State) : (countRxError s).ann = s.ann := rfl
@[simp] theorem countRxError_jck (s : State) : (countRxError s).jck = s.jck := rfl
@[simp] theorem countRxError_lvl (s : State) : (countRxError s).lvl = s.lvl := rfl
@[simp] theorem countRxError_lmp (s : State) : (countRxError s).lmp = s.lmp := rfl
@[simp] theorem countRxError_rxErrors (s : State) :
    (countRxError s).line.rxErrors = min 255 (s.line.rxErrors + 1) := rfl
@[simp] theorem countRxError_lineState (s : State) :
    (countRxError s).line.state = s.line.state := rfl

/-! ## `raise` -/

@[simp] theorem raise_pending (e : List Instr) (s : State) : (raise e s).pending = s.pending := rfl
@[simp] theorem raise_ref (e : List Instr) (s : State) : (raise e s).ref = s.ref := rfl
@[simp] theorem raise_pins (e : List Instr) (s : State) : (raise e s).pins = s.pins := rfl
@[simp] theorem raise_stc (e : List Instr) (s : State) : (raise e s).stc = s.stc := rfl
@[simp] theorem raise_line (e : List Instr) (s : State) : (raise e s).line = s.line := rfl
@[simp] theorem raise_txq (e : List Instr) (s : State) : (raise e s).txq = s.txq := rfl
@[simp] theorem raise_dclk (e : List Instr) (s : State) : (raise e s).dclk = s.dclk := rfl
@[simp] theorem raise_csr (e : List Instr) (s : State) : (raise e s).csr = s.csr := rfl
@[simp] theorem raise_prg (e : List Instr) (s : State) : (raise e s).prg = s.prg := rfl
@[simp] theorem raise_vtab (e : List Instr) (s : State) : (raise e s).vtab = s.vtab := rfl
@[simp] theorem raise_ann (e : List Instr) (s : State) : (raise e s).ann = s.ann := rfl
@[simp] theorem raise_jck (e : List Instr) (s : State) : (raise e s).jck = s.jck := rfl
@[simp] theorem raise_lvl (e : List Instr) (s : State) : (raise e s).lvl = s.lvl := rfl
@[simp] theorem raise_lmp (e : List Instr) (s : State) : (raise e s).lmp = s.lmp := rfl
@[simp] theorem raise_raised_eq (e : List Instr) (s : State) :
    (raise e s).raised = s.raised ++ e := rfl

/-! ## `captureEdge` -/

@[simp] theorem captureEdge_pending (n : Nat) (s : State) : (captureEdge n s).pending = s.pending := rfl
@[simp] theorem captureEdge_raised (n : Nat) (s : State) : (captureEdge n s).raised = s.raised := rfl
@[simp] theorem captureEdge_ref (n : Nat) (s : State) : (captureEdge n s).ref = s.ref := rfl
@[simp] theorem captureEdge_pins (n : Nat) (s : State) : (captureEdge n s).pins = s.pins := rfl
@[simp] theorem captureEdge_stc (n : Nat) (s : State) : (captureEdge n s).stc = s.stc := rfl
@[simp] theorem captureEdge_line (n : Nat) (s : State) : (captureEdge n s).line = s.line := rfl
@[simp] theorem captureEdge_txq (n : Nat) (s : State) : (captureEdge n s).txq = s.txq := rfl
@[simp] theorem captureEdge_csr (n : Nat) (s : State) : (captureEdge n s).csr = s.csr := rfl
@[simp] theorem captureEdge_prg (n : Nat) (s : State) : (captureEdge n s).prg = s.prg := rfl
@[simp] theorem captureEdge_vtab (n : Nat) (s : State) : (captureEdge n s).vtab = s.vtab := rfl
@[simp] theorem captureEdge_ann (n : Nat) (s : State) : (captureEdge n s).ann = s.ann := rfl
@[simp] theorem captureEdge_jck (n : Nat) (s : State) : (captureEdge n s).jck = s.jck := rfl
@[simp] theorem captureEdge_lvl (n : Nat) (s : State) : (captureEdge n s).lvl = s.lvl := rfl
@[simp] theorem captureEdge_lmp (n : Nat) (s : State) : (captureEdge n s).lmp = s.lmp := rfl
@[simp] theorem captureEdge_capture (n : Nat) (s : State) :
    (captureEdge n s).dclk.capture = s.dclk.now.subMicros n := rfl
@[simp] theorem captureEdge_now (n : Nat) (s : State) :
    (captureEdge n s).dclk.now = s.dclk.now := rfl
@[simp] theorem captureEdge_timer (n : Nat) (s : State) :
    (captureEdge n s).dclk.timer = s.dclk.timer := rfl

/-! ## `holdPeriodic` -/

@[simp] theorem holdPeriodic_pending (s : State) : (holdPeriodic s).pending = s.pending := rfl
@[simp] theorem holdPeriodic_raised (s : State) : (holdPeriodic s).raised = s.raised := rfl
@[simp] theorem holdPeriodic_ref (s : State) : (holdPeriodic s).ref = s.ref := rfl
@[simp] theorem holdPeriodic_pins (s : State) : (holdPeriodic s).pins = s.pins := rfl
@[simp] theorem holdPeriodic_line (s : State) : (holdPeriodic s).line = s.line := rfl
@[simp] theorem holdPeriodic_txq (s : State) : (holdPeriodic s).txq = s.txq := rfl
@[simp] theorem holdPeriodic_csr (s : State) : (holdPeriodic s).csr = s.csr := rfl
@[simp] theorem holdPeriodic_prg (s : State) : (holdPeriodic s).prg = s.prg := rfl
@[simp] theorem holdPeriodic_vtab (s : State) : (holdPeriodic s).vtab = s.vtab := rfl
@[simp] theorem holdPeriodic_ann (s : State) : (holdPeriodic s).ann = s.ann := rfl
@[simp] theorem holdPeriodic_jck (s : State) : (holdPeriodic s).jck = s.jck := rfl
@[simp] theorem holdPeriodic_lvl (s : State) : (holdPeriodic s).lvl = s.lvl := rfl
@[simp] theorem holdPeriodic_lmp (s : State) : (holdPeriodic s).lmp = s.lmp := rfl
@[simp] theorem holdPeriodic_timer (s : State) :
    (holdPeriodic s).dclk.timer = s.dclk.timer.hold := rfl
@[simp] theorem holdPeriodic_status (s : State) :
    (holdPeriodic s).stc.statusTimer = s.stc.statusTimer.hold := rfl
@[simp] theorem holdPeriodic_state (s : State) :
    (holdPeriodic s).stc.state = s.stc.state := rfl
@[simp] theorem holdPeriodic_now (s : State) :
    (holdPeriodic s).dclk.now = s.dclk.now := rfl

/-! ## `resumePeriodic` -/

@[simp] theorem resumePeriodic_pending (s : State) : (resumePeriodic s).pending = s.pending := rfl
@[simp] theorem resumePeriodic_raised (s : State) : (resumePeriodic s).raised = s.raised := rfl
@[simp] theorem resumePeriodic_ref (s : State) : (resumePeriodic s).ref = s.ref := rfl
@[simp] theorem resumePeriodic_pins (s : State) : (resumePeriodic s).pins = s.pins := rfl
@[simp] theorem resumePeriodic_line (s : State) : (resumePeriodic s).line = s.line := rfl
@[simp] theorem resumePeriodic_txq (s : State) : (resumePeriodic s).txq = s.txq := rfl
@[simp] theorem resumePeriodic_csr (s : State) : (resumePeriodic s).csr = s.csr := rfl
@[simp] theorem resumePeriodic_prg (s : State) : (resumePeriodic s).prg = s.prg := rfl
@[simp] theorem resumePeriodic_vtab (s : State) : (resumePeriodic s).vtab = s.vtab := rfl
@[simp] theorem resumePeriodic_ann (s : State) : (resumePeriodic s).ann = s.ann := rfl
@[simp] theorem resumePeriodic_jck (s : State) : (resumePeriodic s).jck = s.jck := rfl
@[simp] theorem resumePeriodic_lvl (s : State) : (resumePeriodic s).lvl = s.lvl := rfl
@[simp] theorem resumePeriodic_lmp (s : State) : (resumePeriodic s).lmp = s.lmp := rfl
@[simp] theorem resumePeriodic_timer (s : State) :
    (resumePeriodic s).dclk.timer = s.dclk.timer.resume := rfl
@[simp] theorem resumePeriodic_status (s : State) :
    (resumePeriodic s).stc.statusTimer = s.stc.statusTimer.resume := rfl
@[simp] theorem resumePeriodic_state (s : State) :
    (resumePeriodic s).stc.state = s.stc.state := rfl
@[simp] theorem resumePeriodic_now (s : State) :
    (resumePeriodic s).dclk.now = s.dclk.now := rfl

/-! ## `afterDraw` -/

@[simp] theorem afterDraw_pending (s : State) : (afterDraw s).pending = s.pending := rfl
@[simp] theorem afterDraw_raised (s : State) : (afterDraw s).raised = s.raised := rfl
@[simp] theorem afterDraw_ref (s : State) : (afterDraw s).ref = s.ref := rfl
@[simp] theorem afterDraw_pins (s : State) : (afterDraw s).pins = s.pins := rfl
@[simp] theorem afterDraw_stc (s : State) : (afterDraw s).stc = s.stc := rfl
@[simp] theorem afterDraw_line (s : State) : (afterDraw s).line = s.line := rfl
@[simp] theorem afterDraw_dclk (s : State) : (afterDraw s).dclk = s.dclk := rfl
@[simp] theorem afterDraw_csr (s : State) : (afterDraw s).csr = s.csr := rfl
@[simp] theorem afterDraw_prg (s : State) : (afterDraw s).prg = s.prg := rfl
@[simp] theorem afterDraw_vtab (s : State) : (afterDraw s).vtab = s.vtab := rfl
@[simp] theorem afterDraw_ann (s : State) : (afterDraw s).ann = s.ann := rfl
@[simp] theorem afterDraw_jck (s : State) : (afterDraw s).jck = s.jck := rfl
@[simp] theorem afterDraw_lvl (s : State) : (afterDraw s).lvl = s.lvl := rfl
@[simp] theorem afterDraw_lmp (s : State) : (afterDraw s).lmp = s.lmp := rfl
@[simp] theorem afterDraw_lfsr (s : State) :
    (afterDraw s).txq.lfsr = lfsrSteps 16 s.txq.lfsr := rfl
@[simp] theorem afterDraw_records (s : State) :
    (afterDraw s).txq.records = s.txq.records := rfl
@[simp] theorem afterDraw_drops (s : State) :
    (afterDraw s).txq.drops = s.txq.drops := rfl

/-! ## `withdraw` -/

@[simp] theorem withdraw_pending (k : TxKind) (s : State) : (withdraw k s).pending = s.pending := rfl
@[simp] theorem withdraw_raised (k : TxKind) (s : State) : (withdraw k s).raised = s.raised := rfl
@[simp] theorem withdraw_ref (k : TxKind) (s : State) : (withdraw k s).ref = s.ref := rfl
@[simp] theorem withdraw_pins (k : TxKind) (s : State) : (withdraw k s).pins = s.pins := rfl
@[simp] theorem withdraw_stc (k : TxKind) (s : State) : (withdraw k s).stc = s.stc := rfl
@[simp] theorem withdraw_line (k : TxKind) (s : State) : (withdraw k s).line = s.line := rfl
@[simp] theorem withdraw_dclk (k : TxKind) (s : State) : (withdraw k s).dclk = s.dclk := rfl
@[simp] theorem withdraw_csr (k : TxKind) (s : State) : (withdraw k s).csr = s.csr := rfl
@[simp] theorem withdraw_prg (k : TxKind) (s : State) : (withdraw k s).prg = s.prg := rfl
@[simp] theorem withdraw_vtab (k : TxKind) (s : State) : (withdraw k s).vtab = s.vtab := rfl
@[simp] theorem withdraw_ann (k : TxKind) (s : State) : (withdraw k s).ann = s.ann := rfl
@[simp] theorem withdraw_jck (k : TxKind) (s : State) : (withdraw k s).jck = s.jck := rfl
@[simp] theorem withdraw_lvl (k : TxKind) (s : State) : (withdraw k s).lvl = s.lvl := rfl
@[simp] theorem withdraw_lmp (k : TxKind) (s : State) : (withdraw k s).lmp = s.lmp := rfl
@[simp] theorem withdraw_txq_eq (k : TxKind) (s : State) :
    (withdraw k s).txq = s.txq.withdraw k := rfl

/-! ## `putSlot` -/

@[simp] theorem putSlot_pending (i : SlotId) (x : Slot) (s : State) : (putSlot i x s).pending = s.pending := rfl
@[simp] theorem putSlot_raised (i : SlotId) (x : Slot) (s : State) : (putSlot i x s).raised = s.raised := rfl
@[simp] theorem putSlot_ref (i : SlotId) (x : Slot) (s : State) : (putSlot i x s).ref = s.ref := rfl
@[simp] theorem putSlot_pins (i : SlotId) (x : Slot) (s : State) : (putSlot i x s).pins = s.pins := rfl
@[simp] theorem putSlot_stc (i : SlotId) (x : Slot) (s : State) : (putSlot i x s).stc = s.stc := rfl
@[simp] theorem putSlot_line (i : SlotId) (x : Slot) (s : State) : (putSlot i x s).line = s.line := rfl
@[simp] theorem putSlot_txq (i : SlotId) (x : Slot) (s : State) : (putSlot i x s).txq = s.txq := rfl
@[simp] theorem putSlot_dclk (i : SlotId) (x : Slot) (s : State) : (putSlot i x s).dclk = s.dclk := rfl
@[simp] theorem putSlot_csr (i : SlotId) (x : Slot) (s : State) : (putSlot i x s).csr = s.csr := rfl
@[simp] theorem putSlot_prg (i : SlotId) (x : Slot) (s : State) : (putSlot i x s).prg = s.prg := rfl
@[simp] theorem putSlot_ann (i : SlotId) (x : Slot) (s : State) : (putSlot i x s).ann = s.ann := rfl
@[simp] theorem putSlot_jck (i : SlotId) (x : Slot) (s : State) : (putSlot i x s).jck = s.jck := rfl
@[simp] theorem putSlot_lvl (i : SlotId) (x : Slot) (s : State) : (putSlot i x s).lvl = s.lvl := rfl
@[simp] theorem putSlot_lmp (i : SlotId) (x : Slot) (s : State) : (putSlot i x s).lmp = s.lmp := rfl
@[simp] theorem putSlot_slots (i : SlotId) (x : Slot) (s : State) :
    (putSlot i x s).vtab.slots = s.vtab.slots.set i x := rfl
@[simp] theorem putSlot_va (i : SlotId) (x : Slot) (s : State) :
    (putSlot i x s).vtab.va = s.vtab.va := rfl
@[simp] theorem putSlot_speaker (i : SlotId) (x : Slot) (s : State) :
    (putSlot i x s).vtab.speaker = s.vtab.speaker := rfl

/-! ## `setPlay` -/

@[simp] theorem setPlay_pending (v : VoiceId) (p : Play) (s : State) : (setPlay v p s).pending = s.pending := by cases v <;> rfl
@[simp] theorem setPlay_raised (v : VoiceId) (p : Play) (s : State) : (setPlay v p s).raised = s.raised := by cases v <;> rfl
@[simp] theorem setPlay_ref (v : VoiceId) (p : Play) (s : State) : (setPlay v p s).ref = s.ref := by cases v <;> rfl
@[simp] theorem setPlay_pins (v : VoiceId) (p : Play) (s : State) : (setPlay v p s).pins = s.pins := by cases v <;> rfl
@[simp] theorem setPlay_stc (v : VoiceId) (p : Play) (s : State) : (setPlay v p s).stc = s.stc := by cases v <;> rfl
@[simp] theorem setPlay_line (v : VoiceId) (p : Play) (s : State) : (setPlay v p s).line = s.line := by cases v <;> rfl
@[simp] theorem setPlay_txq (v : VoiceId) (p : Play) (s : State) : (setPlay v p s).txq = s.txq := by cases v <;> rfl
@[simp] theorem setPlay_dclk (v : VoiceId) (p : Play) (s : State) : (setPlay v p s).dclk = s.dclk := by cases v <;> rfl
@[simp] theorem setPlay_csr (v : VoiceId) (p : Play) (s : State) : (setPlay v p s).csr = s.csr := by cases v <;> rfl
@[simp] theorem setPlay_prg (v : VoiceId) (p : Play) (s : State) : (setPlay v p s).prg = s.prg := by cases v <;> rfl
@[simp] theorem setPlay_ann (v : VoiceId) (p : Play) (s : State) : (setPlay v p s).ann = s.ann := by cases v <;> rfl
@[simp] theorem setPlay_jck (v : VoiceId) (p : Play) (s : State) : (setPlay v p s).jck = s.jck := by cases v <;> rfl
@[simp] theorem setPlay_lvl (v : VoiceId) (p : Play) (s : State) : (setPlay v p s).lvl = s.lvl := by cases v <;> rfl
@[simp] theorem setPlay_lmp (v : VoiceId) (p : Play) (s : State) : (setPlay v p s).lmp = s.lmp := by cases v <;> rfl
@[simp] theorem setPlay_speaker (v : VoiceId) (p : Play) (s : State) :
    (setPlay v p s).vtab.speaker = s.vtab.speaker := by cases v <;> rfl

/-! ## `setPlace` -/

@[simp] theorem setPlace_pending (v : VoiceId) (r : Option Request) (s : State) : (setPlace v r s).pending = s.pending := by cases v <;> rfl
@[simp] theorem setPlace_raised (v : VoiceId) (r : Option Request) (s : State) : (setPlace v r s).raised = s.raised := by cases v <;> rfl
@[simp] theorem setPlace_ref (v : VoiceId) (r : Option Request) (s : State) : (setPlace v r s).ref = s.ref := by cases v <;> rfl
@[simp] theorem setPlace_pins (v : VoiceId) (r : Option Request) (s : State) : (setPlace v r s).pins = s.pins := by cases v <;> rfl
@[simp] theorem setPlace_stc (v : VoiceId) (r : Option Request) (s : State) : (setPlace v r s).stc = s.stc := by cases v <;> rfl
@[simp] theorem setPlace_line (v : VoiceId) (r : Option Request) (s : State) : (setPlace v r s).line = s.line := by cases v <;> rfl
@[simp] theorem setPlace_txq (v : VoiceId) (r : Option Request) (s : State) : (setPlace v r s).txq = s.txq := by cases v <;> rfl
@[simp] theorem setPlace_dclk (v : VoiceId) (r : Option Request) (s : State) : (setPlace v r s).dclk = s.dclk := by cases v <;> rfl
@[simp] theorem setPlace_prg (v : VoiceId) (r : Option Request) (s : State) : (setPlace v r s).prg = s.prg := by cases v <;> rfl
@[simp] theorem setPlace_vtab (v : VoiceId) (r : Option Request) (s : State) : (setPlace v r s).vtab = s.vtab := by cases v <;> rfl
@[simp] theorem setPlace_ann (v : VoiceId) (r : Option Request) (s : State) : (setPlace v r s).ann = s.ann := by cases v <;> rfl
@[simp] theorem setPlace_jck (v : VoiceId) (r : Option Request) (s : State) : (setPlace v r s).jck = s.jck := by cases v <;> rfl
@[simp] theorem setPlace_lvl (v : VoiceId) (r : Option Request) (s : State) : (setPlace v r s).lvl = s.lvl := by cases v <;> rfl
@[simp] theorem setPlace_lmp (v : VoiceId) (r : Option Request) (s : State) : (setPlace v r s).lmp = s.lmp := by cases v <;> rfl
@[simp] theorem setPlace_hand (v : VoiceId) (r : Option Request) (s : State) :
    (setPlace v r s).csr.hand = s.csr.hand := by cases v <;> rfl
@[simp] theorem setPlace_tags (v : VoiceId) (r : Option Request) (s : State) :
    (setPlace v r s).csr.tags = s.csr.tags := by cases v <;> rfl
@[simp] theorem setPlace_vaTag (v : VoiceId) (r : Option Request) (s : State) :
    (setPlace v r s).csr.vaTag = s.csr.vaTag := by cases v <;> rfl
@[simp] theorem setPlace_config (v : VoiceId) (r : Option Request) (s : State) :
    (setPlace v r s).csr.config = s.csr.config := by cases v <;> rfl

/-! ## `renew` -/

@[simp] theorem renew_pending (v : VoiceId) (s : State) : (renew v s).pending = s.pending := by cases v <;> rfl
@[simp] theorem renew_raised (v : VoiceId) (s : State) : (renew v s).raised = s.raised := by cases v <;> rfl
@[simp] theorem renew_ref (v : VoiceId) (s : State) : (renew v s).ref = s.ref := by cases v <;> rfl
@[simp] theorem renew_pins (v : VoiceId) (s : State) : (renew v s).pins = s.pins := by cases v <;> rfl
@[simp] theorem renew_stc (v : VoiceId) (s : State) : (renew v s).stc = s.stc := by cases v <;> rfl
@[simp] theorem renew_line (v : VoiceId) (s : State) : (renew v s).line = s.line := by cases v <;> rfl
@[simp] theorem renew_txq (v : VoiceId) (s : State) : (renew v s).txq = s.txq := by cases v <;> rfl
@[simp] theorem renew_dclk (v : VoiceId) (s : State) : (renew v s).dclk = s.dclk := by cases v <;> rfl
@[simp] theorem renew_prg (v : VoiceId) (s : State) : (renew v s).prg = s.prg := by cases v <;> rfl
@[simp] theorem renew_vtab (v : VoiceId) (s : State) : (renew v s).vtab = s.vtab := by cases v <;> rfl
@[simp] theorem renew_ann (v : VoiceId) (s : State) : (renew v s).ann = s.ann := by cases v <;> rfl
@[simp] theorem renew_jck (v : VoiceId) (s : State) : (renew v s).jck = s.jck := by cases v <;> rfl
@[simp] theorem renew_lvl (v : VoiceId) (s : State) : (renew v s).lvl = s.lvl := by cases v <;> rfl
@[simp] theorem renew_lmp (v : VoiceId) (s : State) : (renew v s).lmp = s.lmp := by cases v <;> rfl
@[simp] theorem renew_hand (v : VoiceId) (s : State) :
    (renew v s).csr.hand = s.csr.hand := by cases v <;> rfl
@[simp] theorem renew_config (v : VoiceId) (s : State) :
    (renew v s).csr.config = s.csr.config := by cases v <;> rfl

/-! ## `issue` -/

@[simp] theorem issue_pending (v : VoiceId) (b : ReqBody) (s : State) : (issue v b s).pending = s.pending := by cases v <;> rfl
@[simp] theorem issue_raised (v : VoiceId) (b : ReqBody) (s : State) : (issue v b s).raised = s.raised := by cases v <;> rfl
@[simp] theorem issue_ref (v : VoiceId) (b : ReqBody) (s : State) : (issue v b s).ref = s.ref := by cases v <;> rfl
@[simp] theorem issue_pins (v : VoiceId) (b : ReqBody) (s : State) : (issue v b s).pins = s.pins := by cases v <;> rfl
@[simp] theorem issue_stc (v : VoiceId) (b : ReqBody) (s : State) : (issue v b s).stc = s.stc := by cases v <;> rfl
@[simp] theorem issue_line (v : VoiceId) (b : ReqBody) (s : State) : (issue v b s).line = s.line := by cases v <;> rfl
@[simp] theorem issue_txq (v : VoiceId) (b : ReqBody) (s : State) : (issue v b s).txq = s.txq := by cases v <;> rfl
@[simp] theorem issue_dclk (v : VoiceId) (b : ReqBody) (s : State) : (issue v b s).dclk = s.dclk := by cases v <;> rfl
@[simp] theorem issue_prg (v : VoiceId) (b : ReqBody) (s : State) : (issue v b s).prg = s.prg := by cases v <;> rfl
@[simp] theorem issue_vtab (v : VoiceId) (b : ReqBody) (s : State) : (issue v b s).vtab = s.vtab := by cases v <;> rfl
@[simp] theorem issue_ann (v : VoiceId) (b : ReqBody) (s : State) : (issue v b s).ann = s.ann := by cases v <;> rfl
@[simp] theorem issue_jck (v : VoiceId) (b : ReqBody) (s : State) : (issue v b s).jck = s.jck := by cases v <;> rfl
@[simp] theorem issue_lvl (v : VoiceId) (b : ReqBody) (s : State) : (issue v b s).lvl = s.lvl := by cases v <;> rfl
@[simp] theorem issue_lmp (v : VoiceId) (b : ReqBody) (s : State) : (issue v b s).lmp = s.lmp := by cases v <;> rfl
@[simp] theorem issue_hand (v : VoiceId) (b : ReqBody) (s : State) :
    (issue v b s).csr.hand = s.csr.hand := by cases v <;> rfl
@[simp] theorem issue_tags (v : VoiceId) (b : ReqBody) (s : State) :
    (issue v b s).csr.tags = s.csr.tags := by cases v <;> rfl
@[simp] theorem issue_vaTag (v : VoiceId) (b : ReqBody) (s : State) :
    (issue v b s).csr.vaTag = s.csr.vaTag := by cases v <;> rfl
@[simp] theorem issue_config (v : VoiceId) (b : ReqBody) (s : State) :
    (issue v b s).csr.config = s.csr.config := by cases v <;> rfl

/-! ## `vaStop` -/

@[simp] theorem vaStop_pending (s : State) : (vaStop s).pending = s.pending := rfl
@[simp] theorem vaStop_raised (s : State) : (vaStop s).raised = s.raised := rfl
@[simp] theorem vaStop_ref (s : State) : (vaStop s).ref = s.ref := rfl
@[simp] theorem vaStop_pins (s : State) : (vaStop s).pins = s.pins := rfl
@[simp] theorem vaStop_stc (s : State) : (vaStop s).stc = s.stc := rfl
@[simp] theorem vaStop_line (s : State) : (vaStop s).line = s.line := rfl
@[simp] theorem vaStop_txq (s : State) : (vaStop s).txq = s.txq := rfl
@[simp] theorem vaStop_dclk (s : State) : (vaStop s).dclk = s.dclk := rfl
@[simp] theorem vaStop_prg (s : State) : (vaStop s).prg = s.prg := rfl
@[simp] theorem vaStop_jck (s : State) : (vaStop s).jck = s.jck := rfl
@[simp] theorem vaStop_lvl (s : State) : (vaStop s).lvl = s.lvl := rfl
@[simp] theorem vaStop_lmp (s : State) : (vaStop s).lmp = s.lmp := rfl
@[simp] theorem vaStop_latch (s : State) :
    (vaStop s).ann.latch = s.ann.latch := rfl
@[simp] theorem vaStop_doors (s : State) :
    (vaStop s).ann.doors = s.ann.doors := rfl
@[simp] theorem vaStop_ownOpen (s : State) :
    (vaStop s).ann.ownOpen = s.ann.ownOpen := rfl
@[simp] theorem vaStop_annPending (s : State) :
    (vaStop s).ann.pending = s.ann.pending := rfl
@[simp] theorem vaStop_naming (s : State) :
    (vaStop s).ann.naming = s.ann.naming := rfl
@[simp] theorem vaStop_lastCompleted (s : State) :
    (vaStop s).ann.lastCompleted = s.ann.lastCompleted := rfl
@[simp] theorem vaStop_nameCap (s : State) :
    (vaStop s).ann.nameCap = s.ann.nameCap := rfl
@[simp] theorem vaStop_speakerName (s : State) :
    (vaStop s).ann.speakerName = s.ann.speakerName := rfl
@[simp] theorem vaStop_slots (s : State) :
    (vaStop s).vtab.slots = s.vtab.slots := rfl
@[simp] theorem vaStop_speaker (s : State) :
    (vaStop s).vtab.speaker = s.vtab.speaker := rfl
@[simp] theorem vaStop_purpose (s : State) :
    (vaStop s).ann.purpose = .none := rfl
@[simp] theorem vaStop_current (s : State) :
    (vaStop s).ann.current = s.ann.current := rfl
@[simp] theorem vaStop_hand (s : State) :
    (vaStop s).csr.hand = s.csr.hand := rfl
@[simp] theorem vaStop_vaPlace (s : State) :
    (vaStop s).csr.vaPlace = none := rfl
@[simp] theorem vaStop_vaTag (s : State) :
    (vaStop s).csr.vaTag = s.csr.vaTag + 1 := rfl
@[simp] theorem vaStop_playState (s : State) :
    (vaStop s).vtab.va.play.state = .idle := rfl

/-! ## `vaStart` -/

@[simp] theorem vaStart_pending (p : VaPurpose) (c : VaContent) (t : DeckTime) (s : State) : (vaStart p c t s).pending = s.pending := rfl
@[simp] theorem vaStart_raised (p : VaPurpose) (c : VaContent) (t : DeckTime) (s : State) : (vaStart p c t s).raised = s.raised := rfl
@[simp] theorem vaStart_ref (p : VaPurpose) (c : VaContent) (t : DeckTime) (s : State) : (vaStart p c t s).ref = s.ref := rfl
@[simp] theorem vaStart_pins (p : VaPurpose) (c : VaContent) (t : DeckTime) (s : State) : (vaStart p c t s).pins = s.pins := rfl
@[simp] theorem vaStart_stc (p : VaPurpose) (c : VaContent) (t : DeckTime) (s : State) : (vaStart p c t s).stc = s.stc := rfl
@[simp] theorem vaStart_line (p : VaPurpose) (c : VaContent) (t : DeckTime) (s : State) : (vaStart p c t s).line = s.line := rfl
@[simp] theorem vaStart_txq (p : VaPurpose) (c : VaContent) (t : DeckTime) (s : State) : (vaStart p c t s).txq = s.txq := rfl
@[simp] theorem vaStart_dclk (p : VaPurpose) (c : VaContent) (t : DeckTime) (s : State) : (vaStart p c t s).dclk = s.dclk := rfl
@[simp] theorem vaStart_prg (p : VaPurpose) (c : VaContent) (t : DeckTime) (s : State) : (vaStart p c t s).prg = s.prg := rfl
@[simp] theorem vaStart_jck (p : VaPurpose) (c : VaContent) (t : DeckTime) (s : State) : (vaStart p c t s).jck = s.jck := rfl
@[simp] theorem vaStart_lvl (p : VaPurpose) (c : VaContent) (t : DeckTime) (s : State) : (vaStart p c t s).lvl = s.lvl := rfl
@[simp] theorem vaStart_lmp (p : VaPurpose) (c : VaContent) (t : DeckTime) (s : State) : (vaStart p c t s).lmp = s.lmp := rfl
@[simp] theorem vaStart_latch (p : VaPurpose) (c : VaContent) (t : DeckTime) (s : State) :
    (vaStart p c t s).ann.latch = s.ann.latch := rfl
@[simp] theorem vaStart_doors (p : VaPurpose) (c : VaContent) (t : DeckTime) (s : State) :
    (vaStart p c t s).ann.doors = s.ann.doors := rfl
@[simp] theorem vaStart_ownOpen (p : VaPurpose) (c : VaContent) (t : DeckTime) (s : State) :
    (vaStart p c t s).ann.ownOpen = s.ann.ownOpen := rfl
@[simp] theorem vaStart_annPending (p : VaPurpose) (c : VaContent) (t : DeckTime) (s : State) :
    (vaStart p c t s).ann.pending = s.ann.pending := rfl
@[simp] theorem vaStart_naming (p : VaPurpose) (c : VaContent) (t : DeckTime) (s : State) :
    (vaStart p c t s).ann.naming = s.ann.naming := rfl
@[simp] theorem vaStart_lastCompleted (p : VaPurpose) (c : VaContent) (t : DeckTime) (s : State) :
    (vaStart p c t s).ann.lastCompleted = s.ann.lastCompleted := rfl
@[simp] theorem vaStart_nameCap (p : VaPurpose) (c : VaContent) (t : DeckTime) (s : State) :
    (vaStart p c t s).ann.nameCap = s.ann.nameCap := rfl
@[simp] theorem vaStart_speakerName (p : VaPurpose) (c : VaContent) (t : DeckTime) (s : State) :
    (vaStart p c t s).ann.speakerName = s.ann.speakerName := rfl
@[simp] theorem vaStart_slots (p : VaPurpose) (c : VaContent) (t : DeckTime) (s : State) :
    (vaStart p c t s).vtab.slots = s.vtab.slots := rfl
@[simp] theorem vaStart_speaker (p : VaPurpose) (c : VaContent) (t : DeckTime) (s : State) :
    (vaStart p c t s).vtab.speaker = s.vtab.speaker := rfl
@[simp] theorem vaStart_purpose (p : VaPurpose) (c : VaContent) (t : DeckTime) (s : State) :
    (vaStart p c t s).ann.purpose = p := rfl
@[simp] theorem vaStart_current (p : VaPurpose) (c : VaContent) (t : DeckTime) (s : State) :
    (vaStart p c t s).ann.current = s.ann.current := rfl
@[simp] theorem vaStart_hand (p : VaPurpose) (c : VaContent) (t : DeckTime) (s : State) :
    (vaStart p c t s).csr.hand = s.csr.hand := rfl
@[simp] theorem vaStart_vaTag (p : VaPurpose) (c : VaContent) (t : DeckTime) (s : State) :
    (vaStart p c t s).csr.vaTag = s.csr.vaTag + 1 := rfl
@[simp] theorem vaStart_content (p : VaPurpose) (c : VaContent) (t : DeckTime) (s : State) :
    (vaStart p c t s).vtab.va.content = c := rfl
@[simp] theorem vaStart_playState (p : VaPurpose) (c : VaContent) (t : DeckTime) (s : State) :
    (vaStart p c t s).vtab.va.play.state = .seeking := rfl
@[simp] theorem vaStart_anchor (p : VaPurpose) (c : VaContent) (t : DeckTime) (s : State) :
    (vaStart p c t s).vtab.va.play.anchor = t := rfl

/-! ## `setContent` -/

@[simp] theorem setContent_pending (i : SlotId) (c : SlotContent) (s : State) : (setContent i c s).pending = s.pending := rfl
@[simp] theorem setContent_raised (i : SlotId) (c : SlotContent) (s : State) : (setContent i c s).raised = s.raised := rfl
@[simp] theorem setContent_ref (i : SlotId) (c : SlotContent) (s : State) : (setContent i c s).ref = s.ref := rfl
@[simp] theorem setContent_pins (i : SlotId) (c : SlotContent) (s : State) : (setContent i c s).pins = s.pins := rfl
@[simp] theorem setContent_stc (i : SlotId) (c : SlotContent) (s : State) : (setContent i c s).stc = s.stc := rfl
@[simp] theorem setContent_line (i : SlotId) (c : SlotContent) (s : State) : (setContent i c s).line = s.line := rfl
@[simp] theorem setContent_txq (i : SlotId) (c : SlotContent) (s : State) : (setContent i c s).txq = s.txq := rfl
@[simp] theorem setContent_dclk (i : SlotId) (c : SlotContent) (s : State) : (setContent i c s).dclk = s.dclk := rfl
@[simp] theorem setContent_csr (i : SlotId) (c : SlotContent) (s : State) : (setContent i c s).csr = s.csr := rfl
@[simp] theorem setContent_prg (i : SlotId) (c : SlotContent) (s : State) : (setContent i c s).prg = s.prg := rfl
@[simp] theorem setContent_ann (i : SlotId) (c : SlotContent) (s : State) : (setContent i c s).ann = s.ann := rfl
@[simp] theorem setContent_jck (i : SlotId) (c : SlotContent) (s : State) : (setContent i c s).jck = s.jck := rfl
@[simp] theorem setContent_lvl (i : SlotId) (c : SlotContent) (s : State) : (setContent i c s).lvl = s.lvl := rfl
@[simp] theorem setContent_lmp (i : SlotId) (c : SlotContent) (s : State) : (setContent i c s).lmp = s.lmp := rfl
@[simp] theorem setContent_va (i : SlotId) (c : SlotContent) (s : State) :
    (setContent i c s).vtab.va = s.vtab.va := rfl
@[simp] theorem setContent_speaker (i : SlotId) (c : SlotContent) (s : State) :
    (setContent i c s).vtab.speaker = s.vtab.speaker := rfl

/-! ## `setListeners` -/

@[simp] theorem setListeners_pending (i : SlotId) (l : Listeners) (s : State) : (setListeners i l s).pending = s.pending := rfl
@[simp] theorem setListeners_raised (i : SlotId) (l : Listeners) (s : State) : (setListeners i l s).raised = s.raised := rfl
@[simp] theorem setListeners_ref (i : SlotId) (l : Listeners) (s : State) : (setListeners i l s).ref = s.ref := rfl
@[simp] theorem setListeners_pins (i : SlotId) (l : Listeners) (s : State) : (setListeners i l s).pins = s.pins := rfl
@[simp] theorem setListeners_stc (i : SlotId) (l : Listeners) (s : State) : (setListeners i l s).stc = s.stc := rfl
@[simp] theorem setListeners_line (i : SlotId) (l : Listeners) (s : State) : (setListeners i l s).line = s.line := rfl
@[simp] theorem setListeners_txq (i : SlotId) (l : Listeners) (s : State) : (setListeners i l s).txq = s.txq := rfl
@[simp] theorem setListeners_dclk (i : SlotId) (l : Listeners) (s : State) : (setListeners i l s).dclk = s.dclk := rfl
@[simp] theorem setListeners_csr (i : SlotId) (l : Listeners) (s : State) : (setListeners i l s).csr = s.csr := rfl
@[simp] theorem setListeners_prg (i : SlotId) (l : Listeners) (s : State) : (setListeners i l s).prg = s.prg := rfl
@[simp] theorem setListeners_ann (i : SlotId) (l : Listeners) (s : State) : (setListeners i l s).ann = s.ann := rfl
@[simp] theorem setListeners_jck (i : SlotId) (l : Listeners) (s : State) : (setListeners i l s).jck = s.jck := rfl
@[simp] theorem setListeners_lvl (i : SlotId) (l : Listeners) (s : State) : (setListeners i l s).lvl = s.lvl := rfl
@[simp] theorem setListeners_lmp (i : SlotId) (l : Listeners) (s : State) : (setListeners i l s).lmp = s.lmp := rfl
@[simp] theorem setListeners_va (i : SlotId) (l : Listeners) (s : State) :
    (setListeners i l s).vtab.va = s.vtab.va := rfl
@[simp] theorem setListeners_speaker (i : SlotId) (l : Listeners) (s : State) :
    (setListeners i l s).vtab.speaker = s.vtab.speaker := rfl

/-! ## `joinSlot` -/

@[simp] theorem joinSlot_pending (o : Output) (i : SlotId) (s : State) : (joinSlot o i s).pending = s.pending := rfl
@[simp] theorem joinSlot_raised (o : Output) (i : SlotId) (s : State) : (joinSlot o i s).raised = s.raised := rfl
@[simp] theorem joinSlot_ref (o : Output) (i : SlotId) (s : State) : (joinSlot o i s).ref = s.ref := rfl
@[simp] theorem joinSlot_pins (o : Output) (i : SlotId) (s : State) : (joinSlot o i s).pins = s.pins := rfl
@[simp] theorem joinSlot_stc (o : Output) (i : SlotId) (s : State) : (joinSlot o i s).stc = s.stc := rfl
@[simp] theorem joinSlot_line (o : Output) (i : SlotId) (s : State) : (joinSlot o i s).line = s.line := rfl
@[simp] theorem joinSlot_txq (o : Output) (i : SlotId) (s : State) : (joinSlot o i s).txq = s.txq := rfl
@[simp] theorem joinSlot_dclk (o : Output) (i : SlotId) (s : State) : (joinSlot o i s).dclk = s.dclk := rfl
@[simp] theorem joinSlot_csr (o : Output) (i : SlotId) (s : State) : (joinSlot o i s).csr = s.csr := rfl
@[simp] theorem joinSlot_prg (o : Output) (i : SlotId) (s : State) : (joinSlot o i s).prg = s.prg := rfl
@[simp] theorem joinSlot_ann (o : Output) (i : SlotId) (s : State) : (joinSlot o i s).ann = s.ann := rfl
@[simp] theorem joinSlot_jck (o : Output) (i : SlotId) (s : State) : (joinSlot o i s).jck = s.jck := rfl
@[simp] theorem joinSlot_lvl (o : Output) (i : SlotId) (s : State) : (joinSlot o i s).lvl = s.lvl := rfl
@[simp] theorem joinSlot_lmp (o : Output) (i : SlotId) (s : State) : (joinSlot o i s).lmp = s.lmp := rfl
@[simp] theorem joinSlot_va (o : Output) (i : SlotId) (s : State) :
    (joinSlot o i s).vtab.va = s.vtab.va := rfl
@[simp] theorem joinSlot_speaker (o : Output) (i : SlotId) (s : State) :
    (joinSlot o i s).vtab.speaker = s.vtab.speaker := rfl

/-! ## `switchSource` -/

@[simp] theorem switchSource_pending (o : Output) (s : State) : (switchSource o s).pending = s.pending := rfl
@[simp] theorem switchSource_raised (o : Output) (s : State) : (switchSource o s).raised = s.raised := rfl
@[simp] theorem switchSource_ref (o : Output) (s : State) : (switchSource o s).ref = s.ref := rfl
@[simp] theorem switchSource_pins (o : Output) (s : State) : (switchSource o s).pins = s.pins := rfl
@[simp] theorem switchSource_stc (o : Output) (s : State) : (switchSource o s).stc = s.stc := rfl
@[simp] theorem switchSource_line (o : Output) (s : State) : (switchSource o s).line = s.line := rfl
@[simp] theorem switchSource_txq (o : Output) (s : State) : (switchSource o s).txq = s.txq := rfl
@[simp] theorem switchSource_dclk (o : Output) (s : State) : (switchSource o s).dclk = s.dclk := rfl
@[simp] theorem switchSource_csr (o : Output) (s : State) : (switchSource o s).csr = s.csr := rfl
@[simp] theorem switchSource_prg (o : Output) (s : State) : (switchSource o s).prg = s.prg := rfl
@[simp] theorem switchSource_vtab (o : Output) (s : State) : (switchSource o s).vtab = s.vtab := rfl
@[simp] theorem switchSource_ann (o : Output) (s : State) : (switchSource o s).ann = s.ann := rfl
@[simp] theorem switchSource_jck (o : Output) (s : State) : (switchSource o s).jck = s.jck := rfl
@[simp] theorem switchSource_lmp (o : Output) (s : State) : (switchSource o s).lmp = s.lmp := rfl
@[simp] theorem switchSource_silence (o : Output) (s : State) :
    (switchSource o s).lvl.silence = s.lvl.silence.set o (some 8000) := rfl
@[simp] theorem switchSource_gains (o : Output) (s : State) :
    (switchSource o s).lvl.gains = s.lvl.gains.set o { s.lvl.gains.get o with slot := -72 } := rfl
@[simp] theorem switchSource_out (o : Output) (s : State) :
    (switchSource o s).lvl.out = s.lvl.out.set o 0 := rfl
@[simp] theorem switchSource_wind (o : Output) (s : State) :
    (switchSource o s).lvl.wind = s.lvl.wind := rfl

/-! ## `closeOutput` -/

@[simp] theorem closeOutput_pending (o : Output) (s : State) : (closeOutput o s).pending = s.pending := rfl
@[simp] theorem closeOutput_raised (o : Output) (s : State) : (closeOutput o s).raised = s.raised := rfl
@[simp] theorem closeOutput_ref (o : Output) (s : State) : (closeOutput o s).ref = s.ref := rfl
@[simp] theorem closeOutput_pins (o : Output) (s : State) : (closeOutput o s).pins = s.pins := rfl
@[simp] theorem closeOutput_stc (o : Output) (s : State) : (closeOutput o s).stc = s.stc := rfl
@[simp] theorem closeOutput_line (o : Output) (s : State) : (closeOutput o s).line = s.line := rfl
@[simp] theorem closeOutput_txq (o : Output) (s : State) : (closeOutput o s).txq = s.txq := rfl
@[simp] theorem closeOutput_dclk (o : Output) (s : State) : (closeOutput o s).dclk = s.dclk := rfl
@[simp] theorem closeOutput_csr (o : Output) (s : State) : (closeOutput o s).csr = s.csr := rfl
@[simp] theorem closeOutput_prg (o : Output) (s : State) : (closeOutput o s).prg = s.prg := rfl
@[simp] theorem closeOutput_vtab (o : Output) (s : State) : (closeOutput o s).vtab = s.vtab := rfl
@[simp] theorem closeOutput_ann (o : Output) (s : State) : (closeOutput o s).ann = s.ann := rfl
@[simp] theorem closeOutput_jck (o : Output) (s : State) : (closeOutput o s).jck = s.jck := rfl
@[simp] theorem closeOutput_lmp (o : Output) (s : State) : (closeOutput o s).lmp = s.lmp := rfl
@[simp] theorem closeOutput_silence (o : Output) (s : State) :
    (closeOutput o s).lvl.silence = s.lvl.silence.set o none := rfl
@[simp] theorem closeOutput_gains (o : Output) (s : State) :
    (closeOutput o s).lvl.gains = s.lvl.gains.set o .closed := rfl
@[simp] theorem closeOutput_out (o : Output) (s : State) :
    (closeOutput o s).lvl.out = s.lvl.out.set o 0 := rfl
@[simp] theorem closeOutput_wind (o : Output) (s : State) :
    (closeOutput o s).lvl.wind = s.lvl.wind := rfl

/-! ## `transactionGood` -/

@[simp] theorem transactionGood_pending (s : State) : (transactionGood s).pending = s.pending := rfl
@[simp] theorem transactionGood_raised (s : State) : (transactionGood s).raised = s.raised := rfl
@[simp] theorem transactionGood_ref (s : State) : (transactionGood s).ref = s.ref := rfl
@[simp] theorem transactionGood_pins (s : State) : (transactionGood s).pins = s.pins := rfl
@[simp] theorem transactionGood_stc (s : State) : (transactionGood s).stc = s.stc := rfl
@[simp] theorem transactionGood_line (s : State) : (transactionGood s).line = s.line := rfl
@[simp] theorem transactionGood_txq (s : State) : (transactionGood s).txq = s.txq := rfl
@[simp] theorem transactionGood_dclk (s : State) : (transactionGood s).dclk = s.dclk := rfl
@[simp] theorem transactionGood_prg (s : State) : (transactionGood s).prg = s.prg := rfl
@[simp] theorem transactionGood_vtab (s : State) : (transactionGood s).vtab = s.vtab := rfl
@[simp] theorem transactionGood_ann (s : State) : (transactionGood s).ann = s.ann := rfl
@[simp] theorem transactionGood_jck (s : State) : (transactionGood s).jck = s.jck := rfl
@[simp] theorem transactionGood_lvl (s : State) : (transactionGood s).lvl = s.lvl := rfl
@[simp] theorem transactionGood_lmp (s : State) : (transactionGood s).lmp = s.lmp := rfl
@[simp] theorem transactionGood_run (s : State) :
    (transactionGood s).csr.failureRun = 0 := rfl
@[simp] theorem transactionGood_fault (s : State) :
    (transactionGood s).csr.flashFault = false := rfl
@[simp] theorem transactionGood_hand (s : State) :
    (transactionGood s).csr.hand = none := rfl
@[simp] theorem transactionGood_config (s : State) :
    (transactionGood s).csr.config = s.csr.config := rfl

/-! ## `transactionFailed` -/

@[simp] theorem transactionFailed_pending (s : State) : (transactionFailed s).pending = s.pending := rfl
@[simp] theorem transactionFailed_raised (s : State) : (transactionFailed s).raised = s.raised := rfl
@[simp] theorem transactionFailed_ref (s : State) : (transactionFailed s).ref = s.ref := rfl
@[simp] theorem transactionFailed_pins (s : State) : (transactionFailed s).pins = s.pins := rfl
@[simp] theorem transactionFailed_stc (s : State) : (transactionFailed s).stc = s.stc := rfl
@[simp] theorem transactionFailed_line (s : State) : (transactionFailed s).line = s.line := rfl
@[simp] theorem transactionFailed_txq (s : State) : (transactionFailed s).txq = s.txq := rfl
@[simp] theorem transactionFailed_dclk (s : State) : (transactionFailed s).dclk = s.dclk := rfl
@[simp] theorem transactionFailed_prg (s : State) : (transactionFailed s).prg = s.prg := rfl
@[simp] theorem transactionFailed_vtab (s : State) : (transactionFailed s).vtab = s.vtab := rfl
@[simp] theorem transactionFailed_ann (s : State) : (transactionFailed s).ann = s.ann := rfl
@[simp] theorem transactionFailed_jck (s : State) : (transactionFailed s).jck = s.jck := rfl
@[simp] theorem transactionFailed_lvl (s : State) : (transactionFailed s).lvl = s.lvl := rfl
@[simp] theorem transactionFailed_lmp (s : State) : (transactionFailed s).lmp = s.lmp := rfl
@[simp] theorem transactionFailed_run (s : State) :
    (transactionFailed s).csr.failureRun = min 8 (s.csr.failureRun + 1) := rfl
@[simp] theorem transactionFailed_hand (s : State) :
    (transactionFailed s).csr.hand = none := rfl
@[simp] theorem transactionFailed_config (s : State) :
    (transactionFailed s).csr.config = s.csr.config := rfl

/-! ## `begin` -/

@[simp] theorem begin_pending (t : Transaction) (s : State) : (begin t s).pending = s.pending := rfl
@[simp] theorem begin_raised (t : Transaction) (s : State) : (begin t s).raised = s.raised := rfl
@[simp] theorem begin_ref (t : Transaction) (s : State) : (begin t s).ref = s.ref := rfl
@[simp] theorem begin_pins (t : Transaction) (s : State) : (begin t s).pins = s.pins := rfl
@[simp] theorem begin_stc (t : Transaction) (s : State) : (begin t s).stc = s.stc := rfl
@[simp] theorem begin_line (t : Transaction) (s : State) : (begin t s).line = s.line := rfl
@[simp] theorem begin_txq (t : Transaction) (s : State) : (begin t s).txq = s.txq := rfl
@[simp] theorem begin_dclk (t : Transaction) (s : State) : (begin t s).dclk = s.dclk := rfl
@[simp] theorem begin_prg (t : Transaction) (s : State) : (begin t s).prg = s.prg := rfl
@[simp] theorem begin_vtab (t : Transaction) (s : State) : (begin t s).vtab = s.vtab := rfl
@[simp] theorem begin_ann (t : Transaction) (s : State) : (begin t s).ann = s.ann := rfl
@[simp] theorem begin_jck (t : Transaction) (s : State) : (begin t s).jck = s.jck := rfl
@[simp] theorem begin_lvl (t : Transaction) (s : State) : (begin t s).lvl = s.lvl := rfl
@[simp] theorem begin_lmp (t : Transaction) (s : State) : (begin t s).lmp = s.lmp := rfl
@[simp] theorem begin_hand (t : Transaction) (s : State) :
    (begin t s).csr.hand = some { what := t, left := 5000 } := rfl
@[simp] theorem begin_config (t : Transaction) (s : State) :
    (begin t s).csr.config = s.csr.config := rfl

/-! ## `setJack` -/

@[simp] theorem setJack_pending (j : Seat) (x : Jack) (s : State) : (setJack j x s).pending = s.pending := rfl
@[simp] theorem setJack_raised (j : Seat) (x : Jack) (s : State) : (setJack j x s).raised = s.raised := rfl
@[simp] theorem setJack_ref (j : Seat) (x : Jack) (s : State) : (setJack j x s).ref = s.ref := rfl
@[simp] theorem setJack_pins (j : Seat) (x : Jack) (s : State) : (setJack j x s).pins = s.pins := rfl
@[simp] theorem setJack_stc (j : Seat) (x : Jack) (s : State) : (setJack j x s).stc = s.stc := rfl
@[simp] theorem setJack_line (j : Seat) (x : Jack) (s : State) : (setJack j x s).line = s.line := rfl
@[simp] theorem setJack_txq (j : Seat) (x : Jack) (s : State) : (setJack j x s).txq = s.txq := rfl
@[simp] theorem setJack_dclk (j : Seat) (x : Jack) (s : State) : (setJack j x s).dclk = s.dclk := rfl
@[simp] theorem setJack_csr (j : Seat) (x : Jack) (s : State) : (setJack j x s).csr = s.csr := rfl
@[simp] theorem setJack_prg (j : Seat) (x : Jack) (s : State) : (setJack j x s).prg = s.prg := rfl
@[simp] theorem setJack_vtab (j : Seat) (x : Jack) (s : State) : (setJack j x s).vtab = s.vtab := rfl
@[simp] theorem setJack_ann (j : Seat) (x : Jack) (s : State) : (setJack j x s).ann = s.ann := rfl
@[simp] theorem setJack_lvl (j : Seat) (x : Jack) (s : State) : (setJack j x s).lvl = s.lvl := rfl
@[simp] theorem setJack_lmp (j : Seat) (x : Jack) (s : State) : (setJack j x s).lmp = s.lmp := rfl
@[simp] theorem setJack_jacks (j : Seat) (x : Jack) (s : State) :
    (setJack j x s).jck.jacks = s.jck.jacks.set j x := rfl
@[simp] theorem setJack_panels (j : Seat) (x : Jack) (s : State) :
    (setJack j x s).jck.panels = s.jck.panels := rfl

/-! ## `setPanel` -/

@[simp] theorem setPanel_pending (j : Seat) (p : Panel) (s : State) : (setPanel j p s).pending = s.pending := rfl
@[simp] theorem setPanel_raised (j : Seat) (p : Panel) (s : State) : (setPanel j p s).raised = s.raised := rfl
@[simp] theorem setPanel_ref (j : Seat) (p : Panel) (s : State) : (setPanel j p s).ref = s.ref := rfl
@[simp] theorem setPanel_pins (j : Seat) (p : Panel) (s : State) : (setPanel j p s).pins = s.pins := rfl
@[simp] theorem setPanel_stc (j : Seat) (p : Panel) (s : State) : (setPanel j p s).stc = s.stc := rfl
@[simp] theorem setPanel_line (j : Seat) (p : Panel) (s : State) : (setPanel j p s).line = s.line := rfl
@[simp] theorem setPanel_txq (j : Seat) (p : Panel) (s : State) : (setPanel j p s).txq = s.txq := rfl
@[simp] theorem setPanel_dclk (j : Seat) (p : Panel) (s : State) : (setPanel j p s).dclk = s.dclk := rfl
@[simp] theorem setPanel_csr (j : Seat) (p : Panel) (s : State) : (setPanel j p s).csr = s.csr := rfl
@[simp] theorem setPanel_prg (j : Seat) (p : Panel) (s : State) : (setPanel j p s).prg = s.prg := rfl
@[simp] theorem setPanel_vtab (j : Seat) (p : Panel) (s : State) : (setPanel j p s).vtab = s.vtab := rfl
@[simp] theorem setPanel_ann (j : Seat) (p : Panel) (s : State) : (setPanel j p s).ann = s.ann := rfl
@[simp] theorem setPanel_lvl (j : Seat) (p : Panel) (s : State) : (setPanel j p s).lvl = s.lvl := rfl
@[simp] theorem setPanel_lmp (j : Seat) (p : Panel) (s : State) : (setPanel j p s).lmp = s.lmp := rfl
@[simp] theorem setPanel_panels (j : Seat) (p : Panel) (s : State) :
    (setPanel j p s).jck.panels = s.jck.panels.set j p := rfl
@[simp] theorem setPanel_jacks (j : Seat) (p : Panel) (s : State) :
    (setPanel j p s).jck.jacks = s.jck.jacks := rfl

/-! ## `endReception` -/

@[simp] theorem endReception_pending (h : Heard) (s : State) : (endReception h s).pending = s.pending := rfl
@[simp] theorem endReception_raised (h : Heard) (s : State) : (endReception h s).raised = s.raised := rfl
@[simp] theorem endReception_ref (h : Heard) (s : State) : (endReception h s).ref = s.ref := rfl
@[simp] theorem endReception_pins (h : Heard) (s : State) : (endReception h s).pins = s.pins := rfl
@[simp] theorem endReception_stc (h : Heard) (s : State) : (endReception h s).stc = s.stc := rfl
@[simp] theorem endReception_txq (h : Heard) (s : State) : (endReception h s).txq = s.txq := rfl
@[simp] theorem endReception_dclk (h : Heard) (s : State) : (endReception h s).dclk = s.dclk := rfl
@[simp] theorem endReception_csr (h : Heard) (s : State) : (endReception h s).csr = s.csr := rfl
@[simp] theorem endReception_prg (h : Heard) (s : State) : (endReception h s).prg = s.prg := rfl
@[simp] theorem endReception_vtab (h : Heard) (s : State) : (endReception h s).vtab = s.vtab := rfl
@[simp] theorem endReception_ann (h : Heard) (s : State) : (endReception h s).ann = s.ann := rfl
@[simp] theorem endReception_jck (h : Heard) (s : State) : (endReception h s).jck = s.jck := rfl
@[simp] theorem endReception_lvl (h : Heard) (s : State) : (endReception h s).lvl = s.lvl := rfl
@[simp] theorem endReception_lmp (h : Heard) (s : State) : (endReception h s).lmp = s.lmp := rfl
@[simp] theorem endReception_lineState (h : Heard) (s : State) :
    (endReception h s).line.state = s.line.state := rfl
@[simp] theorem endReception_rxErrors (h : Heard) (s : State) :
    (endReception h s).line.rxErrors = s.line.rxErrors := rfl

/-! ## `heard` -/

@[simp] theorem heard_pending (h : Heard) (s : State) : (heard h s).pending = s.pending := by unfold heard; split <;> rfl
@[simp] theorem heard_raised (h : Heard) (s : State) : (heard h s).raised = s.raised := by unfold heard; split <;> rfl
@[simp] theorem heard_ref (h : Heard) (s : State) : (heard h s).ref = s.ref := by unfold heard; split <;> rfl
@[simp] theorem heard_pins (h : Heard) (s : State) : (heard h s).pins = s.pins := by unfold heard; split <;> rfl
@[simp] theorem heard_stc (h : Heard) (s : State) : (heard h s).stc = s.stc := by unfold heard; split <;> rfl
@[simp] theorem heard_txq (h : Heard) (s : State) : (heard h s).txq = s.txq := by unfold heard; split <;> rfl
@[simp] theorem heard_csr (h : Heard) (s : State) : (heard h s).csr = s.csr := by unfold heard; split <;> rfl
@[simp] theorem heard_prg (h : Heard) (s : State) : (heard h s).prg = s.prg := by unfold heard; split <;> rfl
@[simp] theorem heard_vtab (h : Heard) (s : State) : (heard h s).vtab = s.vtab := by unfold heard; split <;> rfl
@[simp] theorem heard_ann (h : Heard) (s : State) : (heard h s).ann = s.ann := by unfold heard; split <;> rfl
@[simp] theorem heard_jck (h : Heard) (s : State) : (heard h s).jck = s.jck := by unfold heard; split <;> rfl
@[simp] theorem heard_lvl (h : Heard) (s : State) : (heard h s).lvl = s.lvl := by unfold heard; split <;> rfl
@[simp] theorem heard_lmp (h : Heard) (s : State) : (heard h s).lmp = s.lmp := by unfold heard; split <;> rfl
@[simp] theorem heard_lineState (h : Heard) (s : State) :
    (heard h s).line.state = s.line.state := by unfold heard; split <;> rfl
@[simp] theorem heard_rxErrors (h : Heard) (s : State) :
    (heard h s).line.rxErrors = s.line.rxErrors := by unfold heard; split <;> rfl
@[simp] theorem heard_lockout (h : Heard) (s : State) :
    (heard h s).line.lockout = s.line.lockout := by unfold heard; split <;> rfl
@[simp] theorem heard_clash (h : Heard) (s : State) :
    (heard h s).line.clash = s.line.clash := by unfold heard; split <;> rfl
@[simp] theorem heard_now (h : Heard) (s : State) :
    (heard h s).dclk.now = s.dclk.now := by unfold heard; split <;> rfl
@[simp] theorem heard_timer (h : Heard) (s : State) :
    (heard h s).dclk.timer = s.dclk.timer := by unfold heard; split <;> rfl
@[simp] theorem heard_running (h : Heard) (s : State) :
    (heard h s).dclk.running = s.dclk.running := by unfold heard; split <;> rfl
@[simp] theorem heard_firstPeriod (h : Heard) (s : State) :
    (heard h s).dclk.firstPeriod = s.dclk.firstPeriod := by unfold heard; split <;> rfl

/-! ## `endUnderOwn` -/

@[simp] theorem endUnderOwn_pending (a : Option Nat) (s : State) : (endUnderOwn a s).pending = s.pending := by cases a <;> rfl
@[simp] theorem endUnderOwn_raised (a : Option Nat) (s : State) : (endUnderOwn a s).raised = s.raised := by cases a <;> rfl
@[simp] theorem endUnderOwn_ref (a : Option Nat) (s : State) : (endUnderOwn a s).ref = s.ref := by cases a <;> rfl
@[simp] theorem endUnderOwn_pins (a : Option Nat) (s : State) : (endUnderOwn a s).pins = s.pins := by cases a <;> rfl
@[simp] theorem endUnderOwn_stc (a : Option Nat) (s : State) : (endUnderOwn a s).stc = s.stc := by cases a <;> rfl
@[simp] theorem endUnderOwn_txq (a : Option Nat) (s : State) : (endUnderOwn a s).txq = s.txq := by cases a <;> rfl
@[simp] theorem endUnderOwn_dclk (a : Option Nat) (s : State) : (endUnderOwn a s).dclk = s.dclk := by cases a <;> rfl
@[simp] theorem endUnderOwn_csr (a : Option Nat) (s : State) : (endUnderOwn a s).csr = s.csr := by cases a <;> rfl
@[simp] theorem endUnderOwn_prg (a : Option Nat) (s : State) : (endUnderOwn a s).prg = s.prg := by cases a <;> rfl
@[simp] theorem endUnderOwn_vtab (a : Option Nat) (s : State) : (endUnderOwn a s).vtab = s.vtab := by cases a <;> rfl
@[simp] theorem endUnderOwn_ann (a : Option Nat) (s : State) : (endUnderOwn a s).ann = s.ann := by cases a <;> rfl
@[simp] theorem endUnderOwn_jck (a : Option Nat) (s : State) : (endUnderOwn a s).jck = s.jck := by cases a <;> rfl
@[simp] theorem endUnderOwn_lvl (a : Option Nat) (s : State) : (endUnderOwn a s).lvl = s.lvl := by cases a <;> rfl
@[simp] theorem endUnderOwn_lmp (a : Option Nat) (s : State) : (endUnderOwn a s).lmp = s.lmp := by cases a <;> rfl
@[simp] theorem endUnderOwn_lineState (a : Option Nat) (s : State) : (endUnderOwn a s).line.state = s.line.state := by cases a <;> rfl
@[simp] theorem endUnderOwn_driving (a : Option Nat) (s : State) : (endUnderOwn a s).line.driving = s.line.driving := by cases a <;> rfl
@[simp] theorem endUnderOwn_rx (a : Option Nat) (s : State) : (endUnderOwn a s).line.rx = s.line.rx := by cases a <;> rfl
@[simp] theorem endUnderOwn_fails (a : Option Nat) (s : State) : (endUnderOwn a s).line.fails = s.line.fails := by cases a <;> rfl
@[simp] theorem endUnderOwn_wake (a : Option Nat) (s : State) : (endUnderOwn a s).line.wake = s.line.wake := by cases a <;> rfl
@[simp] theorem endUnderOwn_lockout (a : Option Nat) (s : State) : (endUnderOwn a s).line.lockout = s.line.lockout := by cases a <;> rfl
@[simp] theorem endUnderOwn_since (a : Option Nat) (s : State) : (endUnderOwn a s).line.since = s.line.since := by cases a <;> rfl
@[simp] theorem endUnderOwn_rxErrors (a : Option Nat) (s : State) :
    (endUnderOwn a s).line.rxErrors = min 255 (s.line.rxErrors + 1) := by cases a <;> rfl
@[simp] theorem endUnderOwn_priorCapture_none (s : State) :
    (endUnderOwn none s).line.priorCapture = s.line.priorCapture := rfl
@[simp] theorem endUnderOwn_priorCapture_some (n : Nat) (s : State) :
    (endUnderOwn (some n) s).line.priorCapture = some (s.dclk.now.subMicros n) := rfl

/-! ## `settleCapture` -/

@[simp] theorem settleCapture_pending (b : Bool) (s : State) : (settleCapture b s).pending = s.pending := rfl
@[simp] theorem settleCapture_raised (b : Bool) (s : State) : (settleCapture b s).raised = s.raised := rfl
@[simp] theorem settleCapture_ref (b : Bool) (s : State) : (settleCapture b s).ref = s.ref := rfl
@[simp] theorem settleCapture_pins (b : Bool) (s : State) : (settleCapture b s).pins = s.pins := rfl
@[simp] theorem settleCapture_stc (b : Bool) (s : State) : (settleCapture b s).stc = s.stc := rfl
@[simp] theorem settleCapture_txq (b : Bool) (s : State) : (settleCapture b s).txq = s.txq := rfl
@[simp] theorem settleCapture_csr (b : Bool) (s : State) : (settleCapture b s).csr = s.csr := rfl
@[simp] theorem settleCapture_prg (b : Bool) (s : State) : (settleCapture b s).prg = s.prg := rfl
@[simp] theorem settleCapture_vtab (b : Bool) (s : State) : (settleCapture b s).vtab = s.vtab := rfl
@[simp] theorem settleCapture_ann (b : Bool) (s : State) : (settleCapture b s).ann = s.ann := rfl
@[simp] theorem settleCapture_jck (b : Bool) (s : State) : (settleCapture b s).jck = s.jck := rfl
@[simp] theorem settleCapture_lvl (b : Bool) (s : State) : (settleCapture b s).lvl = s.lvl := rfl
@[simp] theorem settleCapture_lmp (b : Bool) (s : State) : (settleCapture b s).lmp = s.lmp := rfl
@[simp] theorem settleCapture_lineState (b : Bool) (s : State) :
    (settleCapture b s).line.state = s.line.state := rfl
@[simp] theorem settleCapture_rxErrors (b : Bool) (s : State) :
    (settleCapture b s).line.rxErrors = s.line.rxErrors := rfl
@[simp] theorem settleCapture_now (b : Bool) (s : State) :
    (settleCapture b s).dclk.now = s.dclk.now := rfl
@[simp] theorem settleCapture_timer (b : Bool) (s : State) :
    (settleCapture b s).dclk.timer = s.dclk.timer := rfl
@[simp] theorem settleCapture_running (b : Bool) (s : State) :
    (settleCapture b s).dclk.running = s.dclk.running := rfl
@[simp] theorem settleCapture_firstPeriod (b : Bool) (s : State) :
    (settleCapture b s).dclk.firstPeriod = s.dclk.firstPeriod := rfl

/-! ## `stopDriving` -/

@[simp] theorem stopDriving_pending (n : Nat) (s : State) : (stopDriving n s).pending = s.pending := rfl
@[simp] theorem stopDriving_raised (n : Nat) (s : State) : (stopDriving n s).raised = s.raised := rfl
@[simp] theorem stopDriving_ref (n : Nat) (s : State) : (stopDriving n s).ref = s.ref := rfl
@[simp] theorem stopDriving_pins (n : Nat) (s : State) : (stopDriving n s).pins = s.pins := rfl
@[simp] theorem stopDriving_stc (n : Nat) (s : State) : (stopDriving n s).stc = s.stc := rfl
@[simp] theorem stopDriving_txq (n : Nat) (s : State) : (stopDriving n s).txq = s.txq := rfl
@[simp] theorem stopDriving_csr (n : Nat) (s : State) : (stopDriving n s).csr = s.csr := rfl
@[simp] theorem stopDriving_prg (n : Nat) (s : State) : (stopDriving n s).prg = s.prg := rfl
@[simp] theorem stopDriving_vtab (n : Nat) (s : State) : (stopDriving n s).vtab = s.vtab := rfl
@[simp] theorem stopDriving_ann (n : Nat) (s : State) : (stopDriving n s).ann = s.ann := rfl
@[simp] theorem stopDriving_jck (n : Nat) (s : State) : (stopDriving n s).jck = s.jck := rfl
@[simp] theorem stopDriving_lvl (n : Nat) (s : State) : (stopDriving n s).lvl = s.lvl := rfl
@[simp] theorem stopDriving_lmp (n : Nat) (s : State) : (stopDriving n s).lmp = s.lmp := rfl
@[simp] theorem stopDriving_driving (n : Nat) (s : State) :
    (stopDriving n s).line.driving = [] := rfl
@[simp] theorem stopDriving_lineState (n : Nat) (s : State) :
    (stopDriving n s).line.state = s.line.state := rfl
@[simp] theorem stopDriving_fails (n : Nat) (s : State) :
    (stopDriving n s).line.fails = s.line.fails := rfl
@[simp] theorem stopDriving_now (n : Nat) (s : State) :
    (stopDriving n s).dclk.now = s.dclk.now := rfl
@[simp] theorem stopDriving_timer (n : Nat) (s : State) :
    (stopDriving n s).dclk.timer = s.dclk.timer := rfl
@[simp] theorem stopDriving_running (n : Nat) (s : State) :
    (stopDriving n s).dclk.running = s.dclk.running := rfl
@[simp] theorem stopDriving_firstPeriod (n : Nat) (s : State) :
    (stopDriving n s).dclk.firstPeriod = s.dclk.firstPeriod := rfl

/-! ## `takeRaised` -/

@[simp] theorem takeRaised_ref (s : State) : (takeRaised s).ref = s.ref := rfl
@[simp] theorem takeRaised_pins (s : State) : (takeRaised s).pins = s.pins := rfl
@[simp] theorem takeRaised_stc (s : State) : (takeRaised s).stc = s.stc := rfl
@[simp] theorem takeRaised_line (s : State) : (takeRaised s).line = s.line := rfl
@[simp] theorem takeRaised_txq (s : State) : (takeRaised s).txq = s.txq := rfl
@[simp] theorem takeRaised_dclk (s : State) : (takeRaised s).dclk = s.dclk := rfl
@[simp] theorem takeRaised_csr (s : State) : (takeRaised s).csr = s.csr := rfl
@[simp] theorem takeRaised_prg (s : State) : (takeRaised s).prg = s.prg := rfl
@[simp] theorem takeRaised_vtab (s : State) : (takeRaised s).vtab = s.vtab := rfl
@[simp] theorem takeRaised_ann (s : State) : (takeRaised s).ann = s.ann := rfl
@[simp] theorem takeRaised_jck (s : State) : (takeRaised s).jck = s.jck := rfl
@[simp] theorem takeRaised_lvl (s : State) : (takeRaised s).lvl = s.lvl := rfl
@[simp] theorem takeRaised_lmp (s : State) : (takeRaised s).lmp = s.lmp := rfl
@[simp] theorem takeRaised_pending_eq (s : State) :
    (takeRaised s).pending = s.raised := rfl
@[simp] theorem takeRaised_raised_eq (s : State) :
    (takeRaised s).raised = [] := rfl

/-! ## `relight` -/

@[simp] theorem relight_pending (f : Nat) (s : State) : (relight f s).pending = s.pending := by unfold relight; split <;> rfl
@[simp] theorem relight_raised (f : Nat) (s : State) : (relight f s).raised = s.raised := by unfold relight; split <;> rfl
@[simp] theorem relight_ref (f : Nat) (s : State) : (relight f s).ref = s.ref := by unfold relight; split <;> rfl
@[simp] theorem relight_pins (f : Nat) (s : State) : (relight f s).pins = s.pins := by unfold relight; split <;> rfl
@[simp] theorem relight_stc (f : Nat) (s : State) : (relight f s).stc = s.stc := by unfold relight; split <;> rfl
@[simp] theorem relight_line (f : Nat) (s : State) : (relight f s).line = s.line := by unfold relight; split <;> rfl
@[simp] theorem relight_txq (f : Nat) (s : State) : (relight f s).txq = s.txq := by unfold relight; split <;> rfl
@[simp] theorem relight_dclk (f : Nat) (s : State) : (relight f s).dclk = s.dclk := by unfold relight; split <;> rfl
@[simp] theorem relight_csr (f : Nat) (s : State) : (relight f s).csr = s.csr := by unfold relight; split <;> rfl
@[simp] theorem relight_prg (f : Nat) (s : State) : (relight f s).prg = s.prg := by unfold relight; split <;> rfl
@[simp] theorem relight_vtab (f : Nat) (s : State) : (relight f s).vtab = s.vtab := by unfold relight; split <;> rfl
@[simp] theorem relight_ann (f : Nat) (s : State) : (relight f s).ann = s.ann := by unfold relight; split <;> rfl
@[simp] theorem relight_jck (f : Nat) (s : State) : (relight f s).jck = s.jck := by unfold relight; split <;> rfl
@[simp] theorem relight_lvl (f : Nat) (s : State) : (relight f s).lvl = s.lvl := by unfold relight; split <;> rfl
@[simp] theorem relight_claims (f : Nat) (s : State) :
    (relight f s).lmp.claims = s.lmp.claims := by unfold relight; split <;> rfl
@[simp] theorem relight_wish (f : Nat) (s : State) :
    (relight f s).lmp.wish = s.lmp.wish := by unfold relight; split <;> rfl
@[simp] theorem relight_runKind (f : Nat) (s : State) :
    (relight f s).lmp.runKind = s.lmp.runKind := by unfold relight; split <;> rfl
@[simp] theorem relight_runLen (f : Nat) (s : State) :
    (relight f s).lmp.runLen = s.lmp.runLen := by unfold relight; split <;> rfl

/-! ## `relightOverlay` -/

@[simp] theorem relightOverlay_pending (s : State) : (relightOverlay s).pending = s.pending := by unfold relightOverlay; simp
@[simp] theorem relightOverlay_raised (s : State) : (relightOverlay s).raised = s.raised := by unfold relightOverlay; simp
@[simp] theorem relightOverlay_ref (s : State) : (relightOverlay s).ref = s.ref := by unfold relightOverlay; simp
@[simp] theorem relightOverlay_pins (s : State) : (relightOverlay s).pins = s.pins := by unfold relightOverlay; simp
@[simp] theorem relightOverlay_stc (s : State) : (relightOverlay s).stc = s.stc := by unfold relightOverlay; simp
@[simp] theorem relightOverlay_line (s : State) : (relightOverlay s).line = s.line := by unfold relightOverlay; simp
@[simp] theorem relightOverlay_txq (s : State) : (relightOverlay s).txq = s.txq := by unfold relightOverlay; simp
@[simp] theorem relightOverlay_dclk (s : State) : (relightOverlay s).dclk = s.dclk := by unfold relightOverlay; simp
@[simp] theorem relightOverlay_csr (s : State) : (relightOverlay s).csr = s.csr := by unfold relightOverlay; simp
@[simp] theorem relightOverlay_prg (s : State) : (relightOverlay s).prg = s.prg := by unfold relightOverlay; simp
@[simp] theorem relightOverlay_vtab (s : State) : (relightOverlay s).vtab = s.vtab := by unfold relightOverlay; simp
@[simp] theorem relightOverlay_ann (s : State) : (relightOverlay s).ann = s.ann := by unfold relightOverlay; simp
@[simp] theorem relightOverlay_jck (s : State) : (relightOverlay s).jck = s.jck := by unfold relightOverlay; simp
@[simp] theorem relightOverlay_lvl (s : State) : (relightOverlay s).lvl = s.lvl := by unfold relightOverlay; simp
@[simp] theorem relightOverlay_claims (s : State) :
    (relightOverlay s).lmp.claims = s.lmp.claims := by unfold relightOverlay; simp
@[simp] theorem relightOverlay_wish (s : State) :
    (relightOverlay s).lmp.wish = s.lmp.wish := by unfold relightOverlay; simp
@[simp] theorem relightOverlay_runKind (s : State) :
    (relightOverlay s).lmp.runKind = s.lmp.runKind := by unfold relightOverlay; simp
@[simp] theorem relightOverlay_runLen (s : State) :
    (relightOverlay s).lmp.runLen = s.lmp.runLen := by unfold relightOverlay; simp

/-! ## `formTargets` -/

@[simp] theorem formTargets_pending (s : State) : (formTargets s).pending = s.pending := rfl
@[simp] theorem formTargets_raised (s : State) : (formTargets s).raised = s.raised := rfl
@[simp] theorem formTargets_ref (s : State) : (formTargets s).ref = s.ref := rfl
@[simp] theorem formTargets_pins (s : State) : (formTargets s).pins = s.pins := rfl
@[simp] theorem formTargets_stc (s : State) : (formTargets s).stc = s.stc := rfl
@[simp] theorem formTargets_line (s : State) : (formTargets s).line = s.line := rfl
@[simp] theorem formTargets_txq (s : State) : (formTargets s).txq = s.txq := rfl
@[simp] theorem formTargets_dclk (s : State) : (formTargets s).dclk = s.dclk := rfl
@[simp] theorem formTargets_csr (s : State) : (formTargets s).csr = s.csr := rfl
@[simp] theorem formTargets_prg (s : State) : (formTargets s).prg = s.prg := rfl
@[simp] theorem formTargets_vtab (s : State) : (formTargets s).vtab = s.vtab := rfl
@[simp] theorem formTargets_ann (s : State) : (formTargets s).ann = s.ann := rfl
@[simp] theorem formTargets_jck (s : State) : (formTargets s).jck = s.jck := rfl
@[simp] theorem formTargets_lvl (s : State) : (formTargets s).lvl = s.lvl := rfl
@[simp] theorem formTargets_claims (s : State) :
    (formTargets s).lmp.claims = s.lmp.claims := rfl
@[simp] theorem formTargets_wish (s : State) :
    (formTargets s).lmp.wish = s.lmp.wish := rfl
@[simp] theorem formTargets_runKind (s : State) :
    (formTargets s).lmp.runKind = s.lmp.runKind := rfl
@[simp] theorem formTargets_runLen (s : State) :
    (formTargets s).lmp.runLen = s.lmp.runLen := rfl

/-! ## `parkFade` -/

@[simp] theorem parkFade_pending (s : State) : (parkFade s).pending = s.pending := rfl
@[simp] theorem parkFade_raised (s : State) : (parkFade s).raised = s.raised := rfl
@[simp] theorem parkFade_ref (s : State) : (parkFade s).ref = s.ref := rfl
@[simp] theorem parkFade_pins (s : State) : (parkFade s).pins = s.pins := rfl
@[simp] theorem parkFade_stc (s : State) : (parkFade s).stc = s.stc := rfl
@[simp] theorem parkFade_line (s : State) : (parkFade s).line = s.line := rfl
@[simp] theorem parkFade_txq (s : State) : (parkFade s).txq = s.txq := rfl
@[simp] theorem parkFade_dclk (s : State) : (parkFade s).dclk = s.dclk := rfl
@[simp] theorem parkFade_csr (s : State) : (parkFade s).csr = s.csr := rfl
@[simp] theorem parkFade_prg (s : State) : (parkFade s).prg = s.prg := rfl
@[simp] theorem parkFade_vtab (s : State) : (parkFade s).vtab = s.vtab := rfl
@[simp] theorem parkFade_ann (s : State) : (parkFade s).ann = s.ann := rfl
@[simp] theorem parkFade_jck (s : State) : (parkFade s).jck = s.jck := rfl
@[simp] theorem parkFade_lvl (s : State) : (parkFade s).lvl = s.lvl := rfl
@[simp] theorem parkFade_claims (s : State) :
    (parkFade s).lmp.claims = s.lmp.claims := rfl
@[simp] theorem parkFade_wish (s : State) :
    (parkFade s).lmp.wish = s.lmp.wish := rfl
@[simp] theorem parkFade_runKind (s : State) :
    (parkFade s).lmp.runKind = s.lmp.runKind := rfl
@[simp] theorem parkFade_runLen (s : State) :
    (parkFade s).lmp.runLen = s.lmp.runLen := rfl

/-! ## `enqueue` -/

@[simp] theorem enqueue_pending (k : TxKind) (b : List Byte) (s : State) : (enqueue k b s).pending = s.pending := by unfold enqueue; split <;> rfl
@[simp] theorem enqueue_raised (k : TxKind) (b : List Byte) (s : State) : (enqueue k b s).raised = s.raised := by unfold enqueue; split <;> rfl
@[simp] theorem enqueue_ref (k : TxKind) (b : List Byte) (s : State) : (enqueue k b s).ref = s.ref := by unfold enqueue; split <;> rfl
@[simp] theorem enqueue_pins (k : TxKind) (b : List Byte) (s : State) : (enqueue k b s).pins = s.pins := by unfold enqueue; split <;> rfl
@[simp] theorem enqueue_stc (k : TxKind) (b : List Byte) (s : State) : (enqueue k b s).stc = s.stc := by unfold enqueue; split <;> rfl
@[simp] theorem enqueue_line (k : TxKind) (b : List Byte) (s : State) : (enqueue k b s).line = s.line := by unfold enqueue; split <;> rfl
@[simp] theorem enqueue_dclk (k : TxKind) (b : List Byte) (s : State) : (enqueue k b s).dclk = s.dclk := by unfold enqueue; split <;> rfl
@[simp] theorem enqueue_csr (k : TxKind) (b : List Byte) (s : State) : (enqueue k b s).csr = s.csr := by unfold enqueue; split <;> rfl
@[simp] theorem enqueue_prg (k : TxKind) (b : List Byte) (s : State) : (enqueue k b s).prg = s.prg := by unfold enqueue; split <;> rfl
@[simp] theorem enqueue_vtab (k : TxKind) (b : List Byte) (s : State) : (enqueue k b s).vtab = s.vtab := by unfold enqueue; split <;> rfl
@[simp] theorem enqueue_ann (k : TxKind) (b : List Byte) (s : State) : (enqueue k b s).ann = s.ann := by unfold enqueue; split <;> rfl
@[simp] theorem enqueue_jck (k : TxKind) (b : List Byte) (s : State) : (enqueue k b s).jck = s.jck := by unfold enqueue; split <;> rfl
@[simp] theorem enqueue_lvl (k : TxKind) (b : List Byte) (s : State) : (enqueue k b s).lvl = s.lvl := by unfold enqueue; split <;> rfl
@[simp] theorem enqueue_lmp (k : TxKind) (b : List Byte) (s : State) : (enqueue k b s).lmp = s.lmp := by unfold enqueue; split <;> rfl

/-! ## `evaluateRequest` -/

@[simp] theorem evaluateRequest_pending (s : State) : (evaluateRequest s).pending = s.pending := by unfold evaluateRequest; split <;> (try split) <;> simp
@[simp] theorem evaluateRequest_raised (s : State) : (evaluateRequest s).raised = s.raised := by unfold evaluateRequest; split <;> (try split) <;> simp
@[simp] theorem evaluateRequest_ref (s : State) : (evaluateRequest s).ref = s.ref := by unfold evaluateRequest; split <;> (try split) <;> simp
@[simp] theorem evaluateRequest_pins (s : State) : (evaluateRequest s).pins = s.pins := by unfold evaluateRequest; split <;> (try split) <;> simp
@[simp] theorem evaluateRequest_stc (s : State) : (evaluateRequest s).stc = s.stc := by unfold evaluateRequest; split <;> (try split) <;> simp
@[simp] theorem evaluateRequest_line (s : State) : (evaluateRequest s).line = s.line := by unfold evaluateRequest; split <;> (try split) <;> simp
@[simp] theorem evaluateRequest_dclk (s : State) : (evaluateRequest s).dclk = s.dclk := by unfold evaluateRequest; split <;> (try split) <;> simp
@[simp] theorem evaluateRequest_csr (s : State) : (evaluateRequest s).csr = s.csr := by unfold evaluateRequest; split <;> (try split) <;> simp
@[simp] theorem evaluateRequest_prg (s : State) : (evaluateRequest s).prg = s.prg := by unfold evaluateRequest; split <;> (try split) <;> simp
@[simp] theorem evaluateRequest_vtab (s : State) : (evaluateRequest s).vtab = s.vtab := by unfold evaluateRequest; split <;> (try split) <;> simp
@[simp] theorem evaluateRequest_ann (s : State) : (evaluateRequest s).ann = s.ann := by unfold evaluateRequest; split <;> (try split) <;> simp
@[simp] theorem evaluateRequest_jck (s : State) : (evaluateRequest s).jck = s.jck := by unfold evaluateRequest; split <;> (try split) <;> simp
@[simp] theorem evaluateRequest_lvl (s : State) : (evaluateRequest s).lvl = s.lvl := by unfold evaluateRequest; split <;> (try split) <;> simp
@[simp] theorem evaluateRequest_lmp (s : State) : (evaluateRequest s).lmp = s.lmp := by unfold evaluateRequest; split <;> (try split) <;> simp

end Sys2Proof.Machine
end

