-- ==== Sys2Proof/Laws/VoiceFrame.lean ====
section
/-! SUPPORT. What the operations of the voices, of the announcement and of the reader can change. Each of
them moves a state within `VoiceFrame`, whatever it does there: nothing of the line, the Transmit Queue, the
clock, the programme, the jacks or Station Control. -/

set_option Elab.async false

namespace Sys2Proof.Machine

/-- A count that stands within 0..65,535 does not fall and stays within. -/
def Rises (a b : Nat) : Prop := a ≤ 65535 → a ≤ b ∧ b ≤ 65535

theorem Rises.refl (a : Nat) : Rises a a := fun h => ⟨le_refl _, h⟩

theorem Rises.trans {a b c : Nat} (h : Rises a b) (k : Rises b c) : Rises a c :=
  fun x => ⟨(h x).1.trans (k (h x).2).1, (k (h x).2).2⟩

theorem Rises.bump (a : Nat) : Rises a (bump 65535 a 1) := by
  intro h
  unfold Machine.bump
  omega

/-- How far the operations move what the whole-machine rules bound: a target moves only to what R154, R157
and R162 allow, an applied gain only to -72 (R144), an output only within R149, an underrun count only up and
not past 65,535 (R92), and no scan begins (R71). -/
structure Bounded (s t : State) : Prop where
  target : ∀ c, (t.lmp.chans.get c).target = (s.lmp.chans.get c).target
    ∨ (t.lmp.chans.get c).target = 0
    ∨ (isAwake s = true ∧ (s.lmp.chans.get c).role ≠ .unused
      ∧ ((s.lmp.chans.get c).role = .stopInd → s.ann.latch = true))
  slot : ∀ o, (t.lvl.gains.get o).slot = (s.lvl.gains.get o).slot ∨ (t.lvl.gains.get o).slot = -72
  va : ∀ o, (t.lvl.gains.get o).va = (s.lvl.gains.get o).va ∨ (t.lvl.gains.get o).va = -72
  out : ∀ o, t.lvl.out.get o = s.lvl.out.get o ∨ (-32767 ≤ t.lvl.out.get o ∧ t.lvl.out.get o ≤ 32767)
  runs : ∀ v, Rises (playOf s v).underruns (playOf t v).underruns
  scan : scanning t = true → scanning s = true

/-- Nothing of it moves. -/
theorem Bounded.same {s t : State} (c : ∀ c, (t.lmp.chans.get c).target = (s.lmp.chans.get c).target)
    (g : t.lvl.gains = s.lvl.gains) (o : t.lvl.out = s.lvl.out)
    (v : ∀ v, (playOf t v).underruns = (playOf s v).underruns) (h : t.csr.hand = s.csr.hand) :
    Bounded s t where
  target := fun x => .inl (c x)
  slot := fun x => .inl (by rw [g])
  va := fun x => .inl (by rw [g])
  out := fun x => .inl (by rw [o])
  runs := fun x => by rw [v x]; exact .refl _
  scan := fun x => by unfold scanning at *; rw [← h]; exact x

/-- `t` differs from `s` at most in the voices' records, their places, tags and the transaction in hand, the
course of the announcement, the outputs' gains, silences and samples, and the lamp channels. -/
structure VoiceFrame (s t : State) : Prop where
  pending : t.pending = s.pending
  raised : t.raised = s.raised
  ref : t.ref = s.ref
  pins : t.pins = s.pins
  stc : t.stc = s.stc
  line : t.line = s.line
  txq : t.txq = s.txq
  dclk : t.dclk = s.dclk
  prg : t.prg = s.prg
  jck : t.jck = s.jck
  wind : t.lvl.wind = s.lvl.wind
  lmp : t.lmp = { s.lmp with chans := t.lmp.chans }
  ann : t.ann =
    { s.ann with current := t.ann.current, pending := t.ann.pending,
                 lastCompleted := t.ann.lastCompleted, naming := t.ann.naming,
                 speakerName := t.ann.speakerName, nameCap := t.ann.nameCap, purpose := t.ann.purpose }
  chan : ∀ c, (t.lmp.chans.get c).role = (s.lmp.chans.get c).role
    ∧ (t.lmp.chans.get c).fault = (s.lmp.chans.get c).fault
    ∧ (t.lmp.chans.get c).faultRun = (s.lmp.chans.get c).faultRun
  csr : t.csr =
    { s.csr with places := t.csr.places, vaPlace := t.csr.vaPlace, hand := t.csr.hand,
                 tags := t.csr.tags, vaTag := t.csr.vaTag }
  bounded : Bounded s t

theorem VoiceFrame.refl (s : State) : VoiceFrame s s :=
  ⟨rfl, rfl, rfl, rfl, rfl, rfl, rfl, rfl, rfl, rfl, rfl, rfl, rfl,
    fun _ => ⟨rfl, rfl, rfl⟩, rfl, .same (fun _ => rfl) rfl rfl (fun _ => rfl) rfl⟩

theorem Bounded.trans {s t u : State} (c : ∀ c, (t.lmp.chans.get c).role = (s.lmp.chans.get c).role)
    (w : isAwake t = isAwake s) (l : t.ann.latch = s.ann.latch) (h : Bounded s t) (k : Bounded t u) :
    Bounded s u where
  target := fun x => by
    rcases k.target x with a | a | a
    · rw [a]; exact h.target x
    · exact .inr (.inl a)
    · rw [c, w, l] at a; exact .inr (.inr a)
  slot := fun x => by
    rcases k.slot x with a | a
    · rw [a]; exact h.slot x
    · exact .inr a
  va := fun x => by
    rcases k.va x with a | a
    · rw [a]; exact h.va x
    · exact .inr a
  out := fun x => by
    rcases k.out x with a | a
    · rw [a]; exact h.out x
    · exact .inr a
  runs := fun x => (h.runs x).trans (k.runs x)
  scan := fun x => h.scan (k.scan x)

theorem VoiceFrame.trans {s t u : State} (h : VoiceFrame s t) (k : VoiceFrame t u) : VoiceFrame s u where
  pending := k.pending.trans h.pending
  raised := k.raised.trans h.raised
  ref := k.ref.trans h.ref
  pins := k.pins.trans h.pins
  stc := k.stc.trans h.stc
  line := k.line.trans h.line
  txq := k.txq.trans h.txq
  dclk := k.dclk.trans h.dclk
  prg := k.prg.trans h.prg
  jck := k.jck.trans h.jck
  wind := k.wind.trans h.wind
  lmp := by rw [k.lmp, h.lmp]
  ann := by rw [k.ann, h.ann]
  chan := fun c => ⟨(k.chan c).1.trans (h.chan c).1, (k.chan c).2.1.trans (h.chan c).2.1,
    (k.chan c).2.2.trans (h.chan c).2.2⟩
  csr := by rw [k.csr, h.csr]
  bounded := h.bounded.trans (fun c => (h.chan c).1) (by unfold isAwake; rw [h.stc]) (by rw [h.ann]) k.bounded

theorem putSlot_frame (i : SlotId) (x : Slot) (s : State)
    (h : Rises (s.vtab.slots.get i).play.underruns x.play.underruns) : VoiceFrame s (putSlot i x s) :=
  ⟨rfl, rfl, rfl, rfl, rfl, rfl, rfl, rfl, rfl, rfl, rfl, rfl, rfl,
    fun _ => ⟨rfl, rfl, rfl⟩, rfl, {
      target := fun _ => .inl rfl, slot := fun _ => .inl rfl, va := fun _ => .inl rfl
      out := fun _ => .inl rfl, scan := id
      runs := fun v => by
        cases v with
        | va => exact .refl _
        | slot k => cases i <;> cases k <;> first | exact h | exact .refl _ }⟩

theorem setPlay_frame (v : VoiceId) (p : Play) (s : State) (h : Rises (playOf s v).underruns p.underruns) :
    VoiceFrame s (setPlay v p s) := by
  cases v with
  | slot i => exact putSlot_frame i _ s h
  | va => exact ⟨rfl, rfl, rfl, rfl, rfl, rfl, rfl, rfl, rfl, rfl, rfl, rfl, rfl,
    fun _ => ⟨rfl, rfl, rfl⟩, rfl, {
      target := fun _ => .inl rfl, slot := fun _ => .inl rfl, va := fun _ => .inl rfl
      out := fun _ => .inl rfl, scan := id
      runs := fun v => by
        cases v with
        | va => exact h
        | slot k => exact .refl _ }⟩

theorem setPlace_frame (v : VoiceId) (r : Option Request) (s : State) : VoiceFrame s (setPlace v r s) := by
  cases v <;> exact ⟨rfl, rfl, rfl, rfl, rfl, rfl, rfl, rfl, rfl, rfl, rfl, rfl, rfl,
    fun _ => ⟨rfl, rfl, rfl⟩, rfl, .same (fun _ => rfl) rfl rfl (fun _ => rfl) rfl⟩

theorem renew_frame (v : VoiceId) (s : State) : VoiceFrame s (renew v s) := by
  cases v <;> exact ⟨rfl, rfl, rfl, rfl, rfl, rfl, rfl, rfl, rfl, rfl, rfl, rfl, rfl,
    fun _ => ⟨rfl, rfl, rfl⟩, rfl, .same (fun _ => rfl) rfl rfl (fun _ => rfl) rfl⟩

theorem issue_frame (v : VoiceId) (b : ReqBody) (s : State) : VoiceFrame s (issue v b s) :=
  setPlace_frame _ _ _

/-- A transaction that serves a request. -/
theorem begin_frame (t : Transaction) (s : State) (h : t ≠ .header) (k : ∀ n, t ≠ .chunk n) :
    VoiceFrame s (begin t s) :=
  ⟨rfl, rfl, rfl, rfl, rfl, rfl, rfl, rfl, rfl, rfl, rfl, rfl, rfl,
    fun _ => ⟨rfl, rfl, rfl⟩, rfl, {
      target := fun _ => .inl rfl, slot := fun _ => .inl rfl, va := fun _ => .inl rfl
      out := fun _ => .inl rfl, runs := fun _ => .refl _
      scan := fun x => by
        cases t with
        | header => exact absurd rfl h
        | chunk n => exact absurd rfl (k n)
        | probe _ _ _ => cases x
        | block _ _ _ => cases x }⟩

theorem Channel.fadeTo_keeps (c : Channel) (n f : Nat) :
    (c.fadeTo n f).role = c.role ∧ (c.fadeTo n f).fault = c.fault ∧ (c.fadeTo n f).faultRun = c.faultRun := by
  unfold Channel.fadeTo
  split <;> exact ⟨rfl, rfl, rfl⟩

theorem Channel.retarget_keeps (c : Channel) (n f : Nat) :
    (c.retarget n f).role = c.role ∧ (c.retarget n f).fault = c.fault
      ∧ (c.retarget n f).faultRun = c.faultRun := by
  unfold Channel.retarget
  split
  · exact ⟨rfl, rfl, rfl⟩
  · exact c.fadeTo_keeps n f

theorem Channel.fadeTo_target (c : Channel) (n f : Nat) : (c.fadeTo n f).target = n := by
  unfold Channel.fadeTo
  split <;> rfl

theorem Channel.retarget_target (c : Channel) (n f : Nat) : (c.retarget n f).target = n := by
  unfold Channel.retarget
  split
  · assumption
  · exact c.fadeTo_target n f

/-- A target above 0 is not an UNUSED channel's, and a STOP_IND channel's only while the latch is SET (R154,
R157). -/
theorem targetOf_lit (s : State) (c : Chan) : targetOf s c = 0
    ∨ ((s.lmp.chans.get c).role ≠ .unused ∧ ((s.lmp.chans.get c).role = .stopInd → s.ann.latch = true)) := by
  unfold targetOf
  cases h : (s.lmp.chans.get c).role with
  | unused => exact .inl rfl
  | stopInd =>
    cases k : s.ann.latch with
    | false => exact .inl rfl
    | true => exact .inr ⟨by simp, fun _ => rfl⟩
  | _ => exact .inr ⟨by simp, by simp⟩

/-- Channels set to targets of R155 to R158 while AWAKE. -/
theorem Bounded.lit {s t : State} (w : isAwake s = true)
    (c : ∀ c, (t.lmp.chans.get c).target = targetOf s c) (g : t.lvl = s.lvl)
    (v : t.vtab = s.vtab) (h : t.csr = s.csr) : Bounded s t where
  target := fun x => by
    rw [c x]
    exact .inr ((targetOf_lit s x).imp id fun y => ⟨w, y⟩)
  slot := fun x => .inl (by rw [g])
  va := fun x => .inl (by rw [g])
  out := fun x => .inl (by rw [g])
  runs := fun x => by unfold playOf; rw [v]; exact .refl _
  scan := fun x => by unfold scanning at *; rw [← h]; exact x

theorem relight_frame (f : Nat) (s : State) : VoiceFrame s (relight f s) := by
  unfold relight
  split
  · rename_i w
    exact ⟨rfl, rfl, rfl, rfl, rfl, rfl, rfl, rfl, rfl, rfl, rfl, rfl, rfl,
      fun c => by cases c <;> exact Channel.retarget_keeps _ _ _, rfl,
      .lit w (fun c => by cases c <;> exact Channel.retarget_target _ _ _) rfl rfl rfl⟩
  · exact .refl s

theorem relightOverlay_frame (s : State) : VoiceFrame s (relightOverlay s) := relight_frame _ s

theorem switchSource_frame (o : Output) (s : State) : VoiceFrame s (switchSource o s) :=
  ⟨rfl, rfl, rfl, rfl, rfl, rfl, rfl, rfl, rfl, rfl, rfl, rfl, rfl,
    fun _ => ⟨rfl, rfl, rfl⟩, rfl, {
      target := fun _ => .inl rfl
      slot := fun x => by
        simp only [switchSource, Outputs.get_set]
        split
        · exact .inr rfl
        · exact .inl rfl
      va := fun x => by
        simp only [switchSource, Outputs.get_set]
        split
        · rename_i h; rw [← h]; exact .inl rfl
        · exact .inl rfl
      out := fun x => by
        simp only [switchSource, Outputs.get_set]
        split
        · exact .inr (by decide)
        · exact .inl rfl
      runs := fun _ => .refl _
      scan := id }⟩

theorem closeOutput_frame (o : Output) (s : State) : VoiceFrame s (closeOutput o s) :=
  ⟨rfl, rfl, rfl, rfl, rfl, rfl, rfl, rfl, rfl, rfl, rfl, rfl, rfl,
    fun _ => ⟨rfl, rfl, rfl⟩, rfl, {
      target := fun _ => .inl rfl
      slot := fun x => by
        simp only [closeOutput, Outputs.get_set]
        split
        · exact .inr rfl
        · exact .inl rfl
      va := fun x => by
        simp only [closeOutput, Outputs.get_set]
        split
        · exact .inr rfl
        · exact .inl rfl
      out := fun x => by
        simp only [closeOutput, Outputs.get_set]
        split
        · exact .inr (by decide)
        · exact .inl rfl
      runs := fun _ => .refl _
      scan := id }⟩

/-- VA's record and the Announcement Unit's purpose, its underruns as they were. -/
theorem setVa_frame (p : VaPurpose) (c : VaContent) (x : Play) (s : State)
    (h : x.underruns = s.vtab.va.play.underruns) :
    VoiceFrame s { s with ann.purpose := p, vtab.va.content := c, vtab.va.play := x } :=
  ⟨rfl, rfl, rfl, rfl, rfl, rfl, rfl, rfl, rfl, rfl, rfl, rfl, rfl,
    fun _ => ⟨rfl, rfl, rfl⟩, rfl, .same (fun _ => rfl) rfl rfl
      (fun v => by
        cases v with
        | va => exact h
        | slot i => rfl) rfl⟩

theorem vaStart_frame (p : VaPurpose) (c : VaContent) (a : DeckTime) (s : State) :
    VoiceFrame s (vaStart p c a s) :=
  ((renew_frame .va s).trans (setVa_frame p c ((renew .va s).vtab.va.play.seek a) _ rfl)).trans
    (issue_frame .va (vaLookup s.csr.config.house c) _)

theorem vaStop_frame (s : State) : VoiceFrame s (vaStop s) :=
  (renew_frame .va s).trans (setVa_frame .none s.vtab.va.content _ _ rfl)

theorem setContent_frame (i : SlotId) (c : SlotContent) (s : State) : VoiceFrame s (setContent i c s) :=
  putSlot_frame _ _ _ (.refl _)

theorem setListeners_frame (i : SlotId) (l : Listeners) (s : State) :
    VoiceFrame s (setListeners i l s) := putSlot_frame _ _ _ (.refl _)

theorem setNaming_frame (n : Slots Bool) (s : State) :
    VoiceFrame s { s with ann.naming := n } :=
  ⟨rfl, rfl, rfl, rfl, rfl, rfl, rfl, rfl, rfl, rfl, rfl, rfl, rfl,
    fun _ => ⟨rfl, rfl, rfl⟩, rfl, .same (fun _ => rfl) rfl rfl (fun _ => rfl) rfl⟩

theorem setSpeakerName_frame (n : SpeakerName) (s : State) :
    VoiceFrame s { s with ann.speakerName := n } :=
  ⟨rfl, rfl, rfl, rfl, rfl, rfl, rfl, rfl, rfl, rfl, rfl, rfl, rfl,
    fun _ => ⟨rfl, rfl, rfl⟩, rfl, .same (fun _ => rfl) rfl rfl (fun _ => rfl) rfl⟩

theorem setSpeaker_frame (x : Speaker) (s : State) : VoiceFrame s { s with vtab.speaker := x } :=
  ⟨rfl, rfl, rfl, rfl, rfl, rfl, rfl, rfl, rfl, rfl, rfl, rfl, rfl,
    fun _ => ⟨rfl, rfl, rfl⟩, rfl, .same (fun _ => rfl) rfl rfl (fun _ => rfl) rfl⟩

theorem seekSlot_frame (i : SlotId) (s : State) : VoiceFrame s (seekSlot i s) := by
  refine (renew_frame (.slot i) s).trans ?_
  unfold seekSlot
  dsimp only
  split
  · exact (setPlay_frame _ _ _ (by exact .refl _)).trans (issue_frame _ _ _)
  · split
    · exact (setPlay_frame _ _ _ (by exact .refl _)).trans (issue_frame _ _ _)
    · exact setPlay_frame _ _ _ (by exact .refl _)

theorem giveName_frame (n : Nat) (i : SlotId) (s : State) : VoiceFrame s (giveName n i s) := by
  unfold giveName
  split
  · exact ((setContent_frame _ _ _).trans (setNaming_frame _ _)).trans (seekSlot_frame _ _)
  · exact .refl s

theorem returnSlot_frame (i : SlotId) (s : State) : VoiceFrame s (returnSlot i s) := by
  unfold returnSlot
  split
  · dsimp only
    split
    · exact ((setNaming_frame _ _).trans (setContent_frame _ _ _)).trans (seekSlot_frame _ _)
    · exact setNaming_frame _ _
  · exact .refl s

theorem forSlots_frame {f : SlotId → State → State} (h : ∀ i s, VoiceFrame s (f i s)) (s : State) :
    VoiceFrame s (forSlots f s) :=
  (((h .v0 s).trans (h .v1 _)).trans (h .v2 _)).trans (h .v3 _)

theorem takeSlot_frame (i : SlotId) (n : Nat) (l : Listeners) (s : State) :
    VoiceFrame s (takeSlot i n l s) := by
  unfold takeSlot
  dsimp only
  split
  · exact (((putSlot_frame _ _ _ (by exact .refl _)).trans (setContent_frame _ _ _)).trans (setNaming_frame _ _)).trans
      (seekSlot_frame _ _)
  · exact ((putSlot_frame _ _ _ (by exact .refl _)).trans (setNaming_frame _ _)).trans (seekSlot_frame _ _)

theorem releaseSlot_frame (i : SlotId) (s : State) : VoiceFrame s (releaseSlot i s) :=
  ((renew_frame (.slot i) s).trans (putSlot_frame i _ _ (by exact .refl _))).trans (setNaming_frame _ _)

theorem leaveSlot_frame (o : Output) (s : State) : VoiceFrame s (leaveSlot o s) := by
  unfold leaveSlot
  split
  · exact .refl s
  · dsimp only
    split
    · exact (setListeners_frame _ _ _).trans (releaseSlot_frame _ _)
    · exact setListeners_frame _ _ _

theorem joinSlot_frame (o : Output) (i : SlotId) (s : State) : VoiceFrame s (joinSlot o i s) :=
  setListeners_frame _ _ _

theorem nameOnSpeaker_frame (n : Nat) (s : State) : VoiceFrame s (nameOnSpeaker n s) :=
  (vaStart_frame _ _ _ _).trans (setSpeakerName_frame _ _)

theorem starveSpeaker_frame (s : State) : VoiceFrame s (starveSpeaker s) := by
  refine ((setSpeaker_frame .starved s).trans (switchSource_frame .spk _)).trans ?_
  unfold starveSpeaker
  dsimp only
  split
  · split
    · exact nameOnSpeaker_frame _ _
    · exact .refl _
  · exact .refl _

theorem attachSpeaker_frame (i : SlotId) (s : State) : VoiceFrame s (attachSpeaker i s) := by
  refine ((setSpeaker_frame (.attached i) s).trans (switchSource_frame .spk _)).trans ?_
  unfold attachSpeaker
  dsimp only
  split
  · exact (vaStop_frame _).trans (setSpeakerName_frame _ _)
  · exact .refl _

theorem placeSpeaker_frame (s : State) : VoiceFrame s (placeSpeaker s) := by
  unfold placeSpeaker
  split
  · split
    · exact (joinSlot_frame _ _ _).trans (attachSpeaker_frame _ _)
    · split
      · exact (takeSlot_frame _ _ _ _).trans (attachSpeaker_frame _ _)
      · exact setSpeaker_frame _ _
  · exact .refl s

theorem retrySpeaker_frame (s : State) : VoiceFrame s (retrySpeaker s) := by
  unfold retrySpeaker
  split
  · exact placeSpeaker_frame s
  · exact .refl s

theorem placeJack_frame (j : Seat) (n : Nat) (s : State) : VoiceFrame s (placeJack j n s) := by
  unfold placeJack
  split
  · exact (joinSlot_frame _ _ _).trans (switchSource_frame _ _)
  · split
    · exact (takeSlot_frame _ _ _ _).trans (switchSource_frame _ _)
    · split
      · exact ((takeSlot_frame _ _ _ _).trans (switchSource_frame _ _)).trans (starveSpeaker_frame _)
      · exact .refl s

theorem issueBlock_frame (v : VoiceId) (k : Nat) (s : State) : VoiceFrame s (issueBlock v k s) := by
  unfold issueBlock
  split
  · exact issue_frame _ _ _
  · exact .refl s

/-! ## Steps of playback raise the underrun count at most (R104) -/

/-- What a step of playback leaves of the underrun count. -/
def PlayOut.rises (o : PlayOut) (p : Play) : Prop := Rises p.underruns o.play.underruns

theorem Play.afterLate_rises (p : Play) (now : DeckTime) (x : Bool) : (p.afterLate now x).rises p := by
  unfold Play.afterLate
  dsimp only
  split_ifs <;> exact .refl _

theorem Play.placed_rises (p : Play) (now : DeckTime) (k : Nat) (xs : List Int) : (p.placed now k xs).rises p := by
  unfold Play.placed
  split_ifs
  · exact .refl _
  · exact Play.afterLate_rises { p with bufX := .empty } now true
  · exact .refl _
  · exact Play.afterLate_rises { p with bufY := .empty } now false
  · exact .refl _

theorem Play.firstBlock_rises (p : Play) (now : DeckTime) (k : Nat) (xs : List Int) :
    (p.firstBlock now k xs).rises p := by
  unfold Play.firstBlock
  dsimp only
  split_ifs <;> exact .refl _

theorem Play.blockCame_rises (p : Play) (now : DeckTime) (k : Nat) (xs : List Int) :
    (p.blockCame now k xs).rises p := by
  unfold Play.blockCame
  split
  · exact p.firstBlock_rises now k xs
  · exact p.placed_rises now k xs
  · exact .refl _

theorem Play.lookedUp_rises (p : Play) (now : DeckTime) (r : Option Clip) : (p.lookedUp now r).rises p := by
  unfold Play.lookedUp
  dsimp only
  split
  · exact .refl _
  · split_ifs <;> exact .refl _

theorem Play.topUp_rises (p : Play) (o : Bool) : (p.topUp o).rises p := by
  unfold Play.topUp
  dsimp only
  split_ifs <;> exact .refl _

theorem Play.realign_rises (p : Play) (e : Nat) (o : Bool) : (p.realign e o).rises p := by
  unfold Play.realign
  dsimp only
  split_ifs <;> exact .refl _

theorem Play.enter_rises (p : Play) (o : Bool) : (p.enter o).rises p := by
  unfold Play.enter
  dsimp only
  split_ifs
  · exact .refl _
  · exact .bump _
  · split <;> exact .bump _

theorem Play.boundary_rises (p : Play) (now : DeckTime) (o : Bool) : (p.boundary now o).rises p := by
  let q : Play := { p with
    atBoundary := false, bufX := p.bufX.spent (p.position / 256 - 1),
    bufY := p.bufY.spent (p.position / 256 - 1) }
  have x : ∀ e, Rises p.underruns (q.realign e o).play.underruns := fun e => q.realign_rises e o
  have y : Rises p.underruns (q.enter o).play.underruns := q.enter_rises o
  unfold Play.boundary
  dsimp only
  split_ifs
  · exact x _
  · exact y

theorem settlePlay_frame (v : VoiceId) (o : PlayOut) (s : State) (h : o.rises (playOf s v)) :
    VoiceFrame s (settlePlay v o s) := by
  unfold settlePlay
  dsimp only
  split
  · exact (setPlay_frame _ _ _ h).trans (issueBlock_frame _ _ _)
  · exact setPlay_frame _ _ _ h

theorem topUpVoice_frame (v : VoiceId) (s : State) : VoiceFrame s (topUpVoice v s) :=
  settlePlay_frame _ _ _ (Play.topUp_rises _ _)

theorem startChime_frame (s : State) : VoiceFrame s (startChime s) := by
  unfold startChime
  split
  · refine .trans ?_ (vaStart_frame _ _ _ _)
    exact ⟨rfl, rfl, rfl, rfl, rfl, rfl, rfl, rfl, rfl, rfl, rfl, rfl, rfl,
    fun _ => ⟨rfl, rfl, rfl⟩, rfl, .same (fun _ => rfl) rfl rfl (fun _ => rfl) rfl⟩
  · exact .refl s

theorem makeCurrent_frame (n : Nat) (S : Millis) (s : State) : VoiceFrame s (makeCurrent n S s) := by
  refine .trans (t := { s with
    ann.current := some { stop := n, start := S, chimeLen := none, phase := .waiting },
    ann.naming := { v0 := false, v1 := false, v2 := false, v3 := false },
    ann.speakerName := .notNeeded })
    ⟨rfl, rfl, rfl, rfl, rfl, rfl, rfl, rfl, rfl, rfl, rfl, rfl, rfl,
    fun _ => ⟨rfl, rfl, rfl⟩, rfl, .same (fun _ => rfl) rfl rfl (fun _ => rfl) rfl⟩ ?_
  unfold makeCurrent
  dsimp only
  split
  · exact startChime_frame _
  · exact .refl _

theorem abandon_frame (s : State) : VoiceFrame s (abandon s) := by
  refine .trans (t := { s with ann.nameCap := none, ann.current := none })
    ⟨rfl, rfl, rfl, rfl, rfl, rfl, rfl, rfl, rfl, rfl, rfl, rfl, rfl,
    fun _ => ⟨rfl, rfl, rfl⟩, rfl, .same (fun _ => rfl) rfl rfl (fun _ => rfl) rfl⟩ ?_
  unfold abandon
  dsimp only
  split
  · exact (vaStop_frame _).trans (forSlots_frame returnSlot_frame _)
  · exact forSlots_frame returnSlot_frame _

theorem placeAnnouncement_frame (n : Nat) (S : Millis) (s : State) :
    VoiceFrame s (placeAnnouncement n S s) := by
  unfold placeAnnouncement
  split
  · exact ⟨rfl, rfl, rfl, rfl, rfl, rfl, rfl, rfl, rfl, rfl, rfl, rfl, rfl,
    fun _ => ⟨rfl, rfl, rfl⟩, rfl, .same (fun _ => rfl) rfl rfl (fun _ => rfl) rfl⟩
  · dsimp only
    split
    · exact ((abandon_frame _).trans (makeCurrent_frame _ _ _)).trans (relightOverlay_frame _)
    · exact (makeCurrent_frame _ _ _).trans (relightOverlay_frame _)

theorem complete_frame (s : State) : VoiceFrame s (complete s) := by
  unfold complete
  split
  · rename_i a h
    refine .trans (t := { s with
      ann.lastCompleted := some a.start, ann.nameCap := none, ann.current := none })
      ⟨rfl, rfl, rfl, rfl, rfl, rfl, rfl, rfl, rfl, rfl, rfl, rfl, rfl,
    fun _ => ⟨rfl, rfl, rfl⟩, rfl, .same (fun _ => rfl) rfl rfl (fun _ => rfl) rfl⟩ ?_
    dsimp only
    split
    · refine .trans ?_ (relightOverlay_frame _)
      refine .trans ?_ (makeCurrent_frame _ _ _)
      exact ⟨rfl, rfl, rfl, rfl, rfl, rfl, rfl, rfl, rfl, rfl, rfl, rfl, rfl,
    fun _ => ⟨rfl, rfl, rfl⟩, rfl, .same (fun _ => rfl) rfl rfl (fun _ => rfl) rfl⟩
    · exact relightOverlay_frame _
  · exact .refl s

theorem completeIfDone_frame (s : State) : VoiceFrame s (completeIfDone s) := by
  unfold completeIfDone
  split
  · exact complete_frame s
  · exact .refl s

theorem startName_frame (s : State) : VoiceFrame s (startName s) := by
  unfold startName
  split
  · rename_i a h
    refine (vaStop_frame s).trans ?_
    refine .trans (t := { vaStop s with
      ann.current := some { a with phase := .name }, ann.nameCap := some Config.nameCapMicros })
      ⟨rfl, rfl, rfl, rfl, rfl, rfl, rfl, rfl, rfl, rfl, rfl, rfl, rfl,
    fun _ => ⟨rfl, rfl, rfl⟩, rfl, .same (fun _ => rfl) rfl rfl (fun _ => rfl) rfl⟩ ?_
    refine (forSlots_frame (giveName_frame a.stop) _).trans ?_
    dsimp only
    split
    · exact (setSpeakerName_frame _ _).trans (completeIfDone_frame _)
    · exact (nameOnSpeaker_frame _ _).trans (completeIfDone_frame _)
  · exact .refl s

theorem vaDone_frame (s : State) : VoiceFrame s (vaDone s) := by
  unfold vaDone
  split
  · exact .refl s
  · exact vaStop_frame s
  · split
    · exact startName_frame s
    · exact .refl s
  · exact ((vaStop_frame s).trans (setSpeakerName_frame _ _)).trans (completeIfDone_frame _)

theorem slotDone_frame (i : SlotId) (s : State) : VoiceFrame s (slotDone i s) := by
  unfold slotDone
  split
  · exact (returnSlot_frame _ _).trans (completeIfDone_frame _)
  · exact .refl s

theorem voiceDone_frame (v : VoiceId) (s : State) : VoiceFrame s (voiceDone v s) := by
  unfold voiceDone
  split
  · exact vaDone_frame s
  · split
    · exact slotDone_frame _ _
    · exact .refl s

theorem actOn_frame (v : VoiceId) (o : PlayOut) (s : State) (h : o.rises (playOf s v)) :
    VoiceFrame s (actOn v o s) := by
  unfold actOn
  dsimp only
  split
  · exact ((settlePlay_frame _ _ _ h).trans (voiceDone_frame _ _)).trans (topUpVoice_frame _ _)
  · exact (settlePlay_frame _ _ _ h).trans (topUpVoice_frame _ _)

theorem learnChime_frame (v : VoiceId) (r : Option Clip) (s : State) : VoiceFrame s (learnChime v r s) := by
  unfold learnChime
  split
  · split
    · exact ⟨rfl, rfl, rfl, rfl, rfl, rfl, rfl, rfl, rfl, rfl, rfl, rfl, rfl,
    fun _ => ⟨rfl, rfl, rfl⟩, rfl, .same (fun _ => rfl) rfl rfl (fun _ => rfl) rfl⟩
    · exact .refl s
  · exact .refl s

theorem deliverLookup_frame (v : VoiceId) (tag : Word16) (r : Option Clip) (s : State) :
    VoiceFrame s (deliverLookup v tag r s) := by
  unfold deliverLookup
  split
  · exact (learnChime_frame _ _ _).trans (actOn_frame _ _ _ (Play.lookedUp_rises _ _ _))
  · exact .refl s

theorem deliverBlock_frame (v : VoiceId) (tag : Word16) (k : Nat) (xs : List Int) (s : State) :
    VoiceFrame s (deliverBlock v tag k xs s) := by
  unfold deliverBlock
  split
  · exact actOn_frame _ _ _ (Play.blockCame_rises _ _ _ _)
  · exact .refl s

theorem lookupStands_frame (v : VoiceId) (r : Request) (n : SearchNext) (s : State) :
    VoiceFrame s (lookupStands v r n s) := by
  unfold lookupStands
  split
  · exact setPlace_frame _ _ _
  · exact setPlace_frame _ _ _
  · exact (setPlace_frame _ _ _).trans (deliverLookup_frame _ _ _ _)

theorem takeUp_frame (v : VoiceId) (r : Request) (s : State) : VoiceFrame s (takeUp v r s) := by
  unfold takeUp
  split
  · split
    · exact (setPlace_frame _ _ _).trans (begin_frame _ _ (by simp) (by simp))
    · exact lookupStands_frame _ _ _ _
  · split
    · exact (setPlace_frame _ _ _).trans (begin_frame _ _ (by simp) (by simp))
    · exact (setPlace_frame _ _ _).trans (deliverBlock_frame _ _ _ _ _)

theorem serveFor_frame (n : Nat) (s : State) : VoiceFrame s (serveFor n s) := by
  induction n generalizing s with
  | zero => exact .refl s
  | succ n ih =>
    unfold serveFor
    split
    · exact .refl s
    · split
      · exact (takeUp_frame _ _ _).trans (ih _)
      · exact .refl s

/-- The reader's service changes nothing outside the voices. -/
theorem serve_frame (s : State) : VoiceFrame s (serve s) := by
  unfold serve
  exact serveFor_frame _ s

/-- With a transaction in hand the reader takes nothing up (R69). -/
theorem serve_of_hand {s : State} (h : s.csr.hand.isSome = true) : serve s = s := by
  simp [serve, serveFor, Config.serveFuel, h]

theorem closePlace_frame (v : VoiceId) (s : State) : VoiceFrame s (closePlace v s) := by
  unfold closePlace
  split
  · split
    · exact setPlace_frame _ _ _
    · exact .refl s
  · exact .refl s

theorem endClip_frame (v : VoiceId) (s : State) : VoiceFrame s (endClip v s) := by
  unfold endClip
  split
  · exact actOn_frame _ _ _ (Rises.refl _)
  · exact .refl s

theorem crossBoundary_frame (v : VoiceId) (s : State) : VoiceFrame s (crossBoundary v s) := by
  unfold crossBoundary
  split
  · exact actOn_frame _ _ _ (Play.boundary_rises _ _ _)
  · exact .refl s

/-- A fold of operations that stay within the frame stays within it. -/
theorem foldl_frame {α : Type} {f : State → α → State} (h : ∀ s a, VoiceFrame s (f s a)) (l : List α)
    (s : State) : VoiceFrame s (l.foldl f s) := by
  induction l generalizing s with
  | nil => exact .refl s
  | cons a l ih => exact (h s a).trans (ih _)

theorem settleVoices_frame (s : State) : VoiceFrame s (settleVoices s) :=
  foldl_frame (fun s v => (endClip_frame v s).trans (crossBoundary_frame v _)) _ s

theorem Play.tick_rises (p : Play) (now : DeckTime) : Rises p.underruns (p.tick now).underruns := by
  unfold Play.tick
  split_ifs <;> exact .refl _

theorem mix_bounds (s : State) (x : Slots Int) (v : Int) (o : Output) :
    -32767 ≤ mix s x v o ∧ mix s x v o ≤ 32767 := by
  unfold mix
  dsimp only
  split_ifs
  · decide
  · unfold saturate clampInt
    omega
  · unfold saturate clampInt
    omega

theorem soundTick_frame (s : State) : VoiceFrame s (soundTick s) := by
  unfold soundTick
  refine .trans ?_ (foldl_frame (fun s v => setPlay_frame v _ s (Play.tick_rises _ _)) _ _)
  exact ⟨rfl, rfl, rfl, rfl, rfl, rfl, rfl, rfl, rfl, rfl, rfl, rfl, rfl,
    fun _ => ⟨rfl, rfl, rfl⟩, rfl, {
      target := fun _ => .inl rfl, slot := fun _ => .inl rfl, va := fun _ => .inl rfl
      out := fun o => .inr (by rw [Outputs.get_of]; exact mix_bounds _ _ _ _)
      runs := fun _ => .refl _, scan := id }⟩

theorem cutNames_frame (s : State) : VoiceFrame s (cutNames s) := by
  unfold cutNames
  dsimp only
  split
  · exact (((forSlots_frame returnSlot_frame _).trans (vaStop_frame _)).trans
      (setSpeakerName_frame _ _)).trans (complete_frame _)
  · exact (forSlots_frame returnSlot_frame _).trans (complete_frame _)

theorem jackLeaves_frame (j : Seat) (s : State) : VoiceFrame s (jackLeaves j s) :=
  ((((leaveSlot_frame _ _).trans (closeOutput_frame _ _)).trans (retrySpeaker_frame _)).trans
    (completeIfDone_frame _)).trans (serve_frame _)

theorem closeAll_frame (s : State) : VoiceFrame s (closeAll s) :=
  ((((closeOutput_frame _ _).trans (closeOutput_frame _ _)).trans (closeOutput_frame _ _)).trans
    (closeOutput_frame _ _)).trans (closeOutput_frame _ _)

theorem formTargets_frame (s : State) (w : isAwake s = true) : VoiceFrame s (formTargets s) :=
  ⟨rfl, rfl, rfl, rfl, rfl, rfl, rfl, rfl, rfl, rfl, rfl, rfl, rfl,
    fun c => by
      cases c <;> (dsimp only [formTargets, Chans.imap, Chans.get]; split) <;>
        first | exact ⟨rfl, rfl, rfl⟩ | exact Channel.fadeTo_keeps _ _ _, rfl,
    .lit w (fun c => by
      simp only [formTargets, Chans.get_imap]
      split
      · rfl
      · exact Channel.fadeTo_target _ _ _) rfl rfl rfl⟩

theorem parkFade_frame (s : State) : VoiceFrame s (parkFade s) :=
  ⟨rfl, rfl, rfl, rfl, rfl, rfl, rfl, rfl, rfl, rfl, rfl, rfl, rfl,
    fun c => by cases c <;> exact Channel.fadeTo_keeps _ 0 Config.parkFadeMillis, rfl, {
      target := fun c => .inr (.inl (by
        simp only [parkFade, Chans.get_imap]
        exact Channel.fadeTo_target _ 0 _))
      slot := fun _ => .inl rfl, va := fun _ => .inl rfl, out := fun _ => .inl rfl
      runs := fun _ => .refl _, scan := id }⟩

theorem settleUp_frame (s : State) (w : isAwake s = true) : VoiceFrame s (settleUp s) :=
  ((placeSpeaker_frame _).trans (formTargets_frame _ (by
    unfold isAwake at *
    rw [(placeSpeaker_frame s).stc]
    exact w))).trans (serve_frame _)

theorem chimeIfDue_frame (s : State) : VoiceFrame s (chimeIfDue s) := by
  unfold chimeIfDue
  split
  · split
    · exact (startChime_frame _).trans (relightOverlay_frame _)
    · exact .refl s
  · exact .refl s

theorem reseek_frame (i : SlotId) (s : State) : VoiceFrame s (reseek i s) := by
  unfold reseek
  split
  · exact seekSlot_frame _ _
  · exact .refl s

end Sys2Proof.Machine
end

