-- ==== Sys2Proof/Laws/Queue.lean ====
section
/-! SUPPORT. What each operation of the Transmit Queue can do, said once: `QueueKeeps`. -/

set_option Elab.async false

namespace Sys2Proof.Machine

/-- `r` keeps what R36 and R40 say of `q`: its length, one waiting record of a kind, one in flight, orders rising
and below the next one
its drop count does not fall (R51)
nothing in flight stays so
and with the line shut
an empty queue stays empty. -/

structure QueueKeeps (open_ : Bool) (q r : TxQueue) : Prop where
  size : q.records.length ≤ 4 → r.records.length ≤ 4
  all : q.records.length ≤ 4 → (∀ k,
        q.records.countP (fun x => x.waits k) ≤ 1) → q.records.countP (fun x => x.inFlight) ≤ 1 → q.records.Pairwise (fun x y => x.order < y.order) → (∀ x ∈ q.records, x.order < q.nextOrder) →
    (∀ k, r.records.countP (fun x => x.waits k) ≤ 1) ∧ r.records.countP (fun x => x.inFlight) ≤ 1 ∧ r.records.Pairwise (fun x y => x.order < y.order) ∧ (∀ x ∈ r.records, x.order < r.nextOrder)
  drops : q.drops ≤ 255 → q.drops ≤ r.drops ∧ r.drops ≤ 255
  rel : (∀ x ∈ q.records, x.inFlight = false) → ∀ x ∈ r.records, x.inFlight = false
  shut : open_ = false → q.records = [] → r.records = []

theorem QueueKeeps.refl (o q) : QueueKeeps o q q := ⟨id, fun _ a b c d => ⟨a, b, c, d⟩, fun h => ⟨le_refl _,
    h⟩, id, fun _ => id⟩

theorem QueueKeeps.trans {o p q r} (h : QueueKeeps o p q) (k : QueueKeeps o q r) : QueueKeeps o p r :=
  ⟨fun x => k.size (h.size x),
        fun s a b c d => by obtain ⟨a', b', c', d'⟩ := h.all s a b c d; exact k.all (h.size s) a' b' c' d',
   fun x => ⟨(h.drops x).1.trans (k.drops (h.drops x).2).1,
         (k.drops (h.drops x).2).2⟩, fun x => k.rel (h.rel x), fun a b => k.shut a (h.shut a b)⟩

theorem QueueKeeps.filter (o q) (p : Record → Bool) : QueueKeeps o q
    { q with records := q.records.filter p } := by
  refine ⟨fun x => (List.length_filter_le _ _).trans x, fun _ a b c d => ⟨fun k => ?_, ?_, ?_, ?_⟩,
        fun h => ⟨le_refl _, h⟩, fun h x hx => h x (List.mem_filter.mp hx).1, fun _ h => by show q.records.filter p = []; rw [h]; rfl⟩
  · exact (List.Sublist.countP_le List.filter_sublist).trans (a k)
  · exact (List.Sublist.countP_le List.filter_sublist).trans b
  · exact c.filter _
  · exact fun x hx => d x (List.mem_filter.mp hx).1

theorem QueueKeeps.map (o q) (f : Record → Record) (hf : ∀ x,
    (f x).kind = x.kind ∧ (f x).inFlight = x.inFlight ∧ (f x).order = x.order) : QueueKeeps o q { q with records := q.records.map f } := by
  refine ⟨fun x => by simpa using x, fun _ a b c d => ⟨fun k => ?_, ?_, ?_, ?_⟩, fun h => ⟨le_refl _, h⟩,
        fun h x hx => ?_, fun _ h => by show q.records.map f = []; rw [h]; rfl⟩
  · rw [List.countP_map]
    refine le_trans (le_of_eq ?_) (a k)
    congr 1
    funext x
    simp [Record.waits, hf]
  · rw [List.countP_map]
    refine le_trans (le_of_eq ?_) b
    congr 1
    funext x
    simp [hf]
  · rw [List.pairwise_map]
    exact c.imp (fun {x y} h => by rw [(hf x).2.2, (hf y).2.2]; exact h)
  · intro x hx
    obtain ⟨y, hy, rfl⟩ := List.mem_map.mp hx
    rw [(hf y).2.2]
    exact d y hy
  · obtain ⟨y, hy, rfl⟩ := List.mem_map.mp hx
    rw [(hf y).2.1]
    exact h y hy

theorem QueueKeeps.drop (o q n) : QueueKeeps o q (q.drop n) := ⟨id, fun _ a b c d => ⟨a, b, c, d⟩,
    fun h => by unfold TxQueue.drop bump; dsimp only; omega, id, fun _ => id⟩

theorem QueueKeeps.place (q : TxQueue) (k body) (hl : q.records.length ≤ 3) (hn : ∀ x ∈ q.records,
    x.waits k = false) : QueueKeeps true q (q.place k body) := by
  refine ⟨fun x => by simp [TxQueue.place]; omega, fun _ a b c d => ⟨fun k' => ?_, ?_, ?_, ?_⟩,
        fun h => ⟨le_refl _, h⟩, fun h x hx => ?_, fun h => by cases h⟩
  · show List.countP _ (q.records ++ [_]) ≤ 1
    rw [List.countP_append]
    by_cases e : k' = k
    · subst e
      have h0 : q.records.countP (fun x => x.waits k') = 0 := List.countP_eq_zero.mpr (fun x hx => by simp [hn x hx])
      rw [h0]
      exact (Nat.add_le_add_left List.countP_le_length 0).trans (by simp)
    · rw [show List.countP (fun x => x.waits k') [Record.placed k body q.nextOrder] = 0 by rw [List.countP_eq_zero]; intro x hx; simp at hx; subst hx; simp [Record.waits, Record.placed]; intro h; exact absurd h.symm e]
      exact a k'
  · show List.countP _ (q.records ++ [_]) ≤ 1
    rw [List.countP_append]
    simpa [Record.placed] using b
  · show List.Pairwise _ (q.records ++ [_])
    rw [List.pairwise_append]
    refine ⟨c, by simp, fun x hx y hy => ?_⟩
    simp at hy
    subst hy
    exact d x hx
  · intro x hx
    change x ∈ q.records ++ [_] at hx
    rcases List.mem_append.mp hx with h | h
    · have := d x h
      simp [TxQueue.place]
      omega
    · simp at h
      subst h
      simp [TxQueue.place, Record.placed]
  · change x ∈ q.records ++ [_] at hx
    rcases List.mem_append.mp hx with h' | h'
    · exact h x h'
    · simp at h'
      subst h'
      rfl

theorem foldl_max_mem (l : List Nat) : ∀ a, (l.foldl max a = a ∨ l.foldl max a ∈ l) ∧
    a ≤ l.foldl max a := by
  induction l with
  | nil => intro a; simp
  | cons b l ih =>
    intro a
    simp only [List.foldl]
    obtain ⟨h1, h2⟩ := ih (max a b)
    refine ⟨?_, by omega⟩
    rcases h1 with h | h
    · rw [h]
      rcases max_choice a b with e | e
      · left
        exact e
      · right
        rw [e]
        simp
    · right
      exact List.mem_cons_of_mem _ h

theorem leastUrgent_mem (l : List Nat) : ∀ (acc : Option Nat) (w : Nat), l.foldl
    (fun acc c => some (max c (acc.getD 0))) acc = some w → w ∈ l ∨ acc = some w := by
  induction l with
  | nil => intro acc w h; right; exact h
  | cons b l ih =>
    intro acc w h
    simp only [List.foldl] at h
    rcases ih _ _ h with h | h
    · left
      exact List.mem_cons_of_mem _ h
    · injection h with h
      rcases max_choice b (acc.getD 0) with e | e
      · left
        rw [← h, e]
        simp
      · rw [e] at h
        cases acc with
        | none => simp at h; simp at e; left; subst h; subst e; simp
        | some x => right; simpa using h

theorem TxQueue.weigh_keeps (q : TxQueue) (k body) (hn : ∀ x ∈ q.records, x.waits k = false) :
    QueueKeeps true q (q.weigh k body) := by
  unfold TxQueue.weigh
  split
  · rename_i worst hw
    split
    · dsimp only
      by_cases hl : q.records.length ≤ 4
      swap
      · -- length > 4: size premise false
        refine ⟨fun x => absurd x hl, fun x => absurd x hl, (QueueKeeps.drop true q 1).drops, fun h => ?_,
              fun h => by cases h⟩
        intro x hx
        change x ∈ (q.records.filter _) ++ [_] at hx
        rcases List.mem_append.mp hx with h' | h'
        · exact h x (List.mem_filter.mp h').1
        · simp at h'
          subst h'
          rfl
      refine QueueKeeps.trans (QueueKeeps.trans (QueueKeeps.filter true q _) (QueueKeeps.place _ k body ?_ ?_)) (QueueKeeps.drop true _ 1)
      · show (q.records.filter _).length ≤ 3
        have hm : ∃ r ∈ q.records, (r.inFlight || !(r.order == q.newestOf worst)) = false := by
          unfold TxQueue.leastUrgent at hw
          rcases leastUrgent_mem _ _ _ hw with h | h
          · obtain ⟨r, hr, hc⟩ := List.mem_map.mp h
            obtain ⟨h1, h2⟩ := List.mem_filter.mp hr
            set L := (q.records.filter fun r => !r.inFlight && r.kind.cls == worst).map fun r => r.order with hL
            have hrL : r.order ∈ L := List.mem_map.mpr ⟨r, List.mem_filter.mpr ⟨h1,
                  by simp [hc]; simpa using h2⟩, rfl⟩
            have hno : q.newestOf worst = L.foldl max 0 := rfl
            rcases (foldl_max_mem L 0).1 with e | e
            · -- newest = 0: all orders ≤ 0
              have hle : ∀ (l : List Nat) a, ∀ x ∈ l, x ≤ l.foldl max a := by
                intro l
                induction l with
                | nil => intro a x hx; cases hx
                | cons b l ih => intro a x hx; simp only [List.foldl]; rcases List.mem_cons.mp hx with rfl | hx
                                 · have := (foldl_max_mem l (max a x)).2
                                   omega
                                 · exact ih _ _ hx
              have := hle L 0 _ hrL
              refine ⟨r, h1, ?_⟩
              rw [hno, e]
              rw [e] at this
              simp at h2
              simp [h2]
              omega
            · rw [← hno] at e
              obtain ⟨r', hr', he⟩ := List.mem_map.mp e
              obtain ⟨g1, g2⟩ := List.mem_filter.mp hr'
              refine ⟨r', g1, ?_⟩
              simp at g2
              simp [g2.1, he]
          · cases h
        obtain ⟨r, hr, hp⟩ := hm
        have : (q.records.filter fun r => r.inFlight || !(r.order == q.newestOf worst)).length < q.records.length := by
          rw [List.length_filter_lt_length_iff_exists]
          exact ⟨r, hr, by rw [hp]; simp⟩
        omega
      · intro x hx
        exact hn x (List.mem_filter.mp hx).1
    · exact QueueKeeps.drop true q 1
  · exact QueueKeeps.drop true q 1

theorem TxQueue.enqueue_keeps (q : TxQueue) (k body) : QueueKeeps true q (q.enqueue k body) := by
  unfold TxQueue.enqueue
  split
  · apply QueueKeeps.map
    intro x
    split <;> exact ⟨rfl, rfl, rfl⟩
  · rename_i h
    have hn : ∀ x ∈ q.records, x.waits k = false := by simpa using h
    split
    · exact QueueKeeps.place q k body (by omega) hn
    · exact TxQueue.weigh_keeps q k body hn

theorem TxQueue.withdraw_keeps (o) (q : TxQueue) (k) : QueueKeeps o q (q.withdraw k) := by
  refine QueueKeeps.trans (QueueKeeps.filter o q (fun r => !r.waits k)) (QueueKeeps.map o _ _ ?_)
  intro x
  split <;> exact ⟨rfl, rfl, rfl⟩

theorem TxQueue.leave_keeps (o) (q : TxQueue) (n) : QueueKeeps o q (q.leave n) := QueueKeeps.filter o q _

theorem TxQueue.countDown_keeps (o) (q : TxQueue) : QueueKeeps o q q.countDown := QueueKeeps.map o q _
    (fun _ => ⟨rfl, rfl, rfl⟩)

theorem TxQueue.enterQuiet_keeps (o) (q : TxQueue) : QueueKeeps o q q.enterQuiet := QueueKeeps.trans
    (QueueKeeps.filter o q _) (QueueKeeps.drop o _ _)

theorem order_injective {l : List Record} (h : l.Pairwise (fun x y => x.order < y.order)) {x y : Record}
    (hx : x ∈ l) (hy : y ∈ l) (e : x.order = y.order) : x = y := by
  induction l with
  | nil => cases hx
  | cons a l ih =>
    rw [List.pairwise_cons] at h
    rcases List.mem_cons.mp hx with hx' | hx' <;> rcases List.mem_cons.mp hy with hy' | hy'
    · rw [hx', hy']
    · have := h.1 y hy'
      rw [hx'] at e
      omega
    · have := h.1 x hx'
      rw [hy'] at e
      omega
    · exact ih h.2 hx' hy'

/-- The record in flight stays, and a newer waiting one of its kind leaves (R43, R44). -/
theorem TxQueue.keep_map (o) (q : TxQueue) (r : Record) (a n : Nat) (body : List Byte)
    (f : Record → Record) (hfdef : f = fun o => if o.order == r.order then { o with body := body, attempts := a, backoff := n, inFlight := false } else o) (hr : r ∈ q.records) (hf : r.inFlight = true) : QueueKeeps o q { q with records := (q.records.filter fun o => !o.waits r.kind).map f } := by
  have fo : ∀ x, (f x).order = x.order ∧ (f x).kind = x.kind := by intro x; simp only [hfdef]; split <;> exact ⟨rfl, rfl⟩
  refine ⟨fun x => by rw [List.length_map]; exact (List.length_filter_le _ _).trans x,
        fun _ w fl c d => ⟨fun k => ?_, ?_, ?_, ?_⟩, fun h => ⟨le_refl _,
              h⟩, fun h x hx => ?_, fun _ h => by rw [h] at hr; cases hr⟩
  · rw [List.countP_map]
    by_cases e : k = r.kind
    · subst e
      -- those that wait of kind: only order = r.order
      refine le_trans (List.countP_mono_left (q := fun x => x.order == r.order) ?_) ?_
      · intro x hx hw
        by_contra hne
        have hxf := (List.mem_filter.mp hx).2
        simp only [Function.comp, hfdef] at hw
        rw [if_neg hne] at hw
        rw [hw] at hxf
        simp at hxf
      · refine le_trans (List.Sublist.countP_le List.filter_sublist) ?_
        by_contra hgt
        have : ∀ (l : List Record), l.Pairwise (fun x y => x.order < y.order) → l.countP (fun x => x.order == r.order) ≤ 1 := by
          intro l hl
          induction l with
          | nil => simp
          | cons b l ih =>
            rw [List.pairwise_cons] at hl
            rw [List.countP_cons]
            split
            · rename_i hb'
              simp at hb'
              rw [List.countP_eq_zero.mpr (fun x hx => by have := hl.1 x hx; simp; omega)]
            · exact ih hl.2
        exact hgt (this _ c)
    · refine le_trans (List.countP_mono_left (q := fun x => x.waits k) ?_) ((List.Sublist.countP_le List.filter_sublist).trans (w k))
      intro x hx hw
      have hxm := (List.mem_filter.mp hx).1
      simp only [Function.comp, hfdef] at hw
      by_cases ho : x.order = r.order
      · have := order_injective c hxm hr ho
        subst this
        simp [Record.waits] at hw
        exact absurd hw.symm e
      · rw [if_neg (by simpa using ho)] at hw
        exact hw
  · rw [List.countP_map]
    refine le_trans (List.countP_mono_left (q := fun x => x.inFlight) ?_) ((List.Sublist.countP_le List.filter_sublist).trans fl)
    intro x hx hw
    simp only [Function.comp, hfdef] at hw
    split at hw
    · simp at hw
    · exact hw
  · rw [List.pairwise_map]
    exact (c.filter _).imp (fun {x y} h => by rw [(fo x).1, (fo y).1]; exact h)
  · intro x hx
    obtain ⟨y, hy, rfl⟩ := List.mem_map.mp hx
    rw [(fo y).1]
    exact d y (List.mem_filter.mp hy).1
  · exact absurd (h r hr) (by rw [hf]; simp)

theorem TxQueue.keep_keeps (o) (q : TxQueue) (r : Record) (a n : Nat) (hr : r ∈ q.records)
    (hf : r.inFlight = true) : QueueKeeps o q (q.keep r a n) := by
  unfold TxQueue.keep
  exact TxQueue.keep_map o q r a n _ _ rfl hr hf

theorem TxQueue.flying_mem {q : TxQueue} {r} (h : q.flying = some r) : r ∈ q.records ∧
    r.inFlight = true := by
  unfold TxQueue.flying at h
  exact ⟨List.mem_of_find?_eq_some h, by simpa using List.find?_some h⟩

end Sys2Proof.Machine
end

