-- ==== Sys2Proof/Laws/PlaybackFrame.lean ====
section
/-! SUPPORT. What playback and the reader can change, more closely than `VoiceFrame`: they leave the Level
Chain, the speaker's record, and every slot's language and listeners as they stand. -/

set_option Elab.async false

namespace Sys2Proof.Machine

/-- `t` differs from `s` within `VoiceFrame`, and not in the levels, the speaker, or who listens to what. -/
structure PlaybackFrame (s t : State) : Prop where
  frame : VoiceFrame s t
  lvl : t.lvl = s.lvl
  speaker : t.vtab.speaker = s.vtab.speaker
  language : ∀ i, (t.vtab.slots.get i).language = (s.vtab.slots.get i).language
  listeners : ∀ i, (t.vtab.slots.get i).listeners = (s.vtab.slots.get i).listeners

theorem PlaybackFrame.refl (s : State) : PlaybackFrame s s :=
  ⟨.refl s, rfl, rfl, fun _ => rfl, fun _ => rfl⟩

theorem PlaybackFrame.trans {s t u : State} (h : PlaybackFrame s t) (k : PlaybackFrame t u) :
    PlaybackFrame s u where
  frame := h.frame.trans k.frame
  lvl := k.lvl.trans h.lvl
  speaker := k.speaker.trans h.speaker
  language := fun i => (k.language i).trans (h.language i)
  listeners := fun i => (k.listeners i).trans (h.listeners i)

/-- A change outside the voice table and the levels. -/
theorem VoiceFrame.plays {s t : State} (h : VoiceFrame s t) (v : t.vtab = s.vtab) (l : t.lvl = s.lvl) :
    PlaybackFrame s t := ⟨h, l, by rw [v], fun _ => by rw [v], fun _ => by rw [v]⟩

theorem putSlot_plays (i : SlotId) (x : Slot) (s : State)
    (hr : Rises (s.vtab.slots.get i).play.underruns x.play.underruns)
    (hn : x.language = (s.vtab.slots.get i).language) (hl : x.listeners = (s.vtab.slots.get i).listeners) :
    PlaybackFrame s (putSlot i x s) := by
  refine ⟨putSlot_frame i x s hr, rfl, rfl, fun k => ?_, fun k => ?_⟩ <;> cases i <;> cases k <;>
    first | rfl | exact hn | exact hl

theorem setPlay_plays (v : VoiceId) (p : Play) (s : State) (h : Rises (playOf s v).underruns p.underruns) :
    PlaybackFrame s (setPlay v p s) := by
  cases v with
  | slot i => exact putSlot_plays i _ s h rfl rfl
  | va => exact ⟨setPlay_frame _ _ _ h, rfl, rfl, fun _ => rfl, fun _ => rfl⟩

theorem setContent_plays (i : SlotId) (c : SlotContent) (s : State) :
    PlaybackFrame s (setContent i c s) := putSlot_plays i _ s (.refl _) rfl rfl

theorem setPlace_plays (v : VoiceId) (r : Option Request) (s : State) :
    PlaybackFrame s (setPlace v r s) := (setPlace_frame v r s).plays (by cases v <;> rfl) (by cases v <;> rfl)

theorem renew_plays (v : VoiceId) (s : State) : PlaybackFrame s (renew v s) :=
  (renew_frame v s).plays (by cases v <;> rfl) (by cases v <;> rfl)

theorem issue_plays (v : VoiceId) (b : ReqBody) (s : State) : PlaybackFrame s (issue v b s) :=
  setPlace_plays _ _ _

theorem begin_plays (t : Transaction) (s : State) (h : t ≠ .header) (k : ∀ n, t ≠ .chunk n) :
    PlaybackFrame s (begin t s) :=
  (begin_frame t s h k).plays rfl rfl

theorem vaStart_plays (p : VaPurpose) (c : VaContent) (a : DeckTime) (s : State) :
    PlaybackFrame s (vaStart p c a s) :=
  ⟨vaStart_frame p c a s, rfl, rfl, fun _ => rfl, fun _ => rfl⟩

theorem vaStop_plays (s : State) : PlaybackFrame s (vaStop s) :=
  ⟨vaStop_frame s, rfl, rfl, fun _ => rfl, fun _ => rfl⟩

theorem relight_plays (f : Nat) (s : State) : PlaybackFrame s (relight f s) := by
  refine (relight_frame f s).plays ?_ ?_ <;> (unfold relight; split <;> rfl)

theorem relightOverlay_plays (s : State) : PlaybackFrame s (relightOverlay s) := relight_plays _ s

theorem setNaming_plays (n : Slots Bool) (s : State) :
    PlaybackFrame s { s with ann.naming := n } :=
  ⟨⟨rfl, rfl, rfl, rfl, rfl, rfl, rfl, rfl, rfl, rfl, rfl, rfl, rfl,
    fun _ => ⟨rfl, rfl, rfl⟩, rfl, .same (fun _ => rfl) rfl rfl (fun _ => rfl) rfl⟩, rfl, rfl, fun _ => rfl, fun _ => rfl⟩

theorem setSpeakerName_plays (n : SpeakerName) (s : State) :
    PlaybackFrame s { s with ann.speakerName := n } :=
  ⟨⟨rfl, rfl, rfl, rfl, rfl, rfl, rfl, rfl, rfl, rfl, rfl, rfl, rfl,
    fun _ => ⟨rfl, rfl, rfl⟩, rfl, .same (fun _ => rfl) rfl rfl (fun _ => rfl) rfl⟩, rfl, rfl, fun _ => rfl, fun _ => rfl⟩

theorem seekSlot_plays (i : SlotId) (s : State) : PlaybackFrame s (seekSlot i s) := by
  refine (renew_plays (.slot i) s).trans ?_
  unfold seekSlot
  dsimp only
  split
  · exact (setPlay_plays _ _ _ (by exact .refl _)).trans (issue_plays _ _ _)
  · split
    · exact (setPlay_plays _ _ _ (by exact .refl _)).trans (issue_plays _ _ _)
    · exact setPlay_plays _ _ _ (by exact .refl _)

theorem giveName_plays (n : Nat) (i : SlotId) (s : State) : PlaybackFrame s (giveName n i s) := by
  unfold giveName
  split
  · exact ((setContent_plays _ _ _).trans (setNaming_plays _ _)).trans (seekSlot_plays _ _)
  · exact .refl s

theorem returnSlot_plays (i : SlotId) (s : State) : PlaybackFrame s (returnSlot i s) := by
  unfold returnSlot
  split
  · dsimp only
    split
    · exact ((setNaming_plays _ _).trans (setContent_plays _ _ _)).trans (seekSlot_plays _ _)
    · exact setNaming_plays _ _
  · exact .refl s

theorem forSlots_plays {f : SlotId → State → State} (h : ∀ i s, PlaybackFrame s (f i s)) (s : State) :
    PlaybackFrame s (forSlots f s) :=
  (((h .v0 s).trans (h .v1 _)).trans (h .v2 _)).trans (h .v3 _)

theorem nameOnSpeaker_plays (n : Nat) (s : State) : PlaybackFrame s (nameOnSpeaker n s) :=
  (vaStart_plays _ _ _ _).trans (setSpeakerName_plays _ _)

theorem issueBlock_plays (v : VoiceId) (k : Nat) (s : State) : PlaybackFrame s (issueBlock v k s) := by
  unfold issueBlock
  split
  · exact issue_plays _ _ _
  · exact .refl s

theorem settlePlay_plays (v : VoiceId) (o : PlayOut) (s : State) (h : o.rises (playOf s v)) :
    PlaybackFrame s (settlePlay v o s) := by
  unfold settlePlay
  dsimp only
  split
  · exact (setPlay_plays _ _ _ h).trans (issueBlock_plays _ _ _)
  · exact setPlay_plays _ _ _ h

theorem topUpVoice_plays (v : VoiceId) (s : State) : PlaybackFrame s (topUpVoice v s) :=
  settlePlay_plays _ _ _ (Play.topUp_rises _ _)

theorem startChime_plays (s : State) : PlaybackFrame s (startChime s) := by
  unfold startChime
  split
  · refine .trans ?_ (vaStart_plays _ _ _ _)
    exact ⟨⟨rfl, rfl, rfl, rfl, rfl, rfl, rfl, rfl, rfl, rfl, rfl, rfl, rfl, fun _ => ⟨rfl, rfl, rfl⟩, rfl, .same (fun _ => rfl) rfl rfl (fun _ => rfl) rfl⟩, rfl, rfl, fun _ => rfl, fun _ => rfl⟩
  · exact .refl s

theorem makeCurrent_plays (n : Nat) (S : Millis) (s : State) : PlaybackFrame s (makeCurrent n S s) := by
  refine .trans (t := { s with
    ann.current := some { stop := n, start := S, chimeLen := none, phase := .waiting },
    ann.naming := { v0 := false, v1 := false, v2 := false, v3 := false },
    ann.speakerName := .notNeeded })
    ⟨⟨rfl, rfl, rfl, rfl, rfl, rfl, rfl, rfl, rfl, rfl, rfl, rfl, rfl,
    fun _ => ⟨rfl, rfl, rfl⟩, rfl, .same (fun _ => rfl) rfl rfl (fun _ => rfl) rfl⟩, rfl, rfl, fun _ => rfl, fun _ => rfl⟩ ?_
  unfold makeCurrent
  dsimp only
  split
  · exact startChime_plays _
  · exact .refl _

theorem abandon_plays (s : State) : PlaybackFrame s (abandon s) := by
  refine .trans (t := { s with ann.nameCap := none, ann.current := none })
    ⟨⟨rfl, rfl, rfl, rfl, rfl, rfl, rfl, rfl, rfl, rfl, rfl, rfl, rfl,
    fun _ => ⟨rfl, rfl, rfl⟩, rfl, .same (fun _ => rfl) rfl rfl (fun _ => rfl) rfl⟩, rfl, rfl, fun _ => rfl, fun _ => rfl⟩ ?_
  unfold abandon
  dsimp only
  split
  · exact (vaStop_plays _).trans (forSlots_plays returnSlot_plays _)
  · exact forSlots_plays returnSlot_plays _

theorem placeAnnouncement_plays (n : Nat) (S : Millis) (s : State) :
    PlaybackFrame s (placeAnnouncement n S s) := by
  unfold placeAnnouncement
  split
  · exact ⟨⟨rfl, rfl, rfl, rfl, rfl, rfl, rfl, rfl, rfl, rfl, rfl, rfl, rfl, fun _ => ⟨rfl, rfl, rfl⟩, rfl, .same (fun _ => rfl) rfl rfl (fun _ => rfl) rfl⟩, rfl, rfl, fun _ => rfl, fun _ => rfl⟩
  · dsimp only
    split
    · exact ((abandon_plays _).trans (makeCurrent_plays _ _ _)).trans (relightOverlay_plays _)
    · exact (makeCurrent_plays _ _ _).trans (relightOverlay_plays _)

theorem complete_plays (s : State) : PlaybackFrame s (complete s) := by
  unfold complete
  split
  · rename_i a h
    refine .trans (t := { s with
      ann.lastCompleted := some a.start, ann.nameCap := none, ann.current := none })
      ⟨⟨rfl, rfl, rfl, rfl, rfl, rfl, rfl, rfl, rfl, rfl, rfl, rfl, rfl,
    fun _ => ⟨rfl, rfl, rfl⟩, rfl, .same (fun _ => rfl) rfl rfl (fun _ => rfl) rfl⟩, rfl, rfl, fun _ => rfl, fun _ => rfl⟩ ?_
    dsimp only
    split
    · refine .trans ?_ (relightOverlay_plays _)
      refine .trans ?_ (makeCurrent_plays _ _ _)
      exact ⟨⟨rfl, rfl, rfl, rfl, rfl, rfl, rfl, rfl, rfl, rfl, rfl, rfl, rfl, fun _ => ⟨rfl, rfl, rfl⟩, rfl, .same (fun _ => rfl) rfl rfl (fun _ => rfl) rfl⟩, rfl, rfl, fun _ => rfl, fun _ => rfl⟩
    · exact relightOverlay_plays _
  · exact .refl s

theorem completeIfDone_plays (s : State) : PlaybackFrame s (completeIfDone s) := by
  unfold completeIfDone
  split
  · exact complete_plays s
  · exact .refl s

theorem startName_plays (s : State) : PlaybackFrame s (startName s) := by
  unfold startName
  split
  · rename_i a h
    refine (vaStop_plays s).trans ?_
    refine .trans (t := { vaStop s with
      ann.current := some { a with phase := .name }, ann.nameCap := some Config.nameCapMicros })
      ⟨⟨rfl, rfl, rfl, rfl, rfl, rfl, rfl, rfl, rfl, rfl, rfl, rfl, rfl,
    fun _ => ⟨rfl, rfl, rfl⟩, rfl, .same (fun _ => rfl) rfl rfl (fun _ => rfl) rfl⟩, rfl, rfl, fun _ => rfl, fun _ => rfl⟩ ?_
    refine (forSlots_plays (giveName_plays a.stop) _).trans ?_
    dsimp only
    split
    · exact (setSpeakerName_plays _ _).trans (completeIfDone_plays _)
    · exact (nameOnSpeaker_plays _ _).trans (completeIfDone_plays _)
  · exact .refl s

theorem vaDone_plays (s : State) : PlaybackFrame s (vaDone s) := by
  unfold vaDone
  split
  · exact .refl s
  · exact vaStop_plays s
  · split
    · exact startName_plays s
    · exact .refl s
  · exact ((vaStop_plays s).trans (setSpeakerName_plays _ _)).trans (completeIfDone_plays _)

theorem slotDone_plays (i : SlotId) (s : State) : PlaybackFrame s (slotDone i s) := by
  unfold slotDone
  split
  · exact (returnSlot_plays _ _).trans (completeIfDone_plays _)
  · exact .refl s

theorem voiceDone_plays (v : VoiceId) (s : State) : PlaybackFrame s (voiceDone v s) := by
  unfold voiceDone
  split
  · exact vaDone_plays s
  · split
    · exact slotDone_plays _ _
    · exact .refl s

theorem actOn_plays (v : VoiceId) (o : PlayOut) (s : State) (h : o.rises (playOf s v)) :
    PlaybackFrame s (actOn v o s) := by
  unfold actOn
  dsimp only
  split
  · exact ((settlePlay_plays _ _ _ h).trans (voiceDone_plays _ _)).trans (topUpVoice_plays _ _)
  · exact (settlePlay_plays _ _ _ h).trans (topUpVoice_plays _ _)

theorem learnChime_plays (v : VoiceId) (r : Option Clip) (s : State) : PlaybackFrame s (learnChime v r s) := by
  unfold learnChime
  split
  · split
    · exact ⟨⟨rfl, rfl, rfl, rfl, rfl, rfl, rfl, rfl, rfl, rfl, rfl, rfl, rfl, fun _ => ⟨rfl, rfl, rfl⟩, rfl, .same (fun _ => rfl) rfl rfl (fun _ => rfl) rfl⟩, rfl, rfl, fun _ => rfl, fun _ => rfl⟩
    · exact .refl s
  · exact .refl s

theorem deliverLookup_plays (v : VoiceId) (tag : Word16) (r : Option Clip) (s : State) :
    PlaybackFrame s (deliverLookup v tag r s) := by
  unfold deliverLookup
  split
  · exact (learnChime_plays _ _ _).trans (actOn_plays _ _ _ (Play.lookedUp_rises _ _ _))
  · exact .refl s

theorem deliverBlock_plays (v : VoiceId) (tag : Word16) (k : Nat) (xs : List Int) (s : State) :
    PlaybackFrame s (deliverBlock v tag k xs s) := by
  unfold deliverBlock
  split
  · exact actOn_plays _ _ _ (Play.blockCame_rises _ _ _ _)
  · exact .refl s

theorem lookupStands_plays (v : VoiceId) (r : Request) (n : SearchNext) (s : State) :
    PlaybackFrame s (lookupStands v r n s) := by
  unfold lookupStands
  split
  · exact setPlace_plays _ _ _
  · exact setPlace_plays _ _ _
  · exact (setPlace_plays _ _ _).trans (deliverLookup_plays _ _ _ _)

theorem takeUp_plays (v : VoiceId) (r : Request) (s : State) : PlaybackFrame s (takeUp v r s) := by
  unfold takeUp
  split
  · split
    · exact (setPlace_plays _ _ _).trans (begin_plays _ _ (by simp) (by simp))
    · exact lookupStands_plays _ _ _ _
  · split
    · exact (setPlace_plays _ _ _).trans (begin_plays _ _ (by simp) (by simp))
    · exact (setPlace_plays _ _ _).trans (deliverBlock_plays _ _ _ _ _)

theorem serveFor_plays (n : Nat) (s : State) : PlaybackFrame s (serveFor n s) := by
  induction n generalizing s with
  | zero => exact .refl s
  | succ n ih =>
    unfold serveFor
    split
    · exact .refl s
    · split
      · exact (takeUp_plays _ _ _).trans (ih _)
      · exact .refl s

/-- The reader's service changes nothing outside the voices. -/
theorem serve_plays (s : State) : PlaybackFrame s (serve s) := by
  unfold serve
  exact serveFor_plays _ s

theorem closePlace_plays (v : VoiceId) (s : State) : PlaybackFrame s (closePlace v s) := by
  unfold closePlace
  split
  · split
    · exact setPlace_plays _ _ _
    · exact .refl s
  · exact .refl s

theorem endClip_plays (v : VoiceId) (s : State) : PlaybackFrame s (endClip v s) := by
  unfold endClip
  split
  · exact actOn_plays _ _ _ (Rises.refl _)
  · exact .refl s

theorem crossBoundary_plays (v : VoiceId) (s : State) : PlaybackFrame s (crossBoundary v s) := by
  unfold crossBoundary
  split
  · exact actOn_plays _ _ _ (Play.boundary_rises _ _ _)
  · exact .refl s

/-- A fold of operations that stay within the frame stays within it. -/
theorem foldl_plays {α : Type} {f : State → α → State} (h : ∀ s a, PlaybackFrame s (f s a)) (l : List α)
    (s : State) : PlaybackFrame s (l.foldl f s) := by
  induction l generalizing s with
  | nil => exact .refl s
  | cons a l ih => exact (h s a).trans (ih _)

theorem settleVoices_plays (s : State) : PlaybackFrame s (settleVoices s) :=
  foldl_plays (fun s v => (endClip_plays v s).trans (crossBoundary_plays v _)) _ s

theorem cutNames_plays (s : State) : PlaybackFrame s (cutNames s) := by
  unfold cutNames
  dsimp only
  split
  · exact (((forSlots_plays returnSlot_plays _).trans (vaStop_plays _)).trans
      (setSpeakerName_plays _ _)).trans (complete_plays _)
  · exact (forSlots_plays returnSlot_plays _).trans (complete_plays _)

theorem chimeIfDue_plays (s : State) : PlaybackFrame s (chimeIfDue s) := by
  unfold chimeIfDue
  split
  · split
    · exact (startChime_plays _).trans (relightOverlay_plays _)
    · exact .refl s
  · exact .refl s

theorem reseek_plays (i : SlotId) (s : State) : PlaybackFrame s (reseek i s) := by
  unfold reseek
  split
  · exact seekSlot_plays _ _
  · exact .refl s

end Sys2Proof.Machine
end

