-- ==== Sys2Proof/Laws/Shared.lean ====
section
/-! SUPPORT. What the operations that several commands share do, each said once. -/

set_option Elab.async false

namespace Sys2Proof.Machine

theorem Slots.set_set {α : Type} (x : Slots α) (i : SlotId) (a b : α) :
    (x.set i a).set i b = x.set i b := by
  cases i <;> rfl

/-- The reader that rests takes nothing up (R69, R79). -/
theorem serve_of_rest {s : State} (h : ReaderRests s) : serve s = s := by
  rcases h with h | h
  · exact serve_of_hand h
  · unfold serve
    show serveFor (99+1) s = s
    have h0 := h (.slot .v0)
    have h1 := h (.slot .v1)
    have h2 := h (.slot .v2)
    have h3 := h (.slot .v3)
    have h4 := h .va
    simp only [placeOf] at *
    simp [serveFor, choose, waitingAt, h0, h1, h2, h3, h4, earlier]

/-- Whether the reader rests is the Clip Store Reader's record alone. -/
theorem ReaderRests.of_csr {s t : State} (h : t.csr = s.csr) (k : ReaderRests s) : ReaderRests t := by
  unfold ReaderRests placeOf at *
  rw [h]
  exact k

/-- A reception moves the capture and its own record alone (R5, R60). -/
theorem heard_eq (h : Heard) (s : State) : heard h s =
    { s with line.rx := (heard h s).line.rx, dclk.capture := (heard h s).dclk.capture } := by
  unfold heard
  split <;> rfl

/-- A reception that the own BREAK found open moves the receive-error count and the capture before the attempt alone
(R12, R13, R14). -/
theorem endUnderOwn_eq (age : Option Nat) (s : State) : endUnderOwn age s =
    { s with line.rxErrors := min 255 (s.line.rxErrors + 1), line.priorCapture := (endUnderOwn age s).line.priorCapture } := by
  cases age <;> rfl

/-- A station that sends a frame of its own takes no other frame: it counts the reception that its BREAK found open,
or does nothing (R12). -/
theorem notHeard_driving (f : RxFrame) (s : State) (hd : s.line.driving ≠ []) : notHeard f s =
    if openBeforeOwn f.heard.counts s && verdictOn f == .error then
      endUnderOwn (f.heard.edge.map fun _ => f.heard.age) s
    else s := by
  have : s.line.driving.isEmpty = false := by cases h : s.line.driving <;> simp_all
  simp [notHeard, sleepHears, follows, this]

/-- A good frame whose fields pass reaches its owner (R16). -/
theorem receiveFrame_good (k : Nat) (f : RxFrame) (o : State → State) (s : State) (hr : hears f s = true)
    (hj : judgeFrame k f = .good) :
   receiveFrame k f true o s = o (heardFrom f s) := by
  simp only [receiveFrame, hr, if_true, hj]
  rfl

/-- A good frame whose fields fail is counted (R26 to R29). -/
theorem receiveFrame_refused (k : Nat) (f : RxFrame) (o : State → State) (s : State)
    (hr : hears f s = true) (hj : judgeFrame k f = .good) :
   receiveFrame k f false o s = countRxError (heardFrom f s) := by
  simp only [receiveFrame, hr, if_true, hj]
  rfl

/-- A frame in error is counted and reaches no owner (R12). -/
theorem receiveFrame_error (k : Nat) (f : RxFrame) (b : Bool) (o : State → State) (s : State)
    (hr : hears f s = true) (hj : judgeFrame k f = .error) :
   receiveFrame k f b o s = { heard f.heard s with line.rxErrors := min 255 (s.line.rxErrors + 1) } := by
  simp only [receiveFrame, hr, if_true, hj]
  rw [heard_eq f.heard s]
  rfl

/-- What hearing a frame changes: the capture, the reception record and the clash flag (R5, R23, R60). -/
theorem heardFrom_eq (f : RxFrame) (s : State) : heardFrom f s =
    { s with line.clash := (heardFrom f s).line.clash, line.rx := (heardFrom f s).line.rx, dclk.capture := (heardFrom f s).dclk.capture } := by
  unfold heardFrom noteClash
  rw [heard_eq f.heard s]
  split <;> rfl

/-- What hearing a frame leaves. -/
theorem heardFrom_same (f : RxFrame) (s : State) : let u := heardFrom f s
   u.csr = s.csr ∧ u.prg = s.prg ∧ u.ann = s.ann ∧ u.jck = s.jck ∧ u.lvl = s.lvl ∧ u.lmp = s.lmp ∧ u.stc = s.stc ∧ u.vtab = s.vtab ∧ u.txq = s.txq ∧ u.dclk.now = s.dclk.now
   ∧ u.dclk.timer = s.dclk.timer ∧ u.line.rxErrors = s.line.rxErrors ∧ u.line.state = s.line.state ∧ u.dclk.running = s.dclk.running ∧ u.raised = s.raised ∧ u.pending = s.pending ∧ u.pins = s.pins ∧ u.ref = s.ref := by
  intro u
  have := heardFrom_eq f s
  change u = _ at this
  rw [this]
  exact ⟨rfl,rfl,rfl,rfl,rfl,rfl,rfl,rfl,rfl,rfl,rfl,rfl,rfl,rfl,rfl,rfl,rfl,rfl⟩

/-- The reader rests on when a frame is heard. -/
theorem ReaderRests.heardFrom {f : RxFrame} {s : State} (h : ReaderRests s) : ReaderRests
    (heardFrom f s) := by
  rw [heardFrom_eq]
  exact ReaderRests.of_csr rfl h

/-- Enqueueing changes the queue alone, and not the generator (R37). -/
theorem enqueue_eq (k b) (s : State) : enqueue k b s = { s with txq := (enqueue k b s).txq } ∧
    (enqueue k b s).txq.lfsr = s.txq.lfsr := by
      unfold enqueue
      split
      · unfold TxQueue.enqueue
        split
        · exact ⟨rfl, rfl⟩
        · split
          · exact ⟨rfl, rfl⟩
          · unfold TxQueue.weigh
            split
            · split <;> exact ⟨rfl, rfl⟩
            · exact ⟨rfl, rfl⟩
      · exact ⟨rfl, rfl⟩

/-- What enqueueing makes of the queue (R37, R47). -/
theorem enqueue_txq (k b) (s : State) :
    (enqueue k b s).txq = if lineAccepts s.line k then s.txq.enqueue k b else s.txq := by
  unfold enqueue
  split <;> rfl

/-- With no wish the request is not evaluated (R168). -/
theorem evaluateRequest_of_none (s : State) (h : s.lmp.wish = .none) : evaluateRequest s = s := by
  unfold evaluateRequest
  rw [h]
  rfl

/-- A change of the claims table changes the targets and the queue at most (R166, R168). -/
theorem setClaims_law (c : Prios (Option Claim)) (b : Bool) (s : State) : let t := setClaims c b s
   t.pending = s.pending ∧ t.raised = s.raised ∧ t.ref = s.ref ∧ t.pins = s.pins ∧ t.stc = s.stc ∧ t.line = s.line ∧ t.dclk = s.dclk ∧ t.csr = s.csr ∧ t.prg = s.prg ∧ t.vtab = s.vtab
   ∧ t.ann = s.ann ∧ t.jck = s.jck ∧ t.lvl = s.lvl ∧ t.lmp.claims = c ∧ (b = false ∨ s.lmp.wish = .none → t.txq = s.txq) ∧ (sceneOfClaims c = currentScene s → t.lmp.chans = s.lmp.chans) := by
  intro t
  have hcs : currentScene { s with lmp.claims := c } = sceneOfClaims c := rfl
  simp only [t]
  unfold setClaims
  dsimp only
  rw [hcs]
  refine ⟨?_,?_,?_,?_,?_,?_,?_,?_,?_,?_,?_,?_,?_,?_,?_,?_⟩
  all_goals (try (split <;> split <;> simp; done))
  · intro h
    by_cases hb : b = true
    · rw [if_pos hb]
      have hw : s.lmp.wish = .none := h.resolve_left (by simp [hb])
      split
      · rw [evaluateRequest_of_none _ (by exact hw)]
      · rw [evaluateRequest_of_none _ (by simp; exact hw)]
        simp
    · rw [if_neg hb]
      split <;> simp
  · intro h
    rw [if_pos h]
    split <;> simp

/-- A recomputation while AWAKE gives every channel its target (R159). -/
theorem relight_target (f : Nat) (s : State) (c : Chan) : isAwake s = true →
    ((relight f s).lmp.chans.get c).target = targetOf s c := by
  intro h
  unfold relight
  rw [if_pos h]
  dsimp only
  rw [Chans.get_imap]
  unfold Channel.retarget
  split
  · assumption
  · unfold Channel.fadeTo
    split <;> rfl

/-- A channel's target is fixed by the roles, the faults, the claims, the latch, the doors, the announcement, the
reading requests and the configuration (R155 to R158). -/
theorem targetOf_congr {s t : State} (h1 : ∀ c,
    (t.lmp.chans.get c).role = (s.lmp.chans.get c).role ∧ (t.lmp.chans.get c).fault = (s.lmp.chans.get c).fault)
   (h2 : t.lmp.claims = s.lmp.claims) (h3 : t.ann = s.ann) (h4 : t.csr.config = s.csr.config) (h5 : t.jck.readAB = s.jck.readAB ∧ t.jck.readCD = s.jck.readCD) (c : Chan) : targetOf t c = targetOf s c := by
  have e : sceneEntry t = sceneEntry s := by unfold sceneEntry currentScene; rw [h2, h4]
  have r0 := h1 .ch0
  have r1 := h1 .ch1
  have r2 := h1 .ch2
  have r3 := h1 .ch3
  have r4 := h1 .ch4
  have r5 := h1 .ch5
  simp only [Chans.get] at r0 r1 r2 r3 r4 r5
  have es : substitution t = substitution s := by
    unfold substitution
    simp only [h3, List.any, List.all, r0, r1, r2, r3, r4, r5]
  have el : stopIndLevel t = stopIndLevel s := by
    unfold stopIndLevel
    dsimp only
    rw [e]
    simp only [fun c => (h1 c).1]
  have eo : overlayFlag t = overlayFlag s := by unfold overlayFlag inAnnouncement; rw [h3]
  have ed : doorOpen t = doorOpen s := by unfold doorOpen; rw [h3]
  unfold targetOf
  rw [(h1 c).1, e, es, el, eo, ed, h3, h4, h5.1, h5.2]

/-- A fade tick leaves the target and the step (R160). -/
theorem Channel.tick_target (c : Channel) : c.tick.target = c.target ∧ c.tick.step = c.step := by
  unfold Channel.tick
  dsimp only
  split
  exact ⟨rfl, rfl⟩
  split <;> exact ⟨rfl, rfl⟩

/-- A fade tick takes one step off the distance (R160). -/
theorem Channel.tick_distance (c : Channel) : distance c.tick.level (c.target*256) = distance c.level
    (c.target*256) - c.step := by
  unfold Channel.tick
  dsimp only
  split
  · dsimp only
    rw [show distance (c.target*256) (c.target*256) = 0 by unfold distance; simp]
    omega
  · rename_i h
    split <;> rename_i h2 <;> dsimp only <;> simp only [distance] at * <;> split_ifs at * <;> omega

/-- What a seek leaves (R97). -/
theorem seekSlot_law (i : SlotId) (s : State) : let t := seekSlot i s
  (∀ k, k ≠ i → t.vtab.slots.get k = s.vtab.slots.get k ∧ t.csr.tags.get k = s.csr.tags.get k) ∧ (t.vtab.slots.get i).content = (s.vtab.slots.get i).content ∧ t.csr.tags.get i = s.csr.tags.get i + 1
  ∧ t.csr.hand = s.csr.hand ∧ t.ann = s.ann ∧ t.lvl = s.lvl ∧ t.vtab.va = s.vtab.va ∧ t.csr.vaTag = s.csr.vaTag := by
  intro t
  simp only [t]
  unfold seekSlot
  dsimp only
  split
  · refine ⟨fun k hk => ?_, ?_⟩ <;> simp [setPlay, renew]
    exact ⟨fun h => absurd h.symm hk, fun h => absurd h.symm hk⟩
  · split
    · refine ⟨fun k hk => ?_, ?_⟩ <;> simp [setPlay, renew]
      exact ⟨fun h => absurd h.symm hk, fun h => absurd h.symm hk⟩
    · refine ⟨fun k hk => ?_, ?_⟩ <;> simp [setPlay, renew]
      exact ⟨fun h => absurd h.symm hk, fun h => absurd h.symm hk⟩

/-- What returning a slot to COMMENTARY does (R126). -/
theorem returnSlot_law (i : SlotId) (s : State) : let t := returnSlot i s
  (∀ k, k ≠ i → t.vtab.slots.get k = s.vtab.slots.get k ∧ t.csr.tags.get k = s.csr.tags.get k) ∧ t.csr.hand = s.csr.hand
  ∧ t.ann = { s.ann with naming := s.ann.naming.set i false } ∧ t.lvl = s.lvl ∧ t.vtab.va = s.vtab.va
  ∧ (s.ann.naming.get i = true → slotBusy s i = true → (t.vtab.slots.get i).content = .commentary ∧ t.csr.tags.get i = s.csr.tags.get i + 1) := by
  intro t
  simp only [t]
  unfold returnSlot
  dsimp only
  split
  · rename_i hn
    split
    · obtain ⟨a,b,c,d,e,f,g,h⟩ := seekSlot_law i (setContent i .commentary { s with ann.naming := s.ann.naming.set i false })
      refine ⟨fun k hk => ?_, d.trans (by simp), e.trans (by simp), f.trans (by simp), g.trans (by simp),
            fun _ _ => ⟨b.trans (by simp [setContent]), c.trans (by simp)⟩⟩
      have := a k hk
      refine ⟨this.1.trans ?_, this.2.trans (by simp)⟩
      simp [setContent]; exact fun h => absurd h.symm hk
    · rename_i hb
      refine ⟨fun k hk => ⟨rfl,rfl⟩, rfl, rfl, rfl, rfl, fun _ h => absurd h hb⟩
  · rename_i hn
    refine ⟨fun k hk => ⟨rfl,rfl⟩, rfl, ?_, rfl, rfl, fun h => absurd h hn⟩
    have : s.ann.naming.set i false = s.ann.naming := by cases i <;> (simp [Slots.get] at hn; simp [Slots.set, ← hn])
    rw [this]

/-- What returning every naming slot does (R126, R128). -/
theorem forSlots_returnSlot (s : State) : let t := forSlots returnSlot s
  t.csr.hand = s.csr.hand ∧ t.ann = { s.ann with naming := ⟨false,false,false,false⟩ } ∧ t.lvl = s.lvl ∧ t.vtab.va = s.vtab.va
  ∧ ∀ i, s.ann.naming.get i = true → slotBusy s i = true → (t.vtab.slots.get i).content = .commentary ∧ t.csr.tags.get i = s.csr.tags.get i + 1 := by
  intro t
  obtain ⟨a0,h0,n0,l0,v0,k0⟩ := returnSlot_law .v0 s
  obtain ⟨a1,h1,n1,l1,v1,k1⟩ := returnSlot_law .v1 (returnSlot .v0 s)
  obtain ⟨a2,h2,n2,l2,v2,k2⟩ := returnSlot_law .v2 (returnSlot .v1 (returnSlot .v0 s))
  obtain ⟨a3,h3,n3,l3,v3,k3⟩ := returnSlot_law .v3 (returnSlot .v2 (returnSlot .v1 (returnSlot .v0 s)))
  have ht : t = returnSlot .v3 (returnSlot .v2 (returnSlot .v1 (returnSlot .v0 s))) := rfl
  rw [ht]
  refine ⟨by rw [h3,h2,h1,h0], by rw [n3,n2,n1,n0]; rfl, by rw [l3,l2,l1,l0], by rw [v3,v2,v1,v0],
        fun i hn hb => ?_⟩
  have eb : ∀ u : State, u.vtab.slots.get i = s.vtab.slots.get i → slotBusy u i = true := by
    intro u h
    unfold slotBusy
    rw [h]
    exact hb
  cases i
  · obtain ⟨x,y⟩ := k0 hn (eb _ rfl)
    rw [(a3 .v0 (by simp)).1,(a3 .v0 (by simp)).2,(a2 .v0 (by simp)).1,(a2 .v0 (by simp)).2,(a1 .v0 (by simp)).1,(a1 .v0 (by simp)).2]
    exact ⟨x,y⟩
  · have e := (a0 .v1 (by simp))
    have := k1 (by rw [n0]; exact hn) (eb _ e.1)
    rw [e.2] at this
    rw [(a3 .v1 (by simp)).1,(a3 .v1 (by simp)).2,(a2 .v1 (by simp)).1,(a2 .v1 (by simp)).2]
    exact this
  · have e := (a0 .v2 (by simp))
    have e' := (a1 .v2 (by simp))
    have := k2 (by rw [n1,n0]; exact hn) (eb _ (e'.1.trans e.1))
    rw [e'.2,e.2] at this
    rw [(a3 .v2 (by simp)).1,(a3 .v2 (by simp)).2]
    exact this
  · have e := (a0 .v3 (by simp))
    have e' := (a1 .v3 (by simp))
    have e'' := (a2 .v3 (by simp))
    have := k3 (by rw [n2,n1,n0]; exact hn) (eb _ (e''.1.trans (e'.1.trans e.1)))
    rw [e''.2,e'.2,e.2] at this
    exact this

/-- What releasing a slot does (R95). -/
theorem releaseSlot_law (i : SlotId) (s : State) : let t := releaseSlot i s
  (∀ k, k ≠ i → t.vtab.slots.get k = s.vtab.slots.get k ∧ t.csr.tags.get k = s.csr.tags.get k ∧ t.csr.places.get k = s.csr.places.get k)
  ∧ (t.vtab.slots.get i).play = (s.vtab.slots.get i).play.stop ∧ (t.vtab.slots.get i).listeners = .nobody ∧ (t.vtab.slots.get i).language = (s.vtab.slots.get i).language
  ∧ t.csr.tags.get i = s.csr.tags.get i + 1 ∧ t.csr.places.get i = none ∧ t.csr.hand = s.csr.hand ∧ t.vtab.va = s.vtab.va ∧ t.lvl = s.lvl ∧ t.lmp = s.lmp := by
  intro t
  simp only [t]
  unfold releaseSlot
  dsimp only
  refine ⟨fun k hk => ?_, ?_⟩ <;> simp [renew]
  exact ⟨fun h => absurd h.symm hk, fun h => absurd h.symm hk, fun h => absurd h.symm hk⟩

/-- What releasing every slot does (R109). -/
theorem forSlots_releaseSlot (s : State) : let t := forSlots releaseSlot s
  t.csr.hand = s.csr.hand ∧ t.lvl = s.lvl ∧ t.lmp = s.lmp ∧ t.vtab.va = s.vtab.va ∧
  ∀ i, (t.vtab.slots.get i).play = (s.vtab.slots.get i).play.stop ∧ (t.vtab.slots.get i).listeners = .nobody ∧ (t.vtab.slots.get i).language = (s.vtab.slots.get i).language
  ∧ t.csr.tags.get i = s.csr.tags.get i + 1 ∧ t.csr.places.get i = none := by
  intro t
  obtain ⟨a0,p0,l0,g0,t0,c0,h0,v0,x0,y0⟩ := releaseSlot_law .v0 s
  obtain ⟨a1,p1,l1,g1,t1,c1,h1,v1,x1,y1⟩ := releaseSlot_law .v1 (releaseSlot .v0 s)
  obtain ⟨a2,p2,l2,g2,t2,c2,h2,v2,x2,y2⟩ := releaseSlot_law .v2 (releaseSlot .v1 (releaseSlot .v0 s))
  obtain ⟨a3,p3,l3,g3,t3,c3,h3,v3,x3,y3⟩ := releaseSlot_law .v3 (releaseSlot .v2 (releaseSlot .v1 (releaseSlot .v0 s)))
  have ht : t = releaseSlot .v3 (releaseSlot .v2 (releaseSlot .v1 (releaseSlot .v0 s))) := rfl
  rw [ht]
  refine ⟨by rw [h3,h2,h1,h0], by rw [x3,x2,x1,x0], by rw [y3,y2,y1,y0], by rw [v3,v2,v1,v0], fun i => ?_⟩
  cases i
  · have e1 := a1 .v0 (by simp)
    have e2 := a2 .v0 (by simp)
    have e3 := a3 .v0 (by simp)
    rw [e3.1,e2.1,e1.1,e3.2.1,e2.2.1,e1.2.1,e3.2.2,e2.2.2,e1.2.2]
    exact ⟨p0,l0,g0,t0,c0⟩
  · have e0 := a0 .v1 (by simp)
    have e2 := a2 .v1 (by simp)
    have e3 := a3 .v1 (by simp)
    rw [e3.1,e2.1,e3.2.1,e2.2.1,e3.2.2,e2.2.2, ← e0.1, ← e0.2.1]
    exact ⟨p1,l1,g1,t1,c1⟩
  · have e0 := a0 .v2 (by simp)
    have e1 := a1 .v2 (by simp)
    have e3 := a3 .v2 (by simp)
    rw [e3.1,e3.2.1,e3.2.2, ← e0.1, ← e0.2.1, ← e1.1, ← e1.2.1]
    exact ⟨p2,l2,g2,t2,c2⟩
  · have e0 := a0 .v3 (by simp)
    have e1 := a1 .v3 (by simp)
    have e2 := a2 .v3 (by simp)
    rw [← e0.1, ← e0.2.1, ← e1.1, ← e1.2.1, ← e2.1, ← e2.2.1]
    exact ⟨p3,l3,g3,t3,c3⟩

/-- What closing every output does (R142, R146). -/
theorem closeAll_law (s : State) : let t := closeAll s
  (∀ o, t.lvl.out.get o = 0 ∧ (t.lvl.gains.get o).slot = -72 ∧ (t.lvl.gains.get o).va = -72) ∧ t.lvl.wind = s.lvl.wind ∧ t.vtab = s.vtab ∧ t.csr = s.csr ∧ t.lmp = s.lmp ∧ t.ann = s.ann ∧ t.stc = s.stc ∧ t.line = s.line ∧ t.txq = s.txq ∧ t.dclk = s.dclk ∧ t.prg = s.prg ∧ t.jck = s.jck := by
  intro t
  simp only [t, closeAll]
  refine ⟨fun o => ?_, ?_⟩
  · rcases o with j | _
    · cases j <;> simp [PairGains.closed, Config.gainFloor]
    · simp [PairGains.closed, Config.gainFloor]
  · simp

/-- Asking for the next block moves no position, state, count, anchor or clip (R100). -/
theorem Play.topUp_law (p : Play) (b : Bool) : (p.topUp b).play.position = p.position ∧
    (p.topUp b).play.state = p.state ∧ (p.topUp b).play.underruns = p.underruns ∧ (p.topUp b).play.anchor = p.anchor ∧ (p.topUp b).play.clip = p.clip := by
  unfold Play.topUp
  dsimp only
  split
  · split
    · exact ⟨rfl,rfl,rfl,rfl,rfl⟩
    · split <;> exact ⟨rfl,rfl,rfl,rfl,rfl⟩
  · exact ⟨rfl,rfl,rfl,rfl,rfl⟩

/-- A block request changes no playback record (R98). -/
theorem playOf_issueBlock (v w : VoiceId) (k : Nat) (s : State) : playOf
    (issueBlock v k s) w = playOf s w := by
  unfold issueBlock
  split
  · rcases w with i | _ <;> simp [playOf]
  · rfl
@[simp] theorem issueBlock_csr (v : VoiceId) (k : Nat) (s : State) : (issueBlock v k s).csr.hand = s.csr.hand ∧ (issueBlock v k s).csr.tags = s.csr.tags := by
  unfold issueBlock
  split <;> simp

/-- What the record of a step of playback changes (R100, R101). -/
theorem settlePlay_law (v : VoiceId) (o : PlayOut) (s : State) : (∀ w,
    playOf (settlePlay v o s) w = if v = w then o.play else playOf s w) ∧ (settlePlay v o s).csr.hand = s.csr.hand ∧ (settlePlay v o s).csr.tags = s.csr.tags ∧ (settlePlay v o s).ann = s.ann ∧ (settlePlay v o s).lmp = s.lmp := by
  unfold settlePlay
  dsimp only
  split
  · refine ⟨fun w => ?_, ?_, ?_, ?_, ?_⟩
    · rw [playOf_issueBlock]
      simp
    · simp
    · simp
    · unfold issueBlock
      split <;> simp
    · unfold issueBlock
      split <;> simp
  · simp
def SameVoice (p q : Play) : Prop := q.position = p.position ∧ q.state = p.state ∧
      q.underruns = p.underruns ∧ q.anchor = p.anchor ∧ q.clip = p.clip

/-- The later of two writes of a playback record stands. -/
theorem setPlay_setPlay (v : VoiceId) (p q : Play) (s : State) : setPlay v q
    (setPlay v p s) = setPlay v q s := by
  rcases v with i | _
  · cases i <;> rfl
  · rfl

/-- A playback record says nothing of its voice's request. -/
theorem outstanding_setPlay (v w : VoiceId) (p : Play) (s : State) : outstanding
    (setPlay v p s) w = outstanding s w := by
  unfold outstanding
  rcases w with i | _ <;> simp [placeOf]

/-- With a request outstanding no next block is asked for (R100). -/
theorem Play.topUp_outstanding (p : Play) : p.topUp true = Play.same p := by
  unfold Play.topUp
  simp

/-- A step of playback that asks for nothing and ends nothing stands, with a request outstanding (R100). -/
theorem actOn_same (v : VoiceId) (q : Play) (s : State) (ho : outstanding s v = true) : actOn v
    (Play.same q) s = setPlay v q s := by
  have h1 : actOn v (Play.same q) s = topUpVoice v (setPlay v q s) := rfl
  rw [h1]
  unfold topUpVoice
  rw [outstanding_setPlay, ho, Play.topUp_outstanding]
  have : playOf (setPlay v q s) v = q := by simp
  rw [this]
  exact setPlay_setPlay v q q s

/-- What toggling a reading request does (R139). -/
theorem toggleReading_law (j : Seat) (s : State) : let t := toggleReading j s
   t.jck.jacks = s.jck.jacks ∧ t.jck.panels = s.jck.panels ∧ ((j = .a ∨ j = .b) → t.jck.readAB = !s.jck.readAB ∧ t.jck.readCD = s.jck.readCD)
        ∧ ((j = .c ∨ j = .d) → t.jck.readCD = !s.jck.readCD ∧ t.jck.readAB = s.jck.readAB)
        ∧ t.line = s.line ∧ t.txq = s.txq ∧ t.dclk = s.dclk ∧ t.prg = s.prg ∧ t.vtab = s.vtab ∧ t.csr = s.csr
        ∧ t.ann = s.ann ∧ t.lvl = s.lvl ∧ t.stc = s.stc := by
  cases j <;> simp [toggleReading]

/-- What a warm start does in every block (R179). -/
theorem warmStart_law (s : State) (hs : s.stc.state = .parking ∨ s.stc.state = .parked)
    (hf : s.dclk.firstPeriod = true) : let t := warmStart s
      t.stc.state = .awake ∧ t.stc.parkLeft = none ∧ t.stc.wakeWait = none
      ∧ t.stc.statusTimer = .running 2000000 ∧ t.stc.parkedMark = s.stc.parkedMark
      ∧ t.stc.failedAttempts = s.stc.failedAttempts
      ∧ t.line.state = .active ∧ t.line.fails = 0 ∧ t.line.wake = .none ∧ t.line.rxErrors = s.line.rxErrors
      ∧ t.line.clash = s.line.clash ∧ t.line.lockout = s.line.lockout
      ∧ t.txq.records = s.txq.records ∧ t.txq.drops = s.txq.drops
      ∧ t.txq.lfsr = lfsrSteps 16 s.txq.lfsr
      ∧ t.dclk.now = s.dclk.now ∧ t.dclk.capture = s.dclk.capture ∧ t.dclk.running = true
      ∧ t.dclk.timer = .running ((500 + (lfsrSteps 16 s.txq.lfsr).toNat % 1024) * 1000)
      ∧ t.dclk.firstPeriod = false
      ∧ t.csr.image = s.csr.image ∧ t.csr.config = s.csr.config ∧ t.csr.fleet = s.csr.fleet
      ∧ t.csr.failureRun = s.csr.failureRun ∧ t.prg = s.prg ∧ t.ann.latch = s.ann.latch
      ∧ t.ann.doorFilter = { accepted := false, run := 0 }
      ∧ (∀ j, t.jck.jacks.get j = if (s.jck.jacks.get j).state = .held then { s.jck.jacks.get j with state := .settling, settle := some 300000 } else s.jck.jacks.get j)
      ∧ t.jck.panels = s.jck.panels ∧ t.jck.readAB = s.jck.readAB ∧ t.jck.readCD = s.jck.readCD
      ∧ t.lvl.wind.average = s.csr.config.noiseFloor ∧ t.lvl.wind.boost = 0
      ∧ t.lmp.claims = s.lmp.claims ∧ t.lmp.wish = s.lmp.wish
      ∧ (∀ ch, (t.lmp.chans.get ch).fault = (s.lmp.chans.get ch).fault
          ∧ (t.lmp.chans.get ch).role = (s.lmp.chans.get ch).role) := by
  intro t
  have ht : t = settleUp { comeUp s with jck.jacks := s.jck.jacks.map Jack.resettle, ann.doorFilter := .initial } := by
    simp only [t]
    unfold warmStart
    rw [if_pos hs]
    rfl
  have h := settleUp_frame { comeUp s with jck.jacks := s.jck.jacks.map Jack.resettle, ann.doorFilter := .initial } rfl
  rw [← ht] at h
  have hcu : comeUp s = { s with
    stc.state := .awake, stc.parkLeft := none, stc.wakeWait := none,
    stc.statusTimer := .running (Config.statusFirstMillis * 1000),
    line.state := .active, line.fails := 0, line.quietLeft := none,
    line.rx := .fresh s.line.rx.estimate, line.wake := .none, line.driving := [],
    line.priorCapture := none, line.since := s.ref.micros,
    dclk.running := true,
    dclk.timer := .running ((500 + (lfsrSteps 16 s.txq.lfsr).toNat % 1024) * 1000), dclk.firstPeriod := false, txq.lfsr := lfsrSteps 16 s.txq.lfsr,
    lvl.wind := freshWind s.csr.config.noiseFloor,
    ref.gridFrom := s.ref.micros } := by
    unfold comeUp startTimeTimer
    dsimp only
    rw [hf]
    rfl
  rw [hcu] at h
  have e := h.csr
  and_intros
  all_goals first
    | exact fun ch => ⟨(h.chan ch).2.1, (h.chan ch).1⟩
    | (first | rw [h.stc] | rw [h.line] | rw [h.txq] | rw [h.dclk] | rw [e] | rw [h.prg] | rw [h.ann] | rw [h.wind] | rw [h.lmp]) <;> rfl
    | (rw [h.jck]; done)
    | rw [h.jck]
  simp [Jack.resettle, Config.settleMicros]

end Sys2Proof.Machine
end

