-- ==== Sys2Proof/Laws/Keeps.lean ====
section
/-! SUPPORT. What each shared operation does to the whole-machine rules of Sys2Proof/Safety.lean, said once:
`Keeps`. The operations of the voices come in whole through `VoiceFrame.keeps`, those of the queue through
`QueueKeeps.keeps`, and an update that touches nothing the rules speak of through `Alike.keeps`. -/

set_option Elab.async false

namespace Sys2Proof.Machine

/-- What a step does: the command in front runs, or with none waiting the block idles (log entry 2). -/
theorem step_cases {s t : State} (h : step s = .next t) :
   (∃ c rest, s.pending = c :: rest ∧ exec c { s with pending := rest } = .next t) ∨ (s.pending = [] ∧ t = idle s) := by
  unfold step at h
  cases hp : s.pending with
  | nil => rw [hp] at h; right; exact ⟨rfl, by injection h with h; exact h.symm⟩
  | cons c r => rw [hp] at h; left; exact ⟨c, r, rfl, h⟩

/-- The step from `s` to `t` keeps every rule of Sys2Proof/Safety.lean; with `b` it leaves deck time too. -/
structure Keeps (b : Bool) (s t : State) : Prop where
  latch : LatchSafe s → LatchSafe t
  lamp : LampSafe s → LampSafe t
  sound : SoundSafe s → SoundSafe t
  queue : QueueSafe s → QueueSafe t
  load : Loaded s → Loaded t
  counts : CountsBounded s → CountsBounded t ∧ CountsRise s t
  now : b = true → t.dclk.now = s.dclk.now

theorem CountsRise.trans {s t u : State} (h : CountsRise s t) (k : CountsRise t u) : CountsRise s u :=
  ⟨h.1.trans k.1, h.2.1.trans k.2.1, h.2.2.1.trans k.2.2.1, fun v => (h.2.2.2.1 v).trans (k.2.2.2.1 v),
        fun v => (h.2.2.2.2.1 v).trans (k.2.2.2.2.1 v), fun x => k.2.2.2.2.2 (h.2.2.2.2.2 x)⟩

theorem CountsRise.refl (s : State) : CountsRise s s := ⟨le_refl _, le_refl _, le_refl _,
    fun _ => le_refl _, fun _ => le_refl _, id⟩

theorem Keeps.refl (b) (s : State) : Keeps b s s := ⟨id, id, id, id, id, fun h => ⟨h, CountsRise.refl s⟩,
    fun _ => rfl⟩

theorem Keeps.trans {b} {s t u : State} (h : Keeps b s t) (k : Keeps b t u) : Keeps b s u :=
  ⟨fun x => k.latch (h.latch x), fun x => k.lamp (h.lamp x), fun x => k.sound (h.sound x),
        fun x => k.queue (h.queue x), fun x => k.load (h.load x),
   fun x => ⟨(k.counts (h.counts x).1).1,
         (h.counts x).2.trans (k.counts (h.counts x).1).2⟩, fun x => (k.now x).trans (h.now x)⟩

theorem Keeps.weaken {s t : State} (h : Keeps true s t) (b) : Keeps b s t := ⟨h.latch, h.lamp, h.sound,
    h.queue, h.load, h.counts, fun _ => h.now rfl⟩

/-- Everything the rules speak of stands alike in both states, but for a failure count or a failure run set to a
value within bounds and a WAKE attempt that ends. An update of other fields proves it with `{}`. -/
structure Alike (s t : State) : Prop where
  latch : t.ann.latch = s.ann.latch := by rfl
  doors : t.ann.doors = s.ann.doors := by rfl
  st : t.stc.state = s.stc.state := by rfl
  fa : t.stc.failedAttempts = s.stc.failedAttempts := by rfl
  tgt : ∀ c, (t.lmp.chans.get c).target = (s.lmp.chans.get c).target := by intro c; rfl
  role : ∀ c, (t.lmp.chans.get c).role = (s.lmp.chans.get c).role := by intro c; rfl
  out : t.lvl.out = s.lvl.out := by rfl
  gains : t.lvl.gains = s.lvl.gains := by rfl
  cfg : t.csr.config = s.csr.config := by rfl
  scan : scanning t = scanning s := by rfl
  fr : t.csr.failureRun = s.csr.failureRun ∨ t.csr.failureRun = 0 := by exact .inl rfl
  jst : ∀ j, (t.jck.jacks.get j).state = (s.jck.jacks.get j).state := by intro j; rfl
  jpl : ∀ j, (t.jck.jacks.get j).plugs = (s.jck.jacks.get j).plugs := by intro j; rfl
  lst : t.line.state = s.line.state := by rfl
  drv : t.line.driving = s.line.driving := by rfl
  fails : t.line.fails = s.line.fails ∨ t.line.fails = 0 ∨ t.line.fails = 8 := by exact .inl rfl
  rxe : t.line.rxErrors = s.line.rxErrors := by rfl
  clash : t.line.clash = s.line.clash := by rfl
  recs : t.txq.records = s.txq.records := by rfl
  nxt : t.txq.nextOrder = s.txq.nextOrder := by rfl
  drops : t.txq.drops = s.txq.drops := by rfl
  und : ∀ v, (playOf t v).underruns = (playOf s v).underruns := by intro v; rfl
  now : t.dclk.now = s.dclk.now := by rfl
  wk : t.line.wake = .sending → s.line.wake = .sending := by exact id

theorem Alike.keeps {s t : State} (h : Alike s t) (b) : Keeps b s t where
  latch := fun x => by unfold LatchSafe; rw [h.latch, h.doors]; exact x
  lamp := fun x => by
    refine ⟨fun k c => ?_, fun c k => ?_, fun c k1 k2 => ?_⟩
    · rw [h.tgt]
      exact x.1 (by rw [← h.st]; exact k) c
    · rw [h.tgt]
      exact x.2.1 c (by rw [← h.role]; exact k)
    · rw [h.latch]
      exact x.2.2 c (by rw [← h.role]; exact k1) (by rw [← h.tgt]; exact k2)
  sound := fun x => ⟨by rw [h.out]; exact x.out, by rw [h.gains, h.cfg]; exact x.slot,
        by rw [h.gains, h.cfg]; exact x.va,
    by rw [h.scan, h.st, h.gains]; intro k; have := x.scan k; exact ⟨this.1, fun j => by rw [h.jst]; exact this.2.1 j, this.2.2⟩⟩
  queue := fun x => ⟨by rw [h.recs]; exact x.size, by rw [h.recs]; exact x.waiting,
        by rw [h.recs]; exact x.flying, by rw [h.recs]; exact x.orders,
    by rw [h.recs, h.nxt]; exact x.fresh, by rw [h.drops]; exact x.drops, by rw [h.recs, h.drv]; exact x.released, by rw [h.recs, h.lst]; exact x.shut,
    by rw [h.scan, h.lst]; exact x.scan, by rw [h.lst]; exact fun k => x.sender (h.wk k), by rw [h.st, h.lst]; exact x.parked⟩
  load := fun x => ⟨by rw [h.st]; exact x.1, by rw [h.scan]; exact x.2⟩
  counts := fun x => by
    obtain ⟨x1, x2, x3, x4, x5, x6, x7⟩ := x
    refine ⟨⟨by rw [h.rxe]; exact x1, by rw [h.drops]; exact x2, by rw [h.fa]; exact x3, ?_, ?_,
          fun v => by rw [h.und]; exact x6 v, fun j => by rw [h.jpl]; exact x7 j⟩,
      by rw [h.rxe], by rw [h.drops], by rw [h.fa], fun v => by rw [h.und], fun j => by rw [h.jpl], by rw [h.clash]; exact id⟩
    · rcases h.fails with k | k | k <;> rw [k] <;> omega
    · rcases h.fr with k | k <;> rw [k] <;> omega
  now := fun _ => h.now

/-- Whatever stays within `VoiceFrame` keeps every rule. -/
theorem VoiceFrame.keeps {s t : State} (h : VoiceFrame s t) (b) : Keeps b s t where
  latch := fun x => by unfold LatchSafe; rw [h.ann]; exact x
  lamp := fun x => by
    have hl : t.ann.latch = s.ann.latch := by rw [h.ann]
    refine ⟨fun k c => ?_, fun c k => ?_, fun c k1 k2 => ?_⟩
    · rw [h.stc] at k
      rcases h.bounded.target c with e | e | e
      · rw [e]
        exact x.1 k c
      · exact e
      · exfalso
        have := e.1
        simp [isAwake] at this
        exact k this
    · rw [(h.chan c).1] at k
      rcases h.bounded.target c with e | e | e
      · rw [e]
        exact x.2.1 c k
      · exact e
      · exact absurd k e.2.1
    · rw [(h.chan c).1] at k1
      rw [hl]
      rcases h.bounded.target c with e | e | e
      · rw [e] at k2
        exact x.2.2 c k1 k2
      · exact absurd e k2
      · exact e.2.2 k1
  sound := fun x => by
    have hc : t.csr.config = s.csr.config := by rw [h.csr]
    refine ⟨fun o => ?_, fun o => ?_, fun o => ?_, fun k => ?_⟩
    · rcases h.bounded.out o with e | e
      · rw [e]
        exact x.out o
      · exact e
    · rw [hc]
      rcases h.bounded.slot o with e | e
      · rw [e]
        exact x.slot o
      · rw [e]
        omega
    · rw [hc]
      rcases h.bounded.va o with e | e
      · rw [e]
        exact x.va o
      · rw [e]
        omega
    · obtain ⟨a, b, c⟩ := x.scan (h.bounded.scan k)
      rw [h.stc, h.jck]
      refine ⟨a, b, fun o => ⟨?_, ?_⟩⟩
      · rcases h.bounded.slot o with e | e
        · rw [e]
          exact (c o).1
        · exact e
      · rcases h.bounded.va o with e | e
        · rw [e]
          exact (c o).2
        · exact e
  queue := fun x => ⟨by rw [h.txq]; exact x.size, by rw [h.txq]; exact x.waiting,
        by rw [h.txq]; exact x.flying, by rw [h.txq]; exact x.orders,
    by rw [h.txq]; exact x.fresh, by rw [h.txq]; exact x.drops, by rw [h.txq, h.line]; exact x.released, by rw [h.txq, h.line]; exact x.shut,
    by rw [h.line]; exact fun k => x.scan (h.bounded.scan k), by rw [h.line]; exact x.sender, by rw [h.stc, h.line]; exact x.parked⟩
  load := fun x => ⟨by rw [h.stc]; exact x.1, by
    cases k : scanning t with
    | false => rfl
    | true => have := h.bounded.scan k; rw [x.2] at this; cases this⟩
  counts := fun x => by
    obtain ⟨x1, x2, x3, x4, x5, x6, x7⟩ := x
    refine ⟨⟨by rw [h.line]; exact x1, by rw [h.txq]; exact x2, by rw [h.stc]; exact x3,
          by rw [h.line]; exact x4, by rw [h.csr]; exact x5, fun v => ((h.bounded.runs v) (x6 v)).2, by rw [h.jck]; exact x7⟩,
      by rw [h.line], by rw [h.txq], by rw [h.stc], fun v => ((h.bounded.runs v) (x6 v)).1, by rw [h.jck]; exact fun _ => le_refl _, by rw [h.line]; exact id⟩
  now := fun _ => by rw [h.dclk]

/-- A change of the Transmit Queue alone; `o` says that the line state lets a record in (R37). -/
theorem QueueKeeps.keeps (s : State) (r : TxQueue) (o : Bool)
    (ho : o = true → s.line.state ≠ .off ∧ s.line.state ≠ .asleep) (h : QueueKeeps o s.txq r) (b) : Keeps b s { s with txq := r } where
  latch := id
  lamp := id
  sound := fun x => ⟨x.out, x.slot, x.va, x.scan⟩
  queue := fun x => by
    obtain ⟨a1, a2, a3, a4⟩ := h.all x.size x.waiting x.flying x.orders x.fresh
    refine ⟨h.size x.size, a1, a2, a3, a4, (h.drops x.drops).2, fun k => h.rel (x.released k), fun k => ?_,
          x.scan, x.sender, x.parked⟩
    cases o with
    | false => exact h.shut rfl (x.shut k)
    | true => have := ho rfl; rcases k with k | k
              · exact absurd k this.1
              · exact absurd k this.2
  load := id
  counts := fun x => by
    obtain ⟨x1, x2, x3, x4, x5, x6, x7⟩ := x
    exact ⟨⟨x1, (h.drops x2).2, x3, x4, x5, x6, x7⟩, le_refl _, (h.drops x2).1, le_refl _,
          fun _ => le_refl _, fun _ => le_refl _, id⟩
  now := fun _ => rfl

theorem enqueue_keeps (k body s b) : Keeps b s (enqueue k body s) := by
  unfold enqueue
  split
  · rename_i h
    refine QueueKeeps.keeps s _ true (fun _ => ?_) (TxQueue.enqueue_keeps _ _ _) b
    unfold lineAccepts at h
    constructor <;> (intro e; rw [e] at h; simp at h)
  · exact Keeps.refl _ _

theorem withdraw_keeps (k s b) : Keeps b s (withdraw k s) := QueueKeeps.keeps s _ false
    (fun h => by cases h) (TxQueue.withdraw_keeps _ _ _) b

theorem afterDraw_keeps (s b) : Keeps b s (afterDraw s) := Alike.keeps {} b

theorem evaluateRequest_keeps (s b) : Keeps b s (evaluateRequest s) := by
  unfold evaluateRequest
  split
  · exact Keeps.refl _ _
  · split
    · exact enqueue_keeps _ _ _ _
    · exact withdraw_keeps _ _ _

theorem setClaims_keeps (c p s b) : Keeps b s (setClaims c p s) := by
  unfold Machine.setClaims
  dsimp only
  have h1 : Keeps b s { s with lmp.claims := c } := Alike.keeps {} b
  have h2 : Keeps b s (relight (sceneFade { s with lmp.claims := c }) { s with lmp.claims := c }) := h1.trans ((relight_frame _ _).keeps b)
  split_ifs
  · exact h1.trans (evaluateRequest_keeps _ b)
  · exact h2.trans (evaluateRequest_keeps _ b)
  · exact h1
  · exact h2

theorem applyScene_keeps (o x s b) : Keeps b s (applyScene o x s) := by
  unfold Machine.applyScene
  dsimp only
  split
  · split
    · split
      · exact setClaims_keeps _ _ _ _
      · exact Keeps.refl _ _
    · exact Keeps.refl _ _
  · exact setClaims_keeps _ _ _ _

theorem expireClaims_keeps (s b) : Keeps b s (expireClaims s) := by
  unfold Machine.expireClaims
  dsimp only
  split
  exact setClaims_keeps _ _ _ _
  exact Keeps.refl _ _

/-- A change of the latch and the open-door table that the Lamp Unit is told of (R115, R116, R159). -/
theorem latchRelight_keeps (s : State) (f : Nat) (l o : Bool) (ds : List DoorEntry)
    (hd : ds.length ≤ 4 ∨ ¬ LatchSafe s) (hl : (ds ≠ [] → l = false) ∨ ¬ LatchSafe s) (b) :
   Keeps b s (relight f { s with ann.doors := ds, ann.latch := l, ann.ownOpen := o }) := by
  have hf := relight_frame f { s with ann.doors := ds, ann.latch := l, ann.ownOpen := o }
  have hb : Keeps b { s with ann.doors := ds, ann.latch := l, ann.ownOpen := o } _ := hf.keeps b
  refine ⟨fun x => hb.latch ⟨?_, ?_⟩, fun x => ?_, fun x => hb.sound ⟨x.out, x.slot, x.va, x.scan⟩,
        fun x => hb.queue ⟨x.size, x.waiting, x.flying, x.orders, x.fresh, x.drops, x.released, x.shut,
              x.scan, x.sender, x.parked⟩, fun x => hb.load x, fun x => hb.counts x, fun h => hb.now h⟩
  · rcases hl with h | h
    · exact h
    · exact absurd x h
  · rcases hd with h | h
    · exact h
    · exact absurd x h
  · by_cases ha : isAwake s = true
    · have ht : ∀ c, ((relight f { s with ann.doors := ds, ann.latch := l, ann.ownOpen := o }).lmp.chans.get c).target = targetOf { s with ann.doors := ds, ann.latch := l, ann.ownOpen := o } c := fun c => relight_target _ _ _ ha
      refine ⟨fun k => ?_, fun c k => ?_, fun c k1 k2 => ?_⟩
      · rw [hf.stc] at k
        simp [isAwake] at ha
        exact absurd ha k
      · rw [ht]
        rw [(hf.chan c).1] at k
        rcases targetOf_lit { s with ann.doors := ds, ann.latch := l, ann.ownOpen := o } c with e | e
        · exact e
        · exact absurd k e.1
      · rw [ht] at k2
        rw [(hf.chan c).1] at k1
        rw [hf.ann]
        rcases targetOf_lit { s with ann.doors := ds, ann.latch := l, ann.ownOpen := o } c with e | e
        · exact absurd e k2
        · exact e.2 k1
    · have hr : relight f { s with ann.doors := ds, ann.latch := l, ann.ownOpen := o } = { s with ann.doors := ds, ann.latch := l, ann.ownOpen := o } := by
        unfold relight
        rw [if_neg (by exact ha)]
      rw [hr]
      have h0 : ∀ c, (s.lmp.chans.get c).target = 0 := x.1 (by simpa [isAwake] using ha)
      exact ⟨fun _ => h0, fun c _ => h0 c, fun c _ k => absurd (h0 c) k⟩

theorem doorReported_keeps (o : Origin) (s b) : Keeps b s (doorReported o s) := by
  unfold doorReported Machine.clearLatch relightOverlay
  dsimp only
  have e : ∀ (ds : List DoorEntry), withdraw .stopReq { { s with ann.doors := ds } with ann.latch := false, ann.ownOpen := false } = { (withdraw .stopReq s) with ann.doors := ds, ann.latch := false, ann.ownOpen := false } := fun _ => rfl
  refine (withdraw_keeps .stopReq s b).trans (latchRelight_keeps (withdraw .stopReq s) _ false false _ ?_ (.inl fun _ => rfl) b)
  by_cases h : LatchSafe s
  · left
    unfold doorsWith
    split
    · rw [List.length_map]
      exact h.2
    · split
      · rw [List.length_append]
        simp
        omega
      · exact h.2
  · right
    exact h

theorem doorsFiltered_keeps (p : DoorEntry → Bool) (s b) : Keeps b s
    (relightOverlay { s with ann.doors := s.ann.doors.filter p }) := by
  by_cases h : LatchSafe s
  · exact latchRelight_keeps s _ s.ann.latch s.ann.ownOpen (s.ann.doors.filter p) (.inl ((List.length_filter_le _ _).trans h.2)) (.inl fun k => h.1 (by intro e; apply k; simp [e])) b
  · exact latchRelight_keeps s _ s.ann.latch s.ann.ownOpen (s.ann.doors.filter p) (.inr h) (.inr h) b

theorem applyDoor_keeps (o x s b) : Keeps b s (applyDoor o x s) := by
  unfold Machine.applyDoor
  split
  exact doorReported_keeps _ _ _
  exact doorsFiltered_keeps _ _ _

theorem expireDoors_keeps (s b) : Keeps b s (expireDoors s) := by
  unfold Machine.expireDoors
  split
  exact doorsFiltered_keeps _ _ _
  exact Keeps.refl _ _

theorem raiseLatch_keeps (s b) (hd : s.ann.doors = []) : Keeps b s (raiseLatch s) := by
  have h : Keeps b s (relightOverlay { s with ann.latch := true }) :=
    latchRelight_keeps s _ true s.ann.ownOpen s.ann.doors (.inl (by rw [hd]; simp)) (.inl fun k => absurd hd k) b
  unfold Machine.raiseLatch
  dsimp only
  split
  · exact h
  · exact h.trans ((vaStart_frame _ _ _ _).keeps b)

theorem changeCue_keeps (c s b) : Keeps b s (changeCue c s) :=
  Keeps.trans (Alike.keeps (t := { s with prg.current := c }) {} b) ((forSlots_frame reseek_frame _).keeps b)

theorem takeCue_keeps (c s b) : Keeps b s (takeCue c s) := Keeps.trans
    (Alike.keeps (t := { s with prg.lastTaken := some c }) {} b) (changeCue_keeps _ _ b)

theorem promoteDue_keeps (s b) : Keeps b s (promoteDue s) := by
  unfold Machine.promoteDue
  dsimp only
  split
  · exact Keeps.trans (Alike.keeps (t := { s with prg.queue := _ }) {} b) (takeCue_keeps _ _ b)
  · exact Keeps.refl _ _

theorem countRxError_keeps (s b) : Keeps b s (countRxError s) :=
  ⟨id, id, fun x => ⟨x.out, x.slot, x.va, x.scan⟩, fun x => ⟨x.size, x.waiting, x.flying, x.orders, x.fresh,
        x.drops, x.released, x.shut, x.scan, x.sender, x.parked⟩, id,
   fun ⟨x1, x2, x3, x4, x5, x6, x7⟩ => by
    have e1 : s.line.rxErrors ≤ bump 255 s.line.rxErrors 1 := by unfold bump; omega
    have e2 : bump 255 s.line.rxErrors 1 ≤ 255 := by unfold bump; omega
    exact ⟨⟨e2, x2, x3, x4, x5, x6, x7⟩, e1, le_refl _, le_refl _, fun _ => le_refl _, fun _ => le_refl _,
          id⟩, fun _ => rfl⟩

theorem placeCue_keeps (c s b) : Keeps b s (placeCue c s) := by
  unfold Machine.placeCue
  dsimp only
  split_ifs
  · exact Alike.keeps {} b
  · exact Alike.keeps {} b
  · exact countRxError_keeps _ _
  · exact Keeps.trans (Alike.keeps (t := { s with prg.queue := _ }) {} b) (countRxError_keeps _ _)

theorem judgeCue_keeps (c s b) : Keeps b s (judgeCue c s) := by
  unfold Machine.judgeCue
  dsimp only
  generalize (match s.prg.lastTaken with | some t => later t.start c.start | none => false) = st
  split_ifs
  · exact Keeps.refl _ _
  · exact Keeps.refl _ _
  · exact takeCue_keeps _ _ _
  · exact placeCue_keeps _ _ _

theorem hush_keeps (n s b) : Keeps b s (hush n s) := by
  unfold Machine.hush
  dsimp only
  split
  · split
    · exact Keeps.trans (Alike.keeps (t := { s with prg.queue := _ }) {} b) (changeCue_keeps _ _ b)
    · exact Alike.keeps {} b
  · exact Alike.keeps {} b

theorem judgeAnnounce_keeps (x y s b) : Keeps b s (judgeAnnounce x y s) := by
  have hp := (placeAnnouncement_frame x y s).keeps b
  unfold judgeAnnounce
  dsimp only
  generalize (match s.ann.current with | some a => later a.start y | none => false) = p
  generalize (match s.ann.lastCompleted with | some a => later a y | none => false) = q
  split_ifs <;> first | exact Keeps.refl _ _ | exact hp | exact countRxError_keeps _ _

theorem noteClash_keeps (h s b) : Keeps b s (noteClash h s) := by
  unfold noteClash
  split
  · exact ⟨id, id, fun x => ⟨x.out, x.slot, x.va, x.scan⟩, fun x => ⟨x.size, x.waiting, x.flying, x.orders,
        x.fresh, x.drops, x.released, x.shut, x.scan, x.sender, x.parked⟩, id,
      fun x => ⟨x, le_refl _, le_refl _, le_refl _, fun _ => le_refl _, fun _ => le_refl _,
            fun _ => rfl⟩, fun _ => rfl⟩
  · exact Keeps.refl _ _

theorem heard_keeps (h : Heard) (s b) : Keeps b s (heard h s) := by
  rw [heard_eq]
  exact Alike.keeps {} b

theorem settleCapture_keeps (c : Bool) (s b) : Keeps b s (settleCapture c s) := Alike.keeps {} b

theorem endReception_keeps (h : Heard) (s b) : Keeps b s (endReception h s) := Alike.keeps {} b

theorem sleepHears_keeps (f s b) : Keeps b s (sleepHears f s) := by
  unfold sleepHears
  split
  · exact Alike.keeps {} b
  · exact Keeps.refl _ _

theorem endUnderOwn_keeps (age s b) : Keeps b s (endUnderOwn age s) := by
  unfold endUnderOwn
  split
  · exact (Alike.keeps {} b).trans (countRxError_keeps _ _)
  · exact countRxError_keeps _ _

theorem notHeard_keeps (f s b) : Keeps b s (notHeard f s) := by
  unfold notHeard
  split
  · exact endUnderOwn_keeps _ _ _
  · exact sleepHears_keeps f s b

/-- A received frame keeps the rules if its owner does (R12, R16). -/
theorem receiveFrame_keeps (k f ok owner s b) (ho : ∀ u, receiving u = true → Keeps b u (owner u)) :
    Keeps b s (receiveFrame k f ok owner s) := by
  have hh := heard_keeps f.heard s b
  unfold receiveFrame
  dsimp only
  split
  · rename_i hrc
    have hrc : receiving (heard f.heard s) = true := by
      have : receiving s = true := by
        simp only [hears, Bool.and_eq_true] at hrc
        exact hrc.1
      unfold receiving at this ⊢
      rw [heard_lineState]
      exact this
    split
    · exact Keeps.refl _ _
    · exact hh
    · exact hh.trans (countRxError_keeps _ _)
    · split
      · refine (hh.trans (noteClash_keeps _ _ _)).trans (ho _ ?_)
        unfold noteClash
        split <;> exact hrc
      · exact (hh.trans (noteClash_keeps _ _ _)).trans (countRxError_keeps _ _)
  · exact notHeard_keeps f s b

theorem quietTime_keeps (s b) : Keeps b s (quietTime s) := by
  have h := withdraw_keeps .time s b
  unfold Machine.quietTime
  dsimp only
  split
  · exact h
  · exact h.trans (Alike.keeps {} b)

theorem hastenTime_keeps (s b) : Keeps b s (hastenTime s) := by
  unfold hastenTime
  dsimp only
  split
  · exact Keeps.refl _ _
  · exact Alike.keeps {} b

theorem QueueSafe.off {s : State} (x : QueueSafe s) (h : s.line.state = .off ∨ s.line.state = .asleep) :
    ∀ r ∈ s.txq.records, r.inFlight = false := by
  rw [x.shut h]
  intro r hr
  cases hr

theorem formTargets_target (s : State) (c : Chan) :
    ((formTargets s).lmp.chans.get c).target = targetOf s c := by
  simp only [formTargets, Chans.get_imap]
  split
  · rfl
  · exact Channel.fadeTo_target _ _ _

theorem settleUp_lampSafe (u : State) (ha : isAwake u = true) : LampSafe (settleUp u) := by
  have hp := placeSpeaker_frame u
  have ha' : isAwake (placeSpeaker u) = true := by unfold isAwake at *; rw [hp.stc]; exact ha
  have hf := formTargets_frame (placeSpeaker u) ha'
  refine ((serve_frame (formTargets (placeSpeaker u))).keeps true).lamp ⟨fun k => ?_, fun c k => ?_,
        fun c k1 k2 => ?_⟩
  · rw [hf.stc] at k
    simp [isAwake] at ha'
    exact absurd ha' k
  · rw [formTargets_target]
    rw [(hf.chan c).1] at k
    rcases targetOf_lit (placeSpeaker u) c with e | e
    · exact e
    · exact absurd k e.1
  · rw [formTargets_target] at k2
    rw [(hf.chan c).1] at k1
    rw [hf.ann]
    rcases targetOf_lit (placeSpeaker u) c with e | e
    · exact absurd e k2
    · exact e.2 k1

/-- An awakening: `u` has come up from `s`, and the speaker, the targets and the reader follow (R173, R179). -/
theorem awaken_keeps (s u : State) (b : Bool) (ha : u.stc.state = .awake)
   (hann : u.ann.latch = s.ann.latch ∧ u.ann.doors = s.ann.doors) (hfa : u.stc.failedAttempts = s.stc.failedAttempts)
   (hout : u.lvl.out = s.lvl.out) (hgains : u.lvl.gains = s.lvl.gains)
   (hcfg : u.csr.config = s.csr.config ∨ scanning s = true) (hscan : (QueueSafe s → scanning u = false))
   (hns : SoundSafe s → scanning u = false) (hld : ¬ Loaded s)
   (hfr : s.csr.failureRun ≤ 8 → u.csr.failureRun ≤ 8) (hjpl : ∀ j,
         (u.jck.jacks.get j).plugs = (s.jck.jacks.get j).plugs)
   (hls : u.line.state = .active) (hdr : u.line.driving = []) (hfl : u.line.fails = 0) (hwk : u.line.wake = .none)
   (hrx : u.line.rxErrors = s.line.rxErrors) (hcl : u.line.clash = s.line.clash) (hre : u.txq.records = s.txq.records) (hnx : u.txq.nextOrder = s.txq.nextOrder)
   (hdp : u.txq.drops = s.txq.drops) (hund : ∀ v,
         (playOf u v).underruns = (playOf s v).underruns) (hnow : u.dclk.now = s.dclk.now)
   (hfree : QueueSafe s → ∀ r ∈ s.txq.records, r.inFlight = false) : Keeps b s (settleUp u) := by
  have ha' : isAwake u = true := by simp [isAwake, ha]
  have hv := (settleUp_frame u ha').keeps b
  have key : Keeps b u (settleUp u) := hv
  refine ⟨fun x => key.latch (by unfold LatchSafe; rw [hann.1, hann.2]; exact x),
        fun _ => settleUp_lampSafe u ha', fun x => key.sound ⟨by rw [hout]; exact x.out, fun o => ?_,
              fun o => ?_, fun k => ?_⟩, fun x => key.queue ?_, fun x => absurd x hld, fun x => ?_, fun h => (key.now h).trans hnow⟩
  · rw [hgains]
    rcases hcfg with e | e
    · rw [e]
      exact x.slot o
    · rw [((x.scan e).2.2 o).1]
      omega
  · rw [hgains]
    rcases hcfg with e | e
    · rw [e]
      exact x.va o
    · rw [((x.scan e).2.2 o).2]
      omega
  · rw [hns x] at k
    cases k
  · refine ⟨by rw [hre]; exact x.size, by rw [hre]; exact x.waiting, by rw [hre]; exact x.flying,
        by rw [hre]; exact x.orders, by rw [hre, hnx]; exact x.fresh, by rw [hdp]; exact x.drops,
      fun _ => by rw [hre]; exact hfree x, fun k => by rw [hls] at k; simp at k, fun k => by (rw [hscan x] at k; cases k), fun k => by (rw [hwk] at k; cases k), fun k => by rw [ha] at k; simp at k⟩
  · obtain ⟨x1, x2, x3, x4, x5, x6, x7⟩ := x
    have y : CountsBounded u := ⟨by rw [hrx]; exact x1, by rw [hdp]; exact x2, by rw [hfa]; exact x3,
          by rw [hfl]; omega, hfr x5, fun v => by rw [hund]; exact x6 v, fun j => by rw [hjpl]; exact x7 j⟩
    refine ⟨(key.counts y).1, CountsRise.trans (t := u) ⟨by rw [hrx], by rw [hdp], by rw [hfa],
          fun v => by rw [hund], fun j => by rw [hjpl], by rw [hcl]; exact id⟩ (key.counts y).2⟩

/-- A warm start (R179). -/
theorem warmStart_keeps (s b) : Keeps b s (warmStart s) := by
  unfold warmStart
  split
  · rename_i h
    have hq : QueueSafe s → scanning s = false := by
      intro x
      cases k : scanning s with
      | false => rfl
      | true => have h1 := x.scan k; have h2 := x.parked h; rw [h1] at h2; cases h2
    exact awaken_keeps s { comeUp s with jck.jacks := s.jck.jacks.map Jack.resettle, ann.doorFilter := .initial } b rfl ⟨rfl, rfl⟩ rfl rfl rfl (.inl rfl)
     hq (fun x => by
        change scanning s = false
        cases k : scanning s with
        | false => rfl
        | true => have := (x.scan k).1; rcases h with h | h <;> rw [h] at this <;> cases this)
     (fun x => by have x1 := x.1; rcases h with h | h <;> rw [h] at x1 <;> cases x1) id (fun j => by simp [Jack.resettle]; split <;> rfl) rfl rfl rfl rfl rfl rfl rfl rfl rfl (fun _ => rfl) rfl
     (fun x => x.off (.inr (x.parked h)))
  · exact Keeps.refl _ _

theorem enterAwake_keeps (s w : State) (b) (hs : scanning s = true) (hw : w = { s with csr := w.csr })
    (hsc : scanning w = false) (hf : s.csr.failureRun ≤ 8 → w.csr.failureRun ≤ 8) : Keeps b s (enterAwake w) := by
  refine awaken_keeps s { comeUp (takeRoles w) with jck.panels := JackUnit.initial.panels, ann.doorFilter := .initial, ref.seatFrom := (comeUp (takeRoles w)).ref.micros } b rfl ?_ ?_ ?_ ?_ (.inr hs) (fun _ => hsc) (fun _ => hsc) (fun x => by rw [x.2] at hs; cases hs) hf ?_ rfl rfl rfl rfl ?_ ?_ ?_ ?_ ?_ ?_ ?_ (fun x => x.off (.inl (x.scan hs)))
  all_goals (rw [hw]; first | rfl | exact ⟨rfl, rfl⟩ | exact fun _ => rfl)

theorem scanning_of_idle {u : State} (h : u.csr.hand = none) : scanning u = false := by
  unfold scanning
  rw [h]

theorem transactionGood_keeps (s b) : Keeps b s (transactionGood s) := by
  refine ⟨id, id, fun x => ⟨x.out, x.slot, x.va, fun k => (by cases k)⟩, fun x => ⟨x.size, x.waiting,
        x.flying, x.orders, x.fresh, x.drops, x.released, x.shut, fun k => (by cases k), x.sender, x.parked⟩, fun x => ⟨x.1, rfl⟩, fun x => ?_, fun _ => rfl⟩
  obtain ⟨x1, x2, x3, x4, x5, x6, x7⟩ := x
  exact ⟨⟨x1, x2, x3, x4, Nat.zero_le _, x6, x7⟩, CountsRise.refl s⟩

theorem transactionFailed_keeps (s b) : Keeps b s (transactionFailed s) := by
  refine ⟨id, id, fun x => ⟨x.out, x.slot, x.va, fun k => (by cases k)⟩, fun x => ⟨x.size, x.waiting,
        x.flying, x.orders, x.fresh, x.drops, x.released, x.shut, fun k => (by cases k), x.sender, x.parked⟩, fun x => ⟨x.1, rfl⟩, fun x => ?_, fun _ => rfl⟩
  obtain ⟨x1, x2, x3, x4, x5, x6, x7⟩ := x
  refine ⟨⟨x1, x2, x3, x4, ?_, x6, x7⟩, CountsRise.refl s⟩
  show bump 8 s.csr.failureRun 1 ≤ 8
  unfold bump
  omega

theorem scanGood_keeps (c s b) (hs : scanning s = true) : Keeps b s
    (Machine.scanGood c (transactionGood s)) :=
  enterAwake_keeps s { transactionGood s with csr.image := .good, csr.fleet := c.fleet, csr.config := configOf c.configBytes, csr.dirStart := c.dirStart, csr.entryCount := c.count, csr.first := c.first, csr.scan := none } b hs rfl rfl (fun _ => Nat.zero_le _)

theorem scanBad_keeps (s b) (hs : scanning s = true) : Keeps b s (Machine.scanBad (transactionGood s)) :=
  enterAwake_keeps s { transactionGood s with csr.image := .bad, csr.fleet := 0, csr.config := .defaults, csr.dirStart := 0, csr.entryCount := 0, csr.first := none, csr.scan := none } b hs rfl rfl (fun _ => Nat.zero_le _)

theorem scanAbandoned_keeps (s b) (hs : scanning s = true) : Keeps b s
    (Machine.scanBad (transactionFailed s)) :=
  enterAwake_keeps s { transactionFailed s with csr.image := .bad, csr.fleet := 0, csr.config := .defaults, csr.dirStart := 0, csr.entryCount := 0, csr.first := none, csr.scan := none } b hs rfl rfl (fun _ => by show bump 8 s.csr.failureRun 1 ≤ 8; unfold bump; omega)

theorem nextChunk_keeps (c s b) (hs : scanning s = true) : Keeps b s (nextChunk c (transactionGood s)) := by
  refine ⟨id, id, fun x => ⟨x.out, x.slot, x.va, fun _ => x.scan hs⟩, fun x => ⟨x.size, x.waiting, x.flying,
        x.orders, x.fresh, x.drops, x.released, x.shut, fun _ => x.scan hs, x.sender, x.parked⟩, fun x => (by have := x.2; rw [hs] at this; cases this), fun x => ?_, fun _ => rfl⟩
  obtain ⟨x1, x2, x3, x4, x5, x6, x7⟩ := x
  exact ⟨⟨x1, x2, x3, x4, Nat.zero_le _, x6, x7⟩, CountsRise.refl s⟩

/-- A failed attempt of the record in flight (R11, R18, R44). -/
theorem failAttempt_keeps (r : Record) (s : State) (b) (hr : s.txq.flying = some r) : Keeps b s
    (failAttempt r s) := by
  obtain ⟨hm, hf⟩ := TxQueue.flying_mem hr
  -- the queue's part, driving emptied
  set q : TxQueue := (queueFailed r s).txq with hqd
  have hq : QueueKeeps false s.txq q ∧ queueFailed r s = { s with txq := q } := by
    rw [hqd]
    unfold queueFailed
    split
    · exact ⟨TxQueue.leave_keeps _ _ _, rfl⟩
    · split
      · exact ⟨QueueKeeps.trans (TxQueue.leave_keeps _ _ _) (QueueKeeps.drop _ _ _), rfl⟩
      · refine ⟨QueueKeeps.trans (QueueKeeps.trans (q := (afterDraw s).txq) ⟨id, fun _ a b c d => ⟨a, b, c,
            d⟩, fun h => ⟨le_refl _, h⟩, id, fun _ => id⟩ (TxQueue.keep_keeps false (afterDraw s).txq r _ _ hm hf)) (QueueKeeps.refl _ _), rfl⟩
  have hnf : QueueSafe s → ∀ o ∈ q.records, o.inFlight = false := by
    intro x
    have huniq : ∀ o ∈ s.txq.records, o.inFlight = true → o.order = r.order := by
      intro o ho hof
      have h1 := x.flying
      by_contra hne
      have hne' : o ≠ r := fun e => hne (by rw [e])
      have : 2 ≤ s.txq.records.countP (fun r => r.inFlight) := by
        rw [List.countP_eq_length_filter]
        have ho' : o ∈ s.txq.records.filter fun r => r.inFlight := List.mem_filter.mpr ⟨ho, hof⟩
        have hr' : r ∈ s.txq.records.filter fun r => r.inFlight := List.mem_filter.mpr ⟨hm, hf⟩
        generalize s.txq.records.filter (fun r => r.inFlight) = l at *
        match l, ho', hr' with
        | [], h, _ => cases h
        | [a], h, h' => simp at h h'; exact absurd (h.trans h'.symm) hne'
        | _ :: _ :: _, _, _ => simp
      omega
    have hleave : ∀ o ∈ (s.txq.leave r.order).records, o.inFlight = false := by
      intro o ho
      obtain ⟨h1, h2⟩ := List.mem_filter.mp ho
      by_contra h3
      have := huniq o h1 (by simpa using h3)
      rw [this] at h2
      simp at h2
    have hkeep : ∀ a n, ∀ o ∈ (s.txq.keep r a n).records, o.inFlight = false := by
      intro a n o ho
      unfold TxQueue.keep at ho
      obtain ⟨y, hy, rfl⟩ := List.mem_map.mp ho
      split
      · rfl
      · rename_i hne
        by_contra h3
        exact hne (by simpa using huniq y (List.mem_filter.mp hy).1 (by simpa using h3))
    rw [hqd]
    unfold queueFailed
    split
    · exact hleave
    · split
      · exact hleave
      · exact hkeep _ _
  have step1 : Keeps b s { s with txq := q, line.driving := [], line.fails := bump 16 s.line.fails 1, stc.failedAttempts := bump 255 s.stc.failedAttempts 1 } := by
    have h0 := QueueKeeps.keeps s q false (fun h => by cases h) hq.1 b
    refine ⟨h0.latch, h0.lamp, fun x => ⟨x.out, x.slot, x.va, x.scan⟩, fun x => ?_, h0.load, fun x => ?_,
          fun _ => rfl⟩
    · have y := h0.queue x
      exact ⟨y.size, y.waiting, y.flying, y.orders, y.fresh, y.drops, fun _ => hnf x, y.shut, y.scan,
            y.sender, y.parked⟩
    · obtain ⟨x1, x2, x3, x4, x5, x6, x7⟩ := (h0.counts x).1
      have e1 : s.stc.failedAttempts ≤ bump 255 s.stc.failedAttempts 1 := by unfold bump; have : s.stc.failedAttempts ≤ 255 := x3; omega
      have e2 : bump 255 s.stc.failedAttempts 1 ≤ 255 := by unfold bump; omega
      have e3 : bump 16 s.line.fails 1 ≤ 16 := by unfold bump; omega
      exact ⟨⟨x1, x2, e2, e3, x5, x6, x7⟩, le_refl _, (h0.counts x).2.2.1, e1, fun _ => le_refl _,
            fun _ => le_refl _, id⟩
  unfold Machine.failAttempt
  dsimp only
  rw [hq.2]
  dsimp only
  split
  · rename_i hac
    refine step1.trans ?_
    set u : State := { s with txq := q, line.driving := [], line.fails := bump 16 s.line.fails 1, stc.failedAttempts := bump 255 s.stc.failedAttempts 1 } with hu
    have hua : u.line.state = .active := by simp at hac; exact hac.1
    have h1 := QueueKeeps.keeps u u.txq.enterQuiet false (fun h => by cases h) (TxQueue.enterQuiet_keeps _ _) b
    refine h1.trans ?_
    unfold Machine.enterQuiet holdPeriodic
    dsimp only
    refine ⟨id, id, fun x => ⟨x.out, x.slot, x.va, x.scan⟩, fun x => ⟨x.size, x.waiting, x.flying, x.orders,
          x.fresh, x.drops, x.released, fun k => (by rcases k with k | k <;> cases k), fun k => ?_, fun k => ?_, fun k => ?_⟩, id, fun x => ⟨x, CountsRise.refl _⟩, fun _ => rfl⟩
    · have := x.scan k
      rw [show ({ u with txq := u.txq.enterQuiet } : State).line.state = u.line.state from rfl, hua] at this
      cases this
    · have := x.sender k
      rw [show ({ u with txq := u.txq.enterQuiet } : State).line.state = u.line.state from rfl, hua] at this
      cases this
    · have := x.parked k
      rw [show ({ u with txq := u.txq.enterQuiet } : State).line.state = u.line.state from rfl, hua] at this
      cases this
  · exact step1

/-- The station stops driving with no record in flight, or ends its WAKE attempt (R3, R21). -/
theorem drivingEnds_keeps (s : State) (w : WakeRequest) (hw : w ≠ .sending) (rx : Reception) (lo : Bool)
    (hf : s.txq.flying = none ∨ s.line.wake = .sending) (b) :
   Keeps b s { s with line.driving := [], line.wake := w, line.rx := rx, line.lockout := lo } := by
  refine ⟨id, id, fun x => ⟨x.out, x.slot, x.va, x.scan⟩, fun x => ⟨x.size, x.waiting, x.flying, x.orders,
        x.fresh, x.drops, fun _ => ?_, x.shut, x.scan, fun k => absurd k hw, x.parked⟩, id, fun x => ⟨x, CountsRise.refl s⟩, fun _ => rfl⟩
  rcases hf with hf | hf
  · intro r hr
    unfold TxQueue.flying at hf
    have := List.find?_eq_none.mp hf r hr
    simpa using this
  · have := x.shut (.inr (x.sender hf))
    intro r hr
    change r ∈ s.txq.records at hr
    rw [this] at hr
    cases hr

theorem endWake_keeps (s : State) (b) (hf : s.txq.flying = none ∨ s.line.wake = .sending) : Keeps b s
    (endWake s) := by
  unfold Machine.endWake
  exact (drivingEnds_keeps s .none (by simp) s.line.rx s.line.lockout hf b).trans (warmStart_keeps _ _)

/-- Entry to PARKING (R175). -/
theorem enterParking_keeps (s b) (ha : s.stc.state = .awake) (hl : s.line.state ≠ .off) : Keeps b s
    (enterParking s) := by
  have h1 : Keeps b s (forSlots releaseSlot (vaStop s)) := ((vaStop_frame s).trans (forSlots_frame releaseSlot_frame _)).keeps b
  have hline := ((vaStop_frame s).trans (forSlots_frame releaseSlot_frame _)).line
  have hstc := ((vaStop_frame s).trans (forSlots_frame releaseSlot_frame _)).stc
  refine h1.trans ?_
  unfold enterParking
  dsimp only
  generalize forSlots releaseSlot (vaStop s) = u at *
  have hau : u.stc.state = .awake := by rw [hstc]; exact ha
  set w : State := { u with
    stc.state := .parking, stc.parkLeft := some Config.parkMicros, stc.statusTimer := .stopped,
    stc.parkedMark := true,
    line.state := .asleep, line.quietLeft := none, line.rx := .fresh u.line.rx.estimate,
    line.wake := .none, line.driving := [], line.priorCapture := none,
    txq := u.txq.emptied,
    dclk.timer := .stopped, dclk.firstPeriod := true,
    prg := .initial, ann := .initial, vtab.speaker := .notWanted,
    jck.jacks := u.jck.jacks.map Jack.hold, jck.panels := u.jck.panels.map Panel.stopTimers,
    lvl.wind := u.lvl.wind.cleared,
    lmp.claims := LampUnit.initial.claims, lmp.runKind := .none, lmp.runLen := 0, lmp.wish := .none } with hw
  have hv := (closeAll_frame w).trans (parkFade_frame (closeAll w))
  have hb := hv.keeps b
  have hz : ∀ c, ((parkFade (closeAll w)).lmp.chans.get c).target = 0 := by
    intro c
    simp only [parkFade, Chans.get_imap]
    exact Channel.fadeTo_target _ 0 _
  refine ⟨fun _ => hb.latch ⟨fun k => absurd rfl k, Nat.zero_le _⟩, fun _ => ⟨fun _ => hz, fun c _ => hz c,
        fun c _ k => absurd (hz c) k⟩,
    fun x => hb.sound ⟨x.out, x.slot, x.va, fun k => ?_⟩,
    fun x => hb.queue ⟨Nat.zero_le _, fun _ => by simp [hw, TxQueue.emptied], by simp [hw, TxQueue.emptied],
          by simp [hw, TxQueue.emptied], by simp [hw, TxQueue.emptied], x.drops, fun _ => by simp [hw, TxQueue.emptied], fun _ => rfl, fun k => ?_, fun k => (by cases k), fun _ => rfl⟩,
    fun x => (by have := x.1; rw [hau] at this; cases this), fun x => ?_, fun h => (hb.now h).trans rfl⟩
  · have h := (x.scan k).1
    rw [hau] at h
    cases h
  · have h := x.scan k
    rw [hline] at h
    exact absurd h hl
  · obtain ⟨x1, x2, x3, x4, x5, x6, x7⟩ := x
    have y : CountsBounded w := ⟨x1, x2, x3, x4, x5, x6,
          fun j => by simp [hw, Jack.hold]; split <;> exact x7 j⟩
    refine ⟨(hb.counts y).1, CountsRise.trans (t := w) ⟨le_refl _, le_refl _, le_refl _, fun _ => le_refl _,
          fun j => ?_, id⟩ (hb.counts y).2⟩
    simp [hw, Jack.hold]
    split <;> exact le_refl _

theorem wakeRequest_keeps (s b) : Keeps b s (wakeRequest s) := by
  unfold wakeRequest
  split
  · exact warmStart_keeps _ _
  · split
    · exact Keeps.refl _ _
    · exact Alike.keeps { wk := by intro h; dsimp only at h; split at h; cases h; exact h } b

theorem pressWakes_keeps (s b) : Keeps b s (pressWakes s) := by
  unfold pressWakes
  split
  exact wakeRequest_keeps _ _
  exact Keeps.refl _ _

theorem setPanel_keeps (j p s b) : Keeps b s (setPanel j p s) := Alike.keeps {} b

theorem setJack_keeps (j : Seat) (x : Jack) (s : State) (b)
    (hs : scanning s = true → SoundSafe s → x.state = .empty ∨ ¬ SoundSafe s) (hp : x.plugs = (s.jck.jacks.get j).plugs) : Keeps b s (setJack j x s) := by
  refine ⟨id, id, fun y => ⟨y.out, y.slot, y.va, fun k => ?_⟩, fun x => ⟨x.size, x.waiting, x.flying,
        x.orders, x.fresh, x.drops, x.released, x.shut, x.scan, x.sender, x.parked⟩, id, fun y => ?_, fun _ => rfl⟩
  · refine ⟨(y.scan k).1, fun i => ?_, (y.scan k).2.2⟩
    have := (y.scan k).2.1 i
    simp only [Machine.setJack, Seats.get_set]
    split
    · rcases hs k y with h | h
      · exact h
      · exact absurd y h
    · exact this
  · obtain ⟨x1, x2, x3, x4, x5, x6, x7⟩ := y
    refine ⟨⟨x1, x2, x3, x4, x5, x6, fun i => ?_⟩, le_refl _, le_refl _, le_refl _, fun _ => le_refl _,
          fun i => ?_, id⟩
    · simp only [Machine.setJack, Seats.get_set]
      split
      · rw [hp]
        exact x7 j
      · exact x7 i
    · simp only [Machine.setJack, Seats.get_set]
      split
      · rename_i e
        subst e
        rw [hp]
      · exact le_refl _

theorem awake_noscan {s : State} (h : s.stc.state ≠ .starting) (k : scanning s = true) (y : SoundSafe s) :
    False := h (y.scan k).1

theorem moveStep_keeps (d j s b) : Keeps b s (moveStep d j s) := by
  unfold Machine.moveStep
  dsimp only
  refine setJack_keeps j _ s b (fun k y => ?_) rfl
  left
  exact (y.scan k).2.1 j

theorem filt_ne {s : State} (h : filtersRun s = true) : s.stc.state ≠ .starting := by
  intro e
  unfold filtersRun at h
  rw [e] at h
  simp at h

theorem drivingBegins_keeps (s : State) (cs : List Byte) (hc : cs ≠ []) (rx : Reception) (b) : Keeps b s
    { s with line.driving := cs, line.rx := rx } := by
  refine ⟨id, id, fun x => ⟨x.out, x.slot, x.va, x.scan⟩, fun x => ⟨x.size, x.waiting, x.flying, x.orders,
        x.fresh, x.drops, fun k => absurd k hc, x.shut, x.scan, x.sender, x.parked⟩, id, fun x => ⟨x, CountsRise.refl s⟩, fun _ => rfl⟩

theorem headFold_mem (l : List Record) : ∀ (acc : Option Record) (r : Record), l.foldl
    (fun acc r => match acc with | none => some r | some b => if r.before b then some r else some b) acc = some r → r ∈ l ∨ acc = some r := by
  induction l with
  | nil => intro acc r h; right; exact h
  | cons a l ih =>
    intro acc r h
    simp only [List.foldl] at h
    rcases ih _ _ h with h | h
    · left
      exact List.mem_cons_of_mem _ h
    · cases acc with
      | none => left; simp at h; simp [h]
      | some c => dsimp only at h; split at h
                  · left
                    injection h with h
                    simp [h]
                  · right
                    exact h

/-- An idle gap with nothing driven (R3, R40, R41). -/
theorem gap_keeps (s b) (hd : s.line.driving = []) (hl : s.line.state ≠ .off ∧ s.line.state ≠ .asleep) :
    Keeps b s (gap s) := by
  unfold Machine.gap
  split
  · rename_i r hr
    have hm : r ∈ s.txq.records := by
      unfold headOffered at hr
      split at hr
      · cases hr
      · split at hr
        · rename_i r' hh
          split at hr
          · injection hr with hr
            subst hr
            rcases headFold_mem _ _ _ hh with h | h
            · exact h
            · cases h
          · cases hr
        · cases hr
    have hne : frameChars r.kind.code r.kind.cls s.stc.origin (bodySent (s.dclk.now.addMicros Config.breakToEdgeMicros) r) ≠ [] := by unfold frameChars; simp
    unfold beginRecord followOwn
    dsimp only
    refine ⟨id, id, fun x => ⟨x.out, x.slot, x.va, x.scan⟩, fun x => ?_, id, fun x => ⟨x,
          CountsRise.refl s⟩, fun _ => rfl⟩
    have hnf := x.released hd
    refine ⟨by show (s.txq.records.map _).length ≤ 4; rw [List.length_map]; exact x.size, fun k => ?_, ?_,
          ?_, ?_, x.drops, fun k => absurd k hne, fun k => ?_, x.scan, x.sender, x.parked⟩
    · show List.countP _ (s.txq.records.map _) ≤ 1
      rw [List.countP_map]
      refine le_trans (List.countP_mono_left (q := fun y => y.waits k) ?_) (x.waiting k)
      intro y hy hw
      simp only [Function.comp] at hw
      split at hw
      · simp [Record.waits] at hw
      · exact hw
    · show List.countP _ (s.txq.records.map _) ≤ 1
      rw [List.countP_map]
      refine le_trans (List.countP_mono_left (q := fun y => y.order == r.order) ?_) ?_
      · intro y hy hw
        simp only [Function.comp] at hw
        split at hw
        · assumption
        · rw [hnf y hy] at hw
          cases hw
      · have : ∀ (l : List Record), l.Pairwise (fun x y => x.order < y.order) → l.countP (fun x => x.order == r.order) ≤ 1 := by
          intro l hl
          induction l with
          | nil => simp
          | cons b l ih =>
            rw [List.pairwise_cons] at hl
            rw [List.countP_cons]
            split
            · rename_i hb'
              simp at hb'
              rw [List.countP_eq_zero.mpr (fun x hx => by have := hl.1 x hx; simp; omega)]
            · exact ih hl.2
        exact this _ x.orders
    · show List.Pairwise _ (s.txq.records.map _)
      rw [List.pairwise_map]
      refine x.orders.imp (fun {y z} h => ?_)
      split <;> split <;> exact h
    · intro y hy
      change y ∈ s.txq.records.map _ at hy
      obtain ⟨z, hz, rfl⟩ := List.mem_map.mp hy
      have := x.fresh z hz
      split <;> exact this
    · have hk := x.shut k
      rw [hk] at hm
      cases hm
  · exact QueueKeeps.keeps s _ false (fun h => by cases h) (TxQueue.countDown_keeps _ _) b

theorem lineMoves_keeps (s : State) (l : LineState) (hl : l ≠ .off ∧ l ≠ .asleep)
    (hs : s.line.state ≠ .off ∧ s.line.state ≠ .asleep) (rx : Reception) (f : Nat) (q : Option Nat) (hf : f = s.line.fails ∨ f = 8) (t1 t2 : Timer) (b) :
   Keeps b s { s with line.state := l, line.rx := rx, line.fails := f, line.quietLeft := q, dclk.timer := t1, stc.statusTimer := t2 } := by
  refine ⟨id, id, fun x => ⟨x.out, x.slot, x.va, x.scan⟩, fun x => ⟨x.size, x.waiting, x.flying, x.orders,
        x.fresh, x.drops, x.released, fun k => ?_, fun k => absurd (x.scan k) hs.1, fun k => absurd (x.sender k) hs.2, fun k => absurd (x.parked k) hs.2⟩, id, fun x => ?_, fun _ => rfl⟩
  · rcases k with k | k
    · exact absurd k hl.1
    · exact absurd k hl.2
  · obtain ⟨x1, x2, x3, x4, x5, x6, x7⟩ := x
    refine ⟨⟨x1, x2, x3, ?_, x5, x6, x7⟩, CountsRise.refl s⟩
    rcases hf with e | e
    · show f ≤ 16
      rw [e]
      exact x4
    · show f ≤ 16
      omega

theorem recordSent_keeps (s : State) (r : Record) (hr : s.txq.flying = some r) (b) : Keeps b s
    { s with
      line.fails := 0, line.driving := [], line.priorCapture := none, line.rx := .fresh Config.nominalBit,
      txq := s.txq.leave r.order } := by
  obtain ⟨hm, hf⟩ := TxQueue.flying_mem hr
  have h0 := QueueKeeps.keeps s (s.txq.leave r.order) false (fun h => by cases h) (TxQueue.leave_keeps _ _ _) b
  refine ⟨h0.latch, h0.lamp, fun x => ⟨x.out, x.slot, x.va, x.scan⟩, fun x => ?_, h0.load, fun x => ?_,
        fun _ => rfl⟩
  · have y := h0.queue x
    refine ⟨y.size, y.waiting, y.flying, y.orders, y.fresh, y.drops, fun _ => ?_, y.shut, y.scan, y.sender,
          y.parked⟩
    intro o ho
    obtain ⟨h1, h2⟩ := List.mem_filter.mp ho
    by_contra h3
    have hof : o.inFlight = true := by simpa using h3
    have hne' : o ≠ r := fun e => by rw [e] at h2; simp at h2
    have : 2 ≤ s.txq.records.countP (fun r => r.inFlight) := by
      rw [List.countP_eq_length_filter]
      have ho' : o ∈ s.txq.records.filter fun r => r.inFlight := List.mem_filter.mpr ⟨h1, hof⟩
      have hr' : r ∈ s.txq.records.filter fun r => r.inFlight := List.mem_filter.mpr ⟨hm, hf⟩
      generalize s.txq.records.filter (fun r => r.inFlight) = l at *
      match l, ho', hr' with
      | [], h, _ => cases h
      | [a], h, h' => simp at h h'; exact absurd (h.trans h'.symm) hne'
      | _ :: _ :: _, _, _ => simp
    have := x.flying
    omega
  · obtain ⟨x1, x2, x3, x4, x5, x6, x7⟩ := (h0.counts x).1
    exact ⟨⟨x1, x2, x3, Nat.zero_le _, x5, x6, x7⟩, (h0.counts x).2⟩

theorem recordLost_keeps (s : State) (r : Record) (hr : s.txq.flying = some r) (bit b) : Keeps b s
    (stopDriving bit { s with txq := s.txq.lost r }) := by
  obtain ⟨hm, hf⟩ := TxQueue.flying_mem hr
  have hq : QueueKeeps false s.txq (s.txq.lost r) := by unfold TxQueue.lost; split; exact TxQueue.leave_keeps _ _ _; exact TxQueue.keep_keeps _ _ _ _ _ hm hf
  have h0 := QueueKeeps.keeps s (s.txq.lost r) false (fun h => by cases h) hq b
  unfold stopDriving
  dsimp only
  refine ⟨h0.latch, h0.lamp, fun x => ⟨x.out, x.slot, x.va, x.scan⟩, fun x => ?_, h0.load,
        fun x => h0.counts x, fun _ => rfl⟩
  have y := h0.queue x
  have huniq : ∀ o ∈ s.txq.records, o.inFlight = true → o.order = r.order := by
    intro o ho hof
    have h1 := x.flying
    by_contra hne
    have hne' : o ≠ r := fun e => hne (by rw [e])
    have : 2 ≤ s.txq.records.countP (fun r => r.inFlight) := by
      rw [List.countP_eq_length_filter]
      have ho' : o ∈ s.txq.records.filter fun r => r.inFlight := List.mem_filter.mpr ⟨ho, hof⟩
      have hr' : r ∈ s.txq.records.filter fun r => r.inFlight := List.mem_filter.mpr ⟨hm, hf⟩
      generalize s.txq.records.filter (fun r => r.inFlight) = l at *
      match l, ho', hr' with
      | [], h, _ => cases h
      | [a], h, h' => simp at h h'; exact absurd (h.trans h'.symm) hne'
      | _ :: _ :: _, _, _ => simp
    omega
  refine ⟨y.size, y.waiting, y.flying, y.orders, y.fresh, y.drops, fun _ => ?_, y.shut, y.scan, y.sender,
        y.parked⟩
  intro o ho
  change o ∈ (s.txq.lost r).records at ho
  unfold TxQueue.lost at ho
  split at ho
  · obtain ⟨h1, h2⟩ := List.mem_filter.mp ho
    by_contra h3
    have := huniq o h1 (by simpa using h3)
    rw [this] at h2
    simp at h2
  · unfold TxQueue.keep at ho
    obtain ⟨y, hy, rfl⟩ := List.mem_map.mp ho
    split
    · rfl
    · rename_i hne
      by_contra h3
      exact hne (by simpa using huniq y (List.mem_filter.mp hy).1 (by simpa using h3))

end Sys2Proof.Machine
end

