-- ==== Sys2Proof/WellFormed.lean ====
section
/-! DEFINITION. What the environment promises of a command's operands: the bounds the data sheet gives
what can arrive. `exec` is total and does not rely on them; an operand outside them is taken as the
definitions of Machine/ say (log entries 9 and 12). -/

namespace Sys2Proof

/-- The first run is a BREAK: 11 to 250 nominal bit times, 2,000 us (R4, R13). -/
def RxFrame.breakOk (f : RxFrame) : Bool :=
  match f.runs with
  | d :: _ => 1056 ≤ d && d ≤ 24000
  | [] => false

/-- The line changes its level at the end of every run. -/
def RxFrame.runsOk (f : RxFrame) : Bool := f.runs.all fun d => 1 ≤ d

/-- A BREAK, a delimiter of fewer than 12 bit times and the receive limit are the longest reception (R4, R14). -/
def RxFrame.lengthOk (f : RxFrame) : Bool := f.runs.sum ≤ 24000 + 1152 + 24000

/-- The operand of a command of the receiver is the line of one reception. -/
def RxFrame.wellFormed (f : RxFrame) : Bool := f.breakOk && f.runsOk && f.lengthOk

/-- The checks of one command's operands. -/
def Instr.wellFormed : Instr → Bool
  | .powerOn _ _ => true
  | .headerReadDone data => data.length == 104
  | .scanChunkDone data => 1 ≤ data.length && data.length ≤ 4096
  | .probeDone data => data.length == 12
  | .blockReadDone data => 1 ≤ data.length && data.length ≤ 256
  | .transactionTimeout => true
  | .idleGap => true
  | .attemptSent => true
  | .attemptLost bit => bit < 184
  | .attemptFailed bit => bit < 184
  | .quietPeriodEnd => true
  | .lineStuck => true
  | .jabber => true
  | .jabberLockoutClear => true
  | .receiveTimeout => true
  | .frameError f => f.wellFormed
  | .receiveTime f => f.wellFormed
  | .receiveCue f => f.wellFormed
  | .receiveHush f => f.wellFormed
  | .receiveAnnounce f => f.wellFormed
  | .receiveStopReq f => f.wellFormed
  | .receiveDoor f => f.wellFormed
  | .receiveScene f => f.wellFormed
  | .receiveStatus f => f.wellFormed
  | .receivePark f => f.wellFormed
  | .wakeMatch f => f.wellFormed
  | .wakeAttemptEnd failedAt => failedAt.all fun bit => bit < 124
  | .wakeWaitExpiry => true
  | .parkTimerExpiry => true
  | .timeTimerExpiry => true
  | .statusTimerExpiry => true
  | .cuePromotion => true
  | .chimeStart => true
  | .doorEntryExpiry => true
  | .claimExpiry => true
  | .sampleTick => true
  | .blockBoundary _ => true
  | .clipEnd _ => true
  | .nameCapExpiry => true
  | .seatInputSample _ => true
  | .plug _ => true
  | .unplug _ => true
  | .settleEnd _ => true
  | .volUpPress _ => true
  | .volDownPress _ => true
  | .volRelease _ _ => true
  | .volRepeat _ _ => true
  | .langPress _ => true
  | .langRelease _ => true
  | .langHoldExpiry _ => true
  | .stopPress _ => true
  | .doorSwitchOpen => true
  | .doorSwitchClosed => true
  | .doorRefresh => true
  | .gainUpdate => true
  | .sourceSilenceEnd _ => true
  | .windSample _ => true
  | .windWindowEnd => true
  | .fadeTick => true
  | .ambientSample _ => true
  | .wishSet => true
  | .lampCheck _ => true
  | .lampFaultChange _ => true
  | .foreignFrame _ f => f.wellFormed

end Sys2Proof
end

