-- ==== Sys2Proof/Laws/PerInstr.lean ====
section
/-! SUPPORT. A property of every command as syntax: a well-formed command carries no more than the
largest thing that can arrive, one lemma a command. -/

set_option Elab.async false

namespace Sys2Proof.Laws.WellFormedBounds

/-- The bytes, or the runs of the line, that a command brings with it. -/
def payload : Instr → Nat
  | .powerOn _ _ => 0
  | .headerReadDone data => data.length
  | .scanChunkDone data => data.length
  | .probeDone data => data.length
  | .blockReadDone data => data.length
  | .transactionTimeout => 0
  | .idleGap => 0
  | .attemptSent => 0
  | .attemptLost _ => 0
  | .attemptFailed _ => 0
  | .quietPeriodEnd => 0
  | .lineStuck => 0
  | .jabber => 0
  | .jabberLockoutClear => 0
  | .receiveTimeout => 0
  | .frameError f => f.runs.length
  | .receiveTime f => f.runs.length
  | .receiveCue f => f.runs.length
  | .receiveHush f => f.runs.length
  | .receiveAnnounce f => f.runs.length
  | .receiveStopReq f => f.runs.length
  | .receiveDoor f => f.runs.length
  | .receiveScene f => f.runs.length
  | .receiveStatus f => f.runs.length
  | .receivePark f => f.runs.length
  | .wakeMatch f => f.runs.length
  | .wakeAttemptEnd _ => 0
  | .wakeWaitExpiry => 0
  | .parkTimerExpiry => 0
  | .timeTimerExpiry => 0
  | .statusTimerExpiry => 0
  | .cuePromotion => 0
  | .chimeStart => 0
  | .doorEntryExpiry => 0
  | .claimExpiry => 0
  | .sampleTick => 0
  | .blockBoundary _ => 0
  | .clipEnd _ => 0
  | .nameCapExpiry => 0
  | .seatInputSample _ => 0
  | .plug _ => 0
  | .unplug _ => 0
  | .settleEnd _ => 0
  | .volUpPress _ => 0
  | .volDownPress _ => 0
  | .volRelease _ _ => 0
  | .volRepeat _ _ => 0
  | .langPress _ => 0
  | .langRelease _ => 0
  | .langHoldExpiry _ => 0
  | .stopPress _ => 0
  | .doorSwitchOpen => 0
  | .doorSwitchClosed => 0
  | .doorRefresh => 0
  | .gainUpdate => 0
  | .sourceSilenceEnd _ => 0
  | .windSample _ => 0
  | .windWindowEnd => 0
  | .fadeTick => 0
  | .ambientSample _ => 0
  | .wishSet => 0
  | .lampCheck _ => 0
  | .lampFaultChange _ => 0
  | .foreignFrame _ f => f.runs.length

/-- A well-formed command carries no more than the longest reception has counts (R4, R14); a scan chunk's 4,096
bytes are fewer (R71). -/
def Statement (i : Instr) : Prop := i.wellFormed = true → payload i ≤ 49152

/-- Runs of one count or more are no more than their counts. -/
theorem length_le_sum : ∀ runs : List Nat, (∀ d ∈ runs, 1 ≤ d) → runs.length ≤ runs.sum
  | [], _ => Nat.le_refl _
  | d :: rest, h => by
    have hd := h d (List.mem_cons_self ..)
    have hr := length_le_sum rest fun x hx => h x (List.mem_cons_of_mem _ hx)
    simp only [List.length_cons, List.sum_cons]
    omega

theorem frame_runs (f : RxFrame) (h : f.wellFormed = true) : f.runs.length ≤ 49152 := by
  simp only [RxFrame.wellFormed, RxFrame.runsOk, RxFrame.lengthOk, Bool.and_eq_true, List.all_eq_true,
    decide_eq_true_eq] at h
  exact (length_le_sum f.runs h.1.2).trans h.2

theorem powerOn (origin : Origin) (load : Bool) : Statement (.powerOn origin load) := fun _ => Nat.zero_le _
theorem headerReadDone (data : List Byte) : Statement (.headerReadDone data) := fun h => by
  simp [Instr.wellFormed] at h
  simp only [payload]; omega
theorem scanChunkDone (data : List Byte) : Statement (.scanChunkDone data) := fun h => by
  simp [Instr.wellFormed] at h
  simp only [payload]; omega
theorem probeDone (data : List Byte) : Statement (.probeDone data) := fun h => by
  simp [Instr.wellFormed] at h
  simp only [payload]; omega
theorem blockReadDone (data : List Byte) : Statement (.blockReadDone data) := fun h => by
  simp [Instr.wellFormed] at h
  simp only [payload]; omega
theorem transactionTimeout : Statement (.transactionTimeout) := fun _ => Nat.zero_le _
theorem idleGap : Statement (.idleGap) := fun _ => Nat.zero_le _
theorem attemptSent : Statement (.attemptSent) := fun _ => Nat.zero_le _
theorem attemptLost (bit : Nat) : Statement (.attemptLost bit) := fun _ => Nat.zero_le _
theorem attemptFailed (bit : Nat) : Statement (.attemptFailed bit) := fun _ => Nat.zero_le _
theorem quietPeriodEnd : Statement (.quietPeriodEnd) := fun _ => Nat.zero_le _
theorem lineStuck : Statement (.lineStuck) := fun _ => Nat.zero_le _
theorem jabber : Statement (.jabber) := fun _ => Nat.zero_le _
theorem jabberLockoutClear : Statement (.jabberLockoutClear) := fun _ => Nat.zero_le _
theorem receiveTimeout : Statement (.receiveTimeout) := fun _ => Nat.zero_le _
theorem frameError (f : RxFrame) : Statement (.frameError f) := fun h => frame_runs f h
theorem receiveTime (f : RxFrame) : Statement (.receiveTime f) := fun h => frame_runs f h
theorem receiveCue (f : RxFrame) : Statement (.receiveCue f) := fun h => frame_runs f h
theorem receiveHush (f : RxFrame) : Statement (.receiveHush f) := fun h => frame_runs f h
theorem receiveAnnounce (f : RxFrame) : Statement (.receiveAnnounce f) := fun h => frame_runs f h
theorem receiveStopReq (f : RxFrame) : Statement (.receiveStopReq f) := fun h => frame_runs f h
theorem receiveDoor (f : RxFrame) : Statement (.receiveDoor f) := fun h => frame_runs f h
theorem receiveScene (f : RxFrame) : Statement (.receiveScene f) := fun h => frame_runs f h
theorem receiveStatus (f : RxFrame) : Statement (.receiveStatus f) := fun h => frame_runs f h
theorem receivePark (f : RxFrame) : Statement (.receivePark f) := fun h => frame_runs f h
theorem wakeMatch (f : RxFrame) : Statement (.wakeMatch f) := fun h => frame_runs f h
theorem wakeAttemptEnd (failedAt : Option Nat) : Statement (.wakeAttemptEnd failedAt) := fun _ => Nat.zero_le _
theorem wakeWaitExpiry : Statement (.wakeWaitExpiry) := fun _ => Nat.zero_le _
theorem parkTimerExpiry : Statement (.parkTimerExpiry) := fun _ => Nat.zero_le _
theorem timeTimerExpiry : Statement (.timeTimerExpiry) := fun _ => Nat.zero_le _
theorem statusTimerExpiry : Statement (.statusTimerExpiry) := fun _ => Nat.zero_le _
theorem cuePromotion : Statement (.cuePromotion) := fun _ => Nat.zero_le _
theorem chimeStart : Statement (.chimeStart) := fun _ => Nat.zero_le _
theorem doorEntryExpiry : Statement (.doorEntryExpiry) := fun _ => Nat.zero_le _
theorem claimExpiry : Statement (.claimExpiry) := fun _ => Nat.zero_le _
theorem sampleTick : Statement (.sampleTick) := fun _ => Nat.zero_le _
theorem blockBoundary (v : VoiceId) : Statement (.blockBoundary v) := fun _ => Nat.zero_le _
theorem clipEnd (v : VoiceId) : Statement (.clipEnd v) := fun _ => Nat.zero_le _
theorem nameCapExpiry : Statement (.nameCapExpiry) := fun _ => Nat.zero_le _
theorem seatInputSample (levels : SeatPins) : Statement (.seatInputSample levels) := fun _ => Nat.zero_le _
theorem plug (s : Seat) : Statement (.plug s) := fun _ => Nat.zero_le _
theorem unplug (s : Seat) : Statement (.unplug s) := fun _ => Nat.zero_le _
theorem settleEnd (s : Seat) : Statement (.settleEnd s) := fun _ => Nat.zero_le _
theorem volUpPress (s : Seat) : Statement (.volUpPress s) := fun _ => Nat.zero_le _
theorem volDownPress (s : Seat) : Statement (.volDownPress s) := fun _ => Nat.zero_le _
theorem volRelease (s : Seat) (b : VolButton) : Statement (.volRelease s b) := fun _ => Nat.zero_le _
theorem volRepeat (s : Seat) (b : VolButton) : Statement (.volRepeat s b) := fun _ => Nat.zero_le _
theorem langPress (s : Seat) : Statement (.langPress s) := fun _ => Nat.zero_le _
theorem langRelease (s : Seat) : Statement (.langRelease s) := fun _ => Nat.zero_le _
theorem langHoldExpiry (s : Seat) : Statement (.langHoldExpiry s) := fun _ => Nat.zero_le _
theorem stopPress (s : Seat) : Statement (.stopPress s) := fun _ => Nat.zero_le _
theorem doorSwitchOpen : Statement (.doorSwitchOpen) := fun _ => Nat.zero_le _
theorem doorSwitchClosed : Statement (.doorSwitchClosed) := fun _ => Nat.zero_le _
theorem doorRefresh : Statement (.doorRefresh) := fun _ => Nat.zero_le _
theorem gainUpdate : Statement (.gainUpdate) := fun _ => Nat.zero_le _
theorem sourceSilenceEnd (o : Output) : Statement (.sourceSilenceEnd o) := fun _ => Nat.zero_le _
theorem windSample (level : Byte) : Statement (.windSample level) := fun _ => Nat.zero_le _
theorem windWindowEnd : Statement (.windWindowEnd) := fun _ => Nat.zero_le _
theorem fadeTick : Statement (.fadeTick) := fun _ => Nat.zero_le _
theorem ambientSample (level : Byte) : Statement (.ambientSample level) := fun _ => Nat.zero_le _
theorem wishSet : Statement (.wishSet) := fun _ => Nat.zero_le _
theorem lampCheck (sense : SenseLines) : Statement (.lampCheck sense) := fun _ => Nat.zero_le _
theorem lampFaultChange (ch : Chan) : Statement (.lampFaultChange ch) := fun _ => Nat.zero_le _
theorem foreignFrame (k : ForeignKind) (f : RxFrame) : Statement (.foreignFrame k f) := fun h => frame_runs f h

end Sys2Proof.Laws.WellFormedBounds
end

