-- ==== Sys2Proof/Laws/Receiver.lean ====
section
/-! SUPPORT. What the receiver hears of the line under one driver that sends bits of equal length: the level at a
time is that of the bit there, the edge of a start bit is found at its place, and each character is taken as sent. -/

set_option Elab.async false

namespace Sys2Proof.Machine

open Sys2Proof

/-- The level at a half count is that of the bit there (R2, R6). -/
theorem levelAt_runsFrom (b : Nat) (hb : 0 < b) : ∀ (bs : List Bool) (lv : Bool) (n t : Nat),
    levelAt lv (runsFrom b lv n bs) t = if t < 2*n then lv else bs.getD ((t-2*n)/(2*b)) true := by
  intro bs
  induction bs with
  | nil => intro lv n t; simp [runsFrom, levelAt]
  | cons x rest ih =>
    intro lv n t
    unfold runsFrom
    split
    · rename_i h; subst h
      rw [ih]
      by_cases h1 : t < 2*n
      · rw [if_pos h1, if_pos (by omega)]
      · rw [if_neg h1]
        by_cases h2 : t < 2*(n+b)
        · rw [if_pos h2, Nat.div_eq_of_lt (by omega)]; rfl
        · rw [if_neg h2, show t - 2*n = (t - 2*(n+b)) + 2*b by omega, Nat.add_div_right _ (by omega)]; rfl
    · rename_i h
      have hx : x = !lv := by cases x <;> cases lv <;> simp_all
      unfold levelAt
      by_cases h1 : t < 2*n
      · rw [if_pos h1, if_pos h1]
      · rw [if_neg h1, if_neg h1, ← hx, ih]
        by_cases h2 : t - 2*n < 2*b
        · rw [if_pos h2, Nat.div_eq_of_lt h2]; rfl
        · rw [if_neg h2, show t - 2*n = (t - 2*n - 2*b) + 2*b by omega, Nat.add_div_right _ (by omega)]; simp

/-- A list of bits has a run. -/
theorem runsFrom_cons (b : Nat) : ∀ (bs : List Bool) (lv : Bool) (n : Nat), ∃ d r, runsFrom b lv n bs = d :: r := by
  intro bs
  induction bs with
  | nil => intro lv n; exact ⟨n, [], rfl⟩
  | cons x rest ih =>
    intro lv n
    unfold runsFrom
    split
    · exact ih _ _
    · exact ⟨_, _, rfl⟩

/-- A dominant bit after a recessive one is the first edge looked for from within that one (R6). -/
theorem edgeFrom_runsFrom (b : Nat) (hb : 0 < b) (e : Nat) : ∀ (bs : List Bool) (lv : Bool) (t n i : Nat),
    bs[i]? = some false → (i = 0 → lv = true) → (∀ j, i = j+1 → bs[j]? = some true ∧ 2*(t+n+j*b) < e) →
    e ≤ 2*(t+n+i*b) → edgeFrom e lv t (runsFrom b lv n bs) = some (t+n+i*b) := by
  intro bs
  induction bs with
  | nil => intro lv t n i h; simp at h
  | cons x rest ih =>
    intro lv t n i h h0 h1 h2
    cases i with
    | zero =>
      have := h0 rfl; subst this
      simp at h; subst h
      obtain ⟨d, r, hd⟩ := runsFrom_cons b rest false b
      simp [runsFrom, edgeFrom, hd] at *
      omega
    | succ j =>
      obtain ⟨h3, h4⟩ := h1 j rfl
      simp at h
      unfold runsFrom
      split
      · rename_i hx; subst hx
        rw [ih x t (n+b) j h (fun hj => by subst hj; simpa using h3) (fun k hk => ?_) (by nlinarith)]
        · congr 1; nlinarith
        · subst hk; simp at h3; exact ⟨h3, by nlinarith⟩
      · rename_i hx
        cases lv with
        | true =>
          have hx : x = false := by cases x <;> simp_all
          subst hx
          unfold edgeFrom
          rw [ih false (t+n) b j h (fun hj => by subst hj; simp at h3) (fun k hk => ?_) (by nlinarith)]
          · congr 1; nlinarith
          · subst hk; simp at h3; exact ⟨h3, by nlinarith⟩
        | false =>
          have hx : x = true := by cases x <;> simp_all
          subst hx
          unfold edgeFrom
          rw [if_neg (by nlinarith)]
          rw [ih true (t+n) b j h (fun _ => rfl) (fun k hk => ?_) (by nlinarith)]
          · congr 1; nlinarith
          · subst hk; simp at h3; exact ⟨h3, by nlinarith⟩

/-- No more than nine dominant bits stand together, so many having come already. -/
def zerosShort : Nat → List Bool → Bool
  | _, [] => true
  | z, false :: r => z + 1 ≤ 9 && zerosShort (z+1) r
  | _, true :: r => zerosShort 0 r

/-- A line with at most nine dominant bits together is never BROKEN (R13). -/
theorem brokenFrom_runsFrom (b : Nat) (hb : 0 < b) (h9 : 9*b < 1056) : ∀ (bs : List Bool) (t n z : Nat),
    (n ≤ z*b → z ≤ 9 → zerosShort z bs = true → brokenFrom false t (runsFrom b false n bs) = none)
    ∧ (zerosShort 0 bs = true → brokenFrom true t (runsFrom b true n bs) = none) := by
  intro bs
  induction bs with
  | nil => intro t n z; refine ⟨fun h hz _ => ?_, fun _ => rfl⟩; unfold runsFrom brokenFrom; rw [if_neg (by simp [Config.breakCounts, Config.nominalBit]; nlinarith)]; rfl
  | cons x rest ih =>
    intro t n z
    refine ⟨fun h hz hk => ?_, fun hk => ?_⟩
    · unfold runsFrom
      cases x with
      | false => simp [zerosShort] at hk; simp; exact (ih t (n+b) (z+1)).1 (by nlinarith) (by omega) hk.2
      | true =>
        simp [zerosShort] at hk; simp; unfold brokenFrom; rw [if_neg (by simp [Config.breakCounts, Config.nominalBit]; nlinarith)]
        exact (ih _ b 0).2 hk
    · unfold runsFrom
      cases x with
      | false => simp [zerosShort] at hk; simp; unfold brokenFrom; exact (ih _ b 1).1 (by omega) (by omega) hk
      | true => simp [zerosShort] at hk; simp; exact (ih t (n+b) z).2 hk

/-- A character ends recessive and has at most nine dominant bits (R2, R13). -/
theorem zerosShort_char (c : Byte) (rest : List Bool) : zerosShort 0 (charBits c ++ rest) = zerosShort 0 rest := by
  unfold charBits
  generalize c.getLsbD 7 = a7; generalize c.getLsbD 6 = a6; generalize c.getLsbD 5 = a5; generalize c.getLsbD 4 = a4
  generalize c.getLsbD 3 = a3; generalize c.getLsbD 2 = a2; generalize c.getLsbD 1 = a1; generalize c.getLsbD 0 = a0
  cases a7 <;> cases a6 <;> cases a5 <;> cases a4 <;> cases a3 <;> cases a2 <;> cases a1 <;> cases a0 <;> simp [zerosShort]

/-- Characters one after another are never a BREAK (R13). -/
theorem zerosShort_chars (cs : List Byte) : zerosShort 0 (cs.map charBits).flatten = true := by
  induction cs with
  | nil => rfl
  | cons c cs ih => simp only [List.map_cons, List.flatten_cons]; rw [zerosShort_char]; exact ih

/-- The bits from the ninth TUNE edge on (R2). -/
def tailBits (cs : List Byte) : List Bool := false :: true :: (cs.map charBits).flatten

/-- Where a bit of a character stands among the characters. -/
theorem charBits_flatten (cs : List Byte) : ∀ k j c, cs[k]? = some c → j < 10 → (cs.map charBits).flatten[10*k+j]? = (charBits c)[j]? := by
  induction cs with
  | nil => intro k j c h; simp at h
  | cons a cs ih =>
    intro k j c h hj
    have hl : (charBits a).length = 10 := rfl
    simp only [List.map_cons, List.flatten_cons]
    cases k with
    | zero => simp at h; subst h; rw [List.getElem?_append_left (by rw [hl]; omega)]; simp
    | succ k =>
      simp at h
      rw [List.getElem?_append_right (by rw [hl]; omega), hl, show 10*(k+1)+j-10 = 10*k+j by omega]
      exact ih k j c h hj

/-- Where a bit of a character stands from the ninth TUNE edge on. -/
theorem tailBits_get (cs : List Byte) (k j c) (h : cs[k]? = some c) (hj : j < 10) : (tailBits cs)[2+10*k+j]? = (charBits c)[j]? := by
  rw [show 2+10*k+j = (10*k+j)+1+1 by omega]
  simp only [tailBits, List.getElem?_cons_succ]
  exact charBits_flatten cs k j c h hj

/-- The data bits of a character are the character (R2). -/
theorem charBits_byte (c : Byte) : BitVec.ofNat 8 ((List.range 8).foldl (fun n k => 2*n + if ((charBits c).getD (k+1) true) then 1 else 0) 0) = c := by
  revert c; decide +kernel

/-- The receiver stands before the character of a number, with an estimate (R6). -/
structure Standing (b : Nat) (r : Reception) (k : Nat) : Prop where
  est : r.estimate = b
  len : r.chars.length = k
  anc : k = 0 ∨ r.anchor = (4 + 20*(k-1)) * b

/-- Each character is taken as sent, anchored at its own start (R6). -/
theorem Reception.hear_wave (b : Nat) (hb : 0 < b) (cs : List Byte) (k : Nat) (c : Byte) (h : cs[k]? = some c) (r : Reception) (hr : Standing b r k) (p : Bool) :
    r.hear p (runsFrom b false 0 (tailBits cs)) = .good (r.take p ((4+20*k)*b) c) ∧ Standing b (r.take p ((4+20*k)*b) c) (k+1) := by
  have hexp : r.expected = (4+20*k)*b := by
    unfold Reception.expected; rw [hr.est]
    cases k with
    | zero => have := List.length_eq_zero_iff.mp hr.len; simp [this]
    | succ k =>
      have h2 : r.chars.isEmpty = false := by cases hc : r.chars with
        | nil => have := hr.len; rw [hc] at this; simp at this
        | cons => rfl
      rcases hr.anc with h3 | h3
      · omega
      · rw [h2, h3]; simp; ring
  have hlook : r.lookFrom = (3+20*k)*b := by
    unfold Reception.lookFrom; rw [hr.est]
    cases k with
    | zero => have := List.length_eq_zero_iff.mp hr.len; simp [this]
    | succ k =>
      have h2 : r.chars.isEmpty = false := by cases hc : r.chars with
        | nil => have := hr.len; rw [hc] at this; simp at this
        | cons => rfl
      rcases hr.anc with h3 | h3
      · omega
      · rw [h2, h3]; simp; ring
  have hprev : (tailBits cs)[1+10*k]? = some true := by
    cases k with
    | zero => rfl
    | succ k =>
      have : ∃ c', cs[k]? = some c' := by
        have : k+1 < cs.length := by rw [List.getElem?_eq_some_iff] at h; exact h.1
        exact ⟨cs[k], List.getElem?_eq_getElem (by omega)⟩
      obtain ⟨c', hc'⟩ := this
      have := tailBits_get cs k 9 c' hc' (by omega)
      rw [show 1+10*(k+1) = 2+10*k+9 by omega, this]; rfl
  have hstart : (tailBits cs)[2+10*k]? = some false := by
    have := tailBits_get cs k 0 c h (by omega)
    simpa [charBits] using this
  have hedge := edgeFrom_runsFrom b hb r.lookFrom (tailBits cs) false 0 0 (2+10*k) hstart (by omega)
    (fun j hj => ⟨by rw [show j = 1+10*k by omega]; exact hprev, by rw [hlook, show j = 1+10*k by omega]; nlinarith⟩)
    (by rw [hlook]; nlinarith)
  have hanc : r.nextAnchor (runsFrom b false 0 (tailBits cs)) = (4+20*k)*b := by
    unfold Reception.nextAnchor; rw [hedge]; dsimp only
    rw [if_pos (by rw [hexp, hr.est]; nlinarith)]; ring
  have hbit : ∀ j, j < 10 → bitAt (runsFrom b false 0 (tailBits cs)) ((4+20*k)*b) b j = (charBits c).getD j true := by
    intro j hj
    unfold bitAt
    rw [levelAt_runsFrom b hb, if_neg (by omega)]
    rw [show (4+20*k)*b + (2*j+1)*b - 2*0 = (2+10*k+j)*(2*b) + b by ring_nf; omega]
    rw [Nat.add_comm, Nat.add_mul_div_right _ _ (by omega), Nat.div_eq_of_lt (by omega), Nat.zero_add]
    rw [List.getD_eq_getElem?_getD, tailBits_get cs k j c h hj, List.getD_eq_getElem?_getD]
  have hchar : charAt (runsFrom b false 0 (tailBits cs)) ((4+20*k)*b) b = c := by
    unfold charAt
    conv_rhs => rw [← charBits_byte c]
    simp only [List.range, List.range.loop, List.foldl]
    simp [hbit]
  refine ⟨?_, ?_⟩
  · unfold Reception.hear; dsimp only; rw [hanc, hr.est, hbit 0 (by omega), hbit 9 (by omega), hchar]
    simp [charBits]
  · unfold Reception.take
    split <;> exact ⟨hr.est, by simp [hr.len], Or.inr rfl⟩

/-- So are several, summed where they are no pattern (R6, R8). -/
theorem Reception.hearMany_wave (b : Nat) (hb : 0 < b) (cs : List Byte) (p : Bool) : ∀ (m k : Nat) (r : Reception), Standing b r k → k + m ≤ cs.length →
    ∃ r', r.hearMany p (runsFrom b false 0 (tailBits cs)) m = .good r' ∧ Standing b r' (k+m) ∧ r'.chars = r.chars ++ (cs.drop k).take m
      ∧ (p = false → r'.sum = ((cs.drop k).take m).foldl addAround r.sum) ∧ (p = false → 2 ≤ k → r'.len = r.len) := by
  intro m
  induction m with
  | zero => intro k r h _; exact ⟨r, rfl, h, by simp, fun _ => by simp, fun _ _ => rfl⟩
  | succ m ih =>
    intro k r h hk
    obtain ⟨h1, h2⟩ := Reception.hear_wave b hb cs k cs[k] (List.getElem?_eq_getElem (by omega)) r h p
    obtain ⟨r', h3, h4, h5, h6, h7⟩ := ih (k+1) _ h2 (by omega)
    refine ⟨r', ?_, by rw [show k+(m+1) = k+1+m by omega]; exact h4, ?_, ?_, ?_⟩
    · unfold Reception.hearMany; rw [h1]; exact h3
    · rw [h5, List.drop_eq_getElem_cons (by omega : k < cs.length), List.take_succ_cons]
      unfold Reception.take; split <;> simp
    · intro hp; subst hp
      rw [h6 rfl, List.drop_eq_getElem_cons (by omega : k < cs.length), List.take_succ_cons]
      simp [Reception.take]
    · intro hp hk2; subst hp
      rw [h7 rfl (by omega)]
      unfold Reception.take; simp; intro h8; have := h.len; omega

/-- The runs of a frame: BREAK, delimiter, TUNE, and from the ninth TUNE edge on (R2). -/
theorem runsOf_waveOf (b : Nat) (cs : List Byte) : runsOf b (waveOf cs) =
    (14*b) :: (2*b) :: b :: b :: b :: b :: b :: b :: b :: b :: b :: b :: b :: b :: b :: b :: b :: b :: runsFrom b false 0 (tailBits cs) := by
  unfold runsOf waveOf tailBits
  simp [runsFrom, List.replicate]
  omega

/-- One more TUNE edge (R5). -/
theorem tuneFrom_step (n t d r : Nat) (rest : List Nat) (ht : t < 24000) (hn : n ≠ 9) (hd : d < 1056) :
    tuneFrom n t (d :: r :: rest) = tuneFrom (n+1) (t+d+r) rest := by
  conv_lhs => unfold tuneFrom
  rw [if_neg (by show ¬ 24000 ≤ t; omega), if_neg hn, if_neg (by show ¬ 1056 ≤ d; omega)]

/-- The ninth TUNE edge (R5). -/
theorem tuneFrom_ninth (t d r : Nat) (rest : List Nat) (ht : t < 24000) : tuneFrom 9 t (d :: r :: rest) = .ninth t (d :: r :: rest) := by
  conv_lhs => unfold tuneFrom
  rw [if_neg (by show ¬ 24000 ≤ t; omega), if_pos rfl]

/-- A frame sent at an accepted bit time is measured at it and its characters are read (R4, R5). -/
theorem listen_waveOf (asleep : Bool) (b : Nat) (h1 : 84 ≤ b) (h2 : b ≤ 108) (cs : List Byte) : listen asleep 0 (runsOf b (waveOf cs)) =
    let read := hearChars asleep (runsFrom b false 0 (tailBits cs)) (Reception.tuned (16*b) (16*b))
    { fin := read.2.1, rx := some read.1, start := 0, edge := some (16*b), stop := 16*b + 16*b + (read.2.2+1)/2 } := by
  have hn : brokenFrom false 0 (runsFrom b false 0 (tailBits cs)) = none :=
    (brokenFrom_runsFrom b (by omega) (by omega) (tailBits cs) 0 0 0).1 (by omega) (by omega) (by
      show (0 + 1 ≤ 9 && zerosShort 0 _) = true
      simpa using zerosShort_chars cs)
  rw [runsOf_waveOf]
  unfold listen
  have hbr : isBreak (14*b) = true := by
    unfold isBreak; simp only [Bool.and_eq_true, decide_eq_true_eq]; show 1056 ≤ 14*b ∧ 14*b ≤ 24000; omega
  rw [if_pos hbr, if_neg (by
    intro h; rcases h with h | h
    · change 1152 ≤ 2*b at h; omega
    · simp at h)]
  have ht : tuneFrom 1 0 (b :: b :: b :: b :: b :: b :: b :: b :: b :: b :: b :: b :: b :: b :: b :: b :: runsFrom b false 0 (tailBits cs)) = .ninth (16*b) (runsFrom b false 0 (tailBits cs)) := by
    obtain ⟨d, r, hd⟩ := runsFrom_cons b ((cs.map charBits).flatten) true b
    have he : runsFrom b false 0 (tailBits cs) = b :: d :: r := by
      unfold tailBits; simp [runsFrom, hd]
    rw [he]
    iterate 8 rw [tuneFrom_step _ _ _ _ _ (by omega) (by omega) (by omega)]
    rw [tuneFrom_ninth _ _ _ _ (by omega)]
    congr 1; omega
  unfold hearTune
  rw [ht]
  dsimp only
  rw [if_pos (by unfold estimateOk tuneEstimate; simp; omega)]
  have hf : ∀ r, hearFrame asleep (runsFrom b false 0 (tailBits cs)) r = hearChars asleep (runsFrom b false 0 (tailBits cs)) r := by
    intro r; unfold hearFrame; rw [hn]
  rw [hf]
  rw [show 0 + 14*b + 2*b = 16*b by omega]

/-- The ninth TUNE edge finds the receiver before the first character (R5). -/
theorem Reception.tuned_stands (b : Nat) (e : Nat) : Standing b (Reception.tuned e (16*b)) 0 := ⟨by show (16*b+8)/16 = b; omega, rfl, .inl rfl⟩

end Sys2Proof.Machine
end

