-- ==== Sys2Proof/Laws/Slotwise.lean ====
section
/-! SUPPORT. What the operations do that go over the slots in turn: a change of cue, the instants that deck time
reaches, names and places. The slot's own tag, request place and naming mark are said with it. -/

namespace Sys2Proof.Machine

open Sys2Proof
/-- What a slot holds, its tag, its place and whether it names. -/
def slotView (i : SlotId) (s : State) : Slot × Word16 × Option Request × Bool :=
  (s.vtab.slots.get i, s.csr.tags.get i, s.csr.places.get i, s.ann.naming.get i)

/-- What a slotwise operation does to each slot, it does to every slot in turn, where it moves no other slot and
keeps what it depends on. -/
theorem forSlots_each {f : SlotId → State → State} {R : State → State → Prop}
    {P : SlotId → State → Slot × Word16 × Option Request × Bool → Prop}
    (trans : ∀ {s t u}, R s t → R t u → R s u) (keeps : ∀ i s, R s (f i s))
    (others : ∀ i s k, k ≠ i → slotView k (f i s) = slotView k s)
    (shift : ∀ i s t x, R s t → slotView i t = slotView i s → P i t x → P i s x)
    (does : ∀ i s, P i s (slotView i (f i s))) (s : State) :
    R s (forSlots f s) ∧ ∀ i, P i s (slotView i (forSlots f s)) := by
  have r0 := keeps .v0 s
  have r1 := trans r0 (keeps .v1 (f .v0 s))
  have r2 := trans r1 (keeps .v2 (f .v1 (f .v0 s)))
  refine ⟨trans r2 (keeps .v3 _), fun i => ?_⟩
  unfold forSlots
  cases i
  · rw [others .v3 _ .v0 (by simp), others .v2 _ .v0 (by simp), others .v1 _ .v0 (by simp)]
    exact does .v0 s
  · rw [others .v3 _ .v1 (by simp), others .v2 _ .v1 (by simp)]
    exact shift .v1 s _ _ r0 (others .v0 _ .v1 (by simp)) (does .v1 _)
  · rw [others .v3 _ .v2 (by simp)]
    exact shift .v2 s _ _ r1 ((others .v1 _ .v2 (by simp)).trans (others .v0 _ .v2 (by simp))) (does .v2 _)
  · exact shift .v3 s _ _ r2 ((others .v2 _ .v3 (by simp)).trans
      ((others .v1 _ .v3 (by simp)).trans (others .v0 _ .v3 (by simp)))) (does .v3 _)

/-- A seek by a COMMENTARY slot (R97). -/
theorem seekSlot_commentary (i : SlotId) (s : State) (h : (s.vtab.slots.get i).content = .commentary) :
    let t := seekSlot i s
    (∀ c, s.prg.current = some c → (t.vtab.slots.get i).play = (s.vtab.slots.get i).play.seek (instant c.start)
      ∧ (t.csr.places.get i).isSome = true)
    ∧ (s.prg.current = none → (t.vtab.slots.get i).play = (s.vtab.slots.get i).play.seekNothing
      ∧ t.csr.places.get i = none) := by
  intro t
  have e1 : ((renew (.slot i) s).vtab.slots.get i) = s.vtab.slots.get i := rfl
  refine ⟨fun c hc => ?_, fun hc => ?_⟩
  · have : t = issue (.slot i) (lookupFor kindCue c.cue (s.vtab.slots.get i).language)
        (setPlay (.slot i) ((s.vtab.slots.get i).play.seek (instant c.start)) (renew (.slot i) s)) := by
      simp only [t]; unfold seekSlot; dsimp only
      have e2 : (renew (.slot i) s).prg.current = some c := hc
      simp only [e1, h, e2]
    rw [this]; cases i <;> exact ⟨rfl, rfl⟩
  · have : t = setPlay (.slot i) (s.vtab.slots.get i).play.seekNothing (renew (.slot i) s) := by
      simp only [t]; unfold seekSlot; dsimp only
      have e2 : (renew (.slot i) s).prg.current = none := hc
      simp only [e1, h, e2]
    rw [this]; cases i <;> exact ⟨rfl, rfl⟩

/-- What a seek leaves of the other slots, each with its place (R97). -/
theorem seekSlot_others (i : SlotId) (s : State) (k : SlotId) (hk : k ≠ i) : slotView k (seekSlot i s) = slotView k s := by
  unfold seekSlot; dsimp only
  split
  · cases i <;> cases k <;> first | exact absurd rfl hk | rfl
  · split <;> cases i <;> cases k <;> first | exact absurd rfl hk | rfl

/-- What a reseek leaves of the rest. -/
def SameCue (s t : State) : Prop :=
  t.prg = s.prg ∧ t.csr.hand = s.csr.hand ∧ t.ann = s.ann ∧ t.vtab.va = s.vtab.va ∧ t.vtab.speaker = s.vtab.speaker
    ∧ t.lvl = s.lvl ∧ t.lmp = s.lmp

/-- What a slot is after a reseek (R106). -/
def Reseeks (i : SlotId) (s : State) (x : Slot × Word16 × Option Request × Bool) : Prop :=
  (slotBusy s i = true → (s.vtab.slots.get i).content = .commentary →
    x.2.1 = s.csr.tags.get i + 1
    ∧ (∀ a, s.prg.current = some a → x.1.play = (s.vtab.slots.get i).play.seek (instant a.start)
        ∧ x.2.2.1.isSome = true)
    ∧ (s.prg.current = none → x.1.play = (s.vtab.slots.get i).play.seekNothing ∧ x.2.2.1 = none))
  ∧ ((slotBusy s i = false ∨ (s.vtab.slots.get i).content ≠ .commentary) → x = slotView i s)

theorem reseek_others (i : SlotId) (s : State) (k : SlotId) (hk : k ≠ i) : slotView k (reseek i s) = slotView k s := by
  unfold reseek; split
  · exact seekSlot_others i s k hk
  · rfl

theorem seekSlot_lamps (i : SlotId) (s : State) : (seekSlot i s).lmp = s.lmp
    ∧ (seekSlot i s).vtab.speaker = s.vtab.speaker := by
  unfold seekSlot; dsimp only; split <;> (try split) <;> exact ⟨rfl, rfl⟩

theorem reseek_same (i : SlotId) (s : State) : SameCue s (reseek i s) := by
  unfold reseek; split
  · obtain ⟨_, _, _, d, e, f, g, _⟩ := seekSlot_law i s
    obtain ⟨l, k⟩ := seekSlot_lamps i s
    exact ⟨(seekSlot_frame i s).prg, d, e, g, k, f, l⟩
  · exact ⟨rfl, rfl, rfl, rfl, rfl, rfl, rfl⟩

theorem reseek_law (i : SlotId) (s : State) : Reseeks i s (slotView i (reseek i s)) := by
  unfold reseek
  by_cases h : (slotBusy s i && (s.vtab.slots.get i).content == .commentary) = true
  · rw [if_pos h]
    simp only [Bool.and_eq_true, beq_iff_eq] at h
    obtain ⟨a, b⟩ := seekSlot_commentary i s h.2
    refine ⟨fun _ _ => ⟨(seekSlot_law i s).2.2.1, a, b⟩, fun k => ?_⟩
    rcases k with k | k
    · rw [h.1] at k; cases k
    · exact absurd h.2 k
  · rw [if_neg h]
    refine ⟨fun h1 h2 => ?_, fun _ => rfl⟩
    simp [h1, h2] at h

theorem Reseeks.shift (i : SlotId) (s t : State) (x : Slot × Word16 × Option Request × Bool) (r : SameCue s t)
    (v : slotView i t = slotView i s) (h : Reseeks i t x) : Reseeks i s x := by
  have h1 : t.vtab.slots.get i = s.vtab.slots.get i := congrArg Prod.fst v
  have h2 : t.csr.tags.get i = s.csr.tags.get i := congrArg (fun x => x.2.1) v
  have h3 : slotBusy t i = slotBusy s i := by unfold slotBusy; rw [h1]
  unfold Reseeks at h ⊢
  rw [v, h1, h2, h3, r.1] at h
  exact h

/-- The current cue changes: every busy COMMENTARY slot renews its tag and seeks the new cue, or is silent where
there is none; every other slot stands (R106). -/
theorem changeCue_law (c : Option CueAt) (s : State) :
    SameCue { s with prg.current := c } (changeCue c s)
      ∧ ∀ i, Reseeks i { s with prg.current := c } (slotView i (changeCue c s)) :=
  forSlots_each (f := reseek) (R := SameCue) (P := Reseeks)
    (fun h k => ⟨k.1.trans h.1, k.2.1.trans h.2.1, k.2.2.1.trans h.2.2.1, k.2.2.2.1.trans h.2.2.2.1,
      k.2.2.2.2.1.trans h.2.2.2.2.1, k.2.2.2.2.2.1.trans h.2.2.2.2.2.1, k.2.2.2.2.2.2.trans h.2.2.2.2.2.2⟩)
    reseek_same reseek_others Reseeks.shift reseek_law _

/-! ## Instants reached (R58) -/

/-- No request draws (R168). -/
theorem evaluateRequest_lfsr (s : State) : (evaluateRequest s).txq.lfsr = s.txq.lfsr := by
  unfold evaluateRequest
  split
  · rfl
  · split
    · exact (enqueue_eq _ _ _).2
    · rfl

/-- No change of the claims draws (R166). -/
theorem setClaims_lfsr (c b) (s : State) : (setClaims c b s).txq.lfsr = s.txq.lfsr := by
  unfold setClaims; dsimp only
  split
  · split
    · rw [evaluateRequest_lfsr]
    · rw [evaluateRequest_lfsr]; simp
  · split <;> simp

/-- A change of cue is playback alone (R106). -/
theorem changeCue_frame (c : Option CueAt) (s : State) : PlaybackFrame { s with prg.current := c } (changeCue c s) :=
  forSlots_plays reseek_plays _

/-- What promoting the due cues does (R58, R90). -/
theorem promoteDue_law (s : State) : let t := promoteDue s
   (t.line = s.line ∧ t.jck = s.jck ∧ t.stc = s.stc) ∧ t.dclk = s.dclk ∧ t.txq = s.txq ∧ t.vtab.va = s.vtab.va
       ∧ t.ann = s.ann ∧ t.lvl = s.lvl
   ∧ t.lmp = s.lmp ∧ t.csr.hand = s.csr.hand
   ∧ (∀ c, (s.prg.queue.filter fun e => reached s.dclk.now e.start).getLast? = some c → t.prg.current = some c
       ∧ t.prg.lastTaken = some c)
   ∧ t.prg.queue = (s.prg.queue.filter fun e => !reached s.dclk.now e.start)
   ∧ ((s.prg.queue.filter fun e => reached s.dclk.now e.start) = [] → t.prg = s.prg) := by
  intro t
  cases h : (s.prg.queue.filter fun e => reached s.dclk.now e.start).getLast? with
  | none =>
    have : t = s := by simp only [t]; unfold promoteDue; dsimp only; rw [h]
    have he : (s.prg.queue.filter fun e => reached s.dclk.now e.start) = [] := List.getLast?_eq_none_iff.1 h
    have hn : (s.prg.queue.filter fun e => !reached s.dclk.now e.start) = s.prg.queue := by
      rw [List.filter_eq_self]; rw [List.filter_eq_nil_iff] at he; intro x hx; simpa using he x hx
    rw [this, hn]; simp
  | some c =>
    have hp : t = changeCue (some c) { s with prg.queue := s.prg.queue.filter fun e => !reached s.dclk.now e.start, prg.lastTaken := some c } := by
      simp only [t]; unfold promoteDue; dsimp only; rw [h]; rfl
    obtain ⟨⟨k1,k2,k3,k4,k5,k6,k7⟩, _⟩ := changeCue_law (some c) { s with prg.queue := s.prg.queue.filter fun e => !reached s.dclk.now e.start, prg.lastTaken := some c }
    have hF := (changeCue_frame (some c) { s with prg.queue := s.prg.queue.filter fun e => !reached s.dclk.now e.start, prg.lastTaken := some c }).frame
    rw [← hp] at k1 k2 k3 k4 k5 k6 k7 hF
    refine ⟨⟨hF.line, hF.jck, hF.stc⟩, hF.dclk, hF.txq, k4, k3, k6, k7, k2, ?_, ?_, ?_⟩
    · intro c' h'; cases h'; rw [k1]; exact ⟨rfl, rfl⟩
    · rw [k1]
    · intro he; rw [he] at h; cases h

/-- What the expiry of door entries does (R117). -/
theorem expireDoors_law (s : State) : let t := expireDoors s
   (t.line = s.line ∧ t.jck = s.jck ∧ t.stc = s.stc) ∧ t.dclk = s.dclk ∧ t.txq = s.txq ∧ t.prg = s.prg
       ∧ t.ann.current = s.ann.current ∧ t.vtab.va = s.vtab.va
   ∧ t.ann.latch = s.ann.latch ∧ t.lvl = s.lvl ∧ t.csr.hand = s.csr.hand
       ∧ t.ann.doors = (s.ann.doors.filter fun d => !reached s.dclk.now d.expiry) ∧ t.lmp.claims = s.lmp.claims := by
  intro t
  simp only [t]; unfold expireDoors
  split
  · simp
  · rename_i h
    have hn : (s.ann.doors.filter fun d => !reached s.dclk.now d.expiry) = s.ann.doors := by
      rw [List.filter_eq_self]; simpa using h
    rw [hn]; simp

/-- What the reached start of a WAITING announcement does (R124). -/
theorem chimeIfDue_law (s : State) : let t := chimeIfDue s
   (t.line = s.line ∧ t.jck = s.jck ∧ t.stc = s.stc) ∧ t.dclk = s.dclk ∧ t.txq = s.txq ∧ t.prg = s.prg
   ∧ (∀ a, s.ann.current = some a → a.phase = .waiting → reached s.dclk.now a.start = true
       → t.ann.current = some { a with phase := .chime, chimeLen := none } ∧ t.ann.purpose = .chime
           ∧ t.vtab.va.play.state = .seeking ∧ t.vtab.va.play.anchor = { ms := a.start, us := 0 })
   ∧ ((∀ a, s.ann.current = some a → (a.phase ≠ .waiting ∨ reached s.dclk.now a.start = false)) → t = s)
   ∧ (t.ann.doors = s.ann.doors ∧ t.ann.latch = s.ann.latch) ∧ t.lmp.claims = s.lmp.claims ∧ t.lvl = s.lvl
       ∧ t.csr.hand = s.csr.hand := by
  intro t
  simp only [t]; unfold chimeIfDue
  cases hc : s.ann.current with
  | none => simp
  | some a =>
    dsimp only
    by_cases h : a.phase = .waiting ∧ reached s.dclk.now a.start = true
    · rw [if_pos h]
      have hs : startChime s = vaStart .chime .chime (instant a.start) { s with ann.current := some { a with phase := .chime, chimeLen := none } } := by
        unfold startChime; rw [hc]
      rw [hs]
      refine ⟨?_, ?_, ?_, ?_, ?_, ?_, ?_, ?_, ?_, ?_⟩
      all_goals first
        | (intro h'; rcases h' a rfl with h' | h' <;> simp_all; done)
        | (simp; done)
        | skip
      intro a' h' _ _; cases h'; simp; rfl
    · rw [if_neg h]
      refine ⟨?_, ?_, ?_, ?_, ?_, ?_, ?_, ?_, ?_, ?_⟩
      all_goals first
        | rfl
        | (simp; done)
        | (intro a' h' h1 h2; cases h'; exact absurd ⟨h1, h2⟩ h)

/-- What the expiry of claims does (R165). -/
theorem expireClaims_law (s : State) : let t := expireClaims s
   t.line = s.line ∧ t.dclk = s.dclk ∧ t.prg = s.prg ∧ t.csr.hand = s.csr.hand ∧ t.stc = s.stc ∧ t.ann = s.ann
       ∧ t.vtab = s.vtab ∧ (t.jck = s.jck ∧ t.lvl = s.lvl)
   ∧ (∀ p, t.lmp.claims.get p = if claimLapsed s.dclk.now (s.lmp.claims.get p) = true then none else s.lmp.claims.get p)
   ∧ t.txq.lfsr = s.txq.lfsr := by
  intro t
  simp only [t]; unfold expireClaims; dsimp only
  split
  · obtain ⟨a1,a2,a3,a4,a5,a6,a7,a8,a9,a10,a11,a12,a13,a14,a15,a16⟩ := setClaims_law
      { p0 := if claimLapsed s.dclk.now s.lmp.claims.p0 then none else s.lmp.claims.p0
        p1 := if claimLapsed s.dclk.now s.lmp.claims.p1 then none else s.lmp.claims.p1
        p2 := if claimLapsed s.dclk.now s.lmp.claims.p2 then none else s.lmp.claims.p2
        p3 := if claimLapsed s.dclk.now s.lmp.claims.p3 then none else s.lmp.claims.p3 } (claimLapsed s.dclk.now s.lmp.claims.p0) s
    refine ⟨a6, a7, a9, by rw [a8], a5, a11, a10, ⟨a12, a13⟩, fun p => ?_, ?_⟩
    · rw [a14]; rcases p with _ | _ | _ | p <;> rfl
    · exact setClaims_lfsr _ _ _
  · rename_i h
    simp only [Bool.or_eq_true, not_or] at h
    refine ⟨rfl, rfl, rfl, rfl, rfl, rfl, rfl, ⟨rfl, rfl⟩, fun p => ?_, rfl⟩
    rw [if_neg]; rcases p with _ | _ | _ | p <;> simp [Prios.get, h]

/-! ## Names (R125 to R129) -/

/-- What giving a name leaves of the rest. -/
def SameName (s t : State) : Prop :=
  t.ann = { s.ann with naming := t.ann.naming } ∧ t.csr.hand = s.csr.hand ∧ t.vtab.va = s.vtab.va
      ∧ t.vtab.speaker = s.vtab.speaker ∧ t.lvl = s.lvl ∧ t.dclk = s.dclk

/-- What a slot is after the name of a stop is given to it (R125). -/
def Named (stop : Nat) (i : SlotId) (s : State) (x : Slot × Word16 × Option Request × Bool) : Prop :=
  (slotBusy s i = true → x.1.content = .name stop ∧ x.1.play.state = .seeking ∧ x.1.play.anchor = nameAnchor s
      ∧ x.2.1 = s.csr.tags.get i + 1 ∧ x.2.2.2 = true)
  ∧ (slotBusy s i = false → x = slotView i s)

/-- A seek by a slot that is to say a name (R97, R125). -/
theorem seekSlot_name (i : SlotId) (stop : Nat) (s : State) (h : (s.vtab.slots.get i).content = .name stop) : let t := seekSlot i s
   (t.vtab.slots.get i).play.state = .seeking ∧ (t.vtab.slots.get i).play.anchor = nameAnchor s := by
  intro t
  have e1 : ((renew (.slot i) s).vtab.slots.get i) = s.vtab.slots.get i := rfl
  have : t = issue (.slot i) (lookupFor kindStop stop (s.vtab.slots.get i).language)
      (setPlay (.slot i) ((s.vtab.slots.get i).play.seek (nameAnchor (renew (.slot i) s))) (renew (.slot i) s)) := by
    simp only [t]; unfold seekSlot; dsimp only
    simp only [e1, h]
  rw [this]; cases i <;> exact ⟨rfl, rfl⟩

theorem giveName_same (stop) (i : SlotId) (s : State) : SameName s (giveName stop i s) := by
  unfold giveName; split
  · obtain ⟨_, _, _, d, e, f, g, _⟩ := seekSlot_law i { setContent i (.name stop) s with ann.naming := s.ann.naming.set i true }
    obtain ⟨l, k⟩ := seekSlot_lamps i { setContent i (.name stop) s with ann.naming := s.ann.naming.set i true }
    refine ⟨?_, d, g, k, f, (seekSlot_frame i _).dclk⟩
    rw [e]; rfl
  · exact ⟨rfl, rfl, rfl, rfl, rfl, rfl⟩

theorem slotView_eq {i : SlotId} {s t : State} (h : slotView i t = slotView i s) : t.vtab.slots.get i = s.vtab.slots.get i ∧ t.csr.tags.get i = s.csr.tags.get i ∧ t.csr.places.get i = s.csr.places.get i ∧ t.ann.naming.get i = s.ann.naming.get i :=
  ⟨congrArg Prod.fst h, congrArg (fun x => x.2.1) h, congrArg (fun x => x.2.2.1) h, congrArg (fun x => x.2.2.2) h⟩

theorem giveName_others (stop) (i : SlotId) (s : State) (k : SlotId) (hk : k ≠ i) : slotView k (giveName stop i s) = slotView k s := by
  unfold giveName; split
  · rw [seekSlot_others _ _ _ hk]
    cases i <;> cases k <;> first | exact absurd rfl hk | rfl
  · rfl

theorem slotBusy_congr {i : SlotId} {s t : State} (h : t.vtab.slots.get i = s.vtab.slots.get i) : slotBusy t i = slotBusy s i := by
  unfold slotBusy; rw [h]

theorem Named.shift (stop) (i : SlotId) (s t : State) (x) (r : SameName s t) (v : slotView i t = slotView i s) (h : Named stop i t x) : Named stop i s x := by
  obtain ⟨v1, v2, _⟩ := slotView_eq v
  unfold Named at h ⊢
  have : nameAnchor t = nameAnchor s := by unfold nameAnchor; rw [r.1, r.2.2.2.2.2]
  rw [v, v2, slotBusy_congr v1, this] at h
  exact h

theorem giveName_law (stop) (i : SlotId) (s : State) : Named stop i s (slotView i (giveName stop i s)) := by
  unfold giveName
  by_cases h : slotBusy s i = true
  · rw [if_pos h]
    refine ⟨fun _ => ?_, fun k => by rw [h] at k; cases k⟩
    have hc : (({ setContent i (.name stop) s with ann.naming := s.ann.naming.set i true } : State).vtab.slots.get i).content = .name stop := by
      cases i <;> rfl
    obtain ⟨a, b⟩ := seekSlot_name i stop _ hc
    obtain ⟨_, l1, l2, _, l4, _⟩ := seekSlot_law i { setContent i (.name stop) s with ann.naming := s.ann.naming.set i true }
    refine ⟨l1.trans hc, a, b, l2, ?_⟩
    show (seekSlot i _).ann.naming.get i = true
    rw [l4]; cases i <;> rfl
  · rw [if_neg h]; exact ⟨fun k => absurd k h, fun _ => rfl⟩

/-- The name is given to every busy slot, and no other slot moves (R125). -/
theorem giveNames_law (stop) (s : State) : SameName s (forSlots (giveName stop) s)
    ∧ ∀ i, Named stop i s (slotView i (forSlots (giveName stop) s)) :=
  forSlots_each (f := giveName stop) (R := SameName) (P := Named stop)
    (fun h k => ⟨by rw [k.1, h.1], k.2.1.trans h.2.1, k.2.2.1.trans h.2.2.1, k.2.2.2.1.trans h.2.2.2.1, k.2.2.2.2.1.trans h.2.2.2.2.1, k.2.2.2.2.2.trans h.2.2.2.2.2⟩)
    (giveName_same stop) (giveName_others stop) (Named.shift stop) (giveName_law stop) _

/-- CLIP_END of a voice that has reached its end (R105). -/
theorem clipEnd_eq (v : VoiceId) (s : State) (h : (playOf s v).over = true) : exec (.clipEnd v) s = .next (serve (topUpVoice v (voiceDone v (setPlay v (playOf s v).silence s)))) := by
    show Host.Outcome.next (serve (endClip v s)) = _
    unfold endClip; rw [if_pos h]; rfl

/-- A voice that does not play asks for no block (R100). -/
theorem topUpVoice_at_rest (v) (u : State) (h : (playOf u v).state ≠ .playing) : topUpVoice v u = u := by
    have hself : setPlay v (playOf u v) u = u := by
      rcases v with i | _
      · cases i <;> rfl
      · rfl
    unfold topUpVoice
    have : (playOf u v).topUp (outstanding u v) = Play.same (playOf u v) := by
      unfold Play.topUp; dsimp only; rw [if_neg]; simp [h]
    rw [this]; exact hself

/-- Completion with nothing pending (R129). -/
theorem complete_without_pending (a : Announcement) (s : State) (hc : s.ann.current = some a) (hp : s.ann.pending = none) :
  complete s = relightOverlay { s with ann.lastCompleted := some a.start, ann.nameCap := none, ann.current := none } := by
  unfold complete; rw [hc]; dsimp only; rw [hp]

/-- The naming set is empty when no slot is in it (R126). -/
theorem namingEmpty_iff (s : State) : namingEmpty s = true ↔ ∀ i, s.ann.naming.get i = false := by
  unfold namingEmpty; constructor
  · intro h i; simp at h; cases i <;> simp [Slots.get, h]
  · intro h; have a := h .v0; have b := h .v1; have c := h .v2; have d := h .v3; simp [Slots.get] at a b c d; simp [a,b,c,d]

/-! ## Places (R93, R95) -/
theorem Slots.first_eq_none {α} (x : Slots α) (p : α → Bool) : x.first p = none ↔ ∀ i, p (x.get i) = false := by
  unfold Slots.first; constructor
  · intro h; split_ifs at h; intro i; cases i <;> simp_all [Slots.get]
  · intro h; have a := h .v0; have b := h .v1; have c := h .v2; have d := h .v3; simp only [Slots.get] at a b c d; simp [a,b,c,d]

theorem Slots.first_eq_some {α} (x : Slots α) (p : α
    → Bool) (i : SlotId) (h : x.first p = some i) : p (x.get i) = true := by
  unfold Slots.first at h; split_ifs at h <;> cases h <;> assumption

theorem Slots.first_of_only {α} (x : Slots α) (p : α → Bool) (i : SlotId) (h : p (x.get i) = true) (ho : ∀ k, k ≠ i
    → p (x.get k) = false) : x.first p = some i := by
  unfold Slots.first
  have a := ho .v0; have b := ho .v1; have c := ho .v2; have d := ho .v3
  cases i <;> simp_all [Slots.get]

/-- The first slot of a kind stays the first where another slot changes and does not become of it. -/
theorem Slots.first_kept {α} (x y : Slots α) (p : α → Bool) (i k : SlotId) (h : x.first p = some k) (hk : k ≠ i)
    (same : ∀ m, m ≠ i → p (y.get m) = p (x.get m)) (less : p (y.get i) = true → p (x.get i) = true) : y.first p = some k := by
  have g0 := same .v0; have g1 := same .v1; have g2 := same .v2; have g3 := same .v3
  unfold Slots.first at *
  simp only [Slots.get] at g0 g1 g2 g3 less
  cases i <;> cases k <;> grind

theorem namedStop_of_not_inName (s : State) (h : inName s = false) : namedStop s = none := by
  unfold namedStop inName at *
  cases hc : s.ann.current with
  | none => rfl
  | some a => rw [hc] at h; simp at h ⊢; intro h'; exact absurd h' h

/-- What taking a slot outside NAME does (R93, R97). -/
theorem takeSlot_commentary (i : SlotId) (n : Nat) (l : Listeners) (s : State) (hn : inName s = false) : let t := takeSlot i n l s
   (∀ k, k ≠ i → slotView k t = slotView k s) ∧ (t.vtab.slots.get i).language = n
       ∧ (t.vtab.slots.get i).listeners = l ∧ (t.vtab.slots.get i).content = .commentary
   ∧ (t.vtab.slots.get i).play.state ≠ .idle ∧ (s.prg.current ≠ none → (t.vtab.slots.get i).play.state = .seeking)
       ∧ t.csr.tags.get i = s.csr.tags.get i + 1 ∧ t.csr.hand = s.csr.hand ∧ t.csr.config = s.csr.config
   ∧ t.ann = { s.ann with naming := s.ann.naming.set i false } ∧ t.lvl = s.lvl ∧ t.lmp = s.lmp
       ∧ t.vtab.speaker = s.vtab.speaker ∧ t.vtab.va = s.vtab.va := by
  intro t
  obtain ⟨w, hw⟩ : ∃ w : State, w = { putSlot i { s.vtab.slots.get i with language := n, listeners := l, content := .commentary } s with ann.naming := s.ann.naming.set i false } := ⟨_, rfl⟩
  have ht : t = seekSlot i w := by
    simp only [t]; unfold takeSlot; dsimp only
    rw [namedStop_of_not_inName _ (by exact hn), hw]; rfl
  have hc : (w.vtab.slots.get i).content = .commentary := by rw [hw]; cases i <;> rfl
  obtain ⟨k1, k2⟩ := seekSlot_commentary i w hc
  obtain ⟨_, l1, l2, l3, l4, l5, l6, _⟩ := seekSlot_law i w
  obtain ⟨m1, m2⟩ := seekSlot_lamps i w
  have hF := seekSlot_frame i w
  have hl : (seekSlot i w).vtab.slots.get i = { w.vtab.slots.get i with play := ((seekSlot i w).vtab.slots.get i).play } := by
    unfold seekSlot; dsimp only
    split
    · cases i <;> rfl
    · split <;> cases i <;> rfl
  rw [ht]
  have hst : ((seekSlot i w).vtab.slots.get i).play.state ≠ .idle ∧ (s.prg.current ≠ none
      → ((seekSlot i w).vtab.slots.get i).play.state = .seeking) := by
    cases hcur : s.prg.current with
    | none =>
      have := (k2 (by rw [hw]; exact hcur)).1
      rw [this]; exact ⟨by show PlayState.silent ≠ _; decide, fun h => absurd rfl h⟩
    | some c =>
      have := (k1 c (by rw [hw]; exact hcur)).1
      rw [this]; exact ⟨by show PlayState.seeking ≠ _; decide, fun _ => rfl⟩
  refine ⟨fun k hk => ?_, ?_, ?_, l1.trans hc, hst.1, hst.2, l2.trans (by rw [hw]; rfl), l3.trans (by rw [hw]; rfl), ?_, l4.trans (by rw [hw]; rfl), l5.trans (by rw [hw]; rfl), m1.trans (by rw [hw]; rfl), m2.trans (by rw [hw]; rfl), l6.trans (by rw [hw]; rfl)⟩
  · rw [seekSlot_others i w k hk, hw]; cases i <;> cases k <;> first | exact absurd rfl hk | rfl
  · rw [hl, hw]; cases i <;> rfl
  · rw [hl, hw]; cases i <;> rfl
  · rw [hF.csr, hw]; rfl

/-- What leaving a slot does (R94, R95): the slot plays on for its other listeners, or is released. -/
theorem leaveSlot_law (o : Output) (i : SlotId) (s : State) (h : slotHeardBy s o = some i) : let t := leaveSlot o s
   let l := (s.vtab.slots.get i).listeners.put o false
   (∀ k, k ≠ i → slotView k t = slotView k s) ∧ (t.vtab.slots.get i).language = (s.vtab.slots.get i).language
   ∧ (l = .nobody → (t.vtab.slots.get i).play = (s.vtab.slots.get i).play.stop ∧ (t.vtab.slots.get i).listeners = .nobody
       ∧ (t.vtab.slots.get i).content = .commentary ∧ t.csr.tags.get i = s.csr.tags.get i + 1 ∧ t.csr.places.get i = none)
   ∧ (l ≠ .nobody → t.vtab.slots.get i = { s.vtab.slots.get i with listeners := l } ∧ t.csr = s.csr ∧ t.ann = s.ann)
   ∧ t.csr.hand = s.csr.hand ∧ t.csr.config = s.csr.config ∧ t.ann = { s.ann with naming := t.ann.naming }
   ∧ t.lvl = s.lvl ∧ t.lmp = s.lmp ∧ t.vtab.speaker = s.vtab.speaker ∧ t.vtab.va = s.vtab.va := by
  intro t l
  by_cases hl : l = .nobody
  · have ht : t = releaseSlot i (setListeners i l s) := by
      simp only [t]; unfold leaveSlot; rw [h]; dsimp only; rw [if_pos hl]
    refine ⟨fun k hk => ?_, ?_, fun _ => ⟨?_, ?_, ?_, ?_, ?_⟩, fun hn => absurd hl hn, ?_, ?_, ?_, ?_, ?_, ?_, ?_⟩ <;> rw [ht]
    · cases i <;> cases k <;> first | exact absurd rfl hk | rfl
    all_goals first | rfl | (cases i <;> rfl)
  · have ht : t = setListeners i l s := by
      simp only [t]; unfold leaveSlot; rw [h]; dsimp only; rw [if_neg hl]
    refine ⟨fun k hk => ?_, ?_, fun hn => absurd hn hl, fun _ => ⟨?_, ?_, ?_⟩, ?_, ?_, ?_, ?_, ?_, ?_, ?_⟩ <;> rw [ht]
    · cases i <;> cases k <;> first | exact absurd rfl hk | rfl
    all_goals first | rfl | (cases i <;> rfl)

/-- What taking a slot in NAME does (R93, R97, R126). -/
theorem takeSlot_named (i : SlotId) (n : Nat) (l : Listeners) (s : State) (a : Announcement) (hc : s.ann.current = some a)
    (hp : a.phase = .name) (hcap : s.ann.nameCap.isSome = true) : let t := takeSlot i n l s
   (∀ k, k ≠ i → slotView k t = slotView k s) ∧ (t.vtab.slots.get i).language = n
       ∧ (t.vtab.slots.get i).listeners = l ∧ (t.vtab.slots.get i).content = .name a.stop
   ∧ (t.vtab.slots.get i).play.state = .seeking ∧ (t.vtab.slots.get i).play.anchor = nameAnchor s
       ∧ t.csr.tags.get i = s.csr.tags.get i + 1 ∧ t.csr.hand = s.csr.hand ∧ t.csr.config = s.csr.config
   ∧ t.ann = { s.ann with naming := s.ann.naming.set i true } ∧ t.lvl = s.lvl ∧ t.lmp = s.lmp
       ∧ t.vtab.speaker = s.vtab.speaker ∧ t.vtab.va = s.vtab.va := by
  intro t
  obtain ⟨x, hx⟩ : ∃ x : State, x = { setContent i (.name a.stop) (putSlot i { s.vtab.slots.get i with language := n, listeners := l, content := .commentary } s) with ann.naming := s.ann.naming.set i true } := ⟨_, rfl⟩
  have ht : t = seekSlot i x := by
    simp only [t]; unfold takeSlot; dsimp only
    have : namedStop (putSlot i { s.vtab.slots.get i with language := n, listeners := l, content := .commentary } s) = some a.stop := by
      unfold namedStop; show (match s.ann.current with | some a => _ | none => _) = _; rw [hc]; dsimp only
      rw [if_pos]; show (a.phase == .name && s.ann.nameCap.isSome) = true; rw [hp, hcap]; rfl
    rw [this, hx]; rfl
  have xc : (x.vtab.slots.get i).content = .name a.stop := by rw [hx]; cases i <;> rfl
  obtain ⟨s1, s2⟩ := seekSlot_name i a.stop x xc
  obtain ⟨_, l1, l2, l3, l4, l5, l6, _⟩ := seekSlot_law i x
  obtain ⟨m1, m2⟩ := seekSlot_lamps i x
  have hF := seekSlot_frame i x
  have hl : (seekSlot i x).vtab.slots.get i = { x.vtab.slots.get i with play := ((seekSlot i x).vtab.slots.get i).play } := by
    unfold seekSlot; dsimp only
    split
    · cases i <;> rfl
    · split <;> cases i <;> rfl
  rw [ht]
  refine ⟨fun k hk => ?_, ?_, ?_, l1.trans xc, s1, s2.trans ?_, l2.trans (by rw [hx]; rfl), l3.trans (by rw [hx]; rfl), ?_, l4.trans (by rw [hx]; rfl), l5.trans (by rw [hx]; rfl), m1.trans (by rw [hx]; rfl), m2.trans (by rw [hx]; rfl), l6.trans (by rw [hx]; rfl)⟩
  · rw [seekSlot_others i x k hk, hx]; cases i <;> cases k <;> first | exact absurd rfl hk | rfl
  · rw [hl, hx]; cases i <;> rfl
  · rw [hl, hx]; cases i <;> rfl
  · unfold nameAnchor; rw [hx]; rfl
  · rw [hF.csr, hx]; rfl

/-- SETTLE_END of a SETTLING jack (R134). -/
theorem settleEnd_eq (j : Seat) (s : State) (h : (s.jck.jacks.get j).state = .settling) :
    exec (.settleEnd j) s = .next (serve (completeIfDone (retrySpeaker (placeJack j (s.jck.jacks.get j).language (setJack j { s.jck.jacks.get j with state := .listening, settle := none } s))))) := by
    simp only [exec, execSettleEnd, jackOf, h, if_true]

/-- Nothing completes outside NAME (R129). -/
theorem completeIfDone_of_not_inName (s : State) (h : inName s = false) : completeIfDone s = s := by
  unfold completeIfDone; rw [h]; rfl

end Sys2Proof.Machine
end

