-- ==== Sys2Proof/Tests/Slice0.lean ====
section
/-! SUPPORT. The model's own tests: the operand checks, small tests of one command each with results worked
in the data sheet, and a witness of every statement's hypotheses, clause by clause. -/

set_option Elab.async false

namespace Sys2Proof.Tests
open Sys2Proof Sys2Proof.Machine

/-! ## Operand checks: each refuses an ill-formed term -/

/-- The line under a driver that sends characters at so many counts a bit. -/
def sent (b : Nat) (chars : List Byte) : RxFrame := { runs := runsOf b (waveOf chars) }

/-- A frame as a sender makes it: at the nominal rate, CHECK closed. -/
def frame (kind cls : Nat) (origin : Origin) (body : List Byte) : RxFrame := sent 96 (frameChars kind cls origin body)

def hushFrame : RxFrame := frame 7 1 0 [0xFF, 0xFF]

theorem test_wf_frame : (Instr.receiveHush hushFrame).wellFormed = true
    ∧ (Instr.wakeMatch (sent 108 (wakeChars 0))).wellFormed = true := by decide +kernel
theorem test_wf_frame_break : (Instr.receiveHush { runs := [1055, 192, 96] }).wellFormed = false
    ∧ (Instr.receiveHush { runs := [24001, 192, 96] }).wellFormed = false := by decide
theorem test_wf_frame_run : (Instr.frameError { runs := [1344, 0, 96] }).wellFormed = false := by decide
theorem test_wf_frame_length : (Instr.frameError { runs := [24000, 1151, 24002] }).wellFormed = false := by decide
theorem test_wf_wake_attempt : (Instr.wakeAttemptEnd (some 124)).wellFormed = false
    ∧ (Instr.wakeAttemptEnd (some 123)).wellFormed = true := by decide
theorem test_wf_header : (Instr.headerReadDone (List.replicate 103 0)).wellFormed = false := by decide +kernel
theorem test_wf_chunk : (Instr.scanChunkDone []).wellFormed = false := by decide
theorem test_wf_probe : (Instr.probeDone (List.replicate 11 0)).wellFormed = false := by decide
theorem test_wf_block : (Instr.blockReadDone (List.replicate 257 0)).wellFormed = false := by decide +kernel
theorem test_wf_lost : (Instr.attemptLost 184).wellFormed = false := by decide
theorem test_wf_failed : (Instr.attemptFailed 184).wellFormed = false := by decide

/-! ## Values the data sheet works out -/

/-- Section 1.3: a STOP_REQ from origin 9 for seat C, and a SCENE from origin 9. -/
theorem test_check_stop_req : checkOf [0x09, 0x41, 0x04] = 0xB1 := by decide
theorem test_check_scene : checkOf [0x89, 0x64, 0x01, 0x00, 0x01, 0x2C] = 0xE3 := by decide
/-- Section 2.2: cue 37 at 120,700 ms from origin 0. -/
theorem test_cue_chars : frameChars 2 1 0 (bytes16 37 ++ bytes32 120700)
    = [0x40, 0x26, 0x00, 0x25, 0x00, 0x01, 0xD7, 0x7C, 0x1F] := by decide
/-- R5: the accepted estimates are 84..108. -/
theorem test_tune : estimateOk (tuneEstimate 1335) = false ∧ estimateOk (tuneEstimate 1336) = true
    ∧ estimateOk (tuneEstimate 1735) = true ∧ estimateOk (tuneEstimate 1736) = false
    ∧ tuneEstimate 1552 = 97 := by decide

/-! ## The receiver, on lines written out run by run -/

def hears10 (before after : List Nat) : Heard := listen false 0 (before ++ after)
def tune (b : Nat) : List Nat := List.replicate 18 b
/-- R4: 10.99 bit times is no BREAK, 11 is; 2,000 us is one, a count more is none. -/
theorem test_break : (listen false 0 [1055, 192, 96, 96]).fin = .waiting
    ∧ (listen false 0 [1056, 1152, 96, 96]).fin = .error .noTune
    ∧ (listen false 0 [24000, 1152, 96, 96]).fin = .error .noTune
    ∧ (listen false 0 [24001, 1152, 96, 96]).fin = .waiting
    ∧ (listen false 0 [24001, 96, 1056, 1151, 96, 96]).edge = some (24001 + 96 + 1056 + 1151) := by decide +kernel
/-- R13, R14: a run of 11 bit times inside a reception, and a line that goes still. -/
theorem test_broken : (listen false 0 ([1344, 192] ++ [96, 96, 1056, 96])).fin = .error .broken
    ∧ (listen false 0 ([1344, 192] ++ [96, 96, 1055, 96])).fin = .error .timeout
    ∧ (listen false 0 ([1344, 192] ++ tune 83 ++ [96])).fin = .error .tune := by decide +kernel
/-- R6: after TUNE of 100-count bits, characters 0x00 whose start edges drift late by 40 counts and early by 40 keep
their bits; a stop bit that is dominant is FRAMING. -/
theorem test_characters : (hears10 ([1344, 192] ++ tune 100) [900, 140, 900, 60, 900, 100]).chars = [0, 0, 0]
    ∧ (hears10 ([1344, 192] ++ tune 100) [900, 140, 901, 99, 1000, 100]).fin = .error .framing := by decide +kernel
/-- R5, R8: the frame of a sender a twentieth slow is heard with the estimate of its own TUNE. -/
theorem test_heard_slow : let f := sent 101 [0x09, 0x41, 0x04, 0xB1]
    f.heard.chars = [0x09, 0x41, 0x04, 0xB1] ∧ f.heard.rx.map Reception.estimate = some 101
    ∧ judgeFrame 4 f = .good ∧ judgeFrame 4 (sent 101 [0x09, 0x41, 0x04, 0xB2]) = .error := by decide +kernel
/-- Section 4.4: TIME's last stop bit is sampled 860 us after its first TUNE edge. -/
theorem test_edge_age : (frame 1 1 21 (List.replicate 6 0)).edgeAge = 860 := by decide +kernel
/-- Section 3.9: the first two draws of origin 9. -/
theorem test_draws : seedOf 9 = 0x0909 ∧ lfsrDraw 0x0909 = 0x444E ∧ lfsrDraw 0x444E = 0xFEDD := by decide +kernel
/-- Section 5.8: four bytes expanded. -/
theorem test_expand : expandSample 0x5A = 6528 ∧ expandSample 0xC3 = -2304 ∧ expandSample 0x7F = 31616
    ∧ expandSample 0x80 = 0 := by decide
/-- Section 4.4, cases 1 to 6: the offset of a TIME body against the capture. -/
theorem test_offsets : (DeckTime.mk 120401 900).diffMicros ⟨120400, 250⟩ = 1650
    ∧ (DeckTime.mk 250000 100).diffMicros ⟨250000, 400⟩ = -300
    ∧ (DeckTime.mk 249999 700).diffMicros ⟨250000, 400⟩ = -700
    ∧ (DeckTime.mk 8 10).diffMicros ⟨7, 990⟩ = 20
    ∧ (DeckTime.mk 0 200).diffMicros ⟨4294967295, 500⟩ = 700
    ∧ (DeckTime.mk 3600123 500).diffMicros ⟨1204, 37⟩ = 3598919463 := by decide +kernel
theorem test_step_time : (DeckTime.mk 120401 110).addMicros 1650 = ⟨120402, 760⟩ := by decide +kernel
/-- Section 2.7: a block with values out of range. -/
def clampBlock : List Byte :=
  [14, 12, 0x80, 0, 6, 20, 24, 96, 0x30, 0x00, 90, 60, 9, 0, 200, 255, 0, 1, 2, 3, 4, 9, 0, 0]
    ++ List.replicate 24 0 ++ [0, 0, 0, 0, 0, 0, 0, 0x05] ++ [0, 0, 0, 0, 0, 0, 0, 0xD0] ++ List.replicate 24 0
theorem test_clamps : let c := configOf clampBlock
    c.languages = 12 ∧ c.house = 0 ∧ c.speakerOn = true ∧ c.defaultStep = 1 ∧ c.announceFloor = 6 ∧ c.cap = 16
    ∧ c.duckDepth = 24 ∧ c.lateLimit = 10000 ∧ c.darkThreshold = 90 ∧ c.brightThreshold = 90
    ∧ c.darkScene = 7 ∧ c.roles.ch5 = .unused ∧ (c.scenes.map SceneEntry.speaker).getD 3 9 = 0
    ∧ (c.scenes.map SceneEntry.speaker).getD 4 9 = -32 := by decide +kernel
/-- Section 8.6: the worked samples, each scaled by its pair's gain, and the sum that clips. -/
theorem test_scale : scale 12000 (-29) = 973 ∧ scale 20000 (-3) = 15422 ∧ scale 8000 (-37) = 324
    ∧ scale (-2304) (-6) = -1370 ∧ scale 31616 8 = 63232 ∧ saturate (63232 + 2100) = 32767 := by decide +kernel
/-- Section 9.3: the steps of the worked fades. -/
theorem test_fade_steps : fadeStep 40960 1000 = 164 ∧ fadeStep 38640 120 = 1288 ∧ fadeStep 14080 120 = 469
    ∧ fadeStep 51200 2000 = 102 ∧ fadeStep 30720 2000 = 61 := by decide +kernel
/-- Section 8.7: the first, second and fifth updates of the worked rise, means of 150 over a floor of 96. -/
theorem test_wind_rises :
    ({ count := 8, sum := 1200, spoiled := false, average := 96, boost := 0 } : WindTracker).update 96
      = { count := 8, sum := 1200, spoiled := false, average := 103, boost := 0 }
    ∧ (({ count := 8, sum := 1200, spoiled := false, average := 103, boost := 0 } : WindTracker).update 96).boost = 1
    ∧ (({ count := 8, sum := 1200, spoiled := false, average := 119, boost := 1 } : WindTracker).update 96)
      = { count := 8, sum := 1200, spoiled := false, average := 123, boost := 2 } := by decide +kernel

/-! ## Small states -/

/-- An AWAKE station of origin 9 with an ACTIVE line, the reader at rest and nothing playing. -/
def awake : State := { State.reset with
  ref.micros := 250000900,
  stc.origin := 9, stc.state := .awake, stc.statusTimer := .running 1, line.state := .active,
  dclk.running := true, dclk.now := { ms := 250000, us := 900 }, dclk.timer := .running 1,
  dclk.firstPeriod := false, txq.lfsr := 0x0909 }

def toneBlock : BlockReq := { start := 0, samples := 1, number := 0, need := .zero }

/-- The same with a transaction in hand. -/
def busy : State := { awake with
  csr.hand := some { what := .block .va 9 toneBlock, left := 5000 } }

/-- PARKING, and PARKED, of the same station. -/
def parking : State := { awake with
  stc.state := .parking, stc.parkLeft := some 1, stc.statusTimer := .stopped, stc.parkedMark := true,
  line.state := .asleep, dclk.timer := .stopped, dclk.firstPeriod := true }
def parked : State := { parking with stc.state := .parked, stc.parkLeft := none, dclk.running := false }

def Reached (o : Host.Outcome State Fault Refusal) (p : State → Bool) : Bool :=
  match o with
  | .next t => p t
  | _ => false

theorem awake_rests : ReaderRests awake :=
  Or.inr fun v => by
    cases v with
    | va => rfl
    | slot i => cases i <;> rfl

/-- A clip of 512 samples from block 4, and a slot or VA that plays its first block. -/
def clip512 : Clip := { start := 4, samples := 512, trim := -2 }
def playing : Play := { Play.initial with
  state := .playing, clip := .clip clip512, anchor := ⟨250000, 0⟩,
  bufX := .full 0 (List.replicate 256 12000) }

/-- Jack A LISTENING in V0, which plays; a transaction in hand. -/
def singing : State := { busy with
  vtab.slots.v0 := { play := playing, language := 0, listeners := only (.jack .a), content := .commentary }
  jck.jacks.a := { Jack.initial with state := .listening, step := 10 } }

/-- Jack B with it in V0. -/
def shared : State := { singing with
  vtab.slots.v0 := { singing.vtab.slots.v0 with listeners := (only (.jack .a)).put (.jack .b) true }
  jck.jacks.b := { Jack.initial with state := .listening, step := 4 } }

/-! ## One command each, against the data sheet -/

theorem test_power_on : Reached (exec (.powerOn 9 false) State.reset)
    (fun t => t.txq.lfsr == 0x0909 && readAsked t.csr == some (0, 104) && t.dclk.running) = true := by
  decide +kernel

/-- A header of a flash of 2 blocks with a directory of `count` entries from `start`. -/
def header (start count : Nat) : List Byte :=
  [0x56, 0x43, 0x44, 0x53, 1, 0, 0x2A, 0x71, 0, 0, 2, 0] ++ bytes16 start ++ bytes16 count ++ clampBlock
def starting : State := { State.reset with
  csr.hand := some { what := .header, left := 5000 }, csr.scan := some .initial, dclk.running := true }

theorem test_header_empty : Reached (exec (.headerReadDone (header 511 0)) starting)
    (fun t => t.csr.image == .good && t.csr.fleet == 0x2A71 && t.stc.state == .awake
      && t.csr.config.languages == 12) = true := by decide +kernel
theorem test_header_past_end : Reached (exec (.headerReadDone (header 501 1)) starting)
    (fun t => t.csr.image == .bad && t.csr.fleet == 0 && t.stc.state == .awake) = true := by decide +kernel

/-- The twelve bytes of a directory entry (section 2.6). -/
def entryBytes (kind number language start samples : Nat) (trim : Byte) : List Byte :=
  [BitVec.ofNat 8 kind] ++ bytes16 number ++ [BitVec.ofNat 8 language] ++ [0] ++ bytes16 start
    ++ [BitVec.ofNat 8 (samples / 65536)] ++ bytes16 samples ++ [trim, 0]

/-- The scan of a flash of 1,000 blocks whose header gave `count` entries. -/
def scanning5 : ScanState :=
  { fleet := 0x2A71, flashBlocks := 1000, dirStart := 0x100, count := 5, configBytes := clampBlock,
    bytesLeft := 0, carry := [], judged := 0, first := none, lastKey := none }
def chunkState (n : Nat) (c : ScanState) : State := { starting with
  csr.hand := some { what := .chunk n, left := 5000 }, csr.scan := some c }

/-- Section 5.2: the scan that finds a duplicate key; without it the same directory is good. -/
def scanData (third : Nat) : List Byte :=
  entryBytes 0 36 0 4 120000 0 ++ entryBytes 0 36 1 473 118000 0 ++ entryBytes 0 36 third 10 117500 0
    ++ entryBytes 0 37 0 10 1 0 ++ entryBytes 2 0 255 10 1 0
theorem test_scan_duplicate : Reached (exec (.scanChunkDone (scanData 1)) (chunkState 60 scanning5))
    (fun t => t.csr.image == .bad && t.csr.entryCount == 0 && t.stc.state == .awake) = true := by decide +kernel
theorem test_scan_good : Reached (exec (.scanChunkDone (scanData 2)) (chunkState 60 scanning5))
    (fun t => t.csr.image == .good && t.csr.entryCount == 5
      && t.csr.first == some { key := ⟨0, 36, 0⟩, start := 4, samples := 120000, trim := 0 }) = true := by
  decide +kernel

/-- Section 5.3: the directory of the lookup with fallback, each clip at the block of its index. -/
def dirKeys : List Key :=
  [⟨0, 36, 0⟩, ⟨0, 36, 1⟩, ⟨0, 36, 2⟩, ⟨0, 37, 0⟩, ⟨0, 37, 2⟩, ⟨1, 14, 0⟩, ⟨1, 14, 1⟩, ⟨1, 14, 2⟩,
   ⟨1, 15, 0⟩, ⟨2, 0, 255⟩, ⟨3, 0, 255⟩]
def dirAt (i : Nat) : DirEntry := { key := dirKeys.getD i ⟨0, 0, 0⟩, start := i, samples := 256, trim := 20 }
def dirStore : ClipStore := { ClipStore.initial with
  image := .good, dirStart := 0x100, entryCount := 11, first := some (dirAt 0), config.languages := 3 }
theorem test_lookup_fallback : runSearch dirAt dirStore 10
    (searchNext dirStore { key := ⟨0, 37, 1⟩, second := false, bounds := none })
      = .result (some { start := 3, samples := 256, trim := 8 }) := by decide +kernel
theorem test_lookup_none : runSearch dirAt dirStore 10
    (searchNext dirStore { key := ⟨3, 1, 255⟩, second := false, bounds := none }) = .result none := by
  decide +kernel

def cueLookup (lo hi : Nat) : LookupReq := { key := ⟨0, 37, 1⟩, second := false, bounds := some (lo, hi) }
def probing (lo hi index : Nat) : State := { awake with
  csr := { dirStore with
    places.v1 := some { tag := 0, body := .lookup (cueLookup lo hi), inHand := true }
    hand := some { what := .probe (.slot .v1) 0 index, left := 5000 } } }
/-- The first probe of the fallback case: STOP 14 lies above, so the next middle is of 1..4. -/
theorem test_probe : Reached (exec (.probeDone (entryBytes 1 14 0 5 256 20)) (probing 1 10 5))
    (fun t => t.csr.hand == some { what := .probe (.slot .v1) 0 2, left := 5000 }) = true := by decide +kernel

def firstOf (samples : Nat) : BlockReq := { start := 4, samples := samples, number := 0, need := ⟨250000, 0⟩ }
/-- V0 PLAYING a clip of so many samples with its first block being read. -/
def reading (samples : Nat) : State := { awake with
  vtab.slots.v0.play := { playing with
    clip := .clip { clip512 with samples := samples }, bufX := .filling 0 }
  csr.places.v0 := some ⟨0, .block (firstOf samples), true⟩
  csr.hand := some ⟨.block (.slot .v0) 0 (firstOf samples), 5000⟩ }
theorem test_block_read : Reached (exec (.blockReadDone (List.replicate 256 0x5A)) (reading 512))
    (fun t => t.vtab.slots.v0.play.bufX == .full 0 (List.replicate 256 6528)
      && readAsked t.csr == some (5 * 256, 256)) = true := by decide +kernel
/-- The tail of a last block is filled with zeros (R81). -/
theorem test_block_tail : Reached (exec (.blockReadDone [0xC3]) (reading 1))
    (fun t => t.vtab.slots.v0.play.bufX == .full 0 (-2304 :: List.replicate 255 0)) = true := by decide +kernel
theorem test_timeout_scan : Reached (exec .transactionTimeout starting)
    (fun t => t.csr.image == .bad && t.csr.failureRun == 1 && t.stc.state == .awake) = true := by decide +kernel

def record (k : TxKind) (body : List Byte) (order : Nat) : Record := Record.placed k body order

/-- A queue whose only record is in flight as origin 9's frame. -/
def flying (r : Record) : State := { awake with
  txq.records := [{ r with inFlight := true }], txq.nextOrder := 50,
  line.driving := frameChars r.kind.code r.kind.cls 9 r.body }

theorem test_gap_begins : Reached (exec .idleGap { awake with txq.records := [record .stopReq [4] 3] })
    (fun t => t.line.driving == [0x09, 0x41, 0x04, 0xB1] && t.txq.records.all Record.inFlight
      && t.dclk.capture == ⟨250001, 28⟩) = true := by decide +kernel
/-- The station `micros` after the gap at which it began a STOP_REQ of its own. -/
def under (micros : Nat) : State :=
  match exec .idleGap { awake with txq.records := [record .stopReq [4] 3] } with
  | .next s => { s with ref.micros := s.ref.micros + micros, dclk.now := s.dclk.now.addMicros micros }
  | _ => awake

/-- Another sender's line that stops after two TUNE pairs, one idle gap, and the own BREAK up to its 11th bit. -/
def cutTune : RxFrame := { runs := [1344, 192, 96, 96, 96, 1152, 1056] }
/-- R12, R13: it is counted; its first TUNE edge lay 208 us back, and the own capture stands. -/
theorem test_broken_by_own_break : Reached (exec (.frameError cutTune) (under 88))
    (fun t => t.line.rxErrors == 1 && t.dclk.capture == ⟨250001, 28⟩ && t.line.driving != []
      && t.line.priorCapture == some ((under 88).dclk.now.subMicros 208)) = true := by decide +kernel
/-- R12: an error in the own frame, from its BREAK on, is not counted. -/
theorem test_own_error : Reached (exec (.frameError { runs := [1344, 1152, 96, 96] }) (under 208))
    (fun t => t == under 208) = true := by decide +kernel
/-- R14: another sender's TUNE times out under the own BREAK. -/
theorem test_timeout_under_own_break : Reached (exec .receiveTimeout (under 40))
    (fun t => t.line.rxErrors == 1 && t.line.rx.phase == .inBreak) = true := by decide +kernel
theorem test_gap_counts_down : Reached (exec .idleGap { awake with
    txq.records := [{ record .time [] 4 with backoff := 13 }] })
    (fun t => t.txq.records.map Record.backoff == [12] && t.line.driving == []) = true := by decide +kernel
/-- R50: an own SCENE sent places the claim with the own origin. -/
theorem test_sent_scene : Reached (exec .attemptSent (flying (record .scene [1, 0, 1, 0x2C] 2)))
    (fun t => t.lmp.claims.p0 == some { scene := 1, origin := 9, expiry := some 550000 } && t.txq.records == []) = true := by
  decide +kernel
/-- Section 3.10, step 3: HEAD bit 3 (bit 39 of the wave) is lost to origin 5. -/
theorem test_lost : Reached (exec (.attemptLost 39) (flying (record .stopReq [4] 3)))
    (fun t => t.txq.records == [record .stopReq [4] 3] && t.line.fails == 0) = true := by decide +kernel
/-- Section 3.9: origin 9's first draw gives a backoff of 14. -/
theorem test_failed : Reached (exec (.attemptFailed 43) (flying (record .stopReq [4] 3)))
    (fun t => t.txq.records == [{ record .stopReq [4] 3 with attempts := 1, backoff := 14 }]
      && t.line.fails == 1 && t.stc.failedAttempts == 1) = true := by decide +kernel

/-- Section 3.2: the full queue's three arrivals. -/
def fullQueue : TxQueue := { records := [record .status [] 1, record .scene [0] 2,
    { record .time [] 3 with inFlight := true }, record .time [] 4], nextOrder := 5, drops := 0, lfsr := 0 }
def fullAfter : TxQueue := fullQueue.enqueue .stopReq [2]
theorem test_full_queue : fullAfter.records.map Record.order = [2, 3, 4, 5] ∧ fullAfter.drops = 1
    ∧ ((fullAfter.enqueue .scene [1]).records.map Record.body).head? = some [1]
    ∧ ((fullAfter.enqueue .scene [1]).enqueue .status []).drops = 2 := by decide +kernel

theorem test_quiet_end : Reached (exec .quietPeriodEnd { awake with
    line.state := .quiet, line.quietLeft := some 1, line.fails := 16, dclk.timer := .held 7 })
    (fun t => t.line.state == .active && t.line.fails == 8 && t.dclk.timer == .running 7) = true := by decide
theorem test_stuck : Reached (exec .lineStuck awake)
    (fun t => t.line.state == .stuck && t.dclk.timer == .held 1) = true := by decide
/-- R4, R13: in STUCK too a run past 2,000 us is no BREAK. -/
theorem test_stuck_again : Reached (exec .lineStuck { awake with line.state := .stuck, line.rx.phase := .inBreak })
    (fun t => t.line.state == .stuck && t.line.rx.phase == .waiting) = true := by decide
theorem test_jabber : Reached (exec .jabber (flying (record .stopReq [4] 3)))
    (fun t => t.line.lockout && t.line.driving == [] && t.line.fails == 1) = true := by decide +kernel
theorem test_jabber_clear : Reached (exec .jabberLockoutClear { awake with line.lockout := true })
    (fun t => !t.line.lockout) = true := by decide
theorem test_timeout_counted : Reached (exec .receiveTimeout { awake with line.rxErrors := 254 })
    (fun t => t.line.rxErrors == 255) = true := by decide +kernel
theorem test_error_asleep : Reached (exec (.frameError hushFrame) parked)
    (fun t => t.line.rxErrors == 0) = true := by decide +kernel

def timeFrame (ms us : Nat) : RxFrame := frame 1 1 21 (bytes32 ms ++ bytes16 us)
/-- Section 4.4, case 1: the clock at 120,401 ms 110 us, the edge 860 us back, the body 1,650 us ahead. -/
theorem test_time_step : Reached
    (exec (.receiveTime (timeFrame 120401 900)) { awake with dclk.now := ⟨120401, 110⟩ })
    (fun t => t.dclk.now == ⟨120402, 760⟩ && t.dclk.timer == .running 1014000) = true := by decide +kernel
/-- Case 3: 700 us behind, the timer shortened to 16 + 14 ms. -/
theorem test_time_slow : Reached
    (exec (.receiveTime (timeFrame 249999 340)) { awake with dclk.timer := .running 600000 })
    (fun t => t.dclk.now == awake.dclk.now && t.dclk.timer == .running 30000) = true := by decide +kernel

def cueFrame (cue start : Nat) : RxFrame := frame 2 1 0 (bytes16 cue ++ bytes32 start)
def crowded (q : List (Nat × Millis)) : State := { busy with
  dclk.now := ⟨120400, 0⟩, prg.lastTaken := some ⟨36, 118000⟩, prg.current := some ⟨36, 118000⟩,
  prg.queue := q.map fun e => ⟨e.1, e.2⟩ }
/-- Section 6.1: 45 @ 128,000 evicts 40 @ 140,000. -/
theorem test_cue_evicts : Reached (exec (.receiveCue (cueFrame 45 128000))
    (crowded [(37, 120700), (38, 125000), (39, 131000), (40, 140000)]))
    (fun t => t.prg.queue == [⟨37, 120700⟩, ⟨38, 125000⟩, ⟨45, 128000⟩, ⟨39, 131000⟩] && t.line.rxErrors == 1) = true := by
  decide +kernel
theorem test_cue_replaces : Reached (exec (.receiveCue (cueFrame 46 125000))
    (crowded [(37, 120700), (38, 125000), (45, 128000), (39, 131000)]))
    (fun t => t.prg.queue == [⟨37, 120700⟩, ⟨46, 125000⟩, ⟨45, 128000⟩, ⟨39, 131000⟩] && t.line.rxErrors == 0) = true := by
  decide +kernel
/-- The step to 125,400 ms: 46 becomes current, 37 is discarded. -/
theorem test_promotion : Reached (exec .cuePromotion { crowded
    [(37, 120700), (46, 125000), (45, 128000), (39, 131000)] with dclk.now := ⟨125400, 0⟩ })
    (fun t => t.prg.current == some ⟨46, 125000⟩ && t.prg.queue == [⟨45, 128000⟩, ⟨39, 131000⟩]) = true := by
  decide +kernel
theorem test_hush_all : Reached (exec (.receiveHush hushFrame) (crowded [(37, 120700)]))
    (fun t => t.prg.current == none && t.prg.queue == [] && t.prg.lastTaken == some ⟨36, 118000⟩) = true := by
  decide +kernel

def announceFrame (stop start : Nat) : RxFrame := frame 3 1 0 (bytes16 stop ++ bytes32 start)
theorem test_announce_waits : Reached (exec (.receiveAnnounce (announceFrame 14 252000)) busy)
    (fun t => t.ann.current == some ⟨14, 252000, none, .waiting⟩) = true := by decide +kernel
/-- R121: later than the late limit of 2,000 ms by one. -/
theorem test_announce_late : Reached (exec (.receiveAnnounce (announceFrame 14 247999)) busy)
    (fun t => t.ann.current == none && t.line.rxErrors == 1) = true := by decide +kernel
theorem test_stop_heard : Reached (exec (.receiveStopReq (frame 4 0 5 [0])) busy)
    (fun t => t.ann.latch && t.ann.purpose == .tone) = true := by decide +kernel
theorem test_door_clears : Reached (exec (.receiveDoor (frame 5 0 5 [1])) { busy with ann.latch := true })
    (fun t => !t.ann.latch && t.ann.doors == [⟨5, 270000⟩]) = true := by decide +kernel
/-- R28: a hold of 3,600..65,534 is taken as 3,599. -/
theorem test_scene_hold : Reached (exec (.receiveScene (frame 6 2 0 [3, 2, 0xFF, 0xFE])) busy)
    (fun t => t.lmp.claims.p2 == some ⟨3, 0, some (250000 + 3599000)⟩) = true := by decide +kernel
theorem test_status_clash : Reached (exec (.receiveStatus (frame 8 3 9 (List.replicate 12 0))) busy)
    (fun t => t.line.clash && t.line.rxErrors == 0) = true := by decide +kernel
theorem test_park_code : Reached (exec (.receivePark (frame 9 0 0 [0, 1])) busy)
    (fun t => t.stc.state == .awake) = true := by decide +kernel
/-- R31: a station with a bad image matches code 0. -/
theorem test_wake_zero : Reached (exec (.wakeMatch (sent 96 (wakeChars 0))) parked)
    (fun t => t.stc.state == .awake && t.line.state == .active && t.dclk.timer == .running 578000) = true := by
  decide +kernel
theorem test_wake_end_failed : Reached (exec (.wakeAttemptEnd (some 20)) { parked with line.wake := .sending })
    (fun t => t.stc.state == .awake && t.line.fails == 0) = true := by decide +kernel
theorem test_wake_wait : Reached (exec .wakeWaitExpiry { parked with
    stc.wakeWait := some 0, line.wake := .held, line.lockout := true })
    (fun t => t.stc.state == .awake && t.line.wake == .none && t.line.lockout) = true := by decide +kernel
theorem test_park_timer : Reached (exec .parkTimerExpiry parking)
    (fun t => t.stc.state == .parked && !t.dclk.running) = true := by decide
theorem test_time_expiry : Reached (exec .timeTimerExpiry { awake with txq.lfsr := 0x444E, dclk.timer := .running 0 })
    (fun t => t.txq.records == [record .time [] 1] && t.dclk.timer == .running 1029000) = true := by decide +kernel
theorem test_status_expiry : Reached (exec .statusTimerExpiry { awake with stc.quietMark := true })
    (fun t => !t.stc.quietMark && t.stc.statusTimer == .running 10078000
      && (t.txq.records.map fun r => byteAt r.body 0) == [0x40]) = true := by decide +kernel
theorem test_door_expiry : Reached (exec .doorEntryExpiry { awake with ann.doors := [⟨5, 250000⟩, ⟨6, 250001⟩] })
    (fun t => t.ann.doors == [⟨6, 250001⟩]) = true := by decide +kernel
theorem test_claim_expiry : Reached (exec .claimExpiry { awake with
    lmp.claims := ⟨some ⟨1, 9, some 250000⟩, none, none, some ⟨2, 0, none⟩⟩ })
    (fun t => t.lmp.claims.p0 == none && t.lmp.claims.p3 == some ⟨2, 0, none⟩) = true := by decide +kernel
theorem test_sample_tick : Reached (exec .sampleTick { singing with
    lvl.gains := { singing.lvl.gains with ja := { slot := -29, va := -72, muted := false } } })
    (fun t => t.lvl.out.ja == 973 && t.vtab.slots.v0.play.position == 1) = true := by decide +kernel
theorem test_gain_update : Reached (exec .gainUpdate singing)
    (fun t => t.lvl.gains.ja == { slot := -71, va := -71, muted := false }) = true := by decide +kernel

/-- V0 at a block boundary, `lag` samples of 125 us behind its timeline. -/
def atBoundary (lag : Nat) : State := { singing with
  vtab.slots.v0.play := { playing with position := 256, atBoundary := true, bufX := .empty }
  csr.places.v0 := some { tag := 0, body := .block toneBlock, inHand := false },
  dclk.now := (DeckTime.mk 250032 0).addMicros (125 * lag) }
theorem test_boundary_underrun : Reached (exec (.blockBoundary (.slot .v0)) (atBoundary 64))
    (fun t => t.vtab.slots.v0.play.underruns == 1 && t.vtab.slots.v0.play.position == 256) = true := by
  decide +kernel
theorem test_boundary_realigns : Reached (exec (.blockBoundary (.slot .v0)) (atBoundary 65))
    (fun t => t.vtab.slots.v0.play.underruns == 0 && t.vtab.slots.v0.play.position == 321) = true := by
  decide +kernel
theorem test_clip_end : Reached (exec (.clipEnd (.slot .v0)) { singing with
    vtab.slots.v0.play := { playing with position := 512 } })
    (fun t => t.vtab.slots.v0.play.state == .silent && t.vtab.slots.v0.play.clip == .clip clip512) = true := by
  decide +kernel
/-- The fifth differing sample is accepted (R131). -/
def pressedC : SeatPins := { State.reset.pins.seats with c := { PanelLevels.released with stop := true } }
theorem test_filter_fifth : Reached (exec (.seatInputSample pressedC) { busy with
    jck.panels.c := { Panel.initial with stop := { accepted := false, run := 4 } } })
    (fun t => t.raised == [.stopPress .c] && t.jck.panels.c.stop == ⟨true, 0⟩) = true := by decide +kernel
theorem test_plug : Reached (exec (.plug .b) busy)
    (fun t => t.jck.jacks.b == ⟨.settling, 0, 8, some 300000, 1⟩) = true := by decide +kernel
theorem test_unplug : Reached (exec (.unplug .a) singing)
    (fun t => t.jck.jacks.a.state == .empty && t.vtab.slots.v0.play.state == .idle && t.csr.tags.v0 == 1) = true := by
  decide +kernel
theorem test_settle_joins : Reached (exec (.settleEnd .b) { singing with
    jck.jacks.b := { Jack.initial with state := .settling, settle := some 0 } })
    (fun t => t.vtab.slots.v0 == shared.vtab.slots.v0 && t.lvl.silence.jb == some 8000) = true := by decide +kernel
theorem test_volume_top : Reached (exec (.volUpPress .a) { singing with jck.jacks.a.step := 15 })
    (fun t => t.jck.jacks.a.step == 15 && t.jck.panels.a.upRepeat == some 500000) = true := by decide +kernel
theorem test_volume_bottom : Reached (exec (.volDownPress .a) { singing with jck.jacks.a.step := 0 })
    (fun t => t.jck.jacks.a.step == 0) = true := by decide +kernel

/-- Section 6.3, steps 5 and 6: D takes the speaker's slot, and the speaker joins D's on the next press. -/
def slotOf (language : Nat) (l : Listeners) : Slot :=
  { play := playing, language := language, listeners := l, content := .commentary }
def fiveLanguages (d : Nat) (v0 v3 : Slot) (speaker : Speaker) : State := { busy with
  csr.config.languages := 5, csr.config.speakerOn := true, csr.tags.v0 := if d = 3 then 20 else 21
  prg.current := some ⟨37, 250000⟩
  vtab.slots := ⟨v0, slotOf 1 (only (.jack .a)), slotOf 2 (only (.jack .b)), v3⟩, vtab.speaker := speaker
  jck.jacks := ⟨⟨.listening, 1, 8, none, 1⟩, ⟨.listening, 2, 8, none, 1⟩, ⟨.listening, 3, 8, none, 1⟩,
    ⟨.listening, d, 8, none, 1⟩⟩
  jck.panels.d := { Panel.initial with hold := some 1 } }
theorem test_speaker_starves : Reached (exec (.langRelease .d) (fiveLanguages 3 (slotOf 0 (only .spk))
    (slotOf 3 ((only (.jack .c)).put (.jack .d) true)) (.attached .v0)))
    (fun t => t.vtab.speaker == .starved && t.vtab.slots.v0.language == 4
      && t.vtab.slots.v0.listeners == only (.jack .d) && t.csr.tags.v0 == 21) = true := by decide +kernel
theorem test_speaker_regains : Reached (exec (.langRelease .d) (fiveLanguages 4 (slotOf 4 (only (.jack .d)))
    (slotOf 3 (only (.jack .c))) .starved))
    (fun t => t.vtab.speaker == .attached .v0 && t.vtab.slots.v0.language == 0
      && t.vtab.slots.v0.listeners == (only (.jack .d)).put .spk true && t.csr.tags.v0 == 23) = true := by
  decide +kernel

theorem test_hold : Reached (exec (.langHoldExpiry .b) { busy with
    jck.panels.b := { Panel.initial with hold := some 0 } }) (fun t => t.jck.readAB && !t.jck.readCD) = true := by
  decide +kernel
theorem test_stop_press : Reached (exec (.stopPress .c) busy)
    (fun t => t.ann.latch && t.ann.ownOpen && t.txq.records.map Record.body == [[4]]) = true := by decide +kernel
theorem test_stop_press_door : Reached (exec (.stopPress .c) { busy with ann.doors := [⟨5, 270000⟩] })
    (fun t => !t.ann.latch && t.txq.records == []) = true := by decide +kernel
def withDoor : State := { busy with csr.config.doorInput := true, ann.latch := true }
theorem test_door_opens : Reached (exec .doorSwitchOpen withDoor)
    (fun t => t.ann.doors == [⟨9, 270000⟩] && !t.ann.latch && t.txq.records.map Record.body == [[1]]) = true := by
  decide +kernel
theorem test_door_closes : Reached (exec .doorSwitchClosed { withDoor with
    ann.doors := [⟨9, 270000⟩, ⟨5, 270000⟩] }) (fun t => t.ann.doors == [⟨5, 270000⟩]) = true := by decide +kernel
/-- Section 9.3: the 250th tick lands, the 249th stands 124 short. -/
theorem test_fade_ticks : (fadeTicks 249 { Channel.initial .accent with level := 10240, target := 200, step := 164 }).level
      = 51076
    ∧ (fadeTicks 250 { Channel.initial .accent with level := 10240, target := 200, step := 164 }).level = 51200 := by
  decide +kernel
def darkRun (n : Nat) : State := { awake with lmp.runKind := .dark, lmp.runLen := n }
theorem test_ambient_run : Reached (exec (.ambientSample 39) (darkRun 119))
    (fun t => t.lmp.runLen == 120 && t.raised == [.wishSet]) = true := by decide +kernel
theorem test_wish : Reached (exec .wishSet (darkRun 120))
    (fun t => t.lmp.wish == .dark && t.txq.records.map Record.body == [[1, 0, 0x01, 0x2C]]) = true := by
  decide +kernel
/-- Section 9.5: the margins of origins 9, 12 and 40. -/
theorem test_margins : refreshMargin 9 = 39000 ∧ refreshMargin 12 = 42000 ∧ refreshMargin 40 = 40000 := by
  decide +kernel
def lit (level run : Nat) : State := { awake with
  lmp.chans.ch3 := { Channel.initial .stopInd with level := level, faultRun := run } }
def openCh3 : SenseLines := { State.reset.pins.sense with ch3 := true }
theorem test_lamp_open : Reached (exec (.lampCheck openCh3) (lit 4096 2))
    (fun t => t.raised == [.lampFaultChange .ch3]) = true := by decide +kernel
theorem test_lamp_dark_held : Reached (exec (.lampCheck openCh3) (lit 4095 2))
    (fun t => t.raised == [] && t.lmp.chans.ch3.faultRun == 2) = true := by decide +kernel
theorem test_lamp_change : Reached (exec (.lampFaultChange .ch3) (lit 4096 3))
    (fun t => t.lmp.chans.ch3.fault && t.lmp.chans.ch3.faultRun == 0) = true := by decide +kernel
/-- Section 8.8, steps 3 and 4: the update at the end of a silence comes before its end, and moves no slot pair. -/
theorem test_ramp_starts_after :
    (dueNow { singing with ref.micros := 328000, ref.seatFrom := 1, ref.gridFrom := 1, lvl.silence.ja := some 0 }).take 2
        = [.gainUpdate, .sourceSilenceEnd (.jack .a)]
    ∧ (updatedGains { singing with lvl.silence.ja := some 0, lvl.gains.ja.slot := -72 } (.jack .a)).slot = -72
    ∧ (updatedGains { singing with lvl.gains.ja.slot := -72 } (.jack .a)).slot = -71 := by decide +kernel
/-- An idle step passes a microsecond of reference. -/
theorem test_idle : Reached (step awake) (fun t => t.dclk.now == ⟨250000, 901⟩ && t.ref.micros == 250000901) = true := by
  decide +kernel

/-! ## Witnesses: concrete states and operands that meet each statement's hypotheses, clause by clause -/

theorem only_place (v : VoiceId) (s : State)
    (h : (decide (v ≠ .va) && s.csr.vaPlace.isSome) = false)
    (h0 : (decide (v ≠ .slot .v0) && s.csr.places.v0.isSome) = false)
    (h1 : (decide (v ≠ .slot .v1) && s.csr.places.v1.isSome) = false)
    (h2 : (decide (v ≠ .slot .v2) && s.csr.places.v2.isSome) = false)
    (h3 : (decide (v ≠ .slot .v3) && s.csr.places.v3.isSome) = false) :
    ∀ w, w ≠ v → placeOf s w = none := by
  intro w hw
  have hw' : v ≠ w := fun e => hw e.symm
  cases w with
  | va => simpa [hw', placeOf] using h
  | slot i => cases i <;> first
    | simpa [hw', placeOf, Slots.get] using h0
    | simpa [hw', placeOf, Slots.get] using h1
    | simpa [hw', placeOf, Slots.get] using h2
    | simpa [hw', placeOf, Slots.get] using h3

theorem witness_FrontCommandRuns : step { awake with pending := [.jabberLockoutClear] }
    = exec .jabberLockoutClear { awake with pending := [] } := rfl

theorem witness_EmptyQueueStep : State.reset.pending = [] ∧ State.reset.raised = []
    ∧ (darkRun 120).pending = [] ∧ { darkRun 120 with raised := [.wishSet] }.raised ≠ [] := by decide

theorem witness_HeaderReadDone :
    starting.csr.hand = some { what := .header, left := 5000 } ∧ 104 ≤ (header 501 1).length
    ∧ headerPasses (header 501 1) = false ∧ headerPasses (header 511 0) = true ∧ field16 (header 511 0) 14 = 0
    ∧ headerPasses (header 500 1) = true ∧ 1 ≤ field16 (header 500 1) 14
    ∧ 104 ≤ (header 511 0).length ∧ 104 ≤ (header 500 1).length := by decide +kernel

/-- The statement's terms: entry `i` of the bytes in hand, and the key before it. -/
def entryIn (all : List Byte) (i : Nat) : DirEntry := entryOf ((all.drop (12 * i)).take 12)
def keyBefore (c : ScanState) (all : List Byte) (i : Nat) : Option Key :=
  if i = 0 then c.lastKey else some (entryIn all (i - 1)).key
def Sound (c : ScanState) (data : List Byte) (n : Nat) : Prop :=
  let all := c.carry ++ data.take n
  ∀ i, i < all.length / 12 → 1 ≤ (entryIn all i).samples
    ∧ (entryIn all i).start + ((entryIn all i).samples + 255) / 256 ≤ c.flashBlocks
    ∧ ∀ k, keyBefore c all i = some k → k.lt (entryIn all i).key = true
def soundB (c : ScanState) (data : List Byte) (n : Nat) : Bool :=
  let all := c.carry ++ data.take n
  (List.range (all.length / 12)).all fun i => 1 ≤ (entryIn all i).samples
    && (entryIn all i).start + ((entryIn all i).samples + 255) / 256 ≤ c.flashBlocks
    && (keyBefore c all i).all fun k => k.lt (entryIn all i).key
theorem sound_iff (c : ScanState) (data : List Byte) (n : Nat) : Sound c data n ↔ soundB c data n = true := by
  simp only [Sound, soundB, List.all_eq_true, List.mem_range, Bool.and_eq_true, decide_eq_true_eq, and_assoc]
  refine forall₂_congr fun i _ => and_congr_right fun _ => and_congr_right fun _ => ?_
  cases keyBefore c (c.carry ++ data.take n) i <;> simp

/-- A scan of a flash of 2 blocks whose last entry judged was CUE 36 in language 1. -/
def oneEntry : ScanState := { scanning5 with flashBlocks := 2, lastKey := some ⟨0, 36, 1⟩ }
/-- A directory of CUE clips of one block each, numbered in order. -/
def cueDir (n : Nat) : List Byte := (List.range n).flatMap fun i => entryBytes 0 i 0 1 256 0

theorem entry_flatMap (f : Nat → List Byte) (hf : ∀ i, (f i).length = 12) :
    ∀ (l : List Nat) (i x : Nat), l[i]? = some x → ((l.flatMap f).drop (12 * i)).take 12 = f x
  | [], _, _, h => by simp at h
  | a :: l, 0, x, h => by
    obtain rfl : a = x := by simpa using h
    simp [hf]
  | a :: l, i + 1, x, h => by
    have e : 12 * (i + 1) = (f a).length + 12 * i := by rw [hf]; omega
    rw [List.flatMap_cons, e, List.drop_length_add_append]
    exact entry_flatMap f hf l i x (by simpa using h)

theorem cueDir_entry (n i m : Nat) (hi : i < n) (hm : 12 * i + 12 ≤ m) :
    entryIn ((cueDir n).take m) i = entryOf (entryBytes 0 i 0 1 256 0) := by
  rw [entryIn, List.drop_take, List.take_take, Nat.min_eq_left (by omega), cueDir,
    entry_flatMap (fun i => entryBytes 0 i 0 1 256 0) (fun _ => rfl) _ i i (by simp [hi])]

/-- A directory of 400 entries over two chunks: 341 entries and 4 bytes, then the other 59. -/
def firstChunk : ScanState := { scanning5 with count := 400, bytesLeft := 704 }
def lastEntries : List Byte := (List.range 59).flatMap fun i => entryBytes 0 (341 + i) 0 1 256 0
def lastChunk : ScanState := { scanning5 with
  count := 400, carry := lastEntries.take 4, judged := 341, lastKey := some ⟨0, 340, 0⟩ }
theorem firstChunk_sound : Sound firstChunk ((cueDir 400).take 4096) 4096 := by
  have size : ((cueDir 400).take 4096).length = 4096 := by decide +kernel
  have each : ∀ i < 341, 1 ≤ (entryOf (entryBytes 0 i 0 1 256 0)).samples
      ∧ (entryOf (entryBytes 0 i 0 1 256 0)).start + ((entryOf (entryBytes 0 i 0 1 256 0)).samples + 255) / 256 ≤ 1000
      ∧ (1 ≤ i → (entryOf (entryBytes 0 (i - 1) 0 1 256 0)).key.lt (entryOf (entryBytes 0 i 0 1 256 0)).key = true) := by
    decide +kernel
  intro i hi
  have whole : firstChunk.carry ++ ((cueDir 400).take 4096).take 4096 = (cueDir 400).take 4096 := by
    rw [List.take_take]; rfl
  rw [whole] at hi ⊢
  rw [size] at hi
  rw [cueDir_entry 400 i 4096 (by omega) (by omega)]
  refine ⟨(each i hi).1, (each i hi).2.1, fun k hk => ?_⟩
  by_cases h0 : i = 0
  · rw [keyBefore, if_pos h0] at hk; exact absurd hk nofun
  · rw [keyBefore, if_neg h0, cueDir_entry 400 (i - 1) 4096 (by omega) (by omega)] at hk
    exact Option.some.inj hk ▸ (each i hi).2.2 (by omega)
theorem witness_ScanChunkDone :
    ((chunkState 4096 firstChunk).csr.hand = some { what := .chunk 4096, left := 5000 }
      ∧ (chunkState 4096 firstChunk).csr.scan = some firstChunk ∧ 4096 ≤ ((cueDir 400).take 4096).length
      ∧ 1 ≤ firstChunk.bytesLeft)
    ∧ Sound firstChunk ((cueDir 400).take 4096) 4096
    ∧ lastChunk.bytesLeft = 0 ∧ 704 ≤ (lastEntries.drop 4).length ∧ lastChunk.carry.length = 4
    ∧ Sound lastChunk (lastEntries.drop 4) 704
    ∧ Sound oneEntry (entryBytes 0 36 2 1 256 0) 12 ∧ ¬ Sound oneEntry (entryBytes 0 36 2 1 0 0) 12
    ∧ ¬ Sound oneEntry (entryBytes 0 36 2 1 257 0) 12 ∧ ¬ Sound oneEntry (entryBytes 0 36 1 1 256 0) 12 := by
  refine ⟨by decide +kernel, firstChunk_sound, ?_⟩
  simp only [sound_iff]
  decide +kernel

theorem witness_SearchFindsKey :
    1 ≤ dirStore.entryCount ∧ dirStore.entryCount ≤ 32768 ∧ dirStore.first = some (dirAt 0)
    ∧ (∀ j < 11, ∀ i < j, (dirAt i).key.lt (dirAt j).key = true)
    ∧ (3 < dirStore.entryCount ∧ (dirAt 3).key = ⟨0, 37, 0⟩) ∧ (10 < dirStore.entryCount ∧ (dirAt 10).key = ⟨3, 0, 255⟩)
    ∧ (∀ i < 11, (dirAt i).key ≠ ⟨0, 37, 1⟩) ∧ dirStore.config.house = 0
    ∧ (∀ i < 11, (dirAt i).key ≠ ⟨0, 38, 1⟩ ∧ (dirAt i).key ≠ ⟨0, 38, 0⟩ ∧ (dirAt i).key ≠ ⟨3, 1, 255⟩) := by
  decide +kernel

/-- V1 SEEKING the answer of the lookup in hand, with a lookup of its own terms. -/
def seekingV1 (lo hi index : Nat) (second : Bool) : State := { probing lo hi index with
  vtab.slots.v1.play := { playing with state := .seeking, clip := .none, bufX := .empty }
  csr.places.v1 := some { tag := 0, body := .lookup { cueLookup lo hi with second := second }, inHand := true } }
theorem probing_alone (lo hi index : Nat) : ∀ w, w ≠ .slot .v1 → placeOf (probing lo hi index) w = none :=
  only_place _ _ rfl rfl rfl rfl rfl
theorem seekingV1_alone (lo hi index : Nat) (b : Bool) :
    ∀ w, w ≠ .slot .v1 → placeOf (seekingV1 lo hi index b) w = none :=
  only_place _ _ rfl rfl rfl rfl rfl
theorem witness_ProbeDone :
    let sought : Key := (cueLookup 4 6).key
    let above := entryBytes 1 14 0 5 256 20
    let below := entryBytes 0 36 2 5 256 20
    let equal := entryBytes 0 37 1 5 256 20
    (probing 4 6 5).csr.hand = some { what := .probe (.slot .v1) 0 5, left := 5000 }
    ∧ 12 ≤ above.length ∧ 12 ≤ below.length ∧ 12 ≤ equal.length
    ∧ placeOf (probing 4 6 5) (.slot .v1) = some ⟨0, .lookup (cueLookup 4 6), true⟩
    ∧ (cueLookup 4 6).bounds = some (4, 6)
    ∧ (sought ≠ (entryOf above).key ∧ sought.lt (entryOf above).key = true ∧ 4 ≤ 5 - 1)
    ∧ (sought ≠ (entryOf below).key ∧ sought.lt (entryOf below).key = false ∧ 5 + 1 ≤ 6)
    ∧ (5 - 1 < 5 ∧ 5 < 5 + 1 ∧ (cueLookup 5 5).second = false ∧ sought.kind = 0 ∧ sought.language ≠ dirStore.config.house
      ∧ dirStore.first = some (dirAt 0) ∧ 2 ≤ dirStore.entryCount
      ∧ ({ sought with language := 0 } : Key) ≠ (dirAt 0).key ∧ ({ sought with language := 0 } : Key).lt (dirAt 0).key = false)
    ∧ (let s := seekingV1 4 6 5 true
      (s.vtab.slots.get .v1).content = .commentary ∧ tagOf s (.slot .v1) = 0 ∧ (playOf s (.slot .v1)).state = .seeking
      ∧ sought = (entryOf equal).key ∧ 0 ≤ s.dclk.now.diffMicros (playOf s (.slot .v1)).anchor
      ∧ s.dclk.now.diffMicros (playOf s (.slot .v1)).anchor / 125 < 256 ∧ 1 ≤ (entryOf equal).samples
      ∧ (DeckTime.mk 249999 0).diffMicros (playOf s (.slot .v1)).anchor < 0) := by
  decide +kernel

/-- A PLAYING voice inside block 1 that still waits for block 0. -/
def overtaken (position : Nat) : Play := { playing with position := position, bufX := .filling 0 }
/-- R101, R105: a late block is followed by the block of the position, or finds the clip over on the timeline. -/
theorem test_late_block :
    ((overtaken 300).blockCame ⟨250063, 999⟩ 0 []).play = { overtaken 300 with bufX := .filling 1 }
    ∧ ((overtaken 300).blockCame ⟨250064, 0⟩ 0 []).play = { overtaken 300 with state := .silent, bufX := .empty }
    ∧ ((overtaken 300).blockCame ⟨250064, 0⟩ 0 []).ended = true := by decide +kernel

/-- A SEEKING voice whose clip of 512 samples is anchored at 250,000 ms. -/
def seeking : Play := { playing with state := .seeking, bufX := .filling 0 }
theorem witness_BlockReadDone (n : Nat) (hn : n = 512 ∨ n = 256) :
    ((reading n).csr.hand = some ⟨.block (.slot .v0) 0 (firstOf n), 5000⟩
    ∧ storedIn n 0 ≤ (List.replicate 256 (0 : Byte)).length ∧ tagOf (reading n) (.slot .v0) = 0
    ∧ placeOf (reading n) (.slot .v0) = some ⟨0, .block (firstOf n), true⟩
    ∧ (∀ w, w ≠ .slot .v0 → placeOf (reading n) w = none)
    ∧ (playOf (reading n) (.slot .v0)).state = .playing
    ∧ (playOf (reading n) (.slot .v0)).bufX = .filling 0 ∧ (playOf (reading n) (.slot .v0)).bufY = .empty
    ∧ (playOf (reading n) (.slot .v0)).atBoundary = false
    ∧ 0 = (playOf (reading n) (.slot .v0)).position / 256 ∧ 0 + 1 < blocksOf 512 ∧ blocksOf 256 ≤ 0 + 1)
    ∧ seeking.state = .seeking ∧ seeking.clip = .clip clip512 ∧ seeking.bufX = .filling 0
    ∧ (DeckTime.mk 249999 999).diffMicros seeking.anchor < 0
    ∧ (0 ≤ (DeckTime.mk 250000 0).diffMicros seeking.anchor ∧ (DeckTime.mk 250000 0).diffMicros seeking.anchor / 125 < 512
      ∧ (DeckTime.mk 250000 0).diffMicros seeking.anchor / 125 / 256 = 0)
    ∧ ((DeckTime.mk 250063 999).diffMicros seeking.anchor / 125 = 511)
    ∧ ((DeckTime.mk 250032 0).diffMicros seeking.anchor / 125 / 256 ≠ 0)
    ∧ ((512 : Int) ≤ (DeckTime.mk 250064 0).diffMicros seeking.anchor / 125)
    ∧ ((overtaken 256).state = .playing ∧ (overtaken 256).clip = .clip clip512 ∧ (overtaken 256).bufX = .filling 0
      ∧ 0 < (overtaken 256).position / 256 ∧ 1 ≤ clip512.samples ∧ 512 ≤ (overtaken 512).position
      ∧ ¬ (512 ≤ (overtaken 256).position ∨ (512 : Int) ≤ (DeckTime.mk 250063 999).diffMicros (overtaken 256).anchor / 125)
      ∧ ({ overtaken 256 with bufY := .full 1 [] }.bufY.isFull 1 = true ∧ (overtaken 256).bufY.isFull 1 = false)
      ∧ ({ overtaken 256 with bufX := .full 1 [], bufY := .filling 0 }.bufX.isFull 1 = true
        ∧ { overtaken 256 with bufX := .empty, bufY := .filling 0 }.bufX.isFull 1 = false)
      ∧ playing.bufX.isFilling 0 = false ∧ playing.bufY.isFilling 0 = false) := by
  refine ⟨?_, by decide +kernel⟩
  rcases hn with rfl | rfl <;>
    exact ⟨rfl, by decide +kernel, rfl, rfl, only_place _ _ rfl rfl rfl rfl rfl, rfl, rfl, rfl, rfl, rfl,
      by decide, by decide⟩

theorem witness_FailureRun :
    starting.csr.hand = some ⟨.header, 5000⟩ ∧ 104 ≤ (header 511 0).length
    ∧ (chunkState 60 scanning5).csr.hand = some ⟨.chunk 60, 5000⟩ ∧ 60 ≤ (scanData 1).length
    ∧ (probing 1 10 5).csr.hand = some ⟨.probe (.slot .v1) 0 5, 5000⟩
    ∧ 12 ≤ (entryBytes 1 14 0 5 256 20).length
    ∧ (reading 1).csr.hand = some ⟨.block (.slot .v0) 0 (firstOf 1), 5000⟩
    ∧ storedIn 1 0 ≤ [(0xC3 : Byte)].length := by decide +kernel

def queued (rs : List Record) : State := { awake with txq.records := rs }
theorem witness_IdleGap :
    (queued [record .stopReq [4] 3]).line.driving = [] ∧ (queued [record .stopReq [4] 3]).line.lockout = false
    ∧ (queued [record .stopReq [4] 3]).stc.origin ≠ 0 ∧ (queued [record .stopReq [4] 3]).stc.origin ≠ 63
    ∧ (queued [record .stopReq [4] 3]).line.state = .active
    ∧ (queued [record .stopReq [4] 3]).txq.head = some (record .stopReq [4] 3) ∧ (record .stopReq [4] 3).backoff = 0
    ∧ (record .stopReq [4] 3).kind.cls = 0 ∧ (queued []).txq.head = none
    ∧ (∃ r, (queued [{ record .time [] 3 with backoff := 1 }]).txq.head = some r ∧ r.backoff ≠ 0)
    ∧ (∃ r, (queued [record .time [] 3]).txq.head = some r ∧ r.kind.cls ≠ 0)
    ∧ { queued [] with line.state := .stuck }.line.state = .stuck ∧ (queued []).txq.records = []
    ∧ (parked.line.state = .asleep ∧ parked.line.lockout = false ∧ parked.line.driving = []
      ∧ { parked with line.wake := .held }.line.wake = .held) :=
  ⟨rfl, rfl, by decide, by decide, rfl, rfl, rfl, rfl, rfl, ⟨_, rfl, by decide⟩, ⟨_, rfl, by decide⟩, rfl, rfl,
    rfl, rfl, rfl, rfl⟩

theorem witness_QueueRequests :
    State.reset.line.state = .off ∧ parked.line.state = .asleep
    ∧ ({ awake with line.state := .quiet }.line.state = .quiet ∧ TxKind.time.cls ≠ 0 ∧ TxKind.stopReq.cls = 0)
    ∧ ({ awake with line.state := .stuck, line.quietLeft := some 9 }.line.quietLeft.isSome = true)
    ∧ ({ awake with line.state := .stuck }.line.quietLeft.isSome = false ∧ awake.line.state = .active)
    ∧ (∃ r ∈ [record .stopReq [4] 3], r.kind = .stopReq ∧ r.inFlight = false)
    ∧ (∀ r ∈ (flying (record .stopReq [4] 3)).txq.records, ¬ (r.kind = .stopReq ∧ r.inFlight = false))
    ∧ (let q := [record .status [] 1, record .scene [0] 2, record .time [] 3]
      (∀ r ∈ q, ¬ (r.kind = .stopReq ∧ r.inFlight = false)) ∧ q.length ≤ 3)
    ∧ fullAfter.head = some (record .stopReq [2] 5) ∧ (queued []).txq.head = none := by decide +kernel

theorem witness_FullQueue :
    4 ≤ fullQueue.records.length ∧ (∀ r ∈ fullQueue.records, r.kind = .stopReq → r.inFlight = true)
    ∧ record .status [] 1 ∈ fullQueue.records ∧ (record .status [] 1).inFlight = false
    ∧ (∀ r ∈ fullQueue.records, r.inFlight = false →
      r.kind.cls < (record .status [] 1).kind.cls
        ∨ (r.kind.cls = (record .status [] 1).kind.cls ∧ r.order ≤ (record .status [] 1).order))
    ∧ TxKind.stopReq.cls < (record .status [] 1).kind.cls
    ∧ 4 ≤ fullAfter.records.length ∧ (∀ r ∈ fullAfter.records, r.kind = .status → r.inFlight = true)
    ∧ (∀ r ∈ fullAfter.records, r.inFlight = false → r.kind.cls ≤ TxKind.status.cls) := by decide +kernel

theorem witness_AttemptSent :
    (flying (record .stopReq [4] 3)).txq.flying = some { record .stopReq [4] 3 with inFlight := true }
    ∧ (flying (record .scene [7, 3, 0, 0] 3)).txq.flying = some { record .scene [7, 3, 0, 0] 3 with inFlight := true }
    ∧ sceneFieldsOk [7, 3, 0, 0] = true
    ∧ (flying (record .door [1] 3)).txq.flying = some { record .door [1] 3 with inFlight := true }
    ∧ byteAt [(1 : Byte)] 0 = 1 ∧ byteAt [(0 : Byte)] 0 = 0 := by decide +kernel

/-- A SCENE of origin 9 in flight: HEAD 0x89, recessive at bits 14, 35 and 42. -/
def scene9 : Record := { record .scene [1, 0, 1, 0x2C] 2 with inFlight := true }
def flyingScene : State := flying scene9
/-- The same with a newer SCENE waiting. -/
def newer : Record := record .scene [2, 0, 1, 0x2C] 5
def flyingNewer (r : Record) : State := { flyingScene with txq.records := [r, newer] }
theorem newer_waits (r : Record) (h : r.inFlight = true) :
    newer ∈ (flyingNewer r).txq.records ∧ newer.kind = scene9.kind ∧ newer.inFlight = false
    ∧ ∀ o ∈ (flyingNewer r).txq.records, o.kind = scene9.kind → o.inFlight = false → o = newer := by
  refine ⟨by simp [flyingNewer], rfl, rfl, fun o ho _ hf => ?_⟩
  rcases List.mem_cons.mp ho with rfl | ho
  · rw [h] at hf; exact absurd hf (by decide)
  · exact List.mem_singleton.mp ho
theorem witness_AttemptLost :
    ((waveOf flyingScene.line.driving)[14]? = some true ∧ (waveOf flyingScene.line.driving)[35]? = some true
    ∧ (waveOf flyingScene.line.driving)[42]? = some true ∧ flyingScene.txq.flying = some scene9
    ∧ scene9.withdrawn = false ∧ (∀ o ∈ flyingScene.txq.records, o.kind = scene9.kind → o.inFlight = true)
    ∧ { scene9 with withdrawn := true }.withdrawn = true
    ∧ (let s : State := { parked with line.wake := .sending, line.driving := wakeChars 0 }
      s.txq.flying = none ∧ s.line.wake = .sending ∧ (waveOf s.line.driving)[42]? = some true))
    ∧ (flyingNewer scene9).txq.flying = some scene9 ∧ newer ∈ (flyingNewer scene9).txq.records
    ∧ newer.kind = scene9.kind ∧ newer.inFlight = false
    ∧ ∀ o ∈ (flyingNewer scene9).txq.records, o.kind = scene9.kind → o.inFlight = false → o = newer :=
  ⟨by decide +kernel, rfl, newer_waits _ rfl⟩

theorem witness_AttemptFailed :
    ((waveOf flyingScene.line.driving)[0]? = some false ∧ (waveOf flyingScene.line.driving)[15]? = some true
    ∧ (waveOf flyingScene.line.driving)[16]? = some false ∧ (waveOf flyingScene.line.driving)[17]? = some true
    ∧ (waveOf flyingScene.line.driving)[43]? = some true ∧ (waveOf flyingScene.line.driving)[44]? = some false
    ∧ flyingScene.txq.flying = some scene9 ∧ flyingScene.line.state ≠ .off
    ∧ ¬ (flyingScene.line.state = .active ∧ flyingScene.line.fails = 15)
    ∧ scene9.withdrawn = false ∧ scene9.attempts ≤ 1 ∧ 2 ≤ { scene9 with attempts := 2 }.attempts
    ∧ (flying { scene9 with withdrawn := true }).txq.flying = some { scene9 with withdrawn := true }
    ∧ (∀ o ∈ flyingScene.txq.records, o.kind = scene9.kind → o.inFlight = true)
    ∧ flyingScene.line.rx.edgeRef ≤ 12 * (flyingScene.ref.micros - 1000)
    ∧ ¬ ({ flyingScene with line.rx.edgeRef := 12 * 250000000 }.line.rx.edgeRef ≤ 12 * (flyingScene.ref.micros - 1000)))
    ∧ (flyingNewer scene9).txq.flying = some scene9 ∧ newer ∈ (flyingNewer scene9).txq.records
    ∧ newer.kind = scene9.kind ∧ newer.inFlight = false
    ∧ ∀ o ∈ (flyingNewer scene9).txq.records, o.kind = scene9.kind → o.inFlight = false → o = newer :=
  ⟨by decide +kernel, rfl, newer_waits _ rfl⟩

theorem witness_QuietEntry :
    (let s : State := { flyingScene with line.fails := 15 }
    s.txq.flying = some scene9 ∧ s.line.state = .active ∧ s.line.fails = 15
    ∧ (waveOf s.line.driving)[43]? = some true ∧ (waveOf s.line.driving)[44]? = some false)
    ∧ (let own : Record := { record .stopReq [4] 3 with inFlight := true }
      let s : State := { flying own with line.fails := 15, txq.records := [own, record .door [1] 5, record .time [] 6] }
      s.txq.flying = some own ∧ s.line.state = .active ∧ own ∈ s.txq.records ∧ own.kind.cls = 0
      ∧ ¬ (own.withdrawn = true ∨ 2 ≤ own.attempts) ∧ (waveOf s.line.driving)[43]? = some true
      ∧ record .door [1] 5 ∈ (s.txq.records.filter fun o => !(o.kind == own.kind && !o.inFlight))
      ∧ (record .door [1] 5).kind.cls = 0 ∧ (record .door [1] 5).order ≠ own.order) := by decide +kernel

theorem witness_LineTimers :
    { awake with line.quietLeft := some 0, line.state := .quiet }.line.quietLeft.isSome = true
    ∧ { awake with line.quietLeft := some 0, line.state := .stuck }.line.state = .stuck
    ∧ { awake with line.state := .stuck, line.rx.phase := .inBreak }.line.state = .stuck
    ∧ parked.line.state = .asleep ∧ awake.line.driving = []
    ∧ awake.line.state = .active ∧ awake.line.state ≠ .off ∧ awake.txq.flying = none ∧ awake.line.wake ≠ .sending := by
  decide

theorem witness_ReceiverHears :
    ([96, 96] : List Nat) ≠ [] ∧ 1055 < 1056 ∧ 24000 < 24001 ∧ 1151 < 1152
    ∧ estimateOk (tuneEstimate 1336) = true ∧ estimateOk (tuneEstimate 1335) = false
    ∧ judgeFrame 7 (sent 76 (frameChars 7 1 0 [0xFF, 0xFF])) = .error
    ∧ judgeFrame 7 (sent 83 (frameChars 7 1 0 [0xFF, 0xFF])) = .error
    ∧ judgeFrame 7 (sent 109 (frameChars 7 1 0 [0xFF, 0xFF])) = .error
    ∧ (0x3F : Byte).toNat % 64 = 63 ∧ judgeFrame 9 (sent 84 [0x3F, 0x92, 0, 0, 0]) = .dropped
    ∧ (0x05 : Byte).toNat % 64 ≠ 63 ∧ 13 ≤ (0x4D : Byte).toNat % 16 ∧ judgeFrame 4 (sent 84 [0x05, 0x4D, 0]) = .error
    ∧ ([0x04, 0xB1] : List Byte).length = (0x41 : Byte).toNat % 16 + 1
    ∧ (0x09 + 0x41 + 0x04 + 0xB1) % 255 = 0 ∧ (4, 0, 1) ∈ [(4, 0, 1)]
    ∧ judgeFrame 4 (sent 108 [0x09, 0x41, 0x04, 0xB1]) = .good ∧ judgeFrame 5 (sent 108 [0x09, 0x41, 0x04, 0xB1]) = .other
    ∧ judgeFrame 15 (sent 96 (frameChars 15 3 5 [])) = .dropped
    ∧ judgeFrame 4 (sent 96 (frameChars 4 1 5 [1])) = .error
    ∧ hears hushFrame awake = true ∧ hushFrame.heard.edge ≠ none
    ∧ ({ runs := [1344, 1152, 96, 96] } : RxFrame).heard.edge = none
    ∧ hears hushFrame { awake with line.since := 250000900 } = false ∧ hears hushFrame parked = false := by
  decide +kernel

/-- A frame of each known kind that the receiver finds in error: rate, class, LEN, CHECK. -/
def badTime : RxFrame := sent 83 (frameChars 1 1 21 (List.replicate 6 0))
def badCheck : RxFrame := sent 96 [0x40, 0x36, 0, 1, 0, 0, 0, 0, 0]
theorem witness_FramesNotTaken :
    (awake.line.driving = [] ∧ 25056 ≤ 12 * (awake.ref.micros - awake.line.since) ∧ awake.line.state = .active
      ∧ parked.line.state = .asleep ∧ hears badTime awake = true ∧ verdictOn badTime = .error
      ∧ (sent 96 (wakeChars 0)).heard.fin = .wakeHead ∧ hears (sent 96 (wakeChars 0)) awake = true
      ∧ State.reset.line.state = .off
      ∧ (let own : RxFrame := { runs := [1344, 1152, 96, 96] }
        (under 208).line.driving ≠ []
        ∧ (under 208).line.rx.edgeRef - 1536 + (own.heard.stop - own.heard.start) < 12 * (under 208).ref.micros + 1152)
      ∧ ((under 1993).line.driving ≠ []
        ∧ (under 1993).line.rx.edgeRef - 1536 + 25056 < 12 * (under 1993).ref.micros + 1152)
      ∧ ((under 1992).line.driving ≠ [] ∧ (under 1992).line.state = .active
        ∧ 12 * (under 1992).ref.micros + 1152 ≤ (under 1992).line.rx.edgeRef - 1536 + 25056
        ∧ 25056 ≤ 12 * ((under 1992).ref.micros - (under 1992).line.since))
      ∧ (12 * (under 88).ref.micros + 1152 ≤ (under 88).line.rx.edgeRef - 1536 + (cutTune.heard.stop - cutTune.heard.start)
        ∧ cutTune.heard.stop - cutTune.heard.start ≤ 12 * ((under 88).ref.micros - (under 88).line.since)
        ∧ verdictOn cutTune = .error)
      ∧ (let s : State := { awake with line.since := 250000899 }
        s.line.state ≠ .asleep ∧ 12 * (s.ref.micros - s.line.since) < hushFrame.heard.stop - hushFrame.heard.start))
    ∧ ReaderRests awake
    ∧ (judgeFrame 1 badTime = .error ∧ judgeFrame 2 (frame 2 0 0 (List.replicate 6 0)) = .error
      ∧ judgeFrame 3 badCheck = .error ∧ judgeFrame 4 (frame 4 1 5 [1]) = .error
      ∧ judgeFrame 5 (frame 5 0 5 [1, 1]) = .error ∧ judgeFrame 6 (frame 6 2 5 []) = .error
      ∧ judgeFrame 7 (sent 109 (frameChars 7 1 0 [0xFF, 0xFF])) = .error
      ∧ judgeFrame 8 (frame 8 3 5 [0]) = .error ∧ judgeFrame 9 (frame 9 2 5 [0, 0]) = .error)
    ∧ (judgeFrame (foreignCode .k15) (frame 15 3 5 []) = .dropped ∧ hears (frame 15 3 5 []) awake = true
      ∧ judgeFrame 8 (frame 8 3 9 (List.replicate 12 0)) = .good
      ∧ headOrigin (frame 8 3 5 (List.replicate 12 0)).head ≠ awake.stc.origin
      ∧ headOrigin (frame 8 3 9 (List.replicate 12 0)).head = awake.stc.origin ∧ awake.stc.origin ≠ 0
      ∧ judgeFrame 8 (frame 8 3 0 (List.replicate 12 0)) = .good) :=
  ⟨by decide +kernel, awake_rests, by decide +kernel, by decide +kernel⟩

theorem witness_SentFramesAreGood : (9 : Origin) ≠ 63 ∧ formOf TxKind.time.code = some (TxKind.time.cls, 6)
    ∧ formOf TxKind.status.code = some (TxKind.status.cls, 12) := by decide

/-- How far a TIME body stands ahead of the capture of a frame heard by `awake`. -/
def offsetOf (ms us : Nat) : Int :=
  (timeOfBody (timeFrame ms us).body).diffMicros (heardFrom (timeFrame ms us) awake).dclk.capture
theorem awake_awaits_nothing : NothingAwaited awake := ⟨rfl, rfl, rfl, rfl⟩
/-- A cue, a door's entry, a claim and a WAITING announcement, all due before 251,001 ms. -/
def awaiting : State := { busy with
  prg.queue := [⟨37, 250500⟩, ⟨38, 251000⟩, ⟨39, 251002⟩], ann.doors := [⟨5, 250800⟩, ⟨6, 252000⟩],
  lmp.claims.p0 := some ⟨1, 9, some 250700⟩, ann.current := some ⟨14, 250600, none, .waiting⟩ }
theorem witness_ReceiveTime :
    (hears (timeFrame 250000 41) awake = true ∧ awake.dclk.timer ≠ .stopped
    ∧ parking.dclk.timer = .stopped ∧ hears (timeFrame 250000 40) { awake with dclk.timer := .stopped } = true
    ∧ judgeFrame 1 (timeFrame 250000 999) = .good ∧ field16 (timeFrame 250000 999).body 4 ≤ 999
    ∧ offsetOf 250000 41 = 1 ∧ offsetOf 250000 40 = 0 ∧ offsetOf 249999 540 = -500 ∧ offsetOf 249999 539 = -501
    ∧ judgeFrame 1 (timeFrame 250000 1000) = .good ∧ 999 < field16 (timeFrame 250000 1000).body 4)
    ∧ ReaderRests awake ∧ NothingAwaited awake
    ∧ (hears (timeFrame 251000 900) awaiting = true ∧ awaiting.csr.hand.isSome = true
      ∧ awaiting.dclk.timer ≠ .stopped ∧ judgeFrame 1 (timeFrame 251000 900) = .good
      ∧ (timeOfBody (timeFrame 251000 900).body).diffMicros (heardFrom (timeFrame 251000 900) awaiting).dclk.capture = 1000860
      ∧ awaiting.dclk.now.addMicros 1000860 = ⟨251001, 760⟩
      ∧ (awaiting.prg.queue.filter fun e => reached ⟨251001, 760⟩ e.start).getLast? = some ⟨38, 251000⟩
      ∧ (busy.prg.queue.filter fun e => reached ⟨251001, 760⟩ e.start) = []
      ∧ reached ⟨251001, 760⟩ 250600 = true ∧ reached ⟨251001, 760⟩ 251002 = false
      ∧ claimLapsed ⟨251001, 760⟩ awaiting.lmp.claims.p0 = true ∧ busy.ann.current = none) :=
  ⟨by decide +kernel, awake_rests, awake_awaits_nothing, by decide +kernel⟩

theorem witness_StepAlignsClocks : (DeckTime.mk 120401 900).us ≤ 999 ∧ (DeckTime.mk 120400 250).us ≤ 999
    ∧ 0 < (DeckTime.mk 120401 900).diffMicros ⟨120400, 250⟩ := by decide +kernel

theorem witness_PeriodicTimers : awake.dclk.timer ≠ .running 0
    ∧ { awake with dclk.timer := .running 0 }.dclk.timer = .running 0 ∧ awake.stc.statusTimer.isRunning = true
    ∧ parking.stc.state = .parking ∧ (∀ i : Seat, (awake.jck.jacks.get i).language ≤ 11)
    ∧ currentScene awake ≤ 7 ∧ awake.lvl.wind.boost ≤ 8 ∧ awake.lvl.wind.average ≤ 255 := by
  refine ⟨by decide, rfl, by decide, by decide, fun i => ?_, by decide, by decide, by decide⟩
  cases i <;> decide

theorem busy_rests : ReaderRests busy := Or.inl rfl
theorem crowded_rests (q : List (Nat × Millis)) : ReaderRests (crowded q) := Or.inl rfl
def cueOf (f : RxFrame) : CueAt := { cue := field16 f.body 0, start := field32 f.body 2 }
/-- Jack A hearing COMMENTARY in V0 with cue 36 current. -/
def hearing (q : List (Nat × Millis)) : State := { crowded q with
  prg.lastTaken := some ⟨36, 118000⟩, vtab := singing.vtab, jck := singing.jck }
theorem witness_ReceiveCue :
    ReaderRests (crowded [])
    ∧ (hears (cueFrame 1024 120700) (crowded []) = true
    ∧ judgeFrame 2 (cueFrame 1024 120700) = .good ∧ 1024 ≤ (cueOf (cueFrame 1024 120700)).cue
    ∧ judgeFrame 2 (cueFrame 1023 120400) = .good ∧ (cueOf (cueFrame 1023 120400)).cue ≤ 1023
    ∧ later (118000 : Millis) (cueOf (cueFrame 35 117999)).start = true
    ∧ (crowded []).prg.lastTaken = some (cueOf (cueFrame 36 118000))
    ∧ later (118000 : Millis) (cueOf (cueFrame 1023 120400)).start = false
    ∧ (crowded []).prg.lastTaken ≠ some (cueOf (cueFrame 1023 120400))
    ∧ reached (crowded []).dclk.now (cueOf (cueFrame 1023 120400)).start = true
    ∧ slotBusy (hearing []) .v0 = true ∧ ((hearing []).vtab.slots.get .v0).content = .commentary
    ∧ reached (crowded []).dclk.now (cueOf (cueFrame 38 120401)).start = false)
    ∧ ((∀ e ∈ (crowded [(37, 120700), (39, 131000), (40, 140000)]).prg.queue,
        e.start ≠ (cueOf (cueFrame 38 120401)).start)
    ∧ (crowded [(37, 120700), (39, 131000), (40, 140000)]).prg.queue.length ≤ 3
    ∧ (∃ e ∈ (crowded [(38, 125000)]).prg.queue, e.start = (cueOf (cueFrame 46 125000)).start)
    ∧ cueOf (cueFrame 46 125000) ∉ (crowded [(38, 125000)]).prg.queue)
    ∧ (let q := (crowded [(37, 120700), (38, 125000), (39, 131000), (40, 140000)]).prg.queue
      4 ≤ q.length
      ∧ (∀ e ∈ q, e.start ≠ (cueOf (cueFrame 41 150000)).start ∧ later (cueOf (cueFrame 41 150000)).start e.start = true)
      ∧ q = [⟨37, 120700⟩, ⟨38, 125000⟩, ⟨39, 131000⟩] ++ [⟨40, 140000⟩]
      ∧ (∀ e ∈ q, e.start ≠ (cueOf (cueFrame 45 128000)).start)
      ∧ ∃ e ∈ q, later (cueOf (cueFrame 45 128000)).start e.start = false) :=
  ⟨crowded_rests _, by decide +kernel, by decide +kernel, by decide +kernel⟩

theorem witness_CueChanges :
    ReaderRests busy
    ∧ (hears hushFrame busy = true ∧ judgeFrame 7 hushFrame = .good ∧ field16 hushFrame.body 0 = 65535
    ∧ judgeFrame 7 (frame 7 1 0 (bytes16 1024)) = .good ∧ field16 (frame 7 1 0 (bytes16 1024)).body 0 = 1024
    ∧ judgeFrame 7 (frame 7 1 0 (bytes16 1023)) = .good ∧ field16 (frame 7 1 0 (bytes16 1023)).body 0 = 1023
    ∧ judgeFrame 7 (frame 7 1 0 (bytes16 65534)) = .good)
    ∧ ((hearing []).csr.hand.isSome = true ∧ (hearing []).prg.current = some ⟨36, 118000⟩
      ∧ slotBusy (hearing []) .v0 = true ∧ ((hearing []).vtab.slots.get .v0).content = .commentary
      ∧ slotBusy (hearing []) .v1 = false)
    ∧ (let s : State := { hearing [(37, 120700), (46, 125000), (45, 128000)] with dclk.now := ⟨125000, 0⟩ }
      (s.prg.queue.filter fun e => reached s.dclk.now e.start).getLast? = some ⟨46, 125000⟩ ∧ s.csr.hand.isSome = true) :=
  ⟨busy_rests, by decide +kernel, by decide +kernel, by decide +kernel⟩

def settling (s : State) : State := { s with
  jck.jacks.b := { Jack.initial with state := .settling, settle := some 0 } }
theorem witness_SettleEnd :
    ((settling singing).jck.jacks.get .b).state = .settling ∧ (settling singing).csr.hand.isSome = true
    ∧ (settling singing).vtab.speaker ≠ .starved ∧ inName (settling singing) = false
    ∧ slotOfLanguage (settling singing) 0 = some .v0
    ∧ slotOfLanguage (settling busy) 0 = none ∧ idleSlot (settling busy) = some .v0
    ∧ ((settling busy).jck.jacks.get .b).state = .settling ∧ (settling busy).csr.hand.isSome = true := by
  decide +kernel

/-- Section 6.3 at step 5, with jack D settling into a language that no slot holds. -/
def crowdedSlots (n : Nat) (v0 : Slot) (speaker : Speaker) : State :=
  let s := fiveLanguages 3 v0 (slotOf 3 (only (.jack .c))) speaker
  { s with jck.jacks.d := { Jack.initial with state := .settling, language := n, settle := some 0 } }
def namingSettle : State := { settling singing with
  jck.jacks.b := { Jack.initial with state := .settling, language := 1, settle := some 0 }
  ann.current := some ⟨14, 240000, some 4000, .name⟩, ann.nameCap := some 5, ann.naming.v0 := true
  vtab.slots.v0 := { singing.vtab.slots.v0 with content := .name 14 } }
def lastListener : State := fiveLanguages 4 (slotOf 4 (only (.jack .d))) (slotOf 3 (only (.jack .c))) .starved
theorem witness_SpeakerPlaces :
    (let s := crowdedSlots 4 (slotOf 0 (only .spk)) (.attached .v0);
      (s.jck.jacks.get .d).state = .settling ∧ s.csr.hand.isSome = true ∧ inName s = false
      ∧ slotOfLanguage s 4 = none ∧ idleSlot s = none ∧ speakerOnlySlot s = some .v0 ∧ (4 : Nat) ≠ s.csr.config.house
      ∧ s.vtab.slots.v1.language ≠ s.csr.config.house ∧ s.vtab.slots.v2.language ≠ s.csr.config.house
      ∧ s.vtab.slots.v3.language ≠ s.csr.config.house)
    ∧ (let s := crowdedSlots 0 Slot.initial .starved;
      (s.jck.jacks.get .d).language = s.csr.config.house ∧ inName s = false ∧ slotOfLanguage s 0 = none
      ∧ idleSlot s = some .v0 ∧ s.vtab.speaker = .starved ∧ s.stc.state = .awake ∧ s.csr.config.speakerOn = true)
    ∧ (namingSettle.ann.current = some ⟨14, 240000, some 4000, .name⟩ ∧ namingSettle.ann.nameCap.isSome = true
      ∧ namingSettle.vtab.speaker ≠ .starved ∧ slotOfLanguage namingSettle 1 = none
      ∧ idleSlot namingSettle = some .v1 ∧ (namingSettle.jck.jacks.get .b).state = .settling)
    ∧ ((singing.jck.jacks.get .a).state = .listening ∧ slotHeardBy singing (.jack .a) = some .v0
      ∧ (singing.vtab.slots.get .v0).listeners.put (.jack .a) false = .nobody ∧ inName singing = false
      ∧ singing.vtab.speaker ≠ .starved ∧ singing.csr.hand.isSome = true)
    ∧ ((lastListener.jck.jacks.get .d).state = .listening ∧ slotHeardBy lastListener (.jack .d) = some .v0
      ∧ (lastListener.vtab.slots.get .v0).listeners.put (.jack .d) false = .nobody ∧ inName lastListener = false
      ∧ lastListener.vtab.speaker = .starved ∧ lastListener.csr.config.speakerOn = true
      ∧ (slotBusy lastListener .v1 = true ∧ slotBusy lastListener .v2 = true ∧ slotBusy lastListener .v3 = true)) := by
  decide +kernel

def chiming : State := { busy with ann.current := some ⟨13, 249000, none, .chime⟩ }
theorem witness_StopRequests :
    ReaderRests busy ∧ ReaderRests parked ∧ ReaderRests parking
    ∧ busy.stc.state = .awake ∧ busy.ann.doors = [] ∧ busy.ann.latch = false
    ∧ inAnnouncement busy = false ∧ busy.csr.hand.isSome = true
    ∧ { busy with ann.doors := [⟨5, 270000⟩] }.ann.doors ≠ []
    ∧ { busy with ann.latch := true, ann.ownOpen := true }.ann.ownOpen = true
    ∧ inAnnouncement chiming = true ∧ chiming.ann.latch = false ∧ chiming.ann.doors = []
    ∧ parked.stc.state = .parked ∧ parked.stc.origin ≠ 0 ∧ parked.stc.origin ≠ 63
    ∧ parked.stc.wakeWait = none ∧ parked.line.wake = .none ∧ parking.stc.state = .parking
    ∧ hears (frame 4 0 5 [0]) busy = true ∧ judgeFrame 4 (frame 4 0 5 [0]) = .good :=
  ⟨busy_rests, awake_rests, awake_rests, by decide +kernel⟩

def fourDoors : List DoorEntry := [⟨1, 0⟩, ⟨2, 0⟩, ⟨3, 0⟩, ⟨4, 0⟩]
theorem witness_Doors :
    (hears (frame 5 0 5 [2]) busy = true
    ∧ judgeFrame 5 (frame 5 0 5 [2]) = .good ∧ judgeFrame 5 (frame 5 0 5 [1]) = .good
    ∧ judgeFrame 5 (frame 5 0 5 [0]) = .good ∧ headOrigin (frame 5 0 5 [1]).head = 5)
    ∧ (∃ d ∈ [(⟨5, 1⟩ : DoorEntry)], d.origin = 5) ∧ (∀ d ∈ fourDoors, d.origin ≠ 5) ∧ 4 ≤ fourDoors.length
    ∧ (fourDoors.drop 1).length ≤ 3 ∧ withDoor.stc.state = .awake ∧ withDoor.csr.config.doorInput = true
    ∧ { busy with ann.doorRefresh := some 0 }.ann.doorRefresh.isSome = true := by decide +kernel

theorem witness_ReceiveAnnounce :
    ReaderRests busy
    ∧ (hears (announceFrame 512 250000) busy = true ∧ busy.ann.current = none ∧ busy.ann.lastCompleted = none
    ∧ busy.ann.pending = none ∧ busy.csr.hand.isSome = true
    ∧ judgeFrame 3 (announceFrame 512 250000) = .good ∧ field16 (announceFrame 512 250000).body 0 = 512
    ∧ judgeFrame 3 (announceFrame 511 250000) = .good ∧ field16 (announceFrame 511 250000).body 0 = 511
    ∧ (busy.csr.config.lateLimit : Int) < lateness busy.dclk.now 247999
    ∧ lateness busy.dclk.now 248000 ≤ busy.csr.config.lateLimit
    ∧ reached busy.dclk.now 250000 = true ∧ reached busy.dclk.now 250001 = false)
    ∧ (inAnnouncement chiming = true ∧ chiming.ann.current = some ⟨13, 249000, none, .chime⟩
      ∧ later (249000 : Millis) 250001 = false ∧ later (249000 : Millis) 249500 = false
      ∧ later (249000 : Millis) 248999 = true ∧ reached chiming.dclk.now 249500 = true
      ∧ lateness chiming.dclk.now 249500 ≤ chiming.csr.config.lateLimit ∧ chiming.csr.hand.isSome = true)
    ∧ (let s : State := { busy with ann.current := some ⟨13, 251000, none, .waiting⟩ }
      s.ann.current = some ⟨13, 251000, none, .waiting⟩ ∧ later (251000 : Millis) 252000 = false
      ∧ reached s.dclk.now 252000 = false ∧ s.ann.purpose ≠ .chime ∧ s.ann.purpose ≠ .name
      ∧ s.ann.naming = ⟨false, false, false, false⟩) :=
  ⟨busy_rests, by decide +kernel, by decide +kernel, by decide +kernel⟩

def waitingAnn : State := { busy with ann.current := some ⟨14, 250000, none, .waiting⟩ }
def namingAnn : State := { singing with
  ann.current := some ⟨14, 240000, some 4000, .name⟩, ann.nameCap := some 0, ann.purpose := .name,
  ann.naming.v0 := true, vtab.slots.v0 := { singing.vtab.slots.v0 with content := .name 14 } }
theorem witness_AnnouncementPhases :
    (reached waitingAnn.dclk.now 250000 = true ∧ waitingAnn.csr.hand.isSome = true)
    ∧ (namingAnn.ann.pending = none ∧ namingAnn.csr.hand.isSome = true ∧ namingAnn.ann.naming.get .v0 = true
      ∧ slotBusy namingAnn .v0 = true ∧ namingAnn.ann.purpose = .name ∧ namingAnn.ann.nameCap = some 0
      ∧ inName namingAnn = true)
    ∧ (∃ a, namingAnn.ann.current = some a ∧ a.phase = .name)
    ∧ ({ namingAnn with ann.pending := some ⟨15, 250000⟩ }.ann.pending = some ⟨15, 250000⟩
      ∧ reached namingAnn.dclk.now 250000 = true ∧ reached namingAnn.dclk.now 250001 = false) :=
  ⟨by decide +kernel, by decide +kernel, ⟨_, rfl, rfl⟩, by decide +kernel⟩

/-- The chime over while V0 sings and the speaker is in no slot, and while it is in V0; a name over. -/
def chimeOver (speaker : Speaker) : State := { singing with
  ann.current := some ⟨14, 240000, some 4000, .chime⟩, ann.purpose := .chime, vtab.speaker := speaker
  vtab.va.play := { playing with position := 512 }, vtab.va.content := .chime }
def nameOver : State := { namingAnn with vtab.slots.v0.play.position := 512, ann.purpose := .none }
def speakerNameOver (others : Bool) : State := { namingAnn with
  ann.naming.v0 := others, vtab.va.play := { playing with position := 512 }, vtab.va.content := .name 14 }
theorem witness_NamePhase :
    ((chimeOver .notWanted).csr.hand.isSome = true ∧ (chimeOver .notWanted).vtab.va.play.over = true
      ∧ (chimeOver .notWanted).ann.purpose = .chime ∧ slotBusy (chimeOver .notWanted) .v0 = true
      ∧ slotBusy (chimeOver .notWanted) .v1 = false ∧ (chimeOver (.attached .v0)).vtab.speaker = .attached .v0
      ∧ (chimeOver .notWanted).ann.current = some ⟨14, 240000, some 4000, .chime⟩)
    ∧ (∀ i, (chimeOver .notWanted).vtab.speaker ≠ Speaker.attached i)
    ∧ (nameOver.csr.hand.isSome = true ∧ (playOf nameOver (.slot .v0)).over = true
      ∧ (nameOver.vtab.slots.get .v0).content = .name 14 ∧ nameOver.ann.naming = ⟨true, false, false, false⟩
      ∧ nameOver.ann.speakerName ≠ .playing ∧ nameOver.ann.pending = none
      ∧ nameOver.ann.current = some ⟨14, 240000, some 4000, .name⟩)
    ∧ ((speakerNameOver false).vtab.va.play.over = true ∧ (speakerNameOver false).ann.purpose = .name
      ∧ (speakerNameOver false).ann.pending = none ∧ (speakerNameOver false).ann.naming = ⟨false, false, false, false⟩
      ∧ (speakerNameOver true).ann.naming.get .v0 = true ∧ (speakerNameOver true).csr.hand.isSome = true) :=
  ⟨by decide +kernel, fun _ h => Speaker.noConfusion h, by decide +kernel, by decide +kernel⟩

theorem witness_Expiries :
    (∃ d ∈ [(⟨5, 250000⟩ : DoorEntry)], reached awake.dclk.now d.expiry = true)
    ∧ claimLapsed awake.dclk.now (some ⟨1, 9, some 250000⟩) = true
    ∧ claimLapsed awake.dclk.now (some ⟨1, 9, some 250001⟩) = false ∧ awake.lmp.wish = .none
    ∧ sceneOfClaims ⟨some ⟨1, 9, some 250000⟩, none, none, some ⟨2, 0, none⟩⟩ = 2 :=
  ⟨⟨_, List.mem_singleton.mpr rfl, by decide +kernel⟩, by decide +kernel, by decide +kernel, rfl, rfl⟩

theorem witness_ReceiveScene :
    hears (frame 6 2 5 [8, 0, 0, 1]) busy = true ∧ judgeFrame 6 (frame 6 2 5 [8, 0, 0, 1]) = .good
    ∧ judgeFrame 6 (frame 6 2 5 [7, 4, 0, 1]) = .good ∧ judgeFrame 6 (frame 6 2 5 [7, 3, 0, 1]) = .good
    ∧ judgeFrame 6 (frame 6 2 5 [7, 3, 0, 0]) = .good ∧ headOrigin (frame 6 2 5 [7, 3, 0, 0]).head = 5
    ∧ (⟨none, none, none, some ⟨2, 5, none⟩⟩ : Prios (Option Claim)).get 3 = some ⟨2, 5, none⟩
    ∧ busy.lmp.claims.get 3 = none := by decide +kernel

theorem witness_ReceivePark :
    hears (frame 9 0 0 [0, 0]) singing = true ∧ judgeFrame 9 (frame 9 0 0 [0, 0]) = .good
    ∧ field16 (frame 9 0 0 [0, 0]).body 0 = singing.csr.fleet.toNat ∧ singing.stc.state = .awake
    ∧ judgeFrame 9 (frame 9 0 0 [0, 1]) = .good
    ∧ field16 (frame 9 0 0 [0, 1]).body 0 ≠ singing.csr.fleet.toNat := by decide +kernel

theorem witness_WarmStart :
    parked.stc.state = .parked ∧ parking.stc.state = .parking ∧ parked.line.state = .asleep
    ∧ parking.line.state = .asleep ∧ parked.dclk.firstPeriod = true ∧ parking.dclk.firstPeriod = true
    ∧ parked.line.priorCapture = none ∧ wakeMatches (sent 84 (wakeChars 0)) parked.csr.fleet = true
    ∧ wakeMatches (sent 108 (wakeChars 0x2A71)) 0x2A71 = true ∧ (wakeChars 0x2A71).length = 9
    ∧ wakeMatches (sent 96 [0x3F, 0x2A, 0x71, 0x2A, 0x71, 0x2A, 0x71, 0x2A, 0x70]) 0x2A71 = false
    ∧ wakeMatches hushFrame parked.csr.fleet = false ∧ awake.line.state ≠ .asleep ∧ awake.line.wake ≠ .sending
    ∧ awake.stc.wakeWait = none ∧ { parked with line.wake := .sending }.line.wake = .sending
    ∧ { parked with stc.wakeWait := some 0 }.stc.wakeWait.isSome = true := by decide +kernel

theorem witness_SampleTick : singing.csr.hand.isSome = true
    ∧ (∀ v, (playOf singing v).over = false ∧ (playOf singing v).atBoundary = false)
    ∧ live singing (.jack .a) = true ∧ live singing (.jack .b) = false
    ∧ (playOf singing (.slot .v0)).sounds singing.dclk.now = true := by
  refine ⟨rfl, fun v => ?_, by decide, by decide, by decide +kernel⟩
  cases v with
  | va => exact ⟨by decide, rfl⟩
  | slot i => cases i <;> exact ⟨by decide, rfl⟩

theorem witness_ScaleIsNearest : (-72 : Int) ≤ -72 ∧ (-72 : Int) ≤ 16 ∧ (16 : Int) ≤ 16
    ∧ (-31616 : Int) ≤ -31616 ∧ (-31616 : Int) ≤ 31616 ∧ (31616 : Int) ≤ 31616 := by decide

theorem witness_BlockBoundary :
    (atBoundary 64).csr.hand.isSome = true ∧ (playOf (atBoundary 64) (.slot .v0)).state = .playing
    ∧ (playOf (atBoundary 64) (.slot .v0)).atBoundary = true ∧ outstanding (atBoundary 64) (.slot .v0) = true
    ∧ timelineIndex (atBoundary 64).dclk.now ⟨250000, 0⟩ = 256 + 64
    ∧ timelineIndex (atBoundary 65).dclk.now ⟨250000, 0⟩ = 256 + 65
    ∧ timelineIndex (atBoundary 255).dclk.now ⟨250000, 0⟩ = 511
    ∧ ((playOf (atBoundary 64) (.slot .v0)).bufX.spent 0).isFull 1 = false
    ∧ ((playOf (atBoundary 64) (.slot .v0)).bufY.spent 0).isFull 1 = false
    ∧ ((Buffer.full 1 []).spent 0).isFull 1 = true := by decide +kernel

theorem witness_ClipEnd :
    singing.csr.hand.isSome = true ∧ { playing with position := 512 }.over = true
    ∧ (singing.vtab.slots.get .v0).content = .commentary
    ∧ { busy with ann.purpose := .tone }.ann.purpose = .tone
    ∧ (let s : State := { singing with
        vtab.slots.v0 := { singing.vtab.slots.v0 with play.position := 512, content := .name 14 },
        ann.naming := ⟨true, true, false, false⟩ }
      (playOf s (.slot .v0)).over = true ∧ (s.vtab.slots.get .v0).content = .name 14
      ∧ s.ann.naming.get .v0 = true ∧ s.ann.naming.get .v1 = true) := by decide +kernel

theorem witness_Gains :
    live singing (.jack .b) = false ∧ live singing (.jack .a) = true ∧ 1 ≤ effectiveStep singing .a
    ∧ effectiveStep singing .b = 0 ∧ (singing.lvl.silence.get (.jack .a)).isSome = false
    ∧ ({ singing with lvl.silence.ja := some 1 }.lvl.silence.get (.jack .a)).isSome = true
    ∧ { singing with lvl.silence.ja := some 1 }.lvl.silence.get (.jack .a) ≠ some 0
    ∧ { singing with lvl.silence.ja := some 0 }.lvl.silence.get (.jack .a) = some 0
    ∧ ({ singing with jck.jacks.a.step := 0 }.jck.jacks.get .a).state = .listening
    ∧ effectiveStep { singing with jck.jacks.a.step := 0 } .a = 0
    ∧ sourceOf singing (.jack .a) = some .v0 ∧ sourceOf singing .spk = none
    ∧ duckFlag chiming = false
    ∧ duckFlag { chiming with ann.purpose := .chime, vtab.va.play.state := .seeking } = true
    ∧ floorFlag chiming = true ∧ vaFeeds { chiming with ann.purpose := .name } .spk = true := by decide +kernel

theorem witness_Wind :
    awake.stc.state = .awake ∧ { awake with lvl.wind.count := 7 }.lvl.wind.count ≤ 7
    ∧ 8 ≤ { awake with lvl.wind.count := 8 }.lvl.wind.count ∧ awake.lvl.wind.spoiled = false
    ∧ awake.vtab.va.play.state = .idle
    ∧ { awake with lvl.wind.count := 8, lvl.wind.spoiled := true }.lvl.wind.spoiled = true := by decide

theorem witness_SeatInputSample :
    awake.stc.state = .awake ∧ awake.csr.config.doorInput = false ∧ parking.stc.state ≠ .awake
    ∧ withDoor.csr.config.doorInput = true ∧ { withDoor with ann.doorFilter.run := 4 }.ann.doorFilter.run = 4
    ∧ Filter.initial.run = 0 ∧ true ≠ Filter.initial.accepted := by decide

theorem witness_Jacks :
    (awake.jck.jacks.get .a).state = .empty ∧ awake.stc.state = .awake
    ∧ (parking.jck.jacks.get .a).state = .empty ∧ parking.stc.state = .parking
    ∧ (parked.jck.jacks.get .a).state = .empty ∧ parked.stc.state = .parked ∧ parked.stc.origin ≠ 0
    ∧ parked.stc.origin ≠ 63 ∧ parked.stc.wakeWait = none ∧ parked.line.wake = .none
    ∧ ((settling busy).jck.jacks.get .b).state = .settling
    ∧ (shared.jck.jacks.get .a).state = .listening ∧ slotHeardBy shared (.jack .a) = some .v0
    ∧ (shared.vtab.slots.get .v0).listeners.put (.jack .a) false ≠ .nobody ∧ shared.vtab.speaker ≠ .starved
    ∧ inName shared = false ∧ ReaderRests shared :=
  ⟨rfl, rfl, rfl, rfl, rfl, rfl, by decide, by decide, rfl, rfl, rfl, rfl, rfl, by decide, by decide, rfl, Or.inl rfl⟩

theorem witness_VolumeButtons :
    singing.stc.state = .awake ∧ (singing.jck.jacks.get .a).state = .listening
    ∧ ({ singing with jck.panels.a.upRepeat := some 0 }.jck.panels.get .a).upRepeat.isSome = true
    ∧ ({ singing with jck.panels.a.downRepeat := some 0 }.jck.panels.get .a).downRepeat.isSome = true
    ∧ parked.stc.state = .parked ∧ parked.stc.origin ≠ 0 ∧ parked.stc.origin ≠ 63 ∧ parked.stc.wakeWait = none
    ∧ parked.line.wake = .none := by decide

def twoLanguages : State := { shared with
  csr.config.languages := 2, jck.panels.b.hold := some 1, vtab.slots.v1 := slotOf 1 (only (.jack .c)) }
/-- The D jack of language `d` in V0 alone, or with C in V3, the other slots busy for A to C. -/
def alone (d house : Nat) (speaker : Speaker) : State :=
  { fiveLanguages d (slotOf d (only (.jack .d))) (slotOf 3 (only (.jack .c))) speaker with csr.config.house := house }
def withC (v0 : Slot) (speaker : Speaker) : State :=
  fiveLanguages 3 v0 (slotOf 3 ((only (.jack .c)).put (.jack .d) true)) speaker
def namingC : State := { withC Slot.initial .notWanted with
  ann.current := some ⟨14, 240000, some 4000, .name⟩, ann.nameCap := some 5, ann.naming.v3 := true }
/-- What a LANG_RELEASE in time of the D jack finds: its slot, and whether that is then empty. -/
def finds (s : State) (i : SlotId) (empty : Bool) : Bool :=
  s.stc.state == .awake && (s.jck.panels.get .d).hold.isSome && (s.jck.jacks.get .d).state == .listening
    && decide (2 ≤ s.csr.config.languages) && s.csr.hand.isSome && slotHeardBy s (.jack .d) == some i
    && ((s.vtab.slots.get i).listeners.put (.jack .d) false == .nobody) == empty
theorem witness_LangButton :
    (let s := twoLanguages
     s.stc.state = .awake ∧ (s.jck.panels.get .b).hold.isSome = true ∧ (s.jck.jacks.get .b).state = .listening
     ∧ 2 ≤ s.csr.config.languages ∧ s.csr.hand.isSome = true ∧ s.vtab.speaker ≠ .starved ∧ inName s = false
     ∧ slotHeardBy s (.jack .b) = some .v0
     ∧ (s.vtab.slots.get .v0).listeners.put (.jack .b) false ≠ .nobody
     ∧ slotOfLanguage s (((s.jck.jacks.get .b).language + 1) % s.csr.config.languages) = some .v1
     ∧ SlotId.v1 ≠ .v0 ∧ (awake.jck.panels.get .b).hold = none ∧ awake.csr.config.languages ≤ 1)
    ∧ (finds (alone 0 0 .notWanted) .v0 true = true ∧ slotOfLanguage (alone 0 0 .notWanted) 1 = some .v1)
    ∧ (finds (alone 4 0 .notWanted) .v0 true = true ∧ slotOfLanguage (alone 4 0 .notWanted) 0 = none
      ∧ idleSlot (leaveSlot (.jack .d) (alone 4 0 .notWanted)) = some .v0)
    ∧ (finds (withC Slot.initial .notWanted) .v3 false = true ∧ slotOfLanguage (withC Slot.initial .notWanted) 4 = none
      ∧ idleSlot (leaveSlot (.jack .d) (withC Slot.initial .notWanted)) = some .v0)
    ∧ (let s := withC (slotOf 0 (only .spk)) (.attached .v0);
      finds s .v3 false = true ∧ slotOfLanguage s 4 = none ∧ idleSlot (leaveSlot (.jack .d) s) = none
      ∧ speakerOnlySlot (leaveSlot (.jack .d) s) = some .v0 ∧ (4 : Nat) ≠ s.csr.config.house
      ∧ s.vtab.slots.v1.language ≠ s.csr.config.house ∧ s.vtab.slots.v2.language ≠ s.csr.config.house
      ∧ s.vtab.slots.v3.language ≠ s.csr.config.house)
    ∧ (finds namingC .v3 false = true ∧ idleSlot (leaveSlot (.jack .d) namingC) = some .v0
      ∧ namingC.ann.current = some ⟨14, 240000, some 4000, .name⟩ ∧ namingC.ann.nameCap.isSome = true)
    ∧ (let s := alone 0 4 .starved;
      finds s .v0 true = true ∧ s.vtab.speaker = .starved ∧ s.csr.config.speakerOn = true ∧ inName s = false
      ∧ slotOfLanguage s 1 = some .v1 ∧ slotBusy s .v1 = true ∧ slotBusy s .v2 = true ∧ slotBusy s .v3 = true
      ∧ s.vtab.slots.v1.language ≠ 4 ∧ s.vtab.slots.v2.language ≠ 4 ∧ s.vtab.slots.v3.language ≠ 4)
    ∧ (finds (alone 4 0 .starved) .v0 true = true ∧ inName (alone 4 0 .starved) = false
      ∧ idleSlot (leaveSlot (.jack .d) (alone 4 0 .starved)) = some .v0) := by
  refine ⟨?_, ?_, ?_, ?_, ?_, ?_, ?_, ?_⟩ <;> decide +kernel

theorem witness_LampTargets :
    (awake.lmp.chans.get .ch0).role = .aisle ∧ awake.ann.doors = []
    ∧ { awake with ann.doors := [⟨5, 270000⟩] }.ann.doors ≠ [] ∧ (awake.lmp.chans.get .ch1).role = .readAB
    ∧ (awake.lmp.chans.get .ch2).role = .readCD ∧ (awake.lmp.chans.get .ch3).role = .stopInd
    ∧ (awake.lmp.chans.get .ch4).role = .accent ∧ (awake.lmp.chans.get .ch5).role = .unused
    ∧ substitution awake = false
    ∧ substitution { awake with ann.latch := true, lmp.chans.ch3.fault := true } = true := by decide

theorem witness_Fades : awake.stc.state = .awake ∧ parking.stc.state = .parking ∧ 1 ≤ 2000 := by decide

theorem witness_AmbientRequest :
    awake.stc.state = .awake ∧ awake.lmp.wish = .none ∧ (darkRun 119).lmp.runLen ≤ 119
    ∧ ¬ (40 : Byte).toNat < awake.csr.config.darkThreshold ∧ ¬ awake.csr.config.brightThreshold < (70 : Byte).toNat
    ∧ (39 : Byte).toNat < awake.csr.config.darkThreshold ∧ awake.csr.config.brightThreshold < (71 : Byte).toNat
    ∧ min 120 ((darkRun 118).lmp.runLen + 1) ≤ 119
    ∧ (min 120 ((darkRun 119).lmp.runLen + 1) = 120 ∧ (darkRun 119).lmp.runKind = .dark ∧ (darkRun 119).lmp.wish ≠ .dark)
    ∧ ({ darkRun 120 with lmp.wish := .dark }.lmp.runKind = .dark ∧ { darkRun 120 with lmp.wish := .dark }.lmp.wish = .dark)
    ∧ (let s := { awake with lmp.runKind := .bright, lmp.runLen := 120, lmp.wish := .light }
      s.lmp.runKind = .bright ∧ s.lmp.wish = .light)
    ∧ (darkRun 120).lmp.runLen = 120
    ∧ ({ awake with lmp.wish := .dark }.lmp.wish = .dark ∧ 1 = awake.csr.config.darkScene)
    ∧ ({ awake with lmp.wish := .light }.lmp.wish = .light ∧ 0 = awake.csr.config.lightScene)
    ∧ reached awake.dclk.now (289000 - BitVec.ofNat 32 39000) = true
    ∧ reached awake.dclk.now (289001 - BitVec.ofNat 32 39000) = false := by decide +kernel
/-- R168: a standing wish asks again at each ambient sample, and asks nothing once its scene is claimed for long. -/
theorem test_wish_stands :
    Reached (exec (.ambientSample 55) { awake with lmp.wish := .dark })
      (fun t => t.txq.records.map Record.body == [[1, 0, 1, 0x2C]]) = true
    ∧ Reached (exec (.ambientSample 55) { awake with
        lmp.wish := .dark, lmp.claims.p0 := some ⟨1, 5, some 289001⟩, txq.records := [record .scene [1, 0, 1, 0x2C] 3] })
      (fun t => t.txq.records == []) = true := by decide +kernel

theorem witness_LampFaults : awake.stc.state = .awake ∧ (∀ c, ((lit 4096 2).lmp.chans.get c).faultRun ≤ 2)
    ∧ ((lit 4096 3).lmp.chans.get .ch3).faultRun = 3 ∧ 16 ≤ 4096 / 256 ∧ 4095 / 256 ≤ 15 :=
  ⟨rfl, fun c => by cases c <;> decide, rfl, by decide, by decide⟩

/-- A queue of one record in flight, as safe as any. -/
theorem witness_QueueStaysSafe : QueueSafe { flyingScene with pending := [.attemptSent] }
    ∧ ∃ t, step { flyingScene with pending := [.attemptSent] } = .next t :=
  ⟨{ size := by decide
     waiting := fun k => by cases k <;> decide
     flying := by decide
     orders := List.pairwise_singleton _ _
     fresh := fun r hr => by cases List.mem_singleton.mp hr; decide
     drops := by decide
     released := fun h => absurd h (by decide +kernel)
     shut := fun h => by rcases h with h | h <;> exact absurd h (by decide)
     scan := fun h => absurd h (by decide)
     sender := fun h => absurd h (by decide)
     parked := fun h => by rcases h with h | h <;> exact absurd h (by decide) },
   ⟨_, rfl⟩⟩

theorem witness_SoundStaysSafe : SoundSafe { singing with pending := [.sampleTick] }
    ∧ ∃ t, step { singing with pending := [.sampleTick] } = .next t :=
  ⟨{ out := fun o => by cases o with
       | jack j => cases j <;> decide
       | spk => decide
     slot := fun o => by cases o with
       | jack j => cases j <;> decide
       | spk => decide
     va := fun o => by cases o with
       | jack j => cases j <;> decide
       | spk => decide
     scan := fun h => absurd h (by decide) },
   ⟨_, rfl⟩⟩

theorem witness_LatchStaysSafe : LatchSafe { awake with ann.doors := fourDoors, pending := [.stopPress .a] }
    ∧ ∃ t, step { awake with ann.doors := fourDoors, pending := [.stopPress .a] } = .next t :=
  ⟨⟨fun _ => rfl, by decide⟩, ⟨_, rfl⟩⟩

theorem witness_LampsStaySafe :
    LampSafe { awake with ann.latch := true, lmp.chans.ch3.target := 255, pending := [.fadeTick] }
    ∧ ∃ t, step { awake with ann.latch := true, lmp.chans.ch3.target := 255, pending := [.fadeTick] } = .next t :=
  ⟨⟨fun h => absurd rfl h, fun c => by cases c <;> decide, fun _ _ _ => rfl⟩, ⟨_, rfl⟩⟩

def loading : State := { State.reset with stc.state := .loading }
theorem witness_LoadingStays : Loaded loading ∧ loading.pending.head? = none ∧ ∃ t, step loading = .next t :=
  ⟨⟨rfl, rfl⟩, rfl, ⟨_, rfl⟩⟩

theorem witness_DeckTimeMoves :
    (∀ o l, awake.pending.head? ≠ some (.powerOn o l)) ∧ ∃ t, step awake = .next t := ⟨fun _ _ => nofun, ⟨_, rfl⟩⟩

theorem witness_CountsOnlyRise : CountsBounded { awake with pending := [.receiveTimeout] }
    ∧ ∃ t, step { awake with pending := [.receiveTimeout] } = .next t := by
  refine ⟨⟨by decide, by decide, by decide, by decide, by decide, fun v => ?_, fun j => ?_⟩, ⟨_, rfl⟩⟩
  · cases v with
    | va => decide
    | slot i => cases i <;> decide
  · cases j <;> decide

end Sys2Proof.Tests
end

namespace Sys2Proof.Machine

/-! ## The whole-machine rules through every command -/

/-- A command answers with a state that keeps the rules of Sys2Proof/Safety.lean. -/
def AnswerKeeps (b : Bool) (s : State) (a : Answer) : Prop := ∃ t, a = .next t ∧ Keeps b s t

theorem Keeps.answers {b : Bool} {s t : State} (h : Keeps b s t) : AnswerKeeps b s (.next t) := ⟨t, rfl, h⟩

theorem AnswerKeeps.after {b : Bool} {s t : State} {a : Answer} (h : Keeps b s t) (k : AnswerKeeps b t a) :
    AnswerKeeps b s a := by
  obtain ⟨u, e, k⟩ := k
  exact ⟨u, e, h.trans k⟩

theorem AnswerKeeps.refl (b : Bool) (s : State) : AnswerKeeps b s (.next s) := (Keeps.refl b s).answers

theorem serve_keeps (s : State) (b : Bool) : Keeps b s (serve s) := (serve_frame s).keeps b

theorem raise_keeps (e : List Instr) (s : State) (b : Bool) : Keeps b s (raise e s) := Alike.keeps {} b

/-- Leave aside what becomes of deck time. -/
theorem Keeps.forgetNow {b : Bool} {s t : State} (h : Keeps b s t) : Keeps false s t :=
  ⟨h.latch, h.lamp, h.sound, h.queue, h.load, h.counts, nofun⟩

/-- Deck time is no matter of the rules but for the clause on deck time itself. -/
theorem setNow_keeps (n : DeckTime) (s : State) : Keeps false s { s with dclk.now := n } :=
  ⟨id, id, fun x => ⟨x.out, x.slot, x.va, x.scan⟩,
    fun x => ⟨x.size, x.waiting, x.flying, x.orders, x.fresh, x.drops, x.released, x.shut, x.scan, x.sender, x.parked⟩,
    id, fun x => ⟨x, CountsRise.refl s⟩, nofun⟩

/-! ### The clip flash -/

theorem headerRead_keeps (h : List Byte) (s : State) (b : Bool) (hs : scanning s = true) :
    Keeps b s (headerRead h s) := by
  unfold headerRead
  dsimp only
  split
  · split
    · exact scanGood_keeps _ s b hs
    · exact nextChunk_keeps _ s b hs
  · exact scanBad_keeps s b hs

theorem execHeaderReadDone_keeps (data : List Byte) (s : State) (b : Bool) :
    AnswerKeeps b s (execHeaderReadDone data s) := by
  unfold execHeaderReadDone
  split
  · rename_i h
    split
    · exact (headerRead_keeps data s b (by unfold scanning; rw [h])).answers
    · exact .refl b s
  · exact .refl b s

theorem chunkRead_keeps (c : ScanState) (bytes : List Byte) (s : State) (b : Bool) (hs : scanning s = true) :
    Keeps b s (chunkRead c bytes s) := by
  unfold chunkRead
  dsimp only
  split
  · split
    · exact scanGood_keeps _ s b hs
    · exact nextChunk_keeps _ s b hs
  · exact scanBad_keeps s b hs

theorem execScanChunkDone_keeps (data : List Byte) (s : State) (b : Bool) :
    AnswerKeeps b s (execScanChunkDone data s) := by
  unfold execScanChunkDone
  split
  · rename_i h _
    split
    · exact (chunkRead_keeps _ _ s b (by unfold scanning; rw [h])).answers
    · exact .refl b s
  · exact .refl b s

theorem probeRead_keeps (v : VoiceId) (i : Nat) (e : DirEntry) (s : State) (b : Bool) :
    Keeps b s (probeRead v i e s) := by
  refine (transactionGood_keeps s b).trans ?_
  unfold probeRead
  dsimp only
  split
  · split
    · exact ((lookupStands_frame _ _ _ _).keeps b).trans (serve_keeps _ b)
    · exact serve_keeps _ b
  · exact serve_keeps _ b

theorem execProbeDone_keeps (data : List Byte) (s : State) (b : Bool) :
    AnswerKeeps b s (execProbeDone data s) := by
  unfold execProbeDone
  split
  · split
    · exact (probeRead_keeps _ _ _ s b).answers
    · exact .refl b s
  · exact .refl b s

theorem execBlockReadDone_keeps (data : List Byte) (s : State) (b : Bool) :
    AnswerKeeps b s (execBlockReadDone data s) := by
  unfold execBlockReadDone
  split
  · split
    · exact ((transactionGood_keeps s b).trans ((((closePlace_frame _ _).trans
        (deliverBlock_frame _ _ _ _ _)).trans (serve_frame _)).keeps b)).answers
    · exact .refl b s
  · exact .refl b s

theorem execTransactionTimeout_keeps (s : State) (b : Bool) : AnswerKeeps b s (execTransactionTimeout s) := by
  unfold execTransactionTimeout
  split
  · rename_i h e
    dsimp only
    split
    · rename_i w
      exact (scanAbandoned_keeps s b (by unfold scanning; rw [e]; dsimp only; rw [w])).answers
    · rename_i w
      exact (scanAbandoned_keeps s b (by unfold scanning; rw [e]; dsimp only; rw [w])).answers
    · exact ((transactionFailed_keeps s b).trans ((((closePlace_frame _ _).trans
        (deliverLookup_frame _ _ _ _)).trans (serve_frame _)).keeps b)).answers
    · exact ((transactionFailed_keeps s b).trans ((((closePlace_frame _ _).trans
        (deliverBlock_frame _ _ _ _ _)).trans (serve_frame _)).keeps b)).answers
  · exact .refl b s

/-! ### The line -/

theorem leaveStuck_keeps (s : State) (b : Bool) (h : s.line.state = .stuck) : Keeps b s (leaveStuck s) := by
  have hs : s.line.state ≠ .off ∧ s.line.state ≠ .asleep := by rw [h]; exact ⟨nofun, nofun⟩
  unfold leaveStuck
  split
  · exact lineMoves_keeps s .quiet ⟨nofun, nofun⟩ hs s.line.rx s.line.fails s.line.quietLeft (.inl rfl)
      s.dclk.timer s.stc.statusTimer b
  · exact lineMoves_keeps s .active ⟨nofun, nofun⟩ hs s.line.rx s.line.fails s.line.quietLeft (.inl rfl)
      s.dclk.timer.resume s.stc.statusTimer.resume b

theorem leaveStuck_state (s : State) :
    (leaveStuck s).line.state ≠ .off ∧ (leaveStuck s).line.state ≠ .asleep
      ∧ (leaveStuck s).line.driving = s.line.driving := by
  unfold leaveStuck
  split <;> exact ⟨nofun, nofun, rfl⟩

/-- A WAKE attempt begins in ASLEEP (R21). -/
theorem wakeSends_keeps (s : State) (b : Bool) (h : s.line.state = .asleep) :
    Keeps b s { s with line.wake := .sending } :=
  ⟨id, id, fun x => ⟨x.out, x.slot, x.va, x.scan⟩,
    fun x => ⟨x.size, x.waiting, x.flying, x.orders, x.fresh, x.drops, x.released, x.shut, x.scan, fun _ => h, x.parked⟩,
    id, fun x => ⟨x, CountsRise.refl s⟩, fun _ => rfl⟩

theorem execIdleGap_keeps (s : State) (b : Bool) : AnswerKeeps b s (execIdleGap s) := by
  unfold execIdleGap
  split
  · rename_i h
    have hd : s.line.driving = [] := List.isEmpty_iff.mp h
    split
    · exact .refl b s
    · rename_i e
      exact (gap_keeps s b hd (by rw [e]; exact ⟨nofun, nofun⟩)).answers
    · rename_i e
      exact (gap_keeps s b hd (by rw [e]; exact ⟨nofun, nofun⟩)).answers
    · rename_i e
      obtain ⟨ho, ha, hk⟩ := leaveStuck_state s
      exact ((leaveStuck_keeps s b e).trans (gap_keeps _ b (hk.trans hd) ⟨ho, ha⟩)).answers
    · rename_i e
      split
      · exact ((wakeSends_keeps s b e).trans
          (drivingBegins_keeps { s with line.wake := .sending } (wakeChars s.csr.fleet) nofun _ b)).answers
      · exact .refl b s
  · exact .refl b s

theorem ownDelivery_keeps (r : Record) (s : State) (b : Bool) : Keeps b s (ownDelivery r s) := by
  unfold ownDelivery
  split
  · split
    · exact applyScene_keeps _ _ _ _
    · exact .refl b s
  · split
    · exact applyDoor_keeps _ _ _ _
    · exact .refl b s
  · exact .refl b s

theorem execAttemptSent_keeps (s : State) (b : Bool) : AnswerKeeps b s (execAttemptSent s) := by
  unfold execAttemptSent
  split
  · rename_i r h
    exact ((recordSent_keeps s r h b).trans (ownDelivery_keeps r _ b)).answers
  · exact .refl b s

theorem execAttemptLost_keeps (bit : Nat) (s : State) (b : Bool) : AnswerKeeps b s (execAttemptLost bit s) := by
  unfold execAttemptLost
  split
  · split
    · rename_i r h
      exact (recordLost_keeps s r h bit b).answers
    · rename_i h
      split
      · exact ((drivingEnds_keeps s .held nofun _ s.line.lockout (.inl h) b).trans
          (settleCapture_keeps (ownEdgeCame bit) _ b)).answers
      · exact .refl b s
  · exact .refl b s

/-- The record in flight fails after its reception record and the capture have been settled: neither is a matter of the
rules, and the attempt's own end empties the driver (R10, R22). -/
theorem failAttempt_keeps_of {s u : State} (b : Bool) (r : Record) (h : u.txq.flying = some r)
    (k : Keeps b s { u with line.driving := s.line.driving }) :
    Keeps b s (failAttempt r u) := by
  have e : failAttempt r { u with line.driving := s.line.driving } = failAttempt r u := by
    unfold failAttempt queueFailed
    split <;> (try split) <;> rfl
  exact e ▸ k.trans (failAttempt_keeps r _ b h)

theorem execAttemptFailed_keeps (bit : Nat) (s : State) (b : Bool) :
    AnswerKeeps b s (execAttemptFailed bit s) := by
  unfold execAttemptFailed
  split
  · split
    · rename_i r h
      exact (failAttempt_keeps_of b r (u := stopDriving bit s) h (Alike.keeps {} b)).answers
    · exact .refl b s
  · exact .refl b s

theorem execQuietPeriodEnd_keeps (s : State) (b : Bool) : AnswerKeeps b s (execQuietPeriodEnd s) := by
  unfold execQuietPeriodEnd
  split
  · dsimp only
    split
    · rename_i h
      exact (lineMoves_keeps s .active ⟨nofun, nofun⟩ (by rw [h]; exact ⟨nofun, nofun⟩) s.line.rx 8 none (.inr rfl)
        s.dclk.timer.resume s.stc.statusTimer.resume b).answers
    · exact (Alike.keeps { fails := .inr (.inr rfl) } b).answers
  · exact .refl b s

theorem execLineStuck_keeps (s : State) (b : Bool) : AnswerKeeps b s (execLineStuck s) := by
  unfold execLineStuck
  split
  · rename_i h
    have hs : s.line.state ≠ .off ∧ s.line.state ≠ .asleep := by
      rcases h with h | h <;> rw [h] <;> exact ⟨nofun, nofun⟩
    exact (lineMoves_keeps s .stuck ⟨nofun, nofun⟩ hs _ s.line.fails s.line.quietLeft (.inl rfl) _ _ b).answers
  · split
    · exact (Alike.keeps {} b).answers
    · exact .refl b s

/-- The end of the own WAKE attempt, after the reception record, the lockout and the capture have moved (R21, R22). -/
theorem endWake_keeps_of (s : State) (rx : Reception) (lo came : Bool) (b : Bool) (h : s.line.wake = .sending) :
    Keeps b s (endWake (settleCapture came { s with line.rx := rx, line.lockout := lo })) :=
  ((drivingEnds_keeps s .none nofun rx lo (.inr h) b).trans (settleCapture_keeps came _ b)).trans (warmStart_keeps _ b)

theorem execJabber_keeps (s : State) (b : Bool) : AnswerKeeps b s (execJabber s) := by
  unfold execJabber
  split
  · exact .refl b s
  · dsimp only
    split
    · rename_i r h
      exact (failAttempt_keeps_of b r (u := jabberedReception { s with line.lockout := true }) h
        (Alike.keeps {} b)).answers
    · split
      · rename_i h
        exact (endWake_keeps_of s _ true _ b h).answers
      · exact (Alike.keeps {} b).answers

theorem execReceiveTimeout_keeps (s : State) (b : Bool) : AnswerKeeps b s (execReceiveTimeout s) := by
  unfold execReceiveTimeout
  split
  · split
    · exact ((Alike.keeps {} b).trans (countRxError_keeps _ b)).answers
    · split
      · exact (Alike.keeps {} b).answers
      · exact .refl b s
  · split
    · exact (endUnderOwn_keeps _ s b).answers
    · exact .refl b s

theorem execFrameError_keeps (f : RxFrame) (s : State) (b : Bool) : AnswerKeeps b s (execFrameError f s) := by
  unfold execFrameError
  split
  · split
    · exact ((heard_keeps _ s b).trans (countRxError_keeps _ b)).answers
    · split
      · exact (heard_keeps _ s b).answers
      · exact .refl b s
    · exact .refl b s
    · exact .refl b s
  · exact (notHeard_keeps f s b).answers

/-! ### Received frames -/

theorem receiving_ne_off {s : State} (h : receiving s = true) : s.line.state ≠ .off := by
  intro e
  simp [receiving, e] at h

theorem forwardStep_keeps (n : Nat) (s : State) : Keeps false s (forwardStep n s) :=
  ((((setNow_keeps _ s).trans (promoteDue_keeps _ _)).trans (expireDoors_keeps _ _)).trans
    ((chimeIfDue_frame _).keeps _)).trans (expireClaims_keeps _ _)

theorem takeTime_keeps (body : List Byte) (s : State) : Keeps false s (takeTime body s) := by
  unfold takeTime
  dsimp only
  split
  · exact (forwardStep_keeps _ s).trans (quietTime_keeps _ _)
  · split
    · exact quietTime_keeps _ _
    · exact hastenTime_keeps _ _

theorem stopHeard_keeps (s : State) (b : Bool) : Keeps b s (stopHeard s) := by
  have h : Keeps b s (withdraw .stopReq { s with ann.ownOpen := false }) :=
    Keeps.trans (Alike.keeps {} b) (withdraw_keeps _ _ b)
  unfold stopHeard
  dsimp only
  split
  · exact h
  · rename_i hd
    refine h.trans (raiseLatch_keeps _ b ?_)
    simp only [Bool.or_eq_true, not_or, doorOpen] at hd
    simpa using hd.1

theorem parkHeard_keeps (body : List Byte) (s : State) (b : Bool) (hr : receiving s = true) :
    Keeps b s (parkHeard body s) := by
  unfold parkHeard
  split
  · rename_i h
    exact enterParking_keeps s b h.2 (receiving_ne_off hr)
  · exact .refl b s

/-! ### Waking and the timers -/

theorem execWakeMatch_keeps (f : RxFrame) (s : State) (b : Bool) : AnswerKeeps b s (execWakeMatch f s) := by
  unfold execWakeMatch
  split
  · dsimp only
    split
    · exact ((endReception_keeps _ s b).trans (warmStart_keeps _ b)).answers
    · exact (endReception_keeps _ s b).answers
  · exact .refl b s

theorem execWakeAttemptEnd_keeps (failedAt : Option Nat) (s : State) (b : Bool) :
    AnswerKeeps b s (execWakeAttemptEnd failedAt s) := by
  unfold execWakeAttemptEnd
  split
  · rename_i h
    cases failedAt with
    | none =>
      exact ((drivingEnds_keeps s .none nofun (.fresh Config.nominalBit) s.line.lockout (.inr h) b).trans
        (warmStart_keeps _ b)).answers
    | some bit => exact (endWake_keeps_of s _ s.line.lockout (ownEdgeCame bit) b h).answers
  · exact .refl b s

theorem execParkTimerExpiry_keeps (s : State) (b : Bool) : AnswerKeeps b s (execParkTimerExpiry s) := by
  unfold execParkTimerExpiry
  split
  · rename_i h
    refine Keeps.answers ⟨id, fun x => ⟨fun _ => x.1 (by rw [h]; nofun), x.2.1, x.2.2⟩,
      fun x => ⟨x.out, x.slot, x.va, fun k => ?_⟩,
      fun x => ⟨x.size, x.waiting, x.flying, x.orders, x.fresh, x.drops, x.released, x.shut, x.scan, x.sender,
        fun _ => x.parked (.inl h)⟩,
      fun x => ?_, fun x => ⟨x, CountsRise.refl s⟩, fun _ => rfl⟩
    · have := (x.scan k).1
      rw [h] at this
      cases this
    · have := x.1
      rw [h] at this
      cases this
  · exact .refl b s

theorem execTimeTimerExpiry_keeps (s : State) (b : Bool) : AnswerKeeps b s (execTimeTimerExpiry s) := by
  unfold execTimeTimerExpiry
  split
  · exact ((enqueue_keeps _ _ s b).trans (Alike.keeps {} b)).answers
  · exact .refl b s

theorem execStatusTimerExpiry_keeps (s : State) (b : Bool) : AnswerKeeps b s (execStatusTimerExpiry s) := by
  unfold execStatusTimerExpiry
  split
  · exact (((Alike.keeps {} b).trans (enqueue_keeps _ _ { s with stc.parkedMark := false, stc.quietMark := false } b)).trans
      (Alike.keeps {} b)).answers
  · exact .refl b s

/-! ### Audio -/

theorem execSampleTick_keeps (s : State) (b : Bool) : AnswerKeeps b s (execSampleTick s) :=
  (((((settleVoices_frame s).trans (soundTick_frame _)).keeps b).trans
    (raise_keeps _ _ b)).trans
    (((foldl_frame (fun s v => topUpVoice_frame v s) _ _).trans (serve_frame _)).keeps b)).answers

/-- One unit toward a target within bounds stays within them (R144, R146). -/
theorem toward_bounds (g target lo hi : Int) (hg : lo ≤ g ∧ g ≤ hi) (ht : lo ≤ target ∧ target ≤ hi) :
    lo ≤ toward g target ∧ toward g target ≤ hi := by
  unfold toward
  split_ifs <;> omega

theorem targetGain_bounds (s : State) (o : Output) (trim duck : Int) :
    -72 ≤ targetGain s o trim duck ∧ targetGain s o trim duck ≤ (s.csr.config.cap : Int) := by
  unfold targetGain clampInt Config.gainFloor
  omega

theorem slotTarget_bounds (s : State) (o : Output) :
    -72 ≤ slotTarget s o ∧ slotTarget s o ≤ (s.csr.config.cap : Int) := by
  unfold slotTarget
  split <;> exact targetGain_bounds _ _ _ _

/-- A closed pair stands at -72, and the gains of an output that is not live are closed (R142, R146). -/
theorem updatedGains_bounds (s : State) (o : Output)
    (hs : -72 ≤ (s.lvl.gains.get o).slot ∧ (s.lvl.gains.get o).slot ≤ (s.csr.config.cap : Int))
    (hv : -72 ≤ (s.lvl.gains.get o).va ∧ (s.lvl.gains.get o).va ≤ (s.csr.config.cap : Int)) :
    (-72 ≤ (updatedGains s o).slot ∧ (updatedGains s o).slot ≤ (s.csr.config.cap : Int))
      ∧ (-72 ≤ (updatedGains s o).va ∧ (updatedGains s o).va ≤ (s.csr.config.cap : Int)) := by
  have hc : -72 ≤ PairGains.closed.slot ∧ PairGains.closed.slot ≤ (s.csr.config.cap : Int) := by
    show (-72 : Int) ≤ -72 ∧ (-72 : Int) ≤ _
    omega
  unfold updatedGains
  dsimp only
  split
  · exact ⟨hc, hc⟩
  · split
    · exact ⟨hc, hc⟩
    · refine ⟨?_, toward_bounds _ _ _ _ hv (targetGain_bounds s o _ 0)⟩
      dsimp only
      split
      · exact hs
      · exact toward_bounds _ _ _ _ hs (slotTarget_bounds s o)

/-- While the image is scanned no output is live (R142). -/
theorem updatedGains_of_scan (s : State) (o : Output) (hs : s.stc.state = .starting)
    (hj : ∀ j, (s.jck.jacks.get j).state = .empty) : updatedGains s o = .closed := by
  have h : live s o = false := by
    cases o with
    | jack j => simp [live, listening, hj j]
    | spk => simp [live, isAwake, hs]
  unfold updatedGains
  simp [h]

theorem execGainUpdate_keeps (s : State) (b : Bool) : AnswerKeeps b s (execGainUpdate s) := by
  refine Keeps.answers ⟨id, id, fun x => ?_,
    fun x => ⟨x.size, x.waiting, x.flying, x.orders, x.fresh, x.drops, x.released, x.shut, x.scan, x.sender, x.parked⟩,
    id, fun x => ⟨x, CountsRise.refl s⟩, fun _ => rfl⟩
  refine ⟨x.out, fun o => ?_, fun o => ?_, fun k => ⟨(x.scan k).1, (x.scan k).2.1, fun o => ?_⟩⟩
  · rw [Outputs.get_of]
    exact (updatedGains_bounds s o (x.slot o) (x.va o)).1
  · rw [Outputs.get_of]
    exact (updatedGains_bounds s o (x.slot o) (x.va o)).2
  · rw [Outputs.get_of, updatedGains_of_scan s o (x.scan k).1 (x.scan k).2.1]
    exact ⟨rfl, rfl⟩

theorem execSourceSilenceEnd_keeps (o : Output) (s : State) (b : Bool) :
    AnswerKeeps b s (execSourceSilenceEnd o s) := by
  unfold execSourceSilenceEnd
  split
  · exact (Alike.keeps {} b).answers
  · exact .refl b s

theorem windEnd_keeps (s : State) (b : Bool) : Keeps b s (windEnd s) := by
  unfold windEnd
  dsimp only
  split <;> exact Alike.keeps {} b

theorem execWindSample_keeps (level : Byte) (s : State) (b : Bool) : AnswerKeeps b s (execWindSample level s) := by
  refine .after (Alike.keeps (t := { s with pins.noise := level }) {} b) ?_
  unfold execWindSample
  dsimp only
  split
  · have h : ∀ u : State, AnswerKeeps b u (if 8 ≤ (windTake level.toNat u).lvl.wind.count
        then .next (raise [.windWindowEnd] (windTake level.toNat u)) else .next (windTake level.toNat u)) := by
      intro u
      split <;> exact (Alike.keeps {} b).answers
    split
    · exact .after (windEnd_keeps _ b) (h _)
    · exact h _
  · exact .refl b _

theorem execWindWindowEnd_keeps (s : State) (b : Bool) : AnswerKeeps b s (execWindWindowEnd s) := by
  unfold execWindWindowEnd
  split
  · exact (windEnd_keeps s b).answers
  · exact .refl b s

theorem execNameCapExpiry_keeps (s : State) (b : Bool) : AnswerKeeps b s (execNameCapExpiry s) := by
  unfold execNameCapExpiry
  split
  · exact (((cutNames_frame s).trans (serve_frame _)).keeps b).answers
  · exact .refl b s

/-! ### Seats -/

theorem execSeatInputSample_keeps (l : SeatPins) (s : State) (b : Bool) :
    AnswerKeeps b s (execSeatInputSample l s) := by
  have h : ∀ u : State, AnswerKeeps b u (if doorSampled u then .next (sampleDoor l.door u) else .next u) := by
    intro u
    split
    · exact (Alike.keeps {} b).answers
    · exact .refl b u
  refine .after (Alike.keeps (t := { s with pins.seats := l }) {} b) ?_
  unfold execSeatInputSample
  dsimp only
  split
  · exact .after (Alike.keeps (t := sampleSeats l { s with pins.seats := l }) {} b) (h _)
  · exact h _

/-- A plug is counted, to at most 65,535 (R133). -/
theorem plugJack_keeps (j : Seat) (c : ConfigCopy) (st : JackState) (n : Option Nat) (s : State) (b : Bool)
    (hs : s.stc.state ≠ .starting) : Keeps b s (setJack j ((jackOf s j).plugged c st n) s) := by
  have up : (s.jck.jacks.get j).plugs ≤ bump 65535 (s.jck.jacks.get j).plugs 1 ∨ 65535 < (s.jck.jacks.get j).plugs := by
    unfold bump
    omega
  have cap : bump 65535 (s.jck.jacks.get j).plugs 1 ≤ 65535 := by
    unfold bump
    omega
  refine ⟨id, id, fun y => ⟨y.out, y.slot, y.va, fun k => (awake_noscan hs k y).elim⟩,
    fun x => ⟨x.size, x.waiting, x.flying, x.orders, x.fresh, x.drops, x.released, x.shut, x.scan, x.sender, x.parked⟩,
    id, fun y => ?_, fun _ => rfl⟩
  obtain ⟨x1, x2, x3, x4, x5, x6, x7⟩ := y
  refine ⟨⟨x1, x2, x3, x4, x5, x6, fun i => ?_⟩, le_refl _, le_refl _, le_refl _, fun _ => le_refl _, fun i => ?_, id⟩
  · rw [setJack_jacks, Seats.get_set]
    split
    · exact cap
    · exact x7 i
  · rw [setJack_jacks, Seats.get_set]
    split
    · rename_i e
      subst e
      exact up.resolve_right (by have := x7 j; omega)
    · exact le_refl _

theorem execPlug_keeps (j : Seat) (s : State) (b : Bool) : AnswerKeeps b s (execPlug j s) := by
  unfold execPlug
  split
  · rename_i h
    have hs : s.stc.state ≠ .starting := filt_ne h.1
    refine .after (setPanel_keeps j { panelOf s j with detect := .settled true } s b) ?_
    dsimp only
    split
    · exact (plugJack_keeps j s.csr.config .settling (some Config.settleMicros) (setPanel j _ s) b hs).answers
    · refine .after (plugJack_keeps j s.csr.config .held none (setPanel j _ s) b hs) ?_
      split
      · exact (wakeRequest_keeps _ b).answers
      · exact .refl b _
  · exact .refl b s

theorem execUnplug_keeps (j : Seat) (s : State) (b : Bool) : AnswerKeeps b s (execUnplug j s) := by
  unfold execUnplug
  split
  · refine .after (setPanel_keeps j { panelOf s j with detect := .settled false } s b) ?_
    refine .after (setJack_keeps j { jackOf s j with state := .empty, settle := none } _ b
      (fun _ _ => .inl rfl) rfl) ?_
    dsimp only
    split
    · exact ((jackLeaves_frame j _).keeps b).answers
    · exact .refl b _
  · exact .refl b s

theorem execSettleEnd_keeps (j : Seat) (s : State) (b : Bool) : AnswerKeeps b s (execSettleEnd j s) := by
  unfold execSettleEnd
  split
  · rename_i h
    refine .after (setJack_keeps j { jackOf s j with state := .listening, settle := none } s b (fun k y => ?_) rfl) ?_
    · have e := (y.scan k).2.1 j
      exact absurd (h.symm.trans e) nofun
    · exact (((((placeJack_frame j _ _).trans (retrySpeaker_frame _)).trans (completeIfDone_frame _)).trans
        (serve_frame _)).keeps b).answers
  · exact .refl b s

theorem pressVolume_keeps (d : VolButton) (j : Seat) (s : State) (b : Bool) : Keeps b s (pressVolume d j s) := by
  unfold pressVolume
  split
  · refine (setPanel_keeps j ((panelOf s j).setVolume d true) s b).trans ?_
    dsimp only
    split
    · exact (moveStep_keeps d j _ b).trans (setPanel_keeps j _ _ b)
    · exact pressWakes_keeps _ b
  · exact .refl b s

theorem execVolRelease_keeps (j : Seat) (d : VolButton) (s : State) (b : Bool) :
    AnswerKeeps b s (execVolRelease j d s) := by
  unfold execVolRelease
  split
  · exact (setPanel_keeps j _ s b).answers
  · exact .refl b s

theorem execVolRepeat_keeps (j : Seat) (d : VolButton) (s : State) (b : Bool) :
    AnswerKeeps b s (execVolRepeat j d s) := by
  unfold execVolRepeat
  split
  · refine .after (setPanel_keeps j ((panelOf s j).setRepeat d (some Config.repeatMicros)) s b) ?_
    dsimp only
    split
    · exact (moveStep_keeps d j _ b).answers
    · exact .refl b _
  · exact .refl b s

theorem execLangPress_keeps (j : Seat) (s : State) (b : Bool) : AnswerKeeps b s (execLangPress j s) := by
  unfold execLangPress
  split
  · refine .after (setPanel_keeps j { panelOf s j with lang := .settled true } s b) ?_
    dsimp only
    split
    · exact (setPanel_keeps j _ _ b).answers
    · exact (pressWakes_keeps _ b).answers
  · exact .refl b s

theorem nextLanguage_keeps (j : Seat) (s : State) (b : Bool) : Keeps b s (nextLanguage j s) :=
  (setJack_keeps j { jackOf s j with language := ((jackOf s j).language + 1) % s.csr.config.languages } s b
    (fun k y => .inl ((y.scan k).2.1 j)) rfl).trans
    (((((leaveSlot_frame _ _).trans (placeJack_frame j _ _)).trans (retrySpeaker_frame _)).trans
      ((completeIfDone_frame _).trans (serve_frame _))).keeps b)

theorem execLangRelease_keeps (j : Seat) (s : State) (b : Bool) : AnswerKeeps b s (execLangRelease j s) := by
  unfold execLangRelease
  split
  · refine .after (setPanel_keeps j { panelOf s j with lang := .settled false, hold := none } s b) ?_
    dsimp only
    split
    · exact (nextLanguage_keeps j _ b).answers
    · exact .refl b _
  · exact .refl b s

theorem toggleReading_keeps (j : Seat) (s : State) (b : Bool) : Keeps b s (toggleReading j s) := by
  unfold toggleReading
  split <;> exact Keeps.trans (Alike.keeps {} b) ((relightOverlay_frame _).keeps b)

theorem execLangHoldExpiry_keeps (j : Seat) (s : State) (b : Bool) :
    AnswerKeeps b s (execLangHoldExpiry j s) := by
  unfold execLangHoldExpiry
  split
  · exact ((setPanel_keeps j _ s b).trans (toggleReading_keeps j _ b)).answers
  · exact .refl b s

theorem judgeStop_keeps (j : Seat) (s : State) (b : Bool) : Keeps b s (judgeStop j s) := by
  unfold judgeStop
  split
  · exact .refl b s
  · rename_i hd
    split
    · split
      · exact enqueue_keeps _ _ s b
      · exact .refl b s
    · exact ((raiseLatch_keeps s b (by simpa [doorOpen] using hd)).trans (Alike.keeps {} b)).trans
        (enqueue_keeps _ _ { raiseLatch s with ann.ownOpen := true } b)

theorem execStopPress_keeps (j : Seat) (s : State) (b : Bool) : AnswerKeeps b s (execStopPress j s) := by
  unfold execStopPress
  split
  · refine .after (setPanel_keeps j { panelOf s j with stop := .settled true } s b) ?_
    dsimp only
    split
    · exact ((judgeStop_keeps j _ b).trans (serve_keeps _ b)).answers
    · exact (pressWakes_keeps _ b).answers
  · exact .refl b s

theorem execDoorSwitchOpen_keeps (s : State) (b : Bool) : AnswerKeeps b s (execDoorSwitchOpen s) := by
  unfold execDoorSwitchOpen
  split
  · exact ((((Alike.keeps {} b).trans (doorReported_keeps _ { s with ann.doorFilter := .settled true } b)).trans
      (enqueue_keeps _ _ _ b)).trans (Alike.keeps {} b)).answers
  · exact .refl b s

theorem execDoorSwitchClosed_keeps (s : State) (b : Bool) : AnswerKeeps b s (execDoorSwitchClosed s) := by
  unfold execDoorSwitchClosed
  split
  · exact ((((Alike.keeps {} b).trans (doorsFiltered_keeps _ { s with ann.doorFilter := .settled false } b)).trans
      (enqueue_keeps _ _ _ b)).trans (Alike.keeps {} b)).answers
  · exact .refl b s

theorem execDoorRefresh_keeps (s : State) (b : Bool) : AnswerKeeps b s (execDoorRefresh s) := by
  unfold execDoorRefresh
  split
  · exact ((enqueue_keeps _ _ s b).trans (Alike.keeps {} b)).answers
  · exact .refl b s

/-! ### Lamps -/

theorem execFadeTick_keeps (s : State) (b : Bool) : AnswerKeeps b s (execFadeTick s) := by
  unfold execFadeTick
  split
  · refine (Alike.keeps { tgt := fun c => ?_, role := fun c => ?_ } b).answers
    · simp [Channel.tick_target]
    · rw [Chans.get_imap]
      unfold Channel.tick
      dsimp only
      split_ifs <;> rfl
  · exact .refl b s

theorem runMoved_keeps (k : RunKind) (s : State) (b : Bool) : Keeps b s (runMoved k s) := by
  unfold runMoved
  split
  · exact Alike.keeps {} b
  · split <;> exact Alike.keeps {} b

theorem setWish_keeps (s : State) (b : Bool) : Keeps b s (setWish s) := by
  unfold setWish
  split
  · exact Alike.keeps {} b
  · exact .refl b s

theorem execAmbientSample_keeps (level : Byte) (s : State) (b : Bool) :
    AnswerKeeps b s (execAmbientSample level s) := by
  refine .after (Alike.keeps (t := { s with pins.ambient := level }) {} b) ?_
  unfold execAmbientSample
  dsimp only
  split
  · refine .after ((setWish_keeps _ b).trans (runMoved_keeps (ambientClass s.csr.config level.toNat) _ b)) ?_
    split
    · exact (Alike.keeps {} b).answers
    · exact (evaluateRequest_keeps _ b).answers
  · exact .refl b _

theorem execWishSet_keeps (s : State) (b : Bool) : AnswerKeeps b s (execWishSet s) := by
  unfold execWishSet
  split
  · exact ((setWish_keeps s b).trans (evaluateRequest_keeps _ b)).answers
  · exact .refl b s

theorem Channel.flip_target_role (c : Channel) : c.flip.target = c.target ∧ c.flip.role = c.role := by
  unfold Channel.flip
  split <;> exact ⟨rfl, rfl⟩

theorem Channel.check_target_role (c : Channel) (o : Bool) :
    (c.check o).target = c.target ∧ (c.check o).role = c.role := by
  unfold Channel.check
  split_ifs <;> exact ⟨rfl, rfl⟩

theorem faultChange_keeps (ch : Chan) (s : State) (b : Bool) : Keeps b s (faultChange ch s) := by
  unfold faultChange
  split
  · refine Keeps.trans (Alike.keeps { tgt := fun c => ?_, role := fun c => ?_ } b) ((relightOverlay_frame _).keeps b)
    · rw [Chans.get_set]
      split
      · rename_i e
        rw [(Channel.flip_target_role _).1, e]
      · rfl
    · rw [Chans.get_set]
      split
      · rename_i e
        rw [(Channel.flip_target_role _).2, e]
      · rfl
  · exact .refl b s

theorem settleLamps_keeps (s : State) (b : Bool) : Keeps b s (settleLamps s) := by
  unfold settleLamps
  generalize allChans = l
  induction l generalizing s with
  | nil => exact .refl b s
  | cons ch l ih => exact (faultChange_keeps ch s b).trans (ih _)

theorem checkLamps_keeps (sense : SenseLines) (s : State) (b : Bool) : Keeps b s (checkLamps sense s) :=
  Alike.keeps
    { tgt := fun c => by simp [checkLamps, Channel.check_target_role]
      role := fun c => by simp [checkLamps, Channel.check_target_role] } b

theorem execLampCheck_keeps (sense : SenseLines) (s : State) (b : Bool) :
    AnswerKeeps b s (execLampCheck sense s) := by
  refine .after (Alike.keeps (t := { s with pins.sense := sense }) {} b) ?_
  unfold execLampCheck
  dsimp only
  split
  · exact (((settleLamps_keeps _ b).trans (checkLamps_keeps sense _ b)).trans (raise_keeps _ _ b)).answers
  · exact .refl b _

/-! ### Every command -/

/-- TIME alone moves deck time (R63). -/
def leavesNow : Instr → Bool
  | .receiveTime _ => false
  | _ => true

/-- Every command but POWER_ON keeps the rules, and every one but TIME leaves deck time. -/
theorem exec_keeps (c : Instr) (s : State) (hc : ∀ o l, c ≠ .powerOn o l) :
    AnswerKeeps (leavesNow c) s (exec c s) := by
  cases c with
  | powerOn o l => exact absurd rfl (hc o l)
  | headerReadDone d => exact execHeaderReadDone_keeps d s _
  | scanChunkDone d => exact execScanChunkDone_keeps d s _
  | probeDone d => exact execProbeDone_keeps d s _
  | blockReadDone d => exact execBlockReadDone_keeps d s _
  | transactionTimeout => exact execTransactionTimeout_keeps s _
  | idleGap => exact execIdleGap_keeps s _
  | attemptSent => exact execAttemptSent_keeps s _
  | attemptLost n => exact execAttemptLost_keeps n s _
  | attemptFailed n => exact execAttemptFailed_keeps n s _
  | quietPeriodEnd => exact execQuietPeriodEnd_keeps s _
  | lineStuck => exact execLineStuck_keeps s _
  | jabber => exact execJabber_keeps s _
  | jabberLockoutClear => exact (Alike.keeps {} _).answers
  | receiveTimeout => exact execReceiveTimeout_keeps s _
  | frameError f => exact execFrameError_keeps f s _
  | receiveTime f =>
    exact ((receiveFrame_keeps _ f _ _ s _ fun u _ => takeTime_keeps _ u).trans (serve_keeps _ _)).answers
  | receiveCue f =>
    exact ((receiveFrame_keeps _ f _ _ s _ fun u _ => judgeCue_keeps _ u _).trans (serve_keeps _ _)).answers
  | receiveHush f =>
    exact ((receiveFrame_keeps _ f _ _ s _ fun u _ => hush_keeps _ u _).trans (serve_keeps _ _)).answers
  | receiveAnnounce f =>
    exact ((receiveFrame_keeps _ f _ _ s _ fun u _ => judgeAnnounce_keeps _ _ u _).trans (serve_keeps _ _)).answers
  | receiveStopReq f =>
    exact ((receiveFrame_keeps _ f _ _ s _ fun u _ => stopHeard_keeps u _).trans (serve_keeps _ _)).answers
  | receiveDoor f => exact (receiveFrame_keeps _ f _ _ s _ fun u _ => applyDoor_keeps _ _ u _).answers
  | receiveScene f => exact (receiveFrame_keeps _ f _ _ s _ fun u _ => applyScene_keeps _ _ u _).answers
  | receiveStatus f => exact (receiveFrame_keeps _ f _ _ s _ fun u _ => .refl _ u).answers
  | receivePark f => exact (receiveFrame_keeps _ f _ _ s _ fun u h => parkHeard_keeps _ u _ h).answers
  | wakeMatch f => exact execWakeMatch_keeps f s _
  | wakeAttemptEnd n => exact execWakeAttemptEnd_keeps n s _
  | wakeWaitExpiry =>
    show AnswerKeeps _ s (execWakeWaitExpiry s)
    unfold execWakeWaitExpiry
    split
    · exact (warmStart_keeps s _).answers
    · exact .refl _ s
  | parkTimerExpiry => exact execParkTimerExpiry_keeps s _
  | timeTimerExpiry => exact execTimeTimerExpiry_keeps s _
  | statusTimerExpiry => exact execStatusTimerExpiry_keeps s _
  | cuePromotion => exact ((promoteDue_keeps s _).trans (serve_keeps _ _)).answers
  | chimeStart => exact (((chimeIfDue_frame s).trans (serve_frame _)).keeps _).answers
  | doorEntryExpiry => exact (expireDoors_keeps s _).answers
  | claimExpiry => exact (expireClaims_keeps s _).answers
  | sampleTick => exact execSampleTick_keeps s _
  | blockBoundary v => exact (((crossBoundary_frame v s).trans (serve_frame _)).keeps _).answers
  | clipEnd v => exact (((endClip_frame v s).trans (serve_frame _)).keeps _).answers
  | nameCapExpiry => exact execNameCapExpiry_keeps s _
  | seatInputSample l => exact execSeatInputSample_keeps l s _
  | plug j => exact execPlug_keeps j s _
  | unplug j => exact execUnplug_keeps j s _
  | settleEnd j => exact execSettleEnd_keeps j s _
  | volUpPress j => exact (pressVolume_keeps .up j s _).answers
  | volDownPress j => exact (pressVolume_keeps .down j s _).answers
  | volRelease j d => exact execVolRelease_keeps j d s _
  | volRepeat j d => exact execVolRepeat_keeps j d s _
  | langPress j => exact execLangPress_keeps j s _
  | langRelease j => exact execLangRelease_keeps j s _
  | langHoldExpiry j => exact execLangHoldExpiry_keeps j s _
  | stopPress j => exact execStopPress_keeps j s _
  | doorSwitchOpen => exact execDoorSwitchOpen_keeps s _
  | doorSwitchClosed => exact execDoorSwitchClosed_keeps s _
  | doorRefresh => exact execDoorRefresh_keeps s _
  | gainUpdate => exact execGainUpdate_keeps s _
  | sourceSilenceEnd o => exact execSourceSilenceEnd_keeps o s _
  | windSample l => exact execWindSample_keeps l s _
  | windWindowEnd => exact execWindWindowEnd_keeps s _
  | fadeTick => exact execFadeTick_keeps s _
  | ambientSample l => exact execAmbientSample_keeps l s _
  | wishSet => exact execWishSet_keeps s _
  | lampCheck l => exact execLampCheck_keeps l s _
  | lampFaultChange ch => exact (faultChange_keeps ch s _).answers
  | foreignFrame k f => exact (receiveFrame_keeps _ f _ _ s _ fun u _ => .refl _ u).answers

/-- A microsecond of reference moves timers and deck time alone (R55). -/
theorem passMicro_keeps (s : State) : Keeps false s (passMicro s) := by
  have h : Alike s { passMicro s with dclk.now := s.dclk.now } :=
    { jst := fun j => by cases j <;> rfl
      jpl := fun j => by cases j <;> rfl
      scan := by
        unfold scanning passMicro
        cases s.csr.hand <;> rfl }
  exact (h.keeps false).trans (setNow_keeps (passMicro s).dclk.now _)

theorem idle_keeps (s : State) : Keeps false s (idle s) := by
  unfold idle
  split
  · exact (passMicro_keeps s).trans (Alike.keeps {} false)
  · exact Alike.keeps {} false

/-- Every step but POWER_ON's keeps the rules of Sys2Proof/Safety.lean. -/
theorem step_keeps {s t : State} (hp : ∀ o l, s.pending.head? ≠ some (.powerOn o l)) (h : step s = .next t) :
    Keeps false s t := by
  rcases step_cases h with ⟨c, rest, e, h⟩ | ⟨_, rfl⟩
  · obtain ⟨u, eu, k⟩ := exec_keeps c { s with pending := rest } (fun o l k => hp o l (by rw [e, k]; rfl))
    obtain rfl : u = t := Host.Outcome.next.inj (eu.symm.trans h)
    exact Keeps.trans (t := { s with pending := rest }) (Alike.keeps {} false) k.forgetNow
  · exact idle_keeps s

/-- POWER_ON sets every counter to 0 (R12, R51, R92, R133, R183). -/
theorem execPowerOn_counts {o : Origin} {l : Bool} {s t : State} (h : execPowerOn o l s = .next t) :
    CountsBounded t := by
  have z : CountsBounded (poweredOn o l s) :=
    ⟨Nat.zero_le _, Nat.zero_le _, Nat.zero_le _, Nat.zero_le _, Nat.zero_le _,
      fun v => by rcases v with i | _ <;> (try cases i) <;> exact Nat.zero_le _,
      fun j => by cases j <;> exact Nat.zero_le _⟩
  unfold execPowerOn at h
  dsimp only at h
  split at h <;> (obtain rfl := Host.Outcome.next.inj h; exact z)

/-- Settles O59: POWER_ON sets the counters to 0, and every other step keeps the rules. -/
theorem countsOnlyRise : Obligations.CountsOnlyRise := by
  intro s t hs h
  by_cases hp : ∀ o l, s.pending.head? ≠ some (.powerOn o l)
  · have k := (step_keeps hp h).counts hs
    exact ⟨k.1, fun _ => k.2⟩
  · refine ⟨?_, fun k => absurd k hp⟩
    simp only [not_forall, not_not] at hp
    obtain ⟨o, l, e⟩ := hp
    rcases step_cases h with ⟨c, rest, ec, h⟩ | ⟨en, _⟩
    · rw [ec] at e
      obtain rfl := Option.some.inj e
      exact execPowerOn_counts h
    · rw [en] at e
      cases e

end Sys2Proof.Machine

namespace Sys2Proof.Machine

/-! ## The line: gaps and the timers of LINE -/

/-- Settles O4: each block's power-on value, read off field by field. -/
theorem resetState : Obligations.ResetState := by
  refine ⟨?stc, ?line, ⟨rfl, rfl⟩, ⟨rfl, rfl, rfl, rfl⟩, ?csr, ⟨rfl, rfl, rfl⟩, ⟨rfl, ⟨rfl, rfl⟩, ?slots⟩, rfl,
    ⟨rfl, rfl, ?seats⟩, ⟨rfl, rfl, ?outputs⟩, ⟨rfl, rfl, rfl, ?claims, ?chans⟩⟩
  case stc => and_intros <;> rfl
  case line => and_intros <;> rfl
  case csr =>
    refine ⟨rfl, rfl, rfl, rfl, rfl, rfl, rfl, rfl, rfl, rfl, fun v => ?_⟩
    cases v with
    | slot i => cases i <;> exact ⟨rfl, rfl⟩
    | va => exact ⟨rfl, rfl⟩
  case slots => intro i; cases i <;> exact ⟨⟨rfl, rfl⟩, rfl, rfl, rfl, rfl, rfl, rfl, rfl, rfl⟩
  case seats => intro j; cases j <;> exact ⟨rfl, rfl⟩
  case outputs =>
    intro o
    cases o with
    | jack j => cases j <;> exact ⟨rfl, rfl, rfl, rfl⟩
    | spk => exact ⟨rfl, rfl, rfl, rfl⟩
  case claims =>
    intro p
    match p with
    | 0 | 1 | 2 | _ + 3 => rfl
  case chans => intro c; cases c <;> rfl

/-- Settles O19. -/
theorem lineTimers : Obligations.LineTimers := by
  intro s
  refine ⟨fun hq hs => ?_, fun hq hs => ?_, fun hs => ?_, fun _ hs => ?_, fun hs hf hw => ?_, rfl⟩
  · show execQuietPeriodEnd s = _
    unfold execQuietPeriodEnd
    rw [if_pos hq]
    exact if_pos hs
  · show execQuietPeriodEnd s = _
    unfold execQuietPeriodEnd
    rw [if_pos hq]
    exact if_neg (by rw [show _ = LineState.stuck from hs]; nofun)
  · show execLineStuck s = _
    unfold execLineStuck
    rw [if_neg (by rcases hs with h | h <;> rw [h] <;> decide), if_pos hs]
  · exact if_pos hs
  · show execJabber s = _
    unfold execJabber
    rw [if_neg hs]
    dsimp only
    rw [hf]
    exact if_neg hw

/-- A record that has gone out of a kind no block owns at home is delivered to nobody (R50). -/
theorem ownDelivery_of_other {r : Record} (h : r.kind ≠ .scene) (k : r.kind ≠ .door) (s : State) :
    ownDelivery r s = s := by
  unfold ownDelivery
  split
  · exact absurd ‹_› h
  · exact absurd ‹_› k
  · rfl

theorem exec_attemptSent {r : Record} {s : State} (h : s.txq.flying = some r) :
    exec .attemptSent s = .next (ownDelivery r { s with
      line.fails := 0, line.driving := [], line.priorCapture := none, line.rx := .fresh 96,
      txq := s.txq.leave r.order }) := by
  show execAttemptSent s = _
  unfold execAttemptSent
  rw [h]
  rfl

/-- Settles O15. -/
theorem attemptSent : Obligations.AttemptSent := by
  intro r s h u
  rw [exec_attemptSent h]
  refine ⟨fun hs hd => ?_, fun hk hf => ?_, fun hk hb => ?_⟩
  · rw [ownDelivery_of_other hs hd]
    rfl
  · unfold ownDelivery
    rw [hk]
    dsimp only
    rw [if_pos hf]
    rfl
  · have small : (byteAt r.body 0).toNat ≤ 1 := by rcases hb with e | e <;> rw [e] <;> decide
    unfold ownDelivery
    rw [hk]
    dsimp only
    rw [if_pos small]
    rfl

/-! ### The idle gap (R3, R19, R21, R40, R41) -/

theorem receiveOnly_iff (s : State) : receiveOnly s = true ↔ s.stc.origin = 0 ∨ s.stc.origin = 63 := by
  simp [receiveOnly]

theorem receiveOnly_eq_false {s : State} (h0 : s.stc.origin ≠ 0) (h63 : s.stc.origin ≠ 63) : receiveOnly s = false :=
  Bool.eq_false_iff.mpr fun h => ((receiveOnly_iff s).mp h).elim h0 h63

theorem exec_idleGap_gap {s : State} (hd : s.line.driving = []) (hs : s.line.state = .active ∨ s.line.state = .quiet) :
    exec .idleGap s = .next (gap s) := by
  show execIdleGap s = _
  unfold execIdleGap
  rw [hd]
  rcases hs with h | h <;> rw [h] <;> rfl

theorem headOffered_some {s : State} {r : Record} (hl : s.line.lockout = false) (ho : receiveOnly s = false)
    (hs : s.line.state = .active ∨ (s.line.state = .quiet ∧ r.kind.cls = 0)) (hh : s.txq.head = some r)
    (hb : r.backoff = 0) : headOffered s = some r := by
  simp [headOffered, hl, ho, hh, hb, hs]

theorem headOffered_none {s : State}
    (h : s.line.lockout = true ∨ s.stc.origin = 0 ∨ s.stc.origin = 63 ∨ s.txq.head = none
      ∨ (∃ r, s.txq.head = some r ∧ r.backoff ≠ 0)
      ∨ (∃ r, s.txq.head = some r ∧ s.line.state = .quiet ∧ r.kind.cls ≠ 0)) : headOffered s = none := by
  rcases h with h | h | h | h | ⟨r, h, hb⟩ | ⟨r, h, hs, hc⟩
  · simp [headOffered, h]
  · simp [headOffered, receiveOnly, h]
  · simp [headOffered, receiveOnly, h]
  · simp [headOffered, h]
  · simp [headOffered, h, hb]
  · simp [headOffered, h, hs, hc]

theorem bodySent_eq (t : DeckTime) (r : Record) :
    bodySent t r = if r.kind = .time then bytes32 t.ms.toNat ++ bytes16 t.us else r.body := by
  unfold bodySent
  cases r.kind <;> rfl

theorem TxQueue.fly_eq (q : TxQueue) (n : Nat) :
    q.fly n = { q with records := q.records.map fun o => if o.order = n then { o with inFlight := true } else o } := by
  simp [TxQueue.fly]

/-- The state in which the station's own frame begins (R2, R40, R60, R61). -/
theorem beginRecord_eq (r : Record) (s : State) : beginRecord r s = { s with
    dclk.capture := s.dclk.now.addMicros 128,
    txq.records := s.txq.records.map fun o => if o.order = r.order then { o with inFlight := true } else o,
    line.driving := frameChars r.kind.code r.kind.cls s.stc.origin
      (if r.kind = .time then bytes32 (s.dclk.now.addMicros 128).ms.toNat ++ bytes16 (s.dclk.now.addMicros 128).us
        else r.body),
    line.priorCapture := some s.dclk.capture,
    line.rx := { Reception.fresh s.line.rx.estimate with
      phase := .inBreak, edgeRef := 12 * (s.ref.micros + 128) } } := by
  unfold beginRecord
  dsimp only
  rw [bodySent_eq, TxQueue.fly_eq]
  rfl

theorem gap_begins {s : State} {r : Record} (h : headOffered s = some r) : gap s = beginRecord r s := by
  simp [gap, h]

theorem gap_counts {s : State} (h : headOffered s = none) :
    gap s = { s with txq.records := s.txq.records.map fun r => { r with backoff := r.backoff - 1 } } := by
  simp [gap, h, TxQueue.countDown]

theorem TxQueue.head_of_empty {q : TxQueue} (h : q.records = []) : q.head = none := by
  simp [TxQueue.head, h]

/-- With no record to offer and none to count down a gap changes nothing (R41). -/
theorem gap_of_empty {s : State} (h : s.txq.records = []) : gap s = s := by
  rw [gap_counts (headOffered_none (.inr (.inr (.inr (.inl (TxQueue.head_of_empty h)))))), h, List.map_nil, ← h]

/-- Leaving STUCK moves the line state, and the periodic timers where it moves to ACTIVE (R19, R66, R180). -/
theorem exec_idleGap_stuck {s : State} (hd : s.line.driving = []) (hs : s.line.state = .stuck) :
    exec .idleGap s = .next (gap (leaveStuck s)) := by
  show execIdleGap s = _
  unfold execIdleGap
  rw [hd, hs]
  rfl

theorem leaveStuck_takes_gap {s : State} (hd : s.line.driving = []) :
    exec .idleGap (leaveStuck s) = .next (gap (leaveStuck s)) := by
  refine exec_idleGap_gap ((leaveStuck_state s).2.2.trans hd) ?_
  unfold leaveStuck
  split
  · exact .inr rfl
  · exact .inl rfl

theorem leaveStuck_records (s : State) : (leaveStuck s).txq.records = s.txq.records := by
  unfold leaveStuck
  split <;> rfl

/-- Settles O12. -/
theorem idleGap : Obligations.IdleGap := by
  refine ⟨fun r s hd hl h0 h63 hs hh hb => ?_, fun s hd => ⟨fun hs hn => ?_, fun hs => ?_, fun hs hw hl _ _ => ?_⟩⟩
  · have hs' : s.line.state = .active ∨ s.line.state = .quiet := hs.imp_right And.left
    rw [exec_idleGap_gap hd hs', gap_begins (headOffered_some hl (receiveOnly_eq_false h0 h63) hs hh hb), beginRecord_eq]
    rfl
  · rw [exec_idleGap_gap hd hs, gap_counts (headOffered_none hn)]
  · intro left
    refine ⟨(exec_idleGap_stuck hd hs).trans (leaveStuck_takes_gap hd).symm, fun he => ?_⟩
    rw [exec_idleGap_stuck hd hs, gap_of_empty ((leaveStuck_records s).trans he)]
    rfl
  · refine ⟨followOwn (wakeChars s.csr.fleet) { s with line.wake := .sending }, ?_, rfl⟩
    show execIdleGap s = _
    simp [execIdleGap, hd, hs, hw, hl]

/-! ### The volume buttons (R137, R141) -/

theorem Seats.set_set {α : Type} (x : Seats α) (j : Seat) (a b : α) : (x.set j a).set j b = x.set j b := by
  cases j <;> rfl

theorem volumeActs_iff (s : State) (j : Seat) :
    volumeActs s j = true ↔ s.stc.state = .awake ∧ (s.jck.jacks.get j).state = .listening := by
  simp [volumeActs, isAwake, listening, jackOf]

theorem volumeActs_setPanel (s : State) (i j : Seat) (p : Panel) : volumeActs (setPanel i p s) j = volumeActs s j := rfl

theorem filtersRun_iff (s : State) :
    filtersRun s = true ↔ s.stc.state = .awake ∨ s.stc.state = .parking ∨ s.stc.state = .parked := by
  simp [filtersRun, or_assoc]

/-- A press that acts moves the step and starts the button's repeat (R137). -/
theorem pressVolume_acts (b : VolButton) {j : Seat} {s : State} (ha : s.stc.state = .awake)
    (hl : (s.jck.jacks.get j).state = .listening) :
    pressVolume b j s = { s with
      jck.jacks := s.jck.jacks.set j { s.jck.jacks.get j with step := stepMoved b (s.jck.jacks.get j).step },
      jck.panels := s.jck.panels.set j (((s.jck.panels.get j).setVolume b true).setRepeat b (some 500000)) } := by
  have hf : filtersRun s = true := (filtersRun_iff s).mpr (.inl ha)
  unfold pressVolume
  rw [if_pos hf]
  dsimp only
  rw [volumeActs_setPanel, if_pos ((volumeActs_iff s j).mpr ⟨ha, hl⟩)]
  simp only [moveStep, setJack, setPanel, panelOf, jackOf, Seats.get_set, if_true, Seats.set_set]
  rfl

/-- A repeat moves the step where a press would act, and its timer restarts (R137). -/
theorem execVolRepeat_eq (b : VolButton) {j : Seat} {s : State} (h : ((panelOf s j).repeatOf b).isSome = true) :
    execVolRepeat j b s = .next { s with
      jck.jacks := if s.stc.state = .awake ∧ (s.jck.jacks.get j).state = .listening
        then s.jck.jacks.set j { s.jck.jacks.get j with step := stepMoved b (s.jck.jacks.get j).step } else s.jck.jacks,
      jck.panels := s.jck.panels.set j ((s.jck.panels.get j).setRepeat b (some 250000)) } := by
  unfold execVolRepeat
  rw [if_pos h]
  dsimp only
  rw [volumeActs_setPanel]
  by_cases k : s.stc.state = .awake ∧ (s.jck.jacks.get j).state = .listening
  · rw [if_pos ((volumeActs_iff s j).mpr k), if_pos k]
    rfl
  · rw [if_neg fun a => k ((volumeActs_iff s j).mp a), if_neg k]
    rfl

theorem execVolRelease_eq (b : VolButton) {j : Seat} {s : State} (h : filtersRun s = true) :
    execVolRelease j b s =
      .next (setPanel j (((s.jck.panels.get j).setVolume b false).setRepeat b none) s) := if_pos h

/-- A press while PARKED asks LINE for the WAKE pattern and starts the wake wait (R141, R177). -/
theorem pressVolume_parked (b : VolButton) {j : Seat} {s : State} (hp : s.stc.state = .parked)
    (ho : receiveOnly s = false) (hw : s.stc.wakeWait = none) (hk : s.line.wake = .none) :
    pressVolume b j s = { s with
      jck.panels := s.jck.panels.set j ((s.jck.panels.get j).setVolume b true),
      line.wake := .held, stc.wakeWait := some 100000 } := by
  have hf : filtersRun s = true := (filtersRun_iff s).mpr (.inr (.inr hp))
  have hv : ¬ volumeActs s j = true := fun a => by
    have := ((volumeActs_iff s j).mp a).1
    rw [hp] at this
    cases this
  unfold pressVolume
  rw [if_pos hf]
  dsimp only
  rw [volumeActs_setPanel, if_neg hv]
  unfold pressWakes
  rw [if_pos (by exact hp)]
  unfold wakeRequest
  rw [if_neg (by simpa [receiveOnly] using ho), if_neg (by simp [hw])]
  simp only [setPanel_line, hk, if_true]
  rfl

/-- Settles O47. -/
theorem volumeButtons : Obligations.VolumeButtons := by
  intro j s x p up down
  refine ⟨fun ha hl => ⟨?_, ?_⟩, fun h => ?_, fun h => ?_, fun h => ⟨?_, ?_⟩, fun hp h0 h63 hw hk => ?_⟩
  · exact congrArg _ (pressVolume_acts .up ha hl)
  · exact congrArg _ (pressVolume_acts .down ha hl)
  · exact execVolRepeat_eq .up h
  · exact execVolRepeat_eq .down h
  · exact execVolRelease_eq .up ((filtersRun_iff s).mpr h)
  · exact execVolRelease_eq .down ((filtersRun_iff s).mpr h)
  · exact congrArg _ (pressVolume_parked .up hp (receiveOnly_eq_false h0 h63) hw hk)

end Sys2Proof.Machine

namespace Sys2Proof.Machine

/-! ## The ends of attempts (R3, R9, R10, R22, R43, R44) -/

theorem readbackAt_lost {wave : List Bool} {n : Nat} (h : wave[n]? = some true) (k : n = 14 ∨ (35 ≤ n ∧ n ≤ 42)) :
    readbackAt wave n = .lost := by
  simp [readbackAt, h, k]

theorem readbackAt_failed {wave : List Bool} {n : Nat} {b : Bool} (h : wave[n]? = some b)
    (k : b = false ∨ ¬ (n = 14 ∨ (35 ≤ n ∧ n ≤ 42))) : readbackAt wave n = .failed := by
  cases b with
  | false => simp [readbackAt, h]
  | true => simp [readbackAt, h, k.resolve_left nofun]

/-! ### What becomes of the record in flight -/

/-- The record in flight as it waits again (R43, R44). -/
def Record.back (r : Record) (body : List Byte) (attempts backoff : Nat) (o : Record) : Record :=
  if o.order = r.order then { o with body := body, attempts := attempts, backoff := backoff, inFlight := false } else o

theorem Record.back_kind (r : Record) (body : List Byte) (a n : Nat) (o : Record) : (r.back body a n o).kind = o.kind := by
  unfold Record.back
  split <;> rfl

/-- The records that `keep` leaves, whatever body it gives the record (R43, R44). -/
theorem TxQueue.keep_eq (q : TxQueue) (r : Record) (a n : Nat) : ∃ body, q.keep r a n =
    { q with records := (q.records.filter fun o => !(o.kind == r.kind && !o.inFlight)).map (r.back body a n) } := by
  unfold TxQueue.keep Record.back
  simp only [beq_iff_eq]
  exact ⟨_, rfl⟩

/-- With no newer record of its kind the record waits again as it was (R43, R44). -/
theorem TxQueue.keep_alone {q : TxQueue} {r : Record} (h : ∀ o ∈ q.records, o.kind = r.kind → o.inFlight = true)
    (a n : Nat) : q.keep r a n = { q with records := q.records.map (r.back r.body a n) } := by
  have none_waits : ∀ o ∈ q.records, o.waits r.kind = false := fun o ho => by
    simp only [Record.waits, Bool.and_eq_false_imp, beq_iff_eq]
    exact fun e => by simp [h o ho e]
  have hfind : (q.records.find? fun o => o.waits r.kind) = none :=
    List.find?_eq_none.mpr fun o ho => by simp [none_waits o ho]
  have hfilter : (q.records.filter fun o => !o.waits r.kind) = q.records :=
    List.filter_eq_self.mpr fun o ho => by simp [none_waits o ho]
  unfold TxQueue.keep Record.back
  rw [hfind, hfilter]
  simp only [beq_iff_eq]

/-- The newer waiting record of its kind merges into it and leaves (R43, R44). -/
theorem TxQueue.keep_merged {q : TxQueue} {r w : Record} (hw : w ∈ q.records) (hk : w.kind = r.kind)
    (hf : w.inFlight = false) (only : ∀ o ∈ q.records, o.kind = r.kind → o.inFlight = false → o = w) (a n : Nat) :
    q.keep r a n = { q with
      records := (q.records.filter fun o => !(o.kind == r.kind && !o.inFlight)).map
        (r.back (mergeBody r.kind r.body w.body) a n) } := by
  have hfind : (q.records.find? fun o => o.waits r.kind) = some w := by
    have isSome : (q.records.find? fun o => o.waits r.kind).isSome = true :=
      List.find?_isSome.mpr ⟨w, hw, by simp [Record.waits, hk, hf]⟩
    obtain ⟨o, ho⟩ := Option.isSome_iff_exists.mp isSome
    have waits := List.find?_some ho
    simp only [Record.waits, Bool.and_eq_true, beq_iff_eq, Bool.not_eq_true'] at waits
    rw [ho, only o (List.mem_of_find?_eq_some ho) waits.1 waits.2]
  unfold TxQueue.keep Record.back
  rw [hfind]
  simp only [beq_iff_eq]
  rfl

theorem TxQueue.lost_eq (q : TxQueue) (r : Record) : q.lost r = { q with records := (q.lost r).records } := by
  unfold TxQueue.lost
  split <;> rfl

theorem TxQueue.lost_withdrawn {q : TxQueue} {r : Record} (h : r.withdrawn = true) : q.lost r = q.leave r.order :=
  if_pos h

theorem TxQueue.lost_kept {q : TxQueue} {r : Record} (h : r.withdrawn = false) :
    q.lost r = q.keep r r.attempts r.backoff := if_neg (by simp [h])

theorem queueFailed_eq (r : Record) (s : State) : queueFailed r s = { s with txq := (queueFailed r s).txq } := by
  unfold queueFailed
  split
  · rfl
  · split <;> rfl

theorem queueFailed_withdrawn {r : Record} (h : r.withdrawn = true) (s : State) :
    (queueFailed r s).txq = s.txq.leave r.order := by
  simp [queueFailed, h]

theorem queueFailed_third {r : Record} (h : r.withdrawn = false) (k : 2 ≤ r.attempts) (s : State) :
    (queueFailed r s).txq = (s.txq.leave r.order).drop 1 := by
  simp [queueFailed, h, show 3 ≤ r.attempts + 1 by omega]

/-- An earlier failure draws a 4-bit backoff (R44, R53). -/
theorem queueFailed_kept {r : Record} (h : r.withdrawn = false) (k : r.attempts ≤ 1) (s : State) :
    (queueFailed r s).txq = { s.txq.keep r (r.attempts + 1) ((lfsrSteps 16 s.txq.lfsr).toNat % 16) with
      lfsr := lfsrSteps 16 s.txq.lfsr } := by
  simp only [queueFailed, h, show ¬ 3 ≤ r.attempts + 1 by omega, if_false, Bool.false_eq_true]
  rfl

/-! ### The end of an attempt as failed -/

/-- Where the station stops driving at a bit, the capture is that of the own first TUNE edge if bit 16 agreed (R60). -/
theorem stopDriving_capture (bit : Nat) (s : State) : (stopDriving bit s).dclk.capture =
    if bit ≤ 16 then s.line.priorCapture.getD s.dclk.capture else s.dclk.capture := by
  have e : ownEdgeCame bit = !decide (bit ≤ 16) := by
    unfold ownEdgeCame
    by_cases h : bit ≤ 16 <;> simp [h] <;> omega
  unfold stopDriving settleCapture
  rw [e]
  by_cases h : bit ≤ 16 <;> simp [h]

/-- A command that ends the attempt in hand as failed (R10, R22). -/
def Fails (s : State) (c : Instr) : Prop :=
  c = .jabber ∨ ∃ bit b, c = .attemptFailed bit ∧ (waveOf s.line.driving)[bit]? = some b
    ∧ (b = false ∨ ¬ (bit = 14 ∨ (35 ≤ bit ∧ bit ≤ 42)))

/-- The state in which the record in flight fails: the receiver has followed the line to there, and the capture is
settled (R10, R22, R60). -/
def attemptEnded (driving : List Byte) (rx : Reception) (lockout : Bool) (capture : DeckTime) (s : State) : State :=
  { s with
    line.driving := driving, line.rx := rx, line.priorCapture := none, line.lockout := lockout,
    dclk.capture := capture }

/-- A failed attempt's command settles the reception record, the capture and the lockout, and then the record in flight
fails (R10, R22, R44, R60). -/
theorem exec_of_fails {c : Instr} {r : Record} {s : State} (hf : s.txq.flying = some r) (ho : s.line.state ≠ .off)
    (hc : Fails s c) : ∃ driving rx capture,
      exec c s = .next
        (failAttempt r (attemptEnded driving rx (s.line.lockout || decide (c = .jabber)) capture s))
      ∧ (∀ bit, c = .attemptFailed bit → capture =
          if bit ≤ 16 then s.line.priorCapture.getD s.dclk.capture else s.dclk.capture)
      ∧ (c = .jabber → capture = if s.line.rx.edgeRef ≤ 12 * (s.ref.micros - 1000) then s.dclk.capture
          else s.line.priorCapture.getD s.dclk.capture) := by
  rcases hc with rfl | ⟨bit, b, rfl, hw, hb⟩
  · refine ⟨s.line.driving, (jabberedReception { s with line.lockout := true }).line.rx,
      (jabberedReception { s with line.lockout := true }).dclk.capture, ?_, nofun, fun _ => ?_⟩
    · show execJabber s = _
      unfold execJabber
      rw [if_neg ho]
      dsimp only
      rw [hf, show (s.line.lockout || decide (Instr.jabber = .jabber)) = true by simp]
      rfl
    · show (if decide (s.line.rx.edgeRef ≤ jabberFrom s) = true then _ else _) = _
      simp only [decide_eq_true_eq]
      rfl
  · refine ⟨[], (stopDriving bit s).line.rx, (stopDriving bit s).dclk.capture, ?_, fun n e => ?_, nofun⟩
    · show execAttemptFailed bit s = _
      unfold execAttemptFailed
      rw [if_pos (readbackAt_failed hw hb), hf,
        show (s.line.lockout || decide (Instr.attemptFailed bit = .jabber)) = s.line.lockout by simp]
      rfl
    · obtain rfl : bit = n := Instr.attemptFailed.inj e
      exact stopDriving_capture bit s

/-- What a failed attempt leaves before an entry to QUIET: the queue's part and the two counts (R11, R44, R183). -/
def attemptCounted (r : Record) (s : State) : State :=
  { s with
    line.driving := [], line.fails := min 16 (s.line.fails + 1),
    stc.failedAttempts := min 255 (s.stc.failedAttempts + 1), txq := (queueFailed r s).txq }

theorem failAttempt_eq (r : Record) (s : State) : failAttempt r s =
    if s.line.state = .active ∧ s.line.fails = 15 then enterQuiet (attemptCounted r s) else attemptCounted r s := by
  unfold failAttempt attemptCounted
  rw [queueFailed_eq r s]
  simp only [Bool.and_eq_true, beq_iff_eq]
  rfl

/-- Settles O16. -/
theorem attemptLost : Obligations.AttemptLost := by
  intro bit s hw hb capture
  have hlost : readbackAt (waveOf s.line.driving) bit = .lost := readbackAt_lost hw hb
  have hcap : (if bit ≤ 16 then s.line.priorCapture.getD s.dclk.capture else s.dclk.capture) = capture := by
    rcases hb with rfl | hb
    · rfl
    · rw [if_neg (by omega)]
      exact (if_neg (by omega)).symm
  refine ⟨fun r hf => ⟨stopDriving bit { s with txq := s.txq.lost r }, ?_, ?_, fun hwd => ?_, fun hwd ho => ?_,
    fun hwd w hm hk hi ho => ?_⟩, fun hf hwk => ⟨stopDriving bit { s with line.wake := .held }, ?_, ?_⟩⟩
  · show execAttemptLost bit s = _
    unfold execAttemptLost
    rw [if_pos hlost, hf]
  · rw [← hcap, ← stopDriving_capture bit s]
    show stopDriving bit { s with txq := s.txq.lost r } = _
    conv_lhs => rw [TxQueue.lost_eq]
    rfl
  · show (s.txq.lost r).records = _
    rw [TxQueue.lost_withdrawn hwd]
    rfl
  · show (s.txq.lost r).records = _
    rw [TxQueue.lost_kept hwd, TxQueue.keep_alone ho]
    rfl
  · show (s.txq.lost r).records = _
    rw [TxQueue.lost_kept hwd, TxQueue.keep_merged hm hk hi ho]
    rfl
  · show execAttemptLost bit s = _
    unfold execAttemptLost
    rw [if_pos hlost, hf]
    exact if_pos hwk
  · rw [← hcap, ← stopDriving_capture bit s]
    rfl

/-- Settles O17: short of QUIET the failure is counted, and the queue's part is one of three. -/
theorem attemptFailed : Obligations.AttemptFailed := by
  intro c r s hf ho hc hq
  obtain ⟨driving, rx, capture, he, hbit, hjab⟩ := exec_of_fails hf ho hc
  generalize hu : attemptEnded driving rx (s.line.lockout || decide (c = .jabber)) capture s = u at he
  have htxq : u.txq = s.txq := by rw [← hu]; rfl
  have ht : failAttempt r u = attemptCounted r u := by
    rw [failAttempt_eq, ← hu]
    exact if_neg hq
  rw [ht] at he
  refine ⟨attemptCounted r u, he, ?_, fun n e => ?_, fun e => ?_, ?_, fun hw => ?_, fun hw ha => ?_, fun hw ha => ?_⟩
  · rw [← hu]
    rfl
  · rw [← hbit n e, ← hu]
    rfl
  · rw [← hjab e, ← hu]
    rfl
  · show (queueFailed r u).txq.nextOrder = _
    rw [← htxq]
    unfold queueFailed
    split
    · rfl
    · split <;> rfl
  · show (queueFailed r u).txq = _
    rw [queueFailed_withdrawn hw, htxq]
    rfl
  · show (queueFailed r u).txq = _
    rw [queueFailed_third hw ha, htxq]
    rfl
  · have hk : (attemptCounted r u).txq = _ := queueFailed_kept hw ha u
    rw [hk, htxq]
    refine ⟨rfl, rfl, fun h => ?_, fun w hm hkind hi honly => ?_⟩
    · rw [TxQueue.keep_alone h]
      rfl
    · rw [TxQueue.keep_merged hm hkind hi honly]
      rfl

/-! ### Entry to QUIET (R18, R47) -/

/-- The records that a failed attempt leaves: the record in flight has gone, or it waits again and the newer waiting one
of its kind has merged into it (R44). -/
theorem queueFailed_records (r : Record) (s : State) :
    (r.withdrawn = true ∨ 2 ≤ r.attempts →
      (queueFailed r s).txq.records = s.txq.records.filter fun o => !(o.order == r.order))
    ∧ (¬ (r.withdrawn = true ∨ 2 ≤ r.attempts) → ∃ body n, (queueFailed r s).txq.records =
      (s.txq.records.filter fun o => !(o.kind == r.kind && !o.inFlight)).map (r.back body (r.attempts + 1) n)) := by
  refine ⟨fun h => ?_, fun h => ?_⟩
  · by_cases hw : r.withdrawn = true
    · rw [queueFailed_withdrawn hw]
      rfl
    · rw [queueFailed_third (by simpa using hw) (h.resolve_left hw)]
      rfl
  · obtain ⟨hw, ha⟩ := not_or.mp h
    obtain ⟨body, e⟩ := TxQueue.keep_eq s.txq r (r.attempts + 1) ((lfsrSteps 16 s.txq.lfsr).toNat % 16)
    exact ⟨body, _, by rw [queueFailed_kept (by simpa using hw) (by omega), e]⟩

/-- The drop count of a failed attempt: the third failure of a record not withdrawn counts (R44, R51). -/
theorem queueFailed_drops (r : Record) (s : State) (n : Nat) : min 255 ((queueFailed r s).txq.drops + n) =
    min 255 (s.txq.drops + (if r.withdrawn = false ∧ 2 ≤ r.attempts then 1 else 0) + n) := by
  by_cases hw : r.withdrawn = true
  · rw [queueFailed_withdrawn hw, if_neg (by simp [hw])]
    rfl
  · have hw' : r.withdrawn = false := by simpa using hw
    by_cases ha : 2 ≤ r.attempts
    · rw [queueFailed_third hw' ha, if_pos ⟨hw', ha⟩]
      show min 255 (min 255 (s.txq.drops + 1) + n) = _
      omega
    · rw [queueFailed_kept hw' (by omega), if_neg (fun k => ha k.2)]
      rfl

theorem enterQuiet_records (q : TxQueue) :
    q.enterQuiet.records = q.records.filter fun r => r.kind.cls == 0 := rfl

/-- A record of class 0 stays at an entry to QUIET, and one of another class does not (R47). -/
theorem mem_enterQuiet (q : TxQueue) (o : Record) : o ∈ q.enterQuiet.records ↔ o ∈ q.records ∧ o.kind.cls = 0 := by
  rw [enterQuiet_records, List.mem_filter, beq_iff_eq]

/-- Settles O18. -/
theorem quietEntry : Obligations.QuietEntry := by
  intro c r s hf hs hfails hc goes left
  obtain ⟨driving, rx, capture, he, -, -⟩ := exec_of_fails hf (by rw [hs]; nofun) hc
  generalize hu : attemptEnded driving rx (s.line.lockout || decide (c = .jabber)) capture s = u at he
  have htxq : u.txq = s.txq := by rw [← hu]; rfl
  have hgoes := (queueFailed_records r u).1
  have hstays := (queueFailed_records r u).2
  have hdrops := queueFailed_drops r u
  rw [htxq] at hgoes hstays hdrops
  have ht : failAttempt r u = enterQuiet (attemptCounted r u) := by
    rw [failAttempt_eq, ← hu]
    exact if_pos ⟨hs, hfails⟩
  generalize hq : (queueFailed r u).txq = q at hgoes hstays hdrops
  have hrecs : (enterQuiet (attemptCounted r u)).txq = q.enterQuiet := by rw [← hq]; rfl
  rw [ht] at he
  subst hu
  refine ⟨_, he, rfl, ?fails, rfl, ?class0, ?others, ?back, ?drops, rfl, rfl, rfl, rfl, rfl, rfl, rfl, rfl, rfl, rfl,
    rfl, rfl, rfl⟩
  case fails =>
    show min 16 (s.line.fails + 1) = 16
    rw [hfails]
    rfl
  case class0 =>
    intro o ho
    rw [hrecs, mem_enterQuiet] at ho
    exact ho.2
  case others =>
    intro o ho h0 hne
    rw [hrecs, mem_enterQuiet]
    refine ⟨?_, h0⟩
    by_cases hg : goes
    · rw [hgoes hg]
      simpa only [left, if_pos hg] using ho
    · obtain ⟨body, n, e⟩ := hstays hg
      rw [e]
      simp only [left, if_neg hg] at ho
      exact List.mem_map.mpr ⟨o, ho, if_neg hne⟩
  case back =>
    intro hg hr h0 hi
    obtain ⟨body, n, e⟩ := hstays hg
    refine ⟨r.back body (r.attempts + 1) n r, ?_, ?_⟩
    · rw [hrecs, mem_enterQuiet, e, Record.back_kind]
      exact ⟨List.mem_map_of_mem (List.mem_filter.mpr ⟨hr, by simp [hi]⟩), h0⟩
    · rw [Record.back, if_pos rfl]
      exact ⟨rfl, rfl, rfl⟩
  case drops =>
    have hcount : q.records.countP (fun o => !(o.kind.cls == 0)) =
        left.countP fun o => !(o.kind.cls == 0) := by
      by_cases hg : goes
      · rw [hgoes hg]
        simp only [left, if_pos hg]
      · obtain ⟨body, n, e⟩ := hstays hg
        rw [e, List.countP_map]
        simp only [left, if_neg hg]
        congr 1
        funext o
        simp only [Function.comp, Record.back_kind]
    rw [hrecs, ← hcount, ← hdrops]
    rfl

end Sys2Proof.Machine

namespace Sys2Proof.Machine

/-! ## What the receiver makes of a line (R4 to R8, R15) -/

/-! ### The end-around-carry sum (R8) -/

/-- A sum with every carry out of bit 7 added back in: 0 for nothing, else 1..255 (R8). -/
def roundAbout (n : Nat) : Nat := if n = 0 then 0 else (n - 1) % 255 + 1

theorem addAround_toNat (a c : Byte) : (addAround a c).toNat = roundAbout (a.toNat + c.toNat) := by
  have ha : a.toNat < 256 := a.isLt
  have hc : c.toNat < 256 := c.isLt
  unfold addAround roundAbout
  rw [BitVec.toNat_ofNat]
  by_cases h : a.toNat + c.toNat < 256
  · rw [Nat.mod_eq_of_lt h, Nat.div_eq_of_lt h]
    split_ifs <;> omega
  · obtain ⟨n, hn⟩ := Nat.exists_eq_add_of_le (Nat.not_lt.mp h)
    rw [hn, Nat.add_mod_left, Nat.add_div_left n (by omega), Nat.mod_eq_of_lt (by omega : n < 256),
      Nat.div_eq_of_lt (by omega : n < 256)]
    split_ifs <;> omega

theorem roundAbout_add (m n : Nat) : roundAbout (roundAbout m + n) = roundAbout (m + n) := by
  unfold roundAbout
  split_ifs <;> omega

theorem roundAbout_byte (a : Byte) : roundAbout a.toNat = a.toNat := by
  have ha : a.toNat < 256 := a.isLt
  unfold roundAbout
  split_ifs <;> omega

theorem foldl_addAround_toNat (bs : List Byte) (a : Byte) :
    (bs.foldl addAround a).toNat = roundAbout (a.toNat + (bs.map BitVec.toNat).sum) := by
  induction bs generalizing a with
  | nil => simp [roundAbout_byte]
  | cons c bs ih => rw [List.foldl_cons, ih, addAround_toNat, roundAbout_add, List.map_cons, List.sum_cons, Nat.add_assoc]

/-- A sum closes to 0xFF where its characters add up to a multiple of 255 above 0 (R8). -/
theorem foldl_addAround_closes (bs : List Byte) : bs.foldl addAround 0 = 0xFF ↔
    1 ≤ (bs.map BitVec.toNat).sum ∧ (bs.map BitVec.toNat).sum % 255 = 0 := by
  rw [← BitVec.toNat_inj, foldl_addAround_toNat, show (0 : Byte).toNat = 0 from rfl,
    show (0xFF : Byte).toNat = 255 from rfl, Nat.zero_add]
  unfold roundAbout
  constructor <;> (intro h; split_ifs at * <;> omega)

/-- CHECK closes the sum of what it follows to 0xFF (R8). -/
theorem foldl_addAround_check (front : List Byte) : (front ++ [checkOf front]).foldl addAround 0 = 0xFF := by
  rw [List.foldl_append]
  show addAround (sumAround front) (~~~ sumAround front) = 0xFF
  generalize sumAround front = x
  have hx : x.toNat < 256 := x.isLt
  rw [← BitVec.toNat_inj, addAround_toNat, BitVec.toNat_not]
  show roundAbout (x.toNat + (256 - 1 - x.toNat)) = 255
  rw [show x.toNat + (256 - 1 - x.toNat) = 255 by omega]
  rfl

/-! ### A frame on the line (R4 to R7) -/

/-- A frame sent at any bit time that shows a BREAK, a delimiter below 12 nominal bit times and TUNE reaches its ninth
TUNE edge (R4, R5). -/
theorem listen_tunes (asleep : Bool) {b : Nat} (h1 : 76 ≤ b) (h2 : b ≤ 575) (cs : List Byte) :
    ∃ line, listen asleep 0 (runsOf b (waveOf cs)) = hearTune asleep 0 (16 * b) line
      ∧ tuneFrom 1 0 line = .ninth (16 * b) (runsFrom b false 0 (tailBits cs)) := by
  refine ⟨b :: b :: b :: b :: b :: b :: b :: b :: b :: b :: b :: b :: b :: b :: b :: b
    :: runsFrom b false 0 (tailBits cs), ?_, ?_⟩
  · have break_ : isBreak (14 * b) = true := by
      unfold isBreak
      simp only [Bool.and_eq_true, decide_eq_true_eq]
      show 1056 ≤ 14 * b ∧ 14 * b ≤ 24000
      omega
    have delimiter : ¬ (Config.noTuneCounts ≤ 2 * b ∨ b :: b :: b :: b :: b :: b :: b :: b :: b :: b :: b :: b :: b
        :: b :: b :: b :: runsFrom b false 0 (tailBits cs) = []) := by
      rintro (h | h)
      · change 1152 ≤ 2 * b at h
        omega
      · cases h
    rw [runsOf_waveOf]
    unfold listen
    rw [if_pos break_, if_neg delimiter, show 0 + 14 * b + 2 * b = 16 * b by omega]
  · obtain ⟨d, r, hd⟩ := runsFrom_cons b (cs.map charBits).flatten true b
    have he : runsFrom b false 0 (tailBits cs) = b :: d :: r := by
      unfold tailBits
      simp [runsFrom, hd]
    rw [he]
    iterate 8 rw [tuneFrom_step _ _ _ _ _ (by omega) (by omega) (by omega)]
    rw [tuneFrom_ninth _ _ _ _ (by omega)]
    congr 1
    omega

/-- A TUNE span is accepted from 1,336 to 1,735 counts (R5). -/
theorem estimateOk_iff (span : Nat) : estimateOk (tuneEstimate span) = true ↔ 1336 ≤ span ∧ span ≤ 1735 := by
  unfold estimateOk tuneEstimate
  simp only [Bool.and_eq_true, decide_eq_true_eq]
  omega

/-- A frame that shows a BREAK and is sent at a bit time outside 84..108 counts is TUNE_ERR (R5). -/
theorem listen_off_rate (asleep : Bool) {b : Nat} (h1 : 76 ≤ b) (h2 : b ≤ 575) (hb : b ≤ 83 ∨ 109 ≤ b)
    (cs : List Byte) : (listen asleep 0 (runsOf b (waveOf cs))).fin = .error .tune := by
  obtain ⟨line, hl, ht⟩ := listen_tunes asleep h1 h2 cs
  rw [hl]
  unfold hearTune
  rw [ht]
  dsimp only
  rw [if_neg (by rw [estimateOk_iff]; omega)]

theorem headOrigin_eq_63 (head : Byte) : headOrigin head = 63 ↔ head.toNat % 64 = 63 := by
  rw [← BitVec.toNat_inj]
  unfold headOrigin
  rw [BitVec.toNat_setWidth]
  rfl

section Sent
variable {b : Nat} {head kl : Byte} {rest : List Byte} (h1 : 84 ≤ b) (h2 : b ≤ 108)

/-- A frame as it stands on the line from its BREAK on, sent at `b` counts a bit (R2). -/
def sentFrame (b : Nat) (chars : List Byte) : RxFrame := { runs := runsOf b (waveOf chars) }

include h1 h2

/-- A frame sent at an accepted bit time is judged by its characters (R4 to R6). -/
theorem sentFrame_heard (cs : List Byte) : ∃ read,
    read = hearChars false (runsFrom b false 0 (tailBits cs)) (Reception.tuned (16 * b) (16 * b))
      ∧ (sentFrame b cs).heard =
        { fin := read.2.1, rx := some read.1, start := 0, edge := some (16 * b), stop := 16 * b + 16 * b + (read.2.2 + 1) / 2 } :=
  ⟨_, rfl, listen_waveOf false b h1 h2 cs⟩

/-- HEAD is heard as sent (R6, R7). -/
theorem hear_head (p : Bool) (cs : List Byte) (h : cs[0]? = some head) :
    ∃ r, (Reception.tuned (16 * b) (16 * b)).hear p (runsFrom b false 0 (tailBits cs)) = .good r
      ∧ Standing b r 1 ∧ r.chars = [head] ∧ (p = false → r.sum = addAround 0 head) := by
  obtain ⟨e, st⟩ := Reception.hear_wave b (by omega) cs 0 head h _ (Reception.tuned_stands b (16 * b)) p
  refine ⟨_, e, st, ?_, fun hp => ?_⟩
  · unfold Reception.take
    split <;> rfl
  · subst hp
    rfl

/-- KIND_LEN is heard as sent, and LEN taken from it (R6, R7). -/
theorem hear_kindLen (cs : List Byte) {r : Reception} (st : Standing b r 1) (h : cs[1]? = some kl) :
    ∃ r', r.hear false (runsFrom b false 0 (tailBits cs)) = .good r' ∧ Standing b r' 2
      ∧ r'.chars = r.chars ++ [kl] ∧ r'.sum = addAround r.sum kl ∧ r'.len = some (kl.toNat % 16) := by
  obtain ⟨e, st'⟩ := Reception.hear_wave b (by omega) cs 1 kl h r st false
  refine ⟨_, e, st', rfl, rfl, ?_⟩
  simp [Reception.take, st.len]

/-- HEAD origin 63 ends the reception while awake (R7). -/
theorem sentFrame_wakeHead (h : head.toNat % 64 = 63) : (sentFrame b (head :: kl :: rest)).heard.fin = .wakeHead := by
  obtain ⟨read, hr, hh⟩ := sentFrame_heard h1 h2 (head :: kl :: rest)
  obtain ⟨r, e, -, hc, -⟩ := hear_head h1 h2 false (head :: kl :: rest) rfl
  rw [hh, hr]
  dsimp only
  unfold hearChars
  rw [e]
  dsimp only
  rw [if_neg nofun, if_pos (by rw [hc]; exact (headOrigin_eq_63 head).mpr h)]

/-- A LEN of 13 or more ends the reception in error (R7). -/
theorem sentFrame_formLen (h : head.toNat % 64 ≠ 63) (hl : 13 ≤ kl.toNat % 16) :
    (sentFrame b (head :: kl :: rest)).heard.fin = .error .formLen := by
  obtain ⟨read, hr, hh⟩ := sentFrame_heard h1 h2 (head :: kl :: rest)
  obtain ⟨r, e, st, hc, -⟩ := hear_head h1 h2 false (head :: kl :: rest) rfl
  obtain ⟨r', e', -, -, -, hlen⟩ := hear_kindLen h1 h2 (head :: kl :: rest) st rfl
  rw [hh, hr]
  dsimp only
  unfold hearChars
  rw [e]
  dsimp only
  rw [if_neg nofun, if_neg (by rw [hc]; exact fun k => h ((headOrigin_eq_63 head).mp k)), e']
  dsimp only
  rw [if_pos (by rw [hlen]; exact hl)]

/-- Any other frame is heard whole: its characters, their sum, the estimate, and in time (R6, R7, R8, R14). -/
theorem sentFrame_whole (h : head.toNat % 64 ≠ 63) (hl : kl.toNat % 16 ≤ 12) (hn : rest.length = kl.toNat % 16 + 1) :
    ∃ r stop, (sentFrame b (head :: kl :: rest)).heard =
        { fin := .whole, rx := some r, start := 0, edge := some (16 * b), stop := 16 * b + stop }
      ∧ r.chars = head :: kl :: rest ∧ r.sum = (head :: kl :: rest).foldl addAround 0 ∧ r.estimate = b
      ∧ stop ≤ 18090 := by
  obtain ⟨read, hr, hh⟩ := sentFrame_heard h1 h2 (head :: kl :: rest)
  obtain ⟨r, e, st, hc, hsum⟩ := hear_head h1 h2 false (head :: kl :: rest) rfl
  obtain ⟨r', e', st', hc', hsum', hlen⟩ := hear_kindLen h1 h2 (head :: kl :: rest) st rfl
  obtain ⟨w, ew, stw, hcw, hsumw, -⟩ := Reception.hearMany_wave b (by omega) (head :: kl :: rest) false
    (kl.toNat % 16 + 1) 2 r' st' (by simp only [List.length_cons]; omega)
  have hrest : ((head :: kl :: rest).drop 2).take (kl.toNat % 16 + 1) = rest := by
    rw [← hn]
    exact List.take_length
  have until_ : w.heardUntil ≤ 303 * 108 := by
    unfold Reception.heardUntil
    rw [stw.est, stw.anc.resolve_left (by omega), ← Nat.add_mul]
    exact Nat.mul_le_mul (by omega) h2
  have hread : read = (w, .whole, w.heardUntil) := by
    rw [hr]
    unfold hearChars
    rw [e]
    dsimp only
    rw [if_neg nofun, if_neg (by rw [hc]; exact fun k => h ((headOrigin_eq_63 head).mp k)), e']
    dsimp only
    rw [if_neg (by rw [hlen]; exact Nat.not_le.mpr (by show kl.toNat % 16 < 13; omega)), hlen]
    unfold hearRest
    rw [show ((some (kl.toNat % 16)).getD 0 + 1) = kl.toNat % 16 + 1 from rfl, ew]
  refine ⟨w, 16 * b + (w.heardUntil + 1) / 2, ?_, ?_, ?_, stw.est, by omega⟩
  · rw [hh, hread, Nat.add_assoc]
  · rw [hcw, hrest, hc', hc]
    rfl
  · rw [hsumw rfl, hrest, hsum', hsum rfl]
    rfl

end Sent

/-! ### The judgement (R8, R12, R15) -/

theorem judgeFrame_of_wakeHead {f : RxFrame} (h : f.heard.fin = .wakeHead) (k : Nat) : judgeFrame k f = .dropped := by
  unfold judgeFrame verdictOn
  rw [if_neg (by rw [h]; exact fun e => absurd e.1 nofun), h]

theorem verdictOn_of_wakeHead {f : RxFrame} (h : f.heard.fin = .wakeHead) : verdictOn f = .dropped := by
  unfold verdictOn
  rw [h]

theorem judgeFrame_of_error {f : RxFrame} {e : RxError} (h : f.heard.fin = .error e) (k : Nat) :
    judgeFrame k f = .error := by
  unfold judgeFrame verdictOn
  rw [if_neg (by rw [h]; exact fun e => absurd e.1 nofun), h]

theorem judgeFrame_of_whole {f : RxFrame} (h : f.heard.fin = .whole) :
    judgeFrame f.kind f = judgeForm f.head f.kind f.len f.heard.sum := by
  unfold judgeFrame verdictOn
  rw [if_neg (fun e => e.2 rfl), h]

/-- Under the command of another kind than the frame's nothing is heard (log entry 5). -/
theorem judgeFrame_of_other {f : RxFrame} (h : f.heard.fin = .whole) {k : Nat} (hk : k ≠ f.kind) :
    judgeFrame k f = .other := if_pos ⟨h, hk.symm⟩

theorem judgeForm_unsound {head : Byte} {kind len : Nat} {sum : Byte} (h : sum ≠ 0xFF) :
    judgeForm head kind len sum = .error := if_pos h

theorem judgeForm_foreign {head : Byte} {kind len : Nat} (h : formOf kind = none) :
    judgeForm head kind len 0xFF = .dropped := by
  simp [judgeForm, h]

theorem judgeForm_known {head : Byte} {kind len : Nat} {form : Nat × Nat} (h : formOf kind = some form) :
    judgeForm head kind len 0xFF = if headClass head = form.1 ∧ len = form.2 then .good else .error := by
  simp [judgeForm, h]

/-- What the receiver reads of a sent frame that it hears whole, and how it judges it by its sum (R6 to R8). -/
theorem sentFrame_reads {b : Nat} {head kl : Byte} {rest : List Byte} (h1 : 84 ≤ b) (h2 : b ≤ 108)
    (h : head.toNat % 64 ≠ 63) (hl : kl.toNat % 16 ≤ 12) (hn : rest.length = kl.toNat % 16 + 1) :
    let f := sentFrame b (head :: kl :: rest)
    f.heard.fin = .whole ∧ f.heard.chars = head :: kl :: rest ∧ f.head = head ∧ f.kind = kl.toNat / 16
      ∧ f.len = kl.toNat % 16 ∧ f.body = rest.take (kl.toNat % 16) ∧ f.edgeAge ≤ 2000
      ∧ f.heard.rx.map Reception.estimate = some b
      ∧ f.heard.sum = (head :: kl :: rest).foldl addAround 0 := by
  intro f
  obtain ⟨r, stop, hh, hc, hs, he, hst⟩ := sentFrame_whole h1 h2 h hl hn
  have hh : f.heard = _ := hh
  have chars : f.heard.chars = head :: kl :: rest := by rw [hh]; exact hc
  have len : f.len = kl.toNat % 16 := by unfold RxFrame.len; rw [chars]; rfl
  refine ⟨by rw [hh], chars, ?_, ?_, len, ?_, ?_, ?_, ?_⟩
  · unfold RxFrame.head
    rw [chars]
    rfl
  · unfold RxFrame.kind
    rw [chars]
    rfl
  · unfold RxFrame.body
    rw [len, chars]
    rfl
  · unfold RxFrame.edgeAge Heard.age
    rw [hh]
    show (16 * b + stop - 16 * b + 11) / 12 ≤ 2000
    omega
  · rw [hh]
    exact congrArg some he
  · rw [hh]
    exact hs

theorem headOf_toNat {cls : Nat} (h : cls ≤ 3) (origin : Origin) : (headOf cls origin).toNat = cls * 64 + origin.toNat := by
  have ho : origin.toNat < 64 := origin.isLt
  unfold headOf
  rw [BitVec.toNat_ofNat]
  omega

theorem headOrigin_headOf {cls : Nat} (h : cls ≤ 3) (origin : Origin) : headOrigin (headOf cls origin) = origin := by
  have ho : origin.toNat < 64 := origin.isLt
  rw [← BitVec.toNat_inj]
  unfold headOrigin
  rw [BitVec.toNat_setWidth, headOf_toNat h]
  omega

/-- A kind's class is 0 to 3, its body at most 12 bytes and its code at most 9 (R15). -/
theorem txForm_bounds {k : TxKind} {len : Nat} (h : formOf k.code = some (k.cls, len)) :
    k.cls ≤ 3 ∧ len ≤ 12 ∧ k.code ≤ 9 := by
  cases k <;> (obtain rfl := (Prod.mk.inj (Option.some.inj h)).2; decide)

/-- Settles O22: CHECK closes the sum, and class and LEN are the kind's own. -/
theorem sentFramesAreGood : Obligations.SentFramesAreGood := by
  intro k origin body b ho hform h1 h2 f
  obtain ⟨hcls, hlen, hcode⟩ := txForm_bounds hform
  have horig : origin.toNat < 64 := origin.isLt
  have hhead := headOf_toNat hcls origin
  have hne : (headOf k.cls origin).toNat % 64 ≠ 63 := by
    rw [hhead]
    intro e
    exact ho (BitVec.eq_of_toNat_eq (by show origin.toNat = 63; omega))
  have hkl : (kindLen k.code body.length).toNat = k.code * 16 + body.length := by
    unfold kindLen
    rw [BitVec.toNat_ofNat]
    omega
  have hl : (kindLen k.code body.length).toNat % 16 = body.length := by omega
  have hf : f = sentFrame b (headOf k.cls origin :: kindLen k.code body.length
      :: (body ++ [checkOf (headOf k.cls origin :: kindLen k.code body.length :: body)])) := rfl
  obtain ⟨hfin, hchars, hh, hkind, hlen', hbody, -, -, hsum⟩ :=
    sentFrame_reads h1 h2 (head := headOf k.cls origin) (kl := kindLen k.code body.length) (rest := body ++ [checkOf (headOf k.cls origin :: kindLen k.code body.length :: body)])
      hne (by omega) (by rw [List.length_append, hl]; rfl)
  rw [← hf] at hfin hchars hh hkind hlen' hbody hsum
  have hk : f.kind = k.code := by omega
  have hclosed : f.heard.sum = 0xFF := hsum.trans (foldl_addAround_check (_ :: _ :: body))
  refine ⟨hchars, ?_, by rw [hh]; exact headOrigin_headOf hcls origin, ?_⟩
  · rw [← hk, judgeFrame_of_whole hfin, hclosed, judgeForm_known (by rw [hk]; exact hform), hh, hlen', hl]
    exact if_pos ⟨by unfold headClass; omega, rfl⟩
  · rw [hbody, hl, List.take_left]

/-! ### What a station makes of a line -/

/-- The reception's start and first TUNE edge do not depend on how TUNE and the characters go. -/
theorem hearTune_start_edge (asleep : Bool) (start edge : Nat) (line : List Nat) :
    (hearTune asleep start edge line).start = start ∧ (hearTune asleep start edge line).edge = some edge := by
  unfold hearTune
  split
  · exact ⟨rfl, rfl⟩
  · exact ⟨rfl, rfl⟩
  · dsimp only
    split <;> exact ⟨rfl, rfl⟩

theorem isBreak_iff (d : Nat) : isBreak d = true ↔ 1056 ≤ d ∧ d ≤ 24000 := by
  unfold isBreak
  simp only [Bool.and_eq_true, decide_eq_true_eq]
  rfl

/-- The first of several runs is passed over, is a BREAK with no TUNE, or is a BREAK whose first TUNE edge follows (R4). -/
theorem listen_run (asleep : Bool) (t d r : Nat) {rest : List Nat} (hr : rest ≠ []) :
    listen asleep t (d :: r :: rest) = if 1056 ≤ d ∧ d ≤ 24000 then
      if 1152 ≤ r then noTuneAfter t (t + d) else hearTune asleep t (t + d + r) rest
    else listen asleep (t + d + r) rest := by
  conv_lhs => unfold listen
  simp only [isBreak_iff, hr, or_false]
  rfl

theorem receiving_iff (s : State) :
    receiving s = true ↔ s.line.state = .active ∨ s.line.state = .quiet ∨ s.line.state = .stuck := by
  simp [receiving, or_assoc]

theorem sinceActive_iff (n : Nat) (s : State) : sinceActive n s = true ↔ n ≤ 12 * (s.ref.micros - s.line.since) := by
  unfold sinceActive
  exact decide_eq_true_iff

theorem hears_iff (f : RxFrame) (s : State) : hears f s = true ↔
    (s.line.state = .active ∨ s.line.state = .quiet ∨ s.line.state = .stuck) ∧ s.line.driving = []
      ∧ f.heard.stop - f.heard.start ≤ 12 * (s.ref.micros - s.line.since) := by
  unfold hears follows
  simp only [Bool.and_eq_true, receiving_iff, List.isEmpty_iff, sinceActive_iff]
  rfl

/-- What hearing a line leaves of the capture and of the reception record (R5, R60). -/
theorem heard_moves (h : Heard) (s : State) :
    (heard h s).dclk.capture = (if h.edge = none then s.dclk.capture else s.dclk.now.subMicros h.age)
      ∧ (heard h s).line.rx =
        { Reception.fresh ((h.rx.map Reception.estimate).getD s.line.rx.estimate) with
          phase := (heard h s).line.rx.phase } := by
  cases he : h.edge with
  | none => cases hr : h.rx <;> simp [heard, endReception, he, hr, Reception.fresh]
  | some e => cases hr : h.rx <;> simp [heard, endReception, he, hr, Reception.fresh, captureEdge]

/-- The kinds' forms as R15 lists them. -/
theorem formOf_known {kind : Nat} (h1 : 1 ≤ kind) (h9 : kind ≤ 9) : ∃ form, formOf kind = some form
    ∧ ∀ cls len, (kind, cls, len) ∈ [(1, 1, 6), (2, 1, 6), (3, 1, 6), (4, 0, 1), (5, 0, 1), (6, 2, 4), (7, 1, 2),
      (8, 3, 12), (9, 0, 2)] ↔ cls = form.1 ∧ len = form.2 := by
  interval_cases kind <;> exact ⟨_, rfl, fun cls len => by simp⟩

theorem formOf_foreign {kind : Nat} (h : kind = 0 ∨ 10 ≤ kind) : formOf kind = none := by
  unfold formOf
  split
  case h_10 => rfl
  all_goals omega

/-- Settles O20. -/
theorem receiverHears : Obligations.ReceiverHears := by
  refine ⟨fun asleep t d r rest hr => ?run, estimateOk_iff, fun b chars k h1 h2 hb => ?rate,
    fun b head kl rest h1 h2 => ?frame, fun f s => ⟨hears_iff f s, ?hearing⟩⟩
  case run =>
    intro h
    have e : h = _ := listen_run asleep t d r hr
    refine ⟨fun hd => ?_, fun hd hd' hr' => ?_, fun hd hd' hr' => ?_⟩
    · rw [e, if_neg (by omega)]
    · rw [e, if_pos ⟨hd, hd'⟩, if_pos hr']
      exact ⟨rfl, rfl, rfl⟩
    · rw [e, if_pos ⟨hd, hd'⟩, if_neg (by omega)]
      exact hearTune_start_edge _ _ _ _
  case rate => exact judgeFrame_of_error (listen_off_rate false h1 h2 hb chars) k
  case frame =>
    intro f kind len total sound fits
    refine ⟨fun h63 => ?_, fun h63 hl k => ?_, fun h63 hl hn => ?_⟩
    · have e := sentFrame_wakeHead (kl := kl) (rest := rest) h1 h2 h63
      exact ⟨e, judgeFrame_of_wakeHead e⟩
    · exact judgeFrame_of_error (sentFrame_formLen h1 h2 h63 hl) k
    · obtain ⟨hfin, hchars, hhead, hkind, hlen, hbody, hage, hest, hsum⟩ := sentFrame_reads h1 h2 h63 hl hn
      have hsound : f.heard.sum = 0xFF ↔ sound := by
        have e : ((head :: kl :: rest).map BitVec.toNat).sum = total := by
          simp only [List.map_cons, List.sum_cons, total]
          omega
        have closes := foldl_addAround_closes (head :: kl :: rest)
        rw [e, ← hsum] at closes
        exact closes
      have hjudge : judgeFrame kind f = judgeForm head kind len f.heard.sum := by
        have := judgeFrame_of_whole hfin
        rwa [hkind, hhead, hlen] at this
      refine ⟨hchars, hhead, hbody, hage, hest, fun hs => ?_, fun hs hk => ?_, fun hs hk1 hk9 => ?_, fun k hk => ?_⟩
      · rw [hjudge, judgeForm_unsound (fun e => hs (hsound.mp e))]
      · rw [hjudge, hsound.mpr hs, judgeForm_foreign (formOf_foreign hk)]
      · obtain ⟨form, hform, hfits⟩ := formOf_known hk1 hk9
        rw [hjudge, hsound.mpr hs, judgeForm_known hform]
        exact ⟨fun hf => if_pos ((hfits _ _).mp hf), fun hf => if_neg fun e => hf ((hfits _ _).mpr e)⟩
      · exact judgeFrame_of_other hfin (by rw [hkind]; exact hk)
  case hearing =>
    obtain ⟨hcap, hrx⟩ := heard_moves f.heard s
    have hest : (heard f.heard s).line.rx.estimate = (f.heard.rx.map Reception.estimate).getD s.line.rx.estimate := by
      rw [hrx]
      rfl
    refine ⟨heard f.heard s, rfl, ?_, hcap, hest⟩
    rw [hest, ← hrx]
    exact heard_eq f.heard s

end Sys2Proof.Machine

namespace Sys2Proof.Machine

/-! ## Frames that reach no owner (R12 to R17, R20, R23) -/

theorem openBeforeOwn_iff (n : Nat) (s : State) : openBeforeOwn n s = true ↔
    (s.line.state = .active ∨ s.line.state = .quiet ∨ s.line.state = .stuck) ∧ s.line.driving ≠ []
      ∧ n ≤ 12 * (s.ref.micros - s.line.since) ∧ 12 * s.ref.micros + 1152 ≤ s.line.rx.edgeRef - 1536 + n := by
  unfold openBeforeOwn
  simp only [Bool.and_eq_true, receiving_iff, sinceActive_iff, decide_eq_true_eq, Bool.not_eq_true', List.isEmpty_eq_false_iff, and_assoc]
  rfl

theorem follows_iff (n : Nat) (s : State) :
    follows n s = true ↔ s.line.driving = [] ∧ n ≤ 12 * (s.ref.micros - s.line.since) := by
  unfold follows
  rw [Bool.and_eq_true, List.isEmpty_iff, sinceActive_iff]

/-- A line is not taken at all: nothing of it is the station's to hear or to count (R12, R17, log entries 45 and 49). -/
def Untaken (counts : Nat) (s : State) : Prop :=
  (receiving s = false ∨ follows counts s = false) ∧ openBeforeOwn counts s = false
    ∧ (s.line.state ≠ .asleep ∨ s.line.driving ≠ [])

/-- What the station drives itself, short of another sender's open reception, is not taken. -/
theorem Untaken.of_driving {n : Nat} {s : State} (hd : s.line.driving ≠ [])
    (h : s.line.state = .asleep ∨ s.line.rx.edgeRef - 1536 + n < 12 * s.ref.micros + 1152) : Untaken n s := by
  refine ⟨.inr ?_, ?_, .inr hd⟩
  · exact Bool.eq_false_iff.mpr fun k => hd ((follows_iff n s).mp k).1
  · refine Bool.eq_false_iff.mpr fun k => ?_
    obtain ⟨hs, -, -, hn⟩ := (openBeforeOwn_iff n s).mp k
    rcases h with h | h
    · rw [h] at hs
      simp at hs
    · omega

/-- In OFF nothing is taken (R17). -/
theorem Untaken.of_off {n : Nat} {s : State} (h : s.line.state = .off) : Untaken n s := by
  refine ⟨.inl ?_, ?_, .inl (by rw [h]; nofun)⟩
  · exact Bool.eq_false_iff.mpr fun k => by simp [receiving_iff, h] at k
  · exact Bool.eq_false_iff.mpr fun k => by simp [openBeforeOwn_iff, h] at k

/-- What began before the line last became ACTIVE is not taken (R17, log entry 45). -/
theorem Untaken.of_before {n : Nat} {s : State} (ha : s.line.state ≠ .asleep)
    (h : 12 * (s.ref.micros - s.line.since) < n) : Untaken n s := by
  refine ⟨.inr ?_, ?_, .inl ha⟩
  · exact Bool.eq_false_iff.mpr fun k => absurd ((follows_iff n s).mp k).2 (by omega)
  · exact Bool.eq_false_iff.mpr fun k => absurd ((openBeforeOwn_iff n s).mp k).2.2.1 (by omega)

theorem Untaken.hears {f : RxFrame} {s : State} (h : Untaken f.heard.counts s) : hears f s = false := by
  unfold Machine.hears
  rcases h.1 with k | k <;> simp [k]

theorem sleepHears_of_not_asleep {s : State} (h : s.line.state ≠ .asleep) (f : RxFrame) : sleepHears f s = s :=
  if_neg (by simp [h])

theorem sleepHears_of_driving {s : State} (h : s.line.driving ≠ []) (f : RxFrame) : sleepHears f s = s :=
  if_neg fun k => h ((follows_iff _ s).mp (Bool.and_eq_true_iff.mp k).2).1

theorem Untaken.notHeard {f : RxFrame} {s : State} (h : Untaken f.heard.counts s) : notHeard f s = s := by
  unfold Machine.notHeard
  rw [h.2.1]
  rcases h.2.2 with k | k
  · exact sleepHears_of_not_asleep k f
  · exact sleepHears_of_driving k f

theorem Untaken.receiveTimeout {s : State} (h : Untaken 25056 s) : exec .receiveTimeout s = .next s := by
  show execReceiveTimeout s = _
  have open_ : openBeforeOwn timeoutCounts s = false := h.2.1
  unfold execReceiveTimeout
  rw [open_]
  by_cases hf : follows timeoutCounts s = true
  · have hd := ((follows_iff _ s).mp hf).1
    have hr : receiving s = false := h.1.resolve_right fun k => absurd (hf.symm.trans k) nofun
    rw [if_pos hf, hr, if_neg nofun, if_neg (h.2.2.resolve_right fun k => k hd)]
  · rw [if_neg hf]
    rfl

/-- The commands that carry a frame, FRAME_ERROR among them. -/
def CarriesFrame (c : Instr) (f : RxFrame) : Prop :=
  c = .frameError f ∨ c = .receiveTime f ∨ c = .receiveCue f ∨ c = .receiveHush f
    ∨ c = .receiveAnnounce f ∨ c = .receiveStopReq f ∨ c = .receiveDoor f ∨ c = .receiveScene f
    ∨ c = .receiveStatus f ∨ c = .receivePark f ∨ ∃ k, c = .foreignFrame k f

theorem receiveFrame_of_not_heard {f : RxFrame} {s : State} (h : hears f s = false) (k : Nat) (ok : Bool)
    (owner : State → State) : receiveFrame k f ok owner s = notHeard f s := if_neg (by simp [h])

/-- A command whose frame is not heard is what `notHeard` makes of its line, and the reader that rests stays. -/
theorem exec_of_not_heard {c : Instr} {f : RxFrame} {s : State} (hc : CarriesFrame c f) (hr : ReaderRests s)
    (h : hears f s = false) (hn : notHeard f s = s) : exec c s = .next s := by
  have frame : ∀ k ok owner, receiveFrame k f ok owner s = s := fun k ok owner =>
    (receiveFrame_of_not_heard h k ok owner).trans hn
  have served : ∀ k ok owner, serve (receiveFrame k f ok owner s) = s := fun k ok owner => by
    rw [frame, serve_of_rest hr]
  rcases hc with rfl | rfl | rfl | rfl | rfl | rfl | rfl | rfl | rfl | rfl | ⟨k, rfl⟩
  · show execFrameError f s = _
    unfold execFrameError
    rw [h, hn]
    rfl
  · exact congrArg _ (served 1 _ _)
  · exact congrArg _ (served 2 _ _)
  · exact congrArg _ (served 7 _ _)
  · exact congrArg _ (served 3 _ _)
  · exact congrArg _ (served 4 _ _)
  · exact congrArg _ (frame 5 _ _)
  · exact congrArg _ (frame 6 _ _)
  · exact congrArg _ (frame 8 _ _)
  · exact congrArg _ (frame 9 _ _)
  · exact congrArg _ (frame (foreignCode k) _ _)

theorem Untaken.exec {c : Instr} {f : RxFrame} {s : State} (hr : ReaderRests s) (hc : c = .receiveTimeout ∨ CarriesFrame c f)
    (h : Untaken (if c = .receiveTimeout then 25056 else f.heard.stop - f.heard.start) s) :
    Machine.exec c s = .next s := by
  rcases hc with rfl | hc
  · exact Untaken.receiveTimeout h
  · have ne : c ≠ .receiveTimeout := by
      rintro rfl
      rcases hc with e | e | e | e | e | e | e | e | e | e | ⟨k, e⟩ <;> cases e
    rw [if_neg ne] at h
    exact exec_of_not_heard hc hr (Untaken.hears h) (Untaken.notHeard h)

/-- Counting an error after a reception ends (R12). -/
theorem countRxError_heard (h : Heard) (s : State) :
    countRxError (heard h s) = { heard h s with line.rxErrors := min 255 (s.line.rxErrors + 1) } := by
  rw [heard_eq]
  rfl

/-- A frame in error under its kind's command is counted, and the reader that rests takes nothing up (R12). -/
theorem serve_receiveFrame_error {f : RxFrame} {s : State} (hr : ReaderRests s) (hh : hears f s = true) {k : Nat}
    (hj : judgeFrame k f = .error) (ok : Bool) (owner : State → State) : serve (receiveFrame k f ok owner s) =
      { heard f.heard s with line.rxErrors := min 255 (s.line.rxErrors + 1) } := by
  rw [receiveFrame_error k f ok owner s hh hj]
  exact serve_of_rest (hr.of_csr (heard_csr f.heard s))

theorem receiveFrame_dropped {f : RxFrame} {s : State} (hh : hears f s = true) {k : Nat}
    (hj : judgeFrame k f = .dropped) (ok : Bool) (owner : State → State) :
    receiveFrame k f ok owner s = heard f.heard s := by
  simp only [receiveFrame, hh, if_true, hj]

theorem not_hears_of_driving {s : State} (h : s.line.driving ≠ []) (f : RxFrame) : hears f s = false :=
  Bool.eq_false_iff.mpr fun k => h ((hears_iff f s).mp k).2.1

theorem noteClash_of_other {head : Byte} {s : State} (h : headOrigin head ≠ s.stc.origin ∨ receiveOnly s = true) :
    noteClash head s = s := by
  refine if_neg fun k => ?_
  rcases h with h | h
  · exact h k.1
  · exact k.2 h

theorem noteClash_of_own {head : Byte} {s : State} (h : headOrigin head = s.stc.origin) (k : receiveOnly s = false) :
    noteClash head s = { s with line.clash := true } := if_pos ⟨h, by simp [k]⟩

theorem receiveOnly_heard (h : Heard) (s : State) : receiveOnly (heard h s) = receiveOnly s := by
  unfold receiveOnly
  rw [heard_stc]

/-- Settles O21. -/
theorem framesNotTaken : Obligations.FramesNotTaken := by
  refine ⟨fun s hd hn => ⟨fun hs => ?_, fun hs => ?_⟩, fun f s => ⟨fun hh hv => ?_, fun hh hw => ?_, fun hs => ?_⟩,
    fun c f s hr hc => ?untaken, fun f s hd hs => ?underOwn, fun f s hh hr => ?errors, fun f s hh => ?dropped⟩
  · have hf : follows timeoutCounts s = true := (follows_iff _ s).mpr ⟨hd, hn⟩
    show execReceiveTimeout s = _
    unfold execReceiveTimeout
    rw [if_pos hf, if_pos ((receiving_iff s).mpr hs)]
    rfl
  · have hf : follows timeoutCounts s = true := (follows_iff _ s).mpr ⟨hd, hn⟩
    show execReceiveTimeout s = _
    unfold execReceiveTimeout
    rw [if_pos hf, if_neg (by simp [receiving_iff, hs]), if_pos hs]
  · show execFrameError f s = _
    unfold execFrameError
    rw [if_pos hh, hv]
    exact congrArg _ (countRxError_heard f.heard s)
  · show execFrameError f s = _
    unfold execFrameError
    rw [if_pos hh, verdictOn_of_wakeHead hw]
    exact if_pos hw
  · have hh : ¬ hears f s = true := fun k => by simp [hears_iff, hs] at k
    have ho : openBeforeOwn f.heard.counts s = false := Bool.eq_false_iff.mpr fun k => by
      simp [openBeforeOwn_iff, hs] at k
    refine ⟨sleepHears f s, ?_, ?_⟩
    · show execFrameError f s = _
      unfold execFrameError notHeard
      rw [if_neg hh, ho]
      rfl
    · unfold sleepHears
      split <;> rfl
  case untaken =>
    intro counts
    refine ⟨fun hd h => ?_, fun ho => ?_, fun ha hne hb => ?_⟩
    · exact Untaken.exec hr hc (.of_driving hd h)
    · exact Untaken.exec hr hc (.of_off ho)
    · refine Untaken.exec hr hc (.of_before ha ?_)
      rw [if_neg hne]
      exact hb
  case underOwn =>
    intro foreign
    refine ⟨fun ⟨h1, h2⟩ hv => ?_, fun ⟨h1, h2⟩ => ?_⟩
    · have ho : openBeforeOwn f.heard.counts s = true := (openBeforeOwn_iff _ s).mpr ⟨hs, hd, h2, h1⟩
      show execFrameError f s = _
      unfold execFrameError
      rw [not_hears_of_driving hd f, if_neg nofun, notHeard_driving f s hd, ho, hv]
      show Host.Outcome.next (endUnderOwn (f.heard.edge.map fun _ => f.heard.age) s) = _
      cases he : f.heard.edge <;> rfl
    · have ho : openBeforeOwn timeoutCounts s = true := (openBeforeOwn_iff _ s).mpr ⟨hs, hd, h2, h1⟩
      have hf : ¬ follows timeoutCounts s = true := fun k => hd ((follows_iff _ s).mp k).1
      show execReceiveTimeout s = _
      unfold execReceiveTimeout
      rw [if_neg hf, if_pos ho]
      rfl
  case errors =>
    intro t
    exact ⟨fun h => congrArg _ (serve_receiveFrame_error hr hh h _ _),
      fun h => congrArg _ (serve_receiveFrame_error hr hh h _ _),
      fun h => congrArg _ (serve_receiveFrame_error hr hh h _ _),
      fun h => congrArg _ (serve_receiveFrame_error hr hh h _ _),
      fun h => congrArg _ (receiveFrame_error _ f _ _ s hh h),
      fun h => congrArg _ (receiveFrame_error _ f _ _ s hh h),
      fun h => congrArg _ (serve_receiveFrame_error hr hh h _ _),
      fun h => congrArg _ (receiveFrame_error _ f _ _ s hh h),
      fun h => congrArg _ (receiveFrame_error _ f _ _ s hh h)⟩
  case dropped =>
    have status : judgeFrame 8 f = .good → exec (.receiveStatus f) s = .next (noteClash f.head (heard f.heard s)) :=
      fun h => congrArg _ (receiveFrame_good 8 f id s hh h)
    refine ⟨fun k h => congrArg _ (receiveFrame_dropped hh h _ _), fun h ho => ?_, fun h ho h0 h63 => ?_,
      fun h ho hro => ?_⟩
    · rw [status h, noteClash_of_other (.inl (by rw [heard_stc]; exact ho))]
    · rw [status h, noteClash_of_own (by rw [heard_stc]; exact ho)
        ((receiveOnly_heard _ s).trans (receiveOnly_eq_false h0 h63))]
    · rw [status h, noteClash_of_other (.inr ((receiveOnly_heard _ s).trans ((receiveOnly_iff s).mpr hro)))]

end Sys2Proof.Machine

namespace Sys2Proof.Machine

/-! ## Parking and waking (R20, R31, R175 to R179) -/

/-- Every voice stopped and every slot released (R109, R110). -/
def released (s : State) : State := forSlots releaseSlot (vaStop s)

theorem released_frame (s : State) : VoiceFrame s (released s) :=
  (vaStop_frame s).trans (forSlots_frame releaseSlot_frame _)

/-- What releasing every voice leaves (R95, R109, R110). -/
theorem released_law (s : State) : (released s).lvl = s.lvl ∧ (released s).lmp = s.lmp
    ∧ (released s).csr.hand = s.csr.hand ∧ (released s).vtab.va.play.state = .idle
    ∧ ∀ i, ((released s).vtab.slots.get i).play = (s.vtab.slots.get i).play.stop
      ∧ ((released s).vtab.slots.get i).listeners = .nobody
      ∧ ((released s).vtab.slots.get i).language = (s.vtab.slots.get i).language
      ∧ (released s).csr.tags.get i = s.csr.tags.get i + 1 ∧ (released s).csr.places.get i = none := by
  obtain ⟨hhand, hlvl, hlmp, hva, hslots⟩ := forSlots_releaseSlot (vaStop s)
  refine ⟨hlvl, hlmp, hhand, ?_, hslots⟩
  show (forSlots releaseSlot (vaStop s)).vtab.va.play.state = .idle
  rw [hva]
  rfl

/-- The state in which entry to PARKING closes the outputs and fades the lamps, block by block (R175). -/
theorem enterParking_through (s : State) : ∃ w, enterParking s = parkFade (closeAll w)
    ∧ w.stc = { s.stc with state := .parking, parkLeft := some 10000000, statusTimer := .stopped, parkedMark := true }
    ∧ w.line = { s.line with
        state := .asleep, quietLeft := none, rx := .fresh s.line.rx.estimate, wake := .none, driving := [],
        priorCapture := none }
    ∧ w.txq = { s.txq with records := [] } ∧ w.dclk = { s.dclk with timer := .stopped, firstPeriod := true }
    ∧ w.prg = .initial ∧ w.ann = .initial ∧ w.vtab = { (released s).vtab with speaker := .notWanted }
    ∧ w.csr = (released s).csr
    ∧ w.jck = { s.jck with jacks := s.jck.jacks.map Jack.hold, panels := s.jck.panels.map Panel.stopTimers }
    ∧ w.lvl = { s.lvl with wind := s.lvl.wind.cleared }
    ∧ w.lmp = { s.lmp with claims := LampUnit.initial.claims, runKind := .none, runLen := 0, wish := .none } := by
  have h := released_frame s
  obtain ⟨hlvl, hlmp, -⟩ := released_law s
  refine ⟨_, rfl, ?_⟩
  exact ⟨by rw [← h.stc]; rfl, by rw [← h.line]; rfl, by rw [← h.txq]; rfl, by rw [← h.dclk]; rfl, rfl, rfl, rfl, rfl,
    by rw [← h.jck]; rfl, by rw [← hlvl]; rfl, by rw [← hlmp]; rfl⟩

theorem distance_zero (n : Nat) : distance n (0 * 256) = n := by
  unfold distance
  split <;> omega

/-- Entry to PARKING fades every channel to 0 over 2,000 ms from the level standing (R161, R162). -/
theorem parkFade_channel (s : State) (c : Chan) : ((parkFade s).lmp.chans.get c).target = 0
    ∧ ((parkFade s).lmp.chans.get c).level = (s.lmp.chans.get c).level
    ∧ ((parkFade s).lmp.chans.get c).step = fadeStep (s.lmp.chans.get c).level 2000 := by
  have e : (parkFade s).lmp.chans.get c = (s.lmp.chans.get c).fadeTo 0 2000 := Chans.get_imap _ _ _
  rw [e, Channel.fadeTo, if_neg nofun, distance_zero]
  exact ⟨rfl, rfl, rfl⟩

theorem Jack.hold_eq (x : Jack) : x.hold = if x.state = .settling ∨ x.state = .listening
    then { x with state := .held, settle := none } else { x with settle := none } := rfl

/-- No claim stands at reset, nor in PARKING (R165). -/
theorem LampUnit.initial_claim (p : Nat) : LampUnit.initial.claims.get p = none := by
  unfold Prios.get
  split <;> rfl

/-- What entry to PARKING does in every block (R175). -/
theorem enterParking_law (s : State) : let t := enterParking s
    t.stc.state = .parking ∧ t.stc.parkLeft = some 10000000 ∧ t.stc.statusTimer = .stopped
    ∧ t.stc.parkedMark = true ∧ t.stc.failedAttempts = s.stc.failedAttempts
    ∧ t.line.state = .asleep ∧ t.line.fails = s.line.fails ∧ t.line.rxErrors = s.line.rxErrors
    ∧ t.line.lockout = s.line.lockout ∧ t.line.clash = s.line.clash ∧ t.line.quietLeft = none
    ∧ t.txq = { s.txq with records := [] }
    ∧ t.dclk = { s.dclk with timer := .stopped, firstPeriod := true }
    ∧ t.prg = { current := none, lastTaken := none, queue := [] } ∧ t.ann = .initial
    ∧ t.vtab.speaker = .notWanted ∧ t.vtab.va.play.state = .idle
    ∧ (∀ i, (t.vtab.slots.get i).play.state = .idle ∧ (t.vtab.slots.get i).listeners = .nobody
        ∧ (t.vtab.slots.get i).language = (s.vtab.slots.get i).language
        ∧ (t.vtab.slots.get i).play.underruns = (s.vtab.slots.get i).play.underruns
        ∧ t.csr.tags.get i = s.csr.tags.get i + 1 ∧ t.csr.places.get i = none)
    ∧ t.csr.hand = s.csr.hand ∧ t.csr.config = s.csr.config ∧ t.csr.image = s.csr.image
    ∧ (∀ j, t.jck.jacks.get j = (s.jck.jacks.get j).hold)
    ∧ t.jck.readAB = s.jck.readAB ∧ t.jck.readCD = s.jck.readCD
    ∧ (∀ o, t.lvl.out.get o = 0 ∧ (t.lvl.gains.get o).slot = -72 ∧ (t.lvl.gains.get o).va = -72)
    ∧ t.lvl.wind.average = s.lvl.wind.average ∧ t.lvl.wind.boost = s.lvl.wind.boost
    ∧ t.lvl.wind.count = 0 ∧ (∀ p, t.lmp.claims.get p = none) ∧ t.lmp.wish = .none
    ∧ (∀ c, (t.lmp.chans.get c).target = 0 ∧ (t.lmp.chans.get c).level = (s.lmp.chans.get c).level
        ∧ (t.lmp.chans.get c).step = fadeStep (s.lmp.chans.get c).level 2000) := by
  obtain ⟨w, hw, hstc, hline, htxq, hdclk, hprg, hann, hvtab, hwcsr, hjck, hlvl, hlmp⟩ := enterParking_through s
  obtain ⟨-, -, hhand, hva, hslots⟩ := released_law s
  obtain ⟨hout, kwind, kvtab, kcsr, klmp, kann, kstc, kline, ktxq, kdclk, kprg, kjck⟩ := closeAll_law w
  have hcsr := (released_frame s).csr
  have fade : ∀ c, _ := parkFade_channel (closeAll w)
  rw [hw]
  intro t
  have tstc : t.stc = _ := kstc.trans hstc
  have tline : t.line = _ := kline.trans hline
  have tvtab : t.vtab = _ := kvtab.trans hvtab
  have tcsr : t.csr = _ := kcsr.trans hwcsr
  have tjck : t.jck = _ := kjck.trans hjck
  have twind : t.lvl.wind = _ := kwind.trans (congrArg LevelChain.wind hlvl)
  have tlmp : t.lmp = { (closeAll w).lmp with chans := t.lmp.chans } := rfl
  rw [klmp, hlmp] at tlmp fade
  rw [tstc, tline, tvtab, tcsr, tjck, twind]
  refine ⟨rfl, rfl, rfl, rfl, rfl, rfl, rfl, rfl, rfl, rfl, rfl, ktxq.trans htxq, kdclk.trans hdclk, kprg.trans hprg,
    kann.trans hann, rfl, hva, fun i => ?_, hhand, by rw [hcsr], by rw [hcsr], fun j => Seats.get_map _ _ j, rfl, rfl,
    hout, rfl, rfl, rfl, fun p => ?_, by rw [tlmp], fade⟩
  · obtain ⟨hplay, hlisteners, hlanguage, htag, hplace⟩ := hslots i
    exact ⟨by rw [hplay]; rfl, hlisteners, hlanguage, by rw [hplay]; rfl, htag, hplace⟩
  · rw [tlmp]
    exact LampUnit.initial_claim p

/-- A good PARK reaches Station Control (R16, R174). -/
theorem exec_receivePark {f : RxFrame} {s : State} (hh : hears f s = true) (hj : judgeFrame 9 f = .good) :
    exec (.receivePark f) s = .next (parkHeard f.body (heardFrom f s)) :=
  congrArg _ (receiveFrame_good 9 f _ s hh hj)

/-- Settles O37: another fleet code is the `else` of `parkHeard`; the own one enters PARKING from a state that hearing
the frame moved in three fields only, and `enterParking_law` says the rest. -/
theorem receivePark : Obligations.ReceivePark := by
  intro f s hh hj
  obtain ⟨clash, rx, capture, hu⟩ : ∃ clash rx capture, heardFrom f s =
      { s with line.clash := clash, line.rx := rx, dclk.capture := capture } := ⟨_, _, _, heardFrom_eq f s⟩
  dsimp only
  rw [exec_receivePark hh hj, hu]
  refine ⟨fun hne => congrArg _ (if_neg fun k => hne k.1), fun hfleet ha => ?_⟩
  exact ⟨_, congrArg _ (if_pos ⟨hfleet, ha⟩), enterParking_law _⟩

/-- Where no capture stands before an attempt, the end of driving leaves the capture (R60). -/
theorem stopDriving_of_noPrior (bit : Nat) {s : State} (hp : s.line.priorCapture = none) :
    stopDriving bit s = { s with
      line.driving := [],
      line.rx := followedTo (s.line.wake == .sending) s.line.rx.edgeRef s.line.rx.estimate s.line.driving bit,
      line.priorCapture := none } := by
  have capture : (if ownEdgeCame bit = true then s.dclk.capture else s.line.priorCapture.getD s.dclk.capture)
      = s.dclk.capture := by
    rw [hp]
    exact ite_self _
  unfold stopDriving settleCapture
  dsimp only
  rw [capture]

/-- The three ways to a warm start make it from a state that differs in LINE's wake request, driver and receiver
alone (R20, R21, R177, R178). -/
theorem exec_wakes {c : Instr} {s : State} (hl : s.line.state = .asleep) (hp : s.line.priorCapture = none)
    (hc : (∃ w, c = .wakeMatch w ∧ wakeMatches w s.csr.fleet = true)
      ∨ (∃ failedAt, c = .wakeAttemptEnd failedAt ∧ s.line.wake = .sending)
      ∨ (c = .wakeWaitExpiry ∧ s.stc.wakeWait.isSome = true)) :
    ∃ wake driving rx, exec c s = .next (warmStart { s with
      line.wake := wake, line.driving := driving, line.rx := rx, line.priorCapture := none }) := by
  have self : s = { s with line.priorCapture := none } := by rw [← hp]
  obtain ⟨w, rfl, hw⟩ | ⟨failedAt, rfl, hw⟩ | ⟨rfl, hw⟩ := hc
  · refine ⟨s.line.wake, s.line.driving, (endReception w.heardAsleep s).line.rx, ?_⟩
    have e : exec (.wakeMatch w) s = .next (warmStart (endReception w.heardAsleep s)) :=
      (if_pos hl).trans (if_pos hw)
    rw [e]
    conv_lhs => rw [self]
    rfl
  · cases failedAt with
    | none =>
      refine ⟨.none, [], .fresh Config.nominalBit, ?_⟩
      have e : exec (.wakeAttemptEnd none) s = .next (endWake { s with line.rx := .fresh Config.nominalBit }) :=
        if_pos hw
      rw [e]
      conv_lhs => rw [self]
      rfl
    | some bit =>
      have e : exec (.wakeAttemptEnd (some bit)) s = .next (endWake (stopDriving bit s)) := if_pos hw
      rw [e, stopDriving_of_noPrior bit hp]
      exact ⟨.none, [], _, rfl⟩
  · refine ⟨s.line.wake, s.line.driving, s.line.rx, ?_⟩
    have e : exec .wakeWaitExpiry s = .next (warmStart s) := if_pos hw
    rw [e]
    conv_lhs => rw [self]

/-- A station in ASLEEP hears nine characters sent at an accepted bit time as sent where HEAD is 0x3F, and ends the
reception at any other HEAD (R20). -/
theorem sentFrame_heardAsleep {b : Nat} (h1 : 84 ≤ b) (h2 : b ≤ 108) {head : Byte} {rest : List Byte}
    (hn : rest.length = 8) :
    if head = 0x3F then (sentFrame b (head :: rest)).heardAsleep.fin = .whole
        ∧ (sentFrame b (head :: rest)).heardAsleep.chars = head :: rest
      else (sentFrame b (head :: rest)).heardAsleep.fin = .notWake := by
  obtain ⟨r, e, st, hc, -⟩ := hear_head h1 h2 true (head :: rest) rfl
  obtain ⟨w, ew, -, hcw, -⟩ := Reception.hearMany_wave b (by omega) (head :: rest) true 8 1 r st
    (by rw [List.length_cons]; omega)
  have hh : (sentFrame b (head :: rest)).heardAsleep = _ := listen_waveOf true b h1 h2 (head :: rest)
  have first : byteAt r.chars 0 = head := by rw [hc]; rfl
  have read : hearChars true (runsFrom b false 0 (tailBits (head :: rest))) (Reception.tuned (16 * b) (16 * b))
      = if head = 0x3F then (w, .whole, w.heardUntil) else (r, .notWake, r.heardUntil) := by
    unfold hearChars
    rw [e]
    dsimp only
    rw [if_pos rfl, first]
    unfold hearRest
    rw [ew]
  rw [hh, read]
  split
  · refine ⟨rfl, ?_⟩
    show w.chars = head :: rest
    rw [hcw, hc, List.drop_one, List.tail_cons, ← hn, List.take_length]
    rfl
  · rfl

/-- A pattern of nine characters matches when HEAD is 0x3F and the four copies are the fleet code (R20, R31). -/
theorem wakeMatches_sent {b : Nat} (h1 : 84 ≤ b) (h2 : b ≤ 108) {chars : List Byte} (hn : chars.length = 9)
    (fleet : Word16) : wakeMatches (sentFrame b chars) fleet = true ↔ chars = wakeChars fleet := by
  obtain ⟨head, rest, rfl⟩ := List.exists_cons_of_length_eq_add_one hn
  have heard := sentFrame_heardAsleep h1 h2 (head := head) (Nat.succ.inj hn)
  unfold wakeMatches
  rw [Bool.and_eq_true, beq_iff_eq, beq_iff_eq]
  split at heard
  · obtain ⟨hfin, hchars⟩ := heard
    rw [hfin, hchars]
    exact ⟨And.right, fun k => ⟨rfl, k⟩⟩
  · next hne =>
    rw [heard]
    exact ⟨fun k => (nomatch k.1), fun k => absurd (List.cons.inj k).1 hne⟩

/-- Settles O38: the three ways by `exec_wakes` and `warmStart_law`, the match by `wakeMatches_sent`; the rest are the
commands' other branches. -/
theorem Waking.warmStart : Obligations.WarmStart := by
  refine ⟨fun c s hs hl hf hp hc => ?ways, fun b chars fleet h1 h2 hn => wakeMatches_sent h1 h2 hn fleet,
    fun f failedAt s => ⟨fun hl hm => ?noMatch, fun hl => if_neg hl, fun hw => if_neg hw, fun hw => ?_⟩⟩
  case ways =>
    obtain ⟨wake, driving, rx, e⟩ := exec_wakes hl hp hc
    exact ⟨_, e, warmStart_law _ hs hf⟩
  case noMatch =>
    have e : exec (.wakeMatch f) s = .next (endReception f.heardAsleep s) :=
      (if_pos hl).trans (if_neg (by show ¬ wakeMatches f s.csr.fleet = true; rw [hm]; exact nofun))
    exact ⟨_, e, rfl⟩
  exact if_neg (by rw [hw]; exact nofun)

end Sys2Proof.Machine

namespace Sys2Proof.Machine

/-! ## The clip image's header and configuration block (R34, R71, R72, R173) -/

theorem field24_eq (bs : List Byte) (i : Nat) : field24 bs i =
    (byteAt bs i).toNat * 65536 + (byteAt bs (i + 1)).toNat * 256 + (byteAt bs (i + 2)).toNat := by
  unfold field24 field16
  omega

theorem headerPasses_iff (h : List Byte) : headerPasses h = true ↔
    h.take 4 = [0x56, 0x43, 0x44, 0x53] ∧ byteAt h 4 = 1 ∧ 1 ≤ field24 h 8 ∧ field16 h 14 ≤ 32768
      ∧ field24 h 11 < field24 h 8 * 256 ∧ field24 h 11 + 12 * field16 h 14 ≤ field24 h 8 * 256 := by
  simp [headerPasses, and_assoc]

theorem roleOf_eq (b : Byte) :
    roleOf b = [Role.aisle, .readAB, .readCD, .stopInd, .accent].getD b.toNat .unused := by
  unfold roleOf
  generalize b.toNat = n
  match n with
  | 0 | 1 | 2 | 3 | 4 | _ + 5 => rfl

theorem byte_ne_zero (b : Byte) : (b != 0) = decide (1 ≤ b.toNat) := by
  have h : b = 0 ↔ b.toNat = 0 := BitVec.toNat_inj.symm
  rw [Bool.eq_iff_iff, bne_iff_ne, decide_eq_true_iff, ne_eq, h]
  omega

theorem field16_lt (bs : List Byte) (i : Nat) : field16 bs i < 65536 := by
  unfold field16
  omega

theorem signedByte_eq (b : Byte) : signedByte b = if b.toNat ≤ 127 then (b.toNat : Int) else b.toNat - 256 := by
  unfold signedByte
  rw [BitVec.toInt_eq_toNat_cond]
  split <;> split <;> omega

/-- Scene `n` of a configuration copy is read from its eight bytes (R34). -/
theorem configOf_scene {bs : List Byte} {n : Nat} {e : SceneEntry} (h : (configOf bs).scenes[n]? = some e) :
    e = sceneOf bs (24 + 8 * n) := by
  simp only [configOf, List.getElem?_map, Option.map_eq_some_iff, List.getElem?_eq_some_iff, List.getElem_range] at h
  obtain ⟨m, ⟨-, rfl⟩, rfl⟩ := h
  rfl

/-- What entry to AWAKE leaves of the image and of the other blocks (R173). -/
theorem enterAwake_law (s : State) : let t := enterAwake s
    t.csr = { s.csr with places := t.csr.places, vaPlace := t.csr.vaPlace, hand := t.csr.hand,
                         tags := t.csr.tags, vaTag := t.csr.vaTag }
    ∧ t.stc.state = .awake ∧ t.line.state = .active ∧ t.stc.statusTimer = .running 2000000
    ∧ t.dclk.now = s.dclk.now ∧ t.txq.records = s.txq.records ∧ t.prg = s.prg ∧ t.jck.jacks = s.jck.jacks
    ∧ t.pending = s.pending ∧ t.lmp.claims = s.lmp.claims ∧ t.ann.latch = s.ann.latch := by
  intro t
  have h := settleUp_frame { comeUp (takeRoles s) with
    jck.panels := JackUnit.initial.panels, ann.doorFilter := .initial, ref.seatFrom := s.ref.micros } rfl
  change VoiceFrame _ t at h
  exact ⟨h.csr, by rw [h.stc]; rfl, by rw [h.line]; rfl, by rw [h.stc]; rfl, by rw [h.dclk]; rfl, by rw [h.txq]; rfl,
    h.prg, by rw [h.jck]; rfl, h.pending, by rw [h.lmp]; rfl, by rw [h.ann]; rfl⟩

theorem exec_headerReadDone {data : List Byte} {left : Nat} {s : State}
    (hh : s.csr.hand = some { what := .header, left := left }) (hl : 104 ≤ data.length) :
    exec (.headerReadDone data) s = .next (headerRead data s) := by
  show execHeaderReadDone data s = _
  unfold execHeaderReadDone
  rw [hh]
  exact if_pos hl

theorem headerRead_bad {data : List Byte} (h : headerPasses data = false) (s : State) :
    headerRead data s = scanBad (transactionGood s) := if_neg (by simp [h])

theorem headerRead_empty {data : List Byte} (h : headerPasses data = true) (hc : field16 data 14 = 0) (s : State) :
    headerRead data s = scanGood (scanOfHeader data) (transactionGood s) := by
  unfold headerRead
  rw [if_pos h, if_pos hc]

theorem headerRead_scans {data : List Byte} (h : headerPasses data = true) (hc : 1 ≤ field16 data 14) (s : State) :
    headerRead data s = nextChunk (scanOfHeader data) (transactionGood s) := by
  unfold headerRead
  rw [if_pos h, if_neg (by omega)]

/-- Settles O6: each verdict on the header by its own equation of `headerRead`, what entry to AWAKE leaves by
`enterAwake_law`; the fields of header and configuration byte by byte. -/
theorem headerReadDone : Obligations.HeaderReadDone := by
  refine ⟨fun data left s hh hl => ?reads, fun h => ?header, fun b => ?config⟩
  case reads =>
    rw [exec_headerReadDone hh hl]
    refine ⟨fun hp => ?_, fun hp hc => ?_, fun hp hc => ?_⟩
    · rw [headerRead_bad hp]
      obtain ⟨hcsr, hawake, hactive, hstatus, hrest⟩ := enterAwake_law { transactionGood s with
        csr.image := .bad, csr.fleet := 0, csr.config := .defaults, csr.dirStart := 0, csr.entryCount := 0,
        csr.first := none, csr.scan := none }
      refine ⟨_, rfl, ?_, ?_, ?_, ?_, ?_, hawake, hactive, ?_, ?_, hstatus, hrest⟩ <;> exact congrArg _ hcsr
    · rw [headerRead_empty hp hc]
      obtain ⟨hcsr, hawake, hactive, hstatus, hrest⟩ := enterAwake_law { transactionGood s with
        csr.image := .good, csr.fleet := (scanOfHeader data).fleet, csr.config := configOf (scanOfHeader data).configBytes,
        csr.dirStart := (scanOfHeader data).dirStart, csr.entryCount := (scanOfHeader data).count,
        csr.first := (scanOfHeader data).first, csr.scan := none }
      have fleet : (scanOfHeader data).fleet.toNat = field16 data 6 := Nat.mod_eq_of_lt (field16_lt data 6)
      refine ⟨_, rfl, ?_, (congrArg (·.fleet.toNat) hcsr).trans fleet, ?_, ?_, ?_, hawake, hactive, ?_, ?_, hstatus, hrest⟩
      case refine_2 => exact (congrArg ClipStore.entryCount hcsr).trans hc
      all_goals exact congrArg _ hcsr
    · rw [headerRead_scans hp hc]
      rfl
  case header =>
    intro num flash start count
    refine ⟨rfl, field24_eq h 11, rfl, ?_⟩
    have flash_eq : flash = field24 h 8 * 256 := congrArg (· * 256) (field24_eq h 8).symm
    have start_eq : start = field24 h 11 := (field24_eq h 11).symm
    have count_eq : count = field16 h 14 := rfl
    have version : byteAt h 4 = 1 ↔ num 4 = 1 := BitVec.toNat_inj.symm
    rw [headerPasses_iff, version]
    clear_value flash start count
    exact and_congr Iff.rfl (and_congr Iff.rfl (by omega))
  case config =>
    intro num role c
    refine ⟨?_, rfl, byte_ne_zero _, ?_, rfl, rfl, rfl, rfl, rfl, rfl, rfl, rfl, rfl, rfl, rfl, ?_, byte_ne_zero _, rfl,
      fun n e he => ?_⟩
    · show max 1 (min 12 (num 0)) = _
      split <;> omega
    · show max 1 (min 15 (num 3)) = _
      split <;> omega
    · simp only [c, configOf, roleOf_eq]
      rfl
    · obtain rfl := configOf_scene he
      have at_ : ∀ k, 24 + 8 * n + k = (24 + k) + 8 * n := fun k => by omega
      simp only [sceneOf, at_, clampInt, signedByte_eq]
      exact ⟨rfl, rfl, rfl⟩

end Sys2Proof.Machine

namespace Sys2Proof.Machine

/-! ## Frames that reach their owners (R16, R26 to R29) -/

/-- Hearing a frame moves the clash flag, the reception record and the capture alone, whatever they become (R5, R23,
R60). -/
theorem heardFrom_is (f : RxFrame) (s : State) : ∃ clash rx capture, heardFrom f s =
    { s with line.clash := clash, line.rx := rx, dclk.capture := capture } := ⟨_, _, _, heardFrom_eq f s⟩

theorem countRxError_heardFrom (f : RxFrame) (s : State) : countRxError (heardFrom f s) =
    { heardFrom f s with line.rxErrors := min 255 (s.line.rxErrors + 1) } := by
  obtain ⟨clash, rx, capture, hu⟩ := heardFrom_is f s
  rw [hu]
  rfl

@[simp] theorem heardFrom_lmp (f : RxFrame) (s : State) : (heardFrom f s).lmp = s.lmp := by rw [heardFrom_eq]
@[simp] theorem heardFrom_now (f : RxFrame) (s : State) : (heardFrom f s).dclk.now = s.dclk.now := by rw [heardFrom_eq]

@[simp] theorem heardFrom_csr (f : RxFrame) (s : State) : (heardFrom f s).csr = s.csr := by rw [heardFrom_eq]
@[simp] theorem heardFrom_prg (f : RxFrame) (s : State) : (heardFrom f s).prg = s.prg := by rw [heardFrom_eq]
@[simp] theorem heardFrom_vtab (f : RxFrame) (s : State) : (heardFrom f s).vtab = s.vtab := by rw [heardFrom_eq]
@[simp] theorem heardFrom_ann (f : RxFrame) (s : State) : (heardFrom f s).ann = s.ann := by rw [heardFrom_eq]
@[simp] theorem heardFrom_txq (f : RxFrame) (s : State) : (heardFrom f s).txq = s.txq := by rw [heardFrom_eq]
@[simp] theorem heardFrom_jck (f : RxFrame) (s : State) : (heardFrom f s).jck = s.jck := by rw [heardFrom_eq]
@[simp] theorem heardFrom_stc (f : RxFrame) (s : State) : (heardFrom f s).stc = s.stc := by rw [heardFrom_eq]
@[simp] theorem heardFrom_lvl (f : RxFrame) (s : State) : (heardFrom f s).lvl = s.lvl := by rw [heardFrom_eq]
@[simp] theorem heardFrom_timer (f : RxFrame) (s : State) : (heardFrom f s).dclk.timer = s.dclk.timer := by
  rw [heardFrom_eq]

section Owners
variable {f : RxFrame} {s : State} {k : Nat} (hh : hears f s = true) (hj : judgeFrame k f = .good)
include hh hj

/-- A good frame whose fields pass goes to its owner (R16). -/
theorem receiveFrame_passed {ok : Bool} (h : ok = true) (owner : State → State) :
    receiveFrame k f ok owner s = owner (heardFrom f s) := by
  rw [h]
  exact receiveFrame_good k f owner s hh hj

/-- A good frame whose fields its owner refuses is counted (R26 to R29). -/
theorem receiveFrame_counted {ok : Bool} (h : ok = false) (owner : State → State) :
    receiveFrame k f ok owner s = { heardFrom f s with line.rxErrors := min 255 (s.line.rxErrors + 1) } := by
  rw [h, receiveFrame_refused k f owner s hh hj, countRxError_heardFrom]

/-- The reader that rests rests on after a refused frame (R69). -/
theorem serve_receiveFrame_counted (hr : ReaderRests s) {ok : Bool} (h : ok = false) (owner : State → State) :
    serve (receiveFrame k f ok owner s) =
      { heardFrom f s with line.rxErrors := min 255 (s.line.rxErrors + 1) } := by
  rw [receiveFrame_counted hh hj h]
  exact serve_of_rest (hr.heardFrom.of_csr rfl)

/-- Where its owner leaves the Clip Store Reader as it was, the reader that rests rests on (R69). -/
theorem serve_receiveFrame_passed (hr : ReaderRests s) {ok : Bool} (h : ok = true) {owner : State → State} {t : State}
    (ht : owner (heardFrom f s) = t) (hc : t.csr = s.csr) : serve (receiveFrame k f ok owner s) = t := by
  rw [receiveFrame_passed hh hj h, ht]
  exact serve_of_rest (hr.of_csr hc)

end Owners

/-! ## SCENE (R28, R163, R164) -/

theorem sceneFieldsOk_eq_false {body : List Byte} (h : 8 ≤ (byteAt body 0).toNat ∨ 4 ≤ (byteAt body 1).toNat) :
    sceneFieldsOk body = false := by
  simp [sceneFieldsOk]
  omega

theorem sceneFieldsOk_eq_true {body : List Byte} (h0 : (byteAt body 0).toNat ≤ 7) (h1 : (byteAt body 1).toNat ≤ 3) :
    sceneFieldsOk body = true := by
  simp [sceneFieldsOk, h0, h1]

theorem holdTaken_of_lt {hold : Nat} (h : hold < 65535) : holdTaken hold = min hold 3599 := by
  unfold holdTaken
  split <;> omega

/-- The expiry that a SCENE's hold field gives a claim (R28, R163). -/
theorem claimExpiry_field (s : State) (body : List Byte) (i : Nat) : claimExpiry s (field16 body i) =
    if field16 body i = 65535 then none
    else some (s.dclk.now.ms + BitVec.ofNat 32 (min (field16 body i) 3599 * 1000)) := by
  unfold claimExpiry
  split
  · rfl
  · rw [holdTaken_of_lt (by have := field16_lt body i; omega)]

theorem applyScene_claim {body : List Byte} (h : 1 ≤ field16 body 2) (o : Origin) (s : State) : applyScene o body s =
    setClaims (s.lmp.claims.set (byteAt body 1).toNat (some {
      scene := (byteAt body 0).toNat, origin := o, expiry := claimExpiry s (field16 body 2) }))
      ((byteAt body 1).toNat == 0) s := if_neg (by omega)

theorem applyScene_release {body : List Byte} (h : field16 body 2 = 0) {o : Origin} {s : State} {k : Claim}
    (hk : s.lmp.claims.get (byteAt body 1).toNat = some k) (ho : k.origin = o) : applyScene o body s =
      setClaims (s.lmp.claims.set (byteAt body 1).toNat none) ((byteAt body 1).toNat == 0) s := by
  unfold applyScene
  dsimp only
  rw [if_pos h, hk]
  exact if_pos ho

/-- A release finds no claim of its own origin, and nothing leaves (R164). -/
theorem applyScene_stands {body : List Byte} (h : field16 body 2 = 0) {o : Origin} {s : State}
    (hk : s.lmp.claims.get (byteAt body 1).toNat = none
      ∨ ∃ k, s.lmp.claims.get (byteAt body 1).toNat = some k ∧ k.origin ≠ o) : applyScene o body s = s := by
  unfold applyScene
  dsimp only
  rw [if_pos h]
  rcases hk with hk | ⟨k, hk, ho⟩
  · rw [hk]
  · rw [hk]
    exact if_neg ho

/-- A change of the claims table after a frame was heard, block by block (R163 to R166). -/
theorem setClaims_heardFrom (c : Prios (Option Claim)) (b : Bool) (f : RxFrame) (s : State) :
    let t := setClaims c b (heardFrom f s)
    t.lmp.claims = c ∧ (b = false → t.txq = s.txq) ∧ (currentScene t = currentScene s → t.lmp.chans = s.lmp.chans)
    ∧ t.line = (heardFrom f s).line ∧ t.dclk = (heardFrom f s).dclk ∧ t.prg = s.prg ∧ t.vtab = s.vtab ∧ t.csr = s.csr
    ∧ t.jck = s.jck ∧ t.stc = s.stc ∧ t.lvl = s.lvl ∧ t.ann = s.ann := by
  intro t
  obtain ⟨-, -, -, -, hstc, hline, hdclk, hcsr, hprg, hvtab, hann, hjck, hlvl, hclaims, htxq, hchans⟩ :=
    setClaims_law c b (heardFrom f s)
  obtain ⟨clash, rx, capture, hu⟩ := heardFrom_is f s
  have scene : currentScene t = sceneOfClaims c := congrArg sceneOfClaims hclaims
  refine ⟨hclaims, fun h => (htxq (.inl h)).trans (by rw [hu]), fun h => (hchans ?_).trans (by rw [hu]), hline, hdclk,
    hprg.trans (by rw [hu]), hvtab.trans (by rw [hu]), hcsr.trans (by rw [hu]), hjck.trans (by rw [hu]),
    hstc.trans (by rw [hu]), hlvl.trans (by rw [hu]), hann.trans (by rw [hu])⟩
  rw [← scene, h, hu]
  rfl

/-- Settles O36: the field check decides between counting and `applyScene`, whose three ways are its equations;
`setClaims_heardFrom` says what a change of the table leaves. -/
theorem receiveScene : Obligations.ReceiveScene := by
  intro f s hh hj u prio hold claim
  have passed : (byteAt f.body 0).toNat ≤ 7 → prio ≤ 3 →
      exec (.receiveScene f) s = .next (applyScene (headOrigin f.head) f.body u) := fun h0 h1 =>
    congrArg _ (receiveFrame_passed hh hj (sceneFieldsOk_eq_true h0 h1) _)
  have claims : u.lmp = s.lmp := heardFrom_lmp f s
  have own : 1 ≤ prio → (prio == 0) = false := fun h => by simp; omega
  refine ⟨fun h => congrArg _ (receiveFrame_counted hh hj (sceneFieldsOk_eq_false h) _), fun h0 h1 hhold => ?_,
    fun h0 h1 hhold => ⟨fun hk => ?_, fun k hk ho => ?_⟩⟩
  · have now : u.dclk.now = s.dclk.now := heardFrom_now f s
    have taken : applyScene (headOrigin f.head) f.body u = setClaims (s.lmp.claims.set prio (some claim)) (prio == 0) u := by
      rw [applyScene_claim hhold, claimExpiry_field, claims, now]
    obtain ⟨hclaims, htxq, hrest⟩ := setClaims_heardFrom (s.lmp.claims.set prio (some claim)) (prio == 0) f s
    exact ⟨_, (passed h0 h1).trans (congrArg _ taken), hclaims, fun h => htxq (own h), hrest⟩
  · rw [passed h0 h1, applyScene_stands hhold (by rw [claims]; exact hk)]
  · obtain ⟨hclaims, htxq, -, hrest⟩ := setClaims_heardFrom (s.lmp.claims.set prio none) (prio == 0) f s
    refine ⟨_, (passed h0 h1).trans (congrArg _ (applyScene_release hhold (by rw [claims]; exact hk) ho)), ?_⟩
    rw [claims]
    exact ⟨hclaims, fun h => htxq (own h), hrest⟩

end Sys2Proof.Machine

namespace Sys2Proof.Machine

/-! ## The open-door table and the door switch (R27, R115, R116, R118) -/

/-- A recomputation of the targets moves the channels alone, whatever they become (R159). -/
theorem relightOverlay_is (s : State) : ∃ chans, relightOverlay s = { s with lmp.chans := chans } := by
  unfold relightOverlay relight
  split
  · exact ⟨_, rfl⟩
  · exact ⟨s.lmp.chans, rfl⟩

theorem doorsWith_known {o : Origin} {ds : List DoorEntry} (h : ∃ d ∈ ds, d.origin = o) (e : Millis) :
    doorsWith o e ds = ds.map fun d => if d.origin = o then { d with expiry := e } else d := by
  unfold doorsWith
  rw [if_pos (by simpa using h)]
  simp

theorem doorsWith_new {o : Origin} {ds : List DoorEntry} (h : ∀ d ∈ ds, d.origin ≠ o) (hl : ds.length ≤ 3) (e : Millis) :
    doorsWith o e ds = ds ++ [{ origin := o, expiry := e }] := by
  unfold doorsWith
  rw [if_neg (by simpa using h), if_pos (by omega)]

theorem doorsWith_full {o : Origin} {ds : List DoorEntry} (h : ∀ d ∈ ds, d.origin ≠ o) (hl : 4 ≤ ds.length) (e : Millis) :
    doorsWith o e ds = ds := by
  unfold doorsWith
  rw [if_neg (by simpa using h), if_neg (by omega)]

/-- DOOR open for an origin moves its entry, the latch with the own request, the own STOP_REQ and the channels (R115,
R116). -/
theorem doorReported_is (o : Origin) (s : State) : ∃ chans, doorReported o s = { s with
    ann.latch := false, ann.ownOpen := false, ann.doors := doorsWith o (s.dclk.now.ms + 20000) s.ann.doors,
    txq := s.txq.withdraw .stopReq, lmp.chans := chans } := relightOverlay_is _

/-- DOOR closed for an origin moves its entry and the channels (R116). -/
theorem doorRemoved_is (o : Origin) (s : State) : ∃ chans, doorRemoved o s = { s with
    ann.doors := s.ann.doors.filter fun d => !(d.origin == o), lmp.chans := chans } := relightOverlay_is _

theorem doorSampled_of {s : State} (ha : s.stc.state = .awake) (hc : s.csr.config.doorInput = true) :
    doorSampled s = true := by
  simp [doorSampled, isAwake, ha, hc]

theorem exec_doorSwitchOpen {s : State} (h : doorSampled s = true) : exec .doorSwitchOpen s = .next
    { enqueue .door [1] (doorReported s.stc.origin { s with ann.doorFilter := .settled true }) with
      ann.doorRefresh := some 5000000 } := if_pos h

theorem exec_doorSwitchClosed {s : State} (h : doorSampled s = true) : exec .doorSwitchClosed s = .next
    { enqueue .door [0] (doorRemoved s.stc.origin { s with ann.doorFilter := .settled false }) with
      ann.doorRefresh := none } := if_pos h

/-- Settles O31: the table by the three equations of `doorsWith`; the rest is what `doorReported_is` and
`doorRemoved_is` leave. -/
theorem doors : Obligations.Doors := by
  refine ⟨fun f s hh hj => ?received, fun s => ⟨fun ha hc => ?switch, fun h => if_pos h⟩⟩
  case received =>
    intro u o expiry
    have passed : (byteAt f.body 0).toNat ≤ 1 →
        exec (.receiveDoor f) s = .next (applyDoor o f.body u) := fun h =>
      congrArg _ (receiveFrame_passed hh hj (decide_eq_true h) _)
    obtain ⟨clash, rx, capture, hu⟩ := heardFrom_is f s
    change u = _ at hu
    refine ⟨fun h => congrArg _ (receiveFrame_counted hh hj (decide_eq_false (by omega)) _), fun h => ?_, fun h => ?_⟩
    · obtain ⟨chans, ht⟩ := doorReported_is o u
      rw [passed (by rw [h]; decide), applyDoor, if_pos h, ht, hu]
      exact ⟨_, rfl, rfl, rfl, rfl, fun hk => doorsWith_known hk _, fun hn hl => doorsWith_new hn hl _,
        fun hn hl => doorsWith_full hn hl _, rfl, rfl, rfl, rfl, rfl, rfl, rfl, rfl, rfl⟩
    · obtain ⟨chans, ht⟩ := doorRemoved_is o u
      rw [passed (by rw [h]; decide), applyDoor, if_neg (by rw [h]; decide), ht, hu]
      exact ⟨_, rfl, rfl, rfl, rfl, rfl, rfl, rfl, rfl, rfl, rfl, rfl, rfl⟩
  case switch =>
    have hs := doorSampled_of ha hc
    obtain ⟨opened, ho⟩ := doorReported_is s.stc.origin { s with ann.doorFilter := .settled true }
    obtain ⟨closed, hcl⟩ := doorRemoved_is s.stc.origin { s with ann.doorFilter := .settled false }
    rw [exec_doorSwitchOpen hs, ho, exec_doorSwitchClosed hs, hcl, (enqueue_eq _ _ _).1]
    refine ⟨⟨_, rfl, rfl, rfl, rfl, rfl, rfl, ?_, rfl, rfl, rfl, rfl, rfl, rfl, rfl, rfl, rfl⟩,
      ⟨_, rfl, ?_⟩⟩
    · rw [enqueue_txq, enqueue_txq]
    · rw [(enqueue_eq _ _ _).1]
      refine ⟨rfl, ?_, rfl, rfl, rfl, rfl, rfl, rfl, rfl, rfl, rfl⟩
      rw [enqueue_txq, enqueue_txq]

end Sys2Proof.Machine

namespace Sys2Proof.Machine

/-! ## The stop latch (R27, R112 to R114, R141) -/

theorem doorOpen_iff (s : State) : doorOpen s = true ↔ s.ann.doors ≠ [] := by
  simp [doorOpen]

theorem doorOpen_of_empty {s : State} (h : s.ann.doors = []) : doorOpen s = false := by
  simp [doorOpen, h]

/-- While a chime or a name sounds the latch rises without a tone (R114). -/
theorem raiseLatch_silent {s : State} (h : inAnnouncement s = true) : ∃ chans, raiseLatch s =
    { s with ann.latch := true, lmp.chans := chans } := by
  obtain ⟨chans, hr⟩ := relightOverlay_is { s with ann.latch := true }
  refine ⟨chans, ?_⟩
  unfold raiseLatch
  rw [hr]
  exact if_pos h

/-- Otherwise VA takes the tone from this moment (R114). -/
theorem raiseLatch_tone {s : State} (h : inAnnouncement s = false) : ∃ chans, raiseLatch s =
    vaStart .tone .tone s.dclk.now { s with ann.latch := true, lmp.chans := chans } := by
  obtain ⟨chans, hr⟩ := relightOverlay_is { s with ann.latch := true }
  refine ⟨chans, ?_⟩
  unfold raiseLatch
  rw [hr]
  exact if_neg fun k => Bool.noConfusion (h.symm.trans k)

theorem judgeStop_refused (j : Seat) {s : State} (h : s.ann.doors ≠ [] ∨ (s.ann.latch = true ∧ s.ann.ownOpen = false)) :
    judgeStop j s = s := by
  unfold judgeStop
  split
  · rfl
  · next hd =>
    obtain ⟨hl, ho⟩ := h.resolve_left fun k => hd ((doorOpen_iff s).mpr k)
    rw [if_pos hl, ho]
    rfl

theorem judgeStop_again (j : Seat) {s : State} (hd : s.ann.doors = []) (hl : s.ann.latch = true)
    (ho : s.ann.ownOpen = true) : judgeStop j s = enqueue .stopReq [seatMask j] s := by
  unfold judgeStop
  rw [doorOpen_of_empty hd, hl, ho]
  rfl

theorem judgeStop_raises (j : Seat) {s : State} (hd : s.ann.doors = []) (hl : s.ann.latch = false) : judgeStop j s =
    enqueue .stopReq [seatMask j] { raiseLatch s with ann.ownOpen := true } := by
  unfold judgeStop
  rw [doorOpen_of_empty hd, hl]
  rfl

/-- The seat's panel once a STOP press is accepted (R131, R140). -/
def stopPressed (j : Seat) (s : State) : State :=
  { s with jck.panels := s.jck.panels.set j { s.jck.panels.get j with stop := { accepted := true, run := 0 } } }

theorem exec_stopPress_awake (j : Seat) {s : State} (h : s.stc.state = .awake) :
    exec (.stopPress j) s = .next (serve (judgeStop j (stopPressed j s))) := by
  show execStopPress j s = _
  unfold execStopPress
  rw [if_pos ((filtersRun_iff s).mpr (.inl h))]
  exact if_pos (by rw [isAwake, setPanel_stc, h]; rfl)

theorem exec_stopPress_asleep (j : Seat) {s : State} (h : s.stc.state = .parking ∨ s.stc.state = .parked) :
    exec (.stopPress j) s = .next (pressWakes (stopPressed j s)) := by
  show execStopPress j s = _
  unfold execStopPress
  rw [if_pos ((filtersRun_iff s).mpr (.inr h))]
  exact if_neg (by rw [isAwake, setPanel_stc]; rcases h with h | h <;> rw [h] <;> decide)

/-- A wake request that is the first, on a station that may send (R177). -/
theorem pressWakes_parked {s : State} (hp : s.stc.state = .parked) (ho : receiveOnly s = false)
    (hw : s.stc.wakeWait = none) (hk : s.line.wake = .none) :
    pressWakes s = { s with line.wake := .held, stc.wakeWait := some 100000 } := by
  unfold pressWakes wakeRequest
  rw [if_pos hp, if_neg (by simp [ho]), if_neg (by simp [hw]), if_pos hk]
  rfl

theorem stopHeard_stands {s : State} (h : s.ann.doors ≠ [] ∨ s.ann.latch = true) :
    stopHeard s = { s with txq := s.txq.withdraw .stopReq, ann.ownOpen := false } := by
  have : (doorOpen s || s.ann.latch) = true := by simpa [doorOpen_iff] using h
  exact if_pos this

theorem stopHeard_raises {s : State} (hd : s.ann.doors = []) (hl : s.ann.latch = false) :
    stopHeard s = raiseLatch { s with txq := s.txq.withdraw .stopReq, ann.ownOpen := false } := by
  have : ¬ (doorOpen s || s.ann.latch) = true := by simp [doorOpen, hd, hl]
  exact if_neg this

/-- Any good STOP_REQ reaches the Announcement Unit (R27, R113). -/
theorem exec_receiveStopReq {f : RxFrame} {s : State} (hh : hears f s = true) (hj : judgeFrame 4 f = .good) :
    exec (.receiveStopReq f) s = .next (serve (stopHeard (heardFrom f s))) :=
  congrArg (fun t => Host.Outcome.next (serve t)) (receiveFrame_passed hh hj rfl _)

/-- Settles O30: the press by the three ways of `judgeStop`, or `pressWakes` when not AWAKE; another sender's by the
two of `stopHeard`; whether the tone sounds by `raiseLatch_tone` and `raiseLatch_silent`. -/
theorem stopRequests : Obligations.StopRequests := by
  refine ⟨fun j s hr => ?press, fun f s hh hj hr => ?heard⟩
  case press =>
    intro panel u seatBit
    have mask : seatBit = seatMask j := by cases j <;> rfl
    have hu : u = stopPressed j s := rfl
    rw [mask]
    have rest : ReaderRests u := hr.of_csr rfl
    clear_value u
    subst hu
    refine ⟨fun ha h => ?_, fun ha hd hl ho => ?_, fun ha hd hl hi hs => ?_, fun ha hd hl hi => ?_,
      fun hp h0 h63 hw hk => ?_, fun hp => ?_⟩
    · rw [exec_stopPress_awake j ha, judgeStop_refused j (s := stopPressed j s) h, serve_of_rest rest]
    · rw [exec_stopPress_awake j ha, judgeStop_again j (s := stopPressed j s) hd hl ho]
      exact congrArg _ (serve_of_rest (rest.of_csr (enqueue_csr _ _ _)))
    · obtain ⟨chans, ht⟩ := raiseLatch_tone (s := stopPressed j s) hi
      rw [exec_stopPress_awake j ha, judgeStop_raises j (s := stopPressed j s) hd hl, ht, (enqueue_eq _ _ _).1]
      refine ⟨_, congrArg _ (serve_of_hand hs), rfl, rfl, ?_, rfl, rfl, rfl, rfl, rfl, rfl, rfl, rfl, rfl, rfl, rfl, rfl, rfl⟩
      rw [enqueue_txq, enqueue_txq]
      rfl
    · obtain ⟨chans, ht⟩ := raiseLatch_silent (s := stopPressed j s) hi
      rw [exec_stopPress_awake j ha, judgeStop_raises j (s := stopPressed j s) hd hl, ht, (enqueue_eq _ _ _).1]
      refine ⟨_, congrArg _ (serve_of_rest (hr.of_csr rfl)), rfl, ?_, rfl, rfl, rfl, rfl, rfl, rfl, rfl, rfl, rfl⟩
      rw [enqueue_txq, enqueue_txq]
      rfl
    · rw [exec_stopPress_asleep j (.inr hp),
        pressWakes_parked (s := stopPressed j s) hp (receiveOnly_eq_false h0 h63) hw hk]
    · rw [exec_stopPress_asleep j (.inl hp)]
      exact congrArg _ (if_neg fun k => StationState.noConfusion (hp.symm.trans k))
  case heard =>
    intro u
    have hann : u.ann = s.ann := heardFrom_ann f s
    obtain ⟨clash, rx, capture, hu⟩ := heardFrom_is f s
    change u = _ at hu
    rw [exec_receiveStopReq hh hj]
    refine ⟨fun h => ?_, fun hd hl hs => ?_⟩
    · rw [stopHeard_stands (s := u) (by rw [hann]; exact h), hu]
      exact congrArg _ (serve_of_rest (hr.of_csr rfl))
    · rw [stopHeard_raises (s := u) (by rw [hann]; exact hd) (by rw [hann]; exact hl), hu]
      cases hi : inAnnouncement s with
      | false =>
        obtain ⟨chans, ht⟩ := raiseLatch_tone (s := { s with
          line.clash := clash, line.rx := rx, dclk.capture := capture, txq := s.txq.withdraw .stopReq,
          ann.ownOpen := false }) hi
        rw [ht]
        exact ⟨_, congrArg _ (serve_of_hand hs), rfl, rfl, rfl, fun _ => ⟨rfl, rfl, rfl⟩, nofun, rfl, rfl, rfl, rfl, rfl,
          rfl⟩
      | true =>
        obtain ⟨chans, ht⟩ := raiseLatch_silent (s := { s with
          line.clash := clash, line.rx := rx, dclk.capture := capture, txq := s.txq.withdraw .stopReq,
          ann.ownOpen := false }) hi
        rw [ht]
        exact ⟨_, congrArg _ (serve_of_hand hs), rfl, rfl, rfl, nofun, fun _ => ⟨rfl, rfl⟩, rfl, rfl, rfl, rfl, rfl, rfl⟩

end Sys2Proof.Machine

namespace Sys2Proof.Machine

/-! ## The periodic timers and the STATUS report (R30, R57, R67, R176, R180 to R183) -/

theorem Timer.ranOut_iff (t : Timer) : t.ranOut = true ↔ t = .running 0 := by
  simp [Timer.ranOut]

theorem exec_timeTimerExpiry {s : State} (h : s.dclk.timer = .running 0) : exec .timeTimerExpiry s = .next
    (let u := enqueue .time [] s
     { u with
       txq.lfsr := lfsrSteps 16 s.txq.lfsr,
       dclk.timer := .running ((1000 + (lfsrSteps 16 s.txq.lfsr).toNat % 64) * 1000) }) := by
  rw [← (enqueue_eq .time [] s).2]
  exact if_pos ((Timer.ranOut_iff _).mpr h)

/-- The marks are no matter of the queue. -/
theorem enqueue_marks (k : TxKind) (body : List Byte) (s : State) :
    enqueue k body { s with stc.parkedMark := false, stc.quietMark := false } =
      { enqueue k body s with stc.parkedMark := false, stc.quietMark := false } := by
  unfold enqueue
  split <;> rfl

theorem exec_statusTimerExpiry {s : State} (h : s.stc.statusTimer.isRunning = true) : exec .statusTimerExpiry s = .next
    (let u := enqueue .status (statusBody s) s
     { u with
       stc.parkedMark := false, stc.quietMark := false, txq.lfsr := lfsrSteps 16 s.txq.lfsr,
       stc.statusTimer := .running ((10000 + (lfsrSteps 16 s.txq.lfsr).toNat % 1024) * 1000) }) := by
  rw [← (enqueue_eq .status (statusBody s) s).2]
  show execStatusTimerExpiry s = _
  unfold execStatusTimerExpiry
  rw [if_pos h]
  dsimp only
  rw [enqueue_marks]
  rfl

/-- The number whose bits are the flags, the lowest first. -/
def ofFlags : List Bool → Nat
  | [] => 0
  | b :: bs => Nat.bit b (ofFlags bs)

theorem testBit_ofFlags (bs : List Bool) (i : Nat) : (ofFlags bs).testBit i = bs.getD i false := by
  induction bs generalizing i with
  | nil => simp [ofFlags]
  | cons b bs ih =>
    cases i with
    | zero => exact Nat.testBit_bit_zero b _
    | succ i => exact (Nat.testBit_bit_succ i b _).trans (ih i)

theorem bit_eq (b : Bool) (n : Nat) : bit b n = b.toNat * 2 ^ n := by
  cases b <;> simp [bit]

theorem statusFlags_eq (s : State) : statusFlags s = ofFlags [s.vtab.speaker == .starved, doorOpen s, s.ann.latch,
    s.line.clash, s.csr.flashFault, s.csr.image == .bad, s.stc.quietMark, s.stc.parkedMark] := by
  simp only [statusFlags, ofFlags, bit_eq, Nat.bit_val]
  omega

theorem statusSeats_eq (s : State) : statusSeats s = ofFlags [listening s.jck.jacks.a, listening s.jck.jacks.b,
    listening s.jck.jacks.c, listening s.jck.jacks.d, s.jck.readAB, s.jck.readCD] := by
  simp only [statusSeats, ofFlags, bit_eq, Nat.bit_val]
  omega

theorem statusFaults_eq (s : State) : statusFaults s = ofFlags [s.lmp.chans.ch0.fault, s.lmp.chans.ch1.fault,
    s.lmp.chans.ch2.fault, s.lmp.chans.ch3.fault, s.lmp.chans.ch4.fault, s.lmp.chans.ch5.fault] := by
  simp only [statusFaults, ofFlags, bit_eq, Nat.bit_val]
  omega

/-- A bit of a byte of flags. -/
theorem getLsbD_ofFlags (bs : List Bool) {i : Nat} (h : i < 8) :
    (BitVec.ofNat 8 (ofFlags bs)).getLsbD i = bs.getD i false := by
  rw [BitVec.getLsbD_ofNat, testBit_ofFlags, decide_eq_true h, Bool.true_and]

theorem listening_eq (x : Jack) : listening x = decide (x.state = .listening) := by
  rw [Bool.eq_iff_iff]
  simp [listening]

theorem langNibble_eq (x : Jack) : langNibble x = if x.state = .listening then x.language else 15 := by
  simp [langNibble]

theorem langNibble_le {x : Jack} (h : x.language ≤ 11) : langNibble x ≤ 15 := by
  rw [langNibble_eq]
  split <;> omega

theorem byteOf_toNat {n : Nat} (h : n ≤ 255) : (BitVec.ofNat 8 n).toNat = n := Nat.mod_eq_of_lt (by omega)

theorem nibbles_toNat {x y : Jack} (hx : x.language ≤ 11) (hy : y.language ≤ 11) :
    (BitVec.ofNat 8 (langNibble x * 16 + langNibble y)).toNat = langNibble x * 16 + langNibble y := by
  have := langNibble_le hx
  have := langNibble_le hy
  exact byteOf_toNat (by omega)

theorem bytes16_toNat {n : Nat} (h : n ≤ 65535) :
    (BitVec.ofNat 8 (n / 256)).toNat * 256 + (BitVec.ofNat 8 n).toNat = n := by
  rw [BitVec.toNat_ofNat, BitVec.toNat_ofNat]
  omega

/-- Settles O25: the expiries by their equations, the report byte by byte; a byte of flags bit by bit through
`ofFlags`. -/
theorem periodicTimers : Obligations.PeriodicTimers := by
  refine ⟨fun s => ⟨fun h => ?_, exec_timeTimerExpiry, exec_statusTimerExpiry, fun h => if_pos h⟩, fun s => ?report⟩
  · exact if_neg (mt (Timer.ranOut_iff _).mp h)
  case report =>
    intro b nibble j
    have flags : byteAt b 0 = _ := congrArg (BitVec.ofNat 8) (statusFlags_eq s)
    have seats : byteAt b 1 = _ := congrArg (BitVec.ofNat 8) (statusSeats_eq s)
    have faults : byteAt b 4 = _ := congrArg (BitVec.ofNat 8) (statusFaults_eq s)
    have nib : ∀ x, langNibble x = nibble x := langNibble_eq
    rw [flags, seats, faults]
    simp only [getLsbD_ofFlags, listening_eq, Nat.reduceLT]
    refine ⟨rfl, ⟨rfl, rfl, ?_, rfl, rfl, rfl, rfl, ?_⟩, ⟨rfl, rfl, rfl, rfl, rfl, rfl, rfl, rfl⟩, fun hl => ?_,
      ⟨rfl, rfl, rfl, rfl, rfl, rfl, rfl, rfl⟩, fun hc hw => ?_, fun hw => ?_, ?_, ?_, ?_, ?_⟩
    · exact beq_eq_decide _ _
    · exact beq_eq_decide _ _
    · rw [← nib, ← nib, ← nib, ← nib]
      exact ⟨nibbles_toNat (hl .a) (hl .b), nibbles_toNat (hl .c) (hl .d)⟩
    · exact byteOf_toNat (n := currentScene s * 16 + s.lvl.wind.boost) (by omega)
    · exact byteOf_toNat hw
    · exact byteOf_toNat (n := min 255 (underrunTotal s)) (by omega)
    · exact byteOf_toNat (n := min 255 s.line.rxErrors) (by omega)
    · exact byteOf_toNat (n := min 255 (s.stc.failedAttempts + s.txq.drops)) (by omega)
    · exact bytes16_toNat (n := min 65535 (plugTotal s)) (by omega)

end Sys2Proof.Machine

namespace Sys2Proof.Machine

/-! ## The programme: CUE, HUSH and promotion (R26, R29, R86 to R91, R106) -/

/-- A change of the current cue, with the reader's service after it, leaves the blocks that do not play (R106). -/
theorem changeCue_served (c : Option CueAt) (s : State) : let t := serve (changeCue c s)
    t.prg = { s.prg with current := c } ∧ t.line = s.line ∧ t.txq = s.txq ∧ t.dclk = s.dclk ∧ t.jck = s.jck
    ∧ t.stc = s.stc ∧ t.lvl = s.lvl ∧ t.lmp.claims = s.lmp.claims ∧ t.ann.latch = s.ann.latch
    ∧ t.ann.doors = s.ann.doors := by
  intro t
  have h := (changeCue_frame c s).trans (serve_plays _)
  exact ⟨h.frame.prg, h.frame.line, h.frame.txq, h.frame.dclk, h.frame.jck, h.frame.stc, h.lvl, by rw [h.frame.lmp],
    by rw [h.frame.ann], by rw [h.frame.ann]⟩

/-- With a read in hand a busy COMMENTARY slot renews its tag and seeks the new cue, or is SILENT where there is none;
the other slots stand (R97, R106). -/
theorem changeCue_slots (c : Option CueAt) {s : State} (hs : s.csr.hand.isSome = true) (i : SlotId) :
    let t := serve (changeCue c s)
    (slotBusy s i = true → (s.vtab.slots.get i).content = .commentary →
      t.csr.tags.get i = s.csr.tags.get i + 1
      ∧ (∀ a, c = some a → (t.vtab.slots.get i).play = (s.vtab.slots.get i).play.seek (instant a.start)
          ∧ (t.csr.places.get i).isSome = true)
      ∧ (c = none → (t.vtab.slots.get i).play = (s.vtab.slots.get i).play.seekNothing ∧ t.csr.places.get i = none))
    ∧ ((slotBusy s i = false ∨ (s.vtab.slots.get i).content ≠ .commentary) →
      t.vtab.slots.get i = s.vtab.slots.get i ∧ t.csr.tags.get i = s.csr.tags.get i) := by
  obtain ⟨⟨-, hhand, -⟩, hslots⟩ := changeCue_law c s
  rw [serve_of_hand (by rw [hhand]; exact hs)]
  obtain ⟨hseeks, hstands⟩ := hslots i
  exact ⟨hseeks, fun h => ⟨(slotView_eq (hstands h)).1, (slotView_eq (hstands h)).2.1⟩⟩

/-! ### CUE -/

theorem judgeCue_stale {c : CueAt} {s : State} (h : ∃ t, s.prg.lastTaken = some t ∧ later t.start c.start = true) :
    judgeCue c s = s := by
  obtain ⟨t, ht, hl⟩ := h
  unfold judgeCue
  rw [ht]
  exact if_pos hl

/-- Past the test for staleness (R87). -/
theorem judgeCue_of_not_stale {c : CueAt} {s : State} (h : ¬ ∃ t, s.prg.lastTaken = some t ∧ later t.start c.start = true) :
    judgeCue c s = if s.prg.lastTaken == some c || s.prg.queue.contains c then s
      else if reached s.dclk.now c.start then takeCue c s else placeCue c s := by
  unfold judgeCue
  cases ht : s.prg.lastTaken with
  | none => rfl
  | some t => exact if_neg fun hl => h ⟨t, ht, hl⟩

theorem judgeCue_known {c : CueAt} {s : State} (h : s.prg.lastTaken = some c ∨ c ∈ s.prg.queue) : judgeCue c s = s := by
  by_cases hs : ∃ t, s.prg.lastTaken = some t ∧ later t.start c.start = true
  · exact judgeCue_stale hs
  · rw [judgeCue_of_not_stale hs]
    exact if_pos (by simpa using h)

section Fresh
variable {c : CueAt} {s : State} (hs : ¬ ∃ t, s.prg.lastTaken = some t ∧ later t.start c.start = true)
  (hk : ¬ (s.prg.lastTaken = some c ∨ c ∈ s.prg.queue))
include hs hk

theorem judgeCue_reached (h : reached s.dclk.now c.start = true) : judgeCue c s =
    changeCue (some c) { s with prg.lastTaken := some c } := by
  rw [judgeCue_of_not_stale hs, if_neg (by simpa using hk), if_pos h]
  rfl

theorem judgeCue_ahead (h : reached s.dclk.now c.start = false) : judgeCue c s = placeCue c s := by
  rw [judgeCue_of_not_stale hs, if_neg (by simpa using hk), if_neg (by simp [h])]

end Fresh

theorem placeCue_same {c : CueAt} {s : State} (h : ∃ e ∈ s.prg.queue, e.start = c.start) : placeCue c s =
    { s with prg.queue := s.prg.queue.map fun e => if e.start = c.start then c else e } := by
  have entry : ∀ e : CueAt, (if e.start == c.start then { e with cue := c.cue } else e) =
      if e.start = c.start then c else e := fun e => by
    by_cases he : e.start = c.start
    · simp [he]
    · simp [he]
  unfold placeCue
  dsimp only
  rw [if_pos (by simpa using h), funext entry]

section Ahead
variable {c : CueAt} {s : State} (hn : ∀ e ∈ s.prg.queue, e.start ≠ c.start)
include hn

theorem placeCue_new (hl : s.prg.queue.length ≤ 3) :
    placeCue c s = { s with prg.queue := insertCue c s.prg.queue } := by
  unfold placeCue
  dsimp only
  rw [if_neg (by simpa using hn), if_pos (by omega)]

theorem placeCue_dropped (hl : 4 ≤ s.prg.queue.length) (h : ∀ e ∈ s.prg.queue, later c.start e.start = true) :
    placeCue c s = countRxError s := by
  unfold placeCue
  dsimp only
  rw [if_neg (by simpa using hn), if_neg (by omega), if_pos (by simpa using h)]

theorem placeCue_evicts (hl : 4 ≤ s.prg.queue.length) (h : ∃ e ∈ s.prg.queue, later c.start e.start = false) :
    placeCue c s = countRxError { s with prg.queue := insertCue c s.prg.queue.dropLast } := by
  unfold placeCue
  dsimp only
  rw [if_neg (by simpa using hn), if_neg (by omega), if_neg (by simpa using h)]

end Ahead

/-- Settles O26: the arrival by the equations of `judgeCue` and `placeCue`; a cue that is taken at once by
`changeCue_served` and `changeCue_slots`. -/
theorem receiveCue : Obligations.ReceiveCue := by
  intro f s hh hj hr u c stale known
  obtain ⟨clash, rx, capture, hu⟩ := heardFrom_is f s
  change u = _ at hu
  have passed : ∀ {t}, c.cue ≤ 1023 → judgeCue c u = t → exec (.receiveCue f) s = .next (serve t) := fun hc ht =>
    congrArg (fun t => Host.Outcome.next (serve t))
      ((receiveFrame_passed hh hj (decide_eq_true (Nat.lt_succ_of_le hc)) _).trans ht)
  have rests : ∀ {t}, c.cue ≤ 1023 → judgeCue c u = t → t.csr = s.csr → exec (.receiveCue f) s = .next t :=
    fun hc ht hcsr => (passed hc ht).trans (congrArg _ (serve_of_rest (hr.of_csr hcsr)))
  have refused : 1024 ≤ c.cue →
      exec (.receiveCue f) s = .next { u with line.rxErrors := min 255 (s.line.rxErrors + 1) } := fun h =>
    congrArg _ (serve_receiveFrame_counted hh hj hr (decide_eq_false (by show ¬ c.cue < 1024; omega)) _)
  clear_value u
  subst hu
  have ahead := judgeCue_ahead (c := c) (s := { s with line.clash := clash, line.rx := rx, dclk.capture := capture })
  refine ⟨refused, fun hc h => ?_, fun hc hs hk hreach => ?_, fun hc hs hk hahead hn hl => ?_,
    fun hc hs hk hahead h => ?_, fun hc hs hk hahead hl h => ?_, fun hc hs hk hahead kept latest hq hl hn h => ?_⟩
  · rcases h with h | h
    · exact rests hc (judgeCue_stale h) rfl
    · exact rests hc (judgeCue_known h) rfl
  · obtain ⟨hprg, hline, htxq, hdclk, hjck, hstc, hlvl, hclaims, hlatch, hdoors⟩ := changeCue_served (some c) { s with
      line.clash := clash, line.rx := rx, dclk.capture := capture, prg.lastTaken := some c }
    refine ⟨_, passed hc (judgeCue_reached hs hk hreach), hprg, hline, htxq, hdclk, hjck, hstc, hlvl, hclaims, hlatch,
      hdoors, fun hhand i hbusy hcontent => ?_⟩
    obtain ⟨htag, hplay, -⟩ := (changeCue_slots (some c) (s := { s with
      line.clash := clash, line.rx := rx, dclk.capture := capture, prg.lastTaken := some c }) hhand i).1 hbusy hcontent
    rw [(hplay c rfl).1]
    exact ⟨rfl, rfl, htag⟩
  · exact rests hc ((ahead hs hk hahead).trans (placeCue_new hn hl)) rfl
  · exact rests hc ((ahead hs hk hahead).trans (placeCue_same h)) rfl
  · exact rests hc ((ahead hs hk hahead).trans
      (placeCue_dropped (fun e he => (h e he).1) hl fun e he => (h e he).2)) rfl
  · have full : 4 ≤ s.prg.queue.length := by
      rw [hq, List.length_append]
      exact Nat.succ_le_succ hl
    have rest : s.prg.queue.dropLast = kept := by rw [hq, List.dropLast_concat]
    rw [← rest]
    exact rests hc ((ahead hs hk hahead).trans (placeCue_evicts hn full h)) rfl

/-! ### HUSH and promotion -/

/-- Whether a HUSH names a cue (R29, R91). -/
def hushes (n : Nat) (c : CueAt) : Bool := n == 65535 || c.cue == n

theorem hushes_all (c : CueAt) : hushes 65535 c = true := rfl

theorem hushes_iff (n : Nat) (c : CueAt) : hushes n c = true ↔ n = 65535 ∨ c.cue = n := by
  simp [hushes]

theorem hushes_one {n : Nat} (h : n ≤ 1023) (c : CueAt) : hushes n c = (c.cue == n) := by
  have : (n == 65535) = false := by simp; omega
  simp [hushes, this]

/-- The current cue is named: it becomes NONE with the pending ones that are (R91). -/
theorem hush_current {n : Nat} {s : State} {c : CueAt} (hc : s.prg.current = some c) (h : hushes n c = true) :
    hush n s = changeCue none { s with prg.queue := s.prg.queue.filter fun e => !hushes n e } := by
  unfold hush
  dsimp only
  rw [hc]
  exact if_pos h

/-- No current cue is named: only the pending ones leave (R91). -/
theorem hush_pending {n : Nat} {s : State} (h : ∀ c, s.prg.current = some c → hushes n c = false) :
    hush n s = { s with prg.queue := s.prg.queue.filter fun e => !hushes n e } := by
  unfold hush
  dsimp only
  cases hc : s.prg.current with
  | none => rfl
  | some c => exact if_neg fun k => Bool.noConfusion ((h c hc).symm.trans k)

/-- What is left of the pending queue when all cues are named, and when one is (R91). -/
theorem filter_hushes (n : Nat) (q : List CueAt) : (n = 65535 → q.filter (fun e => !hushes n e) = [])
    ∧ (n ≤ 1023 → q.filter (fun e => !hushes n e) = q.filter fun e => !(e.cue == n)) := by
  refine ⟨fun h => ?_, fun h => ?_⟩
  · rw [h]
    exact List.filter_eq_nil_iff.mpr fun e _ => Bool.false_ne_true
  · simp only [hushes_one h]

/-- What a HUSH leaves, the reader's service after it included (R91, R106). -/
theorem hush_served (n : Nat) {s : State} (hr : ReaderRests s) : let t := serve (hush n s)
    t.prg.lastTaken = s.prg.lastTaken
    ∧ (n = 65535 → t.prg.current = none ∧ t.prg.queue = [])
    ∧ (n ≤ 1023 → t.prg.queue = s.prg.queue.filter (fun e => !(e.cue == n))
        ∧ t.prg.current = (if (∃ c, s.prg.current = some c ∧ c.cue = n) then none else s.prg.current))
    ∧ (s.csr.hand.isSome = true → ∀ c i, s.prg.current = some c → (n = 65535 ∨ c.cue = n) →
        (slotBusy s i = true → (s.vtab.slots.get i).content = .commentary →
          (t.vtab.slots.get i).play.state = .silent ∧ (t.vtab.slots.get i).play.clip = .none
          ∧ t.csr.tags.get i = s.csr.tags.get i + 1 ∧ t.csr.places.get i = none)
        ∧ ((slotBusy s i = false ∨ (s.vtab.slots.get i).content ≠ .commentary) →
          t.vtab.slots.get i = s.vtab.slots.get i ∧ t.csr.tags.get i = s.csr.tags.get i))
    ∧ t.line = s.line ∧ t.txq = s.txq ∧ t.dclk = s.dclk ∧ t.jck = s.jck ∧ t.stc = s.stc ∧ t.lvl = s.lvl
    ∧ t.lmp.claims = s.lmp.claims ∧ t.ann.latch = s.ann.latch ∧ t.ann.doors = s.ann.doors := by
  obtain ⟨all, one⟩ := filter_hushes n s.prg.queue
  by_cases hcur : ∃ c, s.prg.current = some c ∧ hushes n c = true
  · obtain ⟨c, hc, hn⟩ := hcur
    rw [hush_current hc hn]
    obtain ⟨hprg, hrest⟩ := changeCue_served none { s with prg.queue := s.prg.queue.filter fun e => !hushes n e }
    intro t
    rw [show t.prg = _ from hprg]
    refine ⟨rfl, fun h => ⟨rfl, all h⟩, fun h => ⟨one h, ?_⟩, fun hs _ i _ _ => ?_, hrest⟩
    · rw [if_pos ⟨c, hc, by simpa [hushes_one h] using hn⟩]
    · obtain ⟨hseeks, hstands⟩ := changeCue_slots none
        (s := { s with prg.queue := s.prg.queue.filter fun e => !hushes n e }) hs i
      refine ⟨fun hbusy hcontent => ?_, hstands⟩
      obtain ⟨htag, -, hplay⟩ := hseeks hbusy hcontent
      obtain ⟨play, place⟩ := hplay rfl
      rw [play]
      exact ⟨rfl, rfl, htag, place⟩
  · have rest : serve (hush n s) = { s with prg.queue := s.prg.queue.filter fun e => !hushes n e } := by
      rw [hush_pending fun c hc => Bool.eq_false_iff.mpr fun hn => hcur ⟨c, hc, hn⟩]
      exact serve_of_rest (hr.of_csr rfl)
    rw [rest]
    refine ⟨rfl, fun h => ⟨?_, all h⟩, fun h => ⟨one h, ?_⟩,
      fun _ c _ hc hn => absurd ⟨c, hc, (hushes_iff n c).mpr hn⟩ hcur, rfl, rfl, rfl, rfl, rfl, rfl, rfl, rfl, rfl⟩
    · exact Option.eq_none_iff_forall_ne_some.mpr fun c hc => hcur ⟨c, hc, (hushes_iff n c).mpr (.inl h)⟩
    · exact (if_neg fun ⟨c, hc, hn⟩ => hcur ⟨c, hc, (hushes_iff n c).mpr (.inr hn)⟩).symm

/-- The last of the due cues becomes current and the last taken (R90). -/
theorem promoteDue_some {s : State} {c : CueAt}
    (h : (s.prg.queue.filter fun e => reached s.dclk.now e.start).getLast? = some c) : promoteDue s =
      changeCue (some c) { s with
        prg.queue := s.prg.queue.filter fun e => !reached s.dclk.now e.start, prg.lastTaken := some c } := by
  unfold promoteDue
  dsimp only
  rw [h]
  rfl

/-- Settles O27: a HUSH that is not refused by `hush_served`, a promotion as a change of cue. -/
theorem cueChanges : Obligations.CueChanges := by
  refine ⟨fun f s hh hj hr => ?hushed, fun s c hdue => ?promoted⟩
  case hushed =>
    intro u n
    have passed : (n ≤ 1023 ∨ n = 65535) → exec (.receiveHush f) s = .next (serve (hush n u)) := fun h =>
      congrArg (fun t => Host.Outcome.next (serve t)) (receiveFrame_passed hh hj (decide_eq_true (by
        show n < 1024 ∨ n = 65535
        omega)) _)
    refine ⟨fun h1 h2 => congrArg _ (serve_receiveFrame_counted hh hj hr (decide_eq_false (by
      show ¬ (n < 1024 ∨ n = 65535)
      omega)) _), fun h => ⟨_, passed h, ?_⟩⟩
    obtain ⟨clash, rx, capture, hu⟩ := heardFrom_is f s
    change u = _ at hu
    clear_value u
    subst hu
    exact hush_served n (hr.of_csr rfl)
  case promoted =>
    obtain ⟨hprg, hline, htxq, hdclk, hjck, hstc, hlvl, hclaims, hlatch, hdoors⟩ := changeCue_served (some c) { s with
      prg.queue := s.prg.queue.filter fun e => !reached s.dclk.now e.start, prg.lastTaken := some c }
    refine ⟨_, congrArg (fun t => Host.Outcome.next (serve t)) (promoteDue_some hdue), hprg, fun hs i => ?_, hline, htxq,
      hdclk, hjck, hstc, hlvl, hclaims, hlatch, hdoors⟩
    obtain ⟨hseeks, hstands⟩ := changeCue_slots (some c) (s := { s with
      prg.queue := s.prg.queue.filter fun e => !reached s.dclk.now e.start, prg.lastTaken := some c }) hs i
    refine ⟨fun hbusy hcontent => ?_, hstands⟩
    obtain ⟨htag, hplay, -⟩ := hseeks hbusy hcontent
    obtain ⟨play, place⟩ := hplay c rfl
    rw [play]
    exact ⟨rfl, rfl, htag, place⟩

end Sys2Proof.Machine

namespace Sys2Proof.Machine

/-! ## Announcements (R26, R121 to R124) -/

/-- An ANNOUNCE that is neither stale nor a duplicate (R121). -/
def FreshAnnounce (stop : Nat) (start : Millis) (s : State) : Prop :=
  (∀ a, s.ann.current = some a → later a.start start = false ∧ ¬ (a.stop = stop ∧ a.start = start))
  ∧ (∀ t, s.ann.lastCompleted = some t → later t start = false)
  ∧ s.ann.pending ≠ some { stop := stop, start := start }

/-- The tests for staleness and for a duplicate in turn (R121). -/
theorem judgeAnnounce_eq (stop : Nat) (start : Millis) (s : State) : judgeAnnounce stop start s =
    if (s.ann.current.any fun a => later a.start start) || s.ann.lastCompleted.any fun t => later t start then s
    else if (s.ann.current.any fun a => a.stop == stop && a.start == start)
      || s.ann.pending == some { stop := stop, start := start } then s
    else if (s.csr.config.lateLimit : Int) < lateness s.dclk.now start then countRxError s
    else placeAnnouncement stop start s := by
  unfold judgeAnnounce
  cases s.ann.current <;> cases s.ann.lastCompleted <;> rfl

theorem freshAnnounce_iff (stop : Nat) (start : Millis) (s : State) : FreshAnnounce stop start s ↔
    ((s.ann.current.any fun a => later a.start start) || s.ann.lastCompleted.any fun t => later t start) = false
    ∧ ((s.ann.current.any fun a => a.stop == stop && a.start == start)
      || s.ann.pending == some { stop := stop, start := start }) = false := by
  unfold FreshAnnounce
  cases s.ann.current <;> cases s.ann.lastCompleted <;> simp [and_assoc, and_left_comm]

theorem judgeAnnounce_stale {stop : Nat} {start : Millis} {s : State} (h : ¬ FreshAnnounce stop start s) :
    judgeAnnounce stop start s = s := by
  rw [freshAnnounce_iff, not_and_or, Bool.not_eq_false, Bool.not_eq_false] at h
  rw [judgeAnnounce_eq]
  split
  · rfl
  · next hs => exact if_pos (h.resolve_left hs)

theorem judgeAnnounce_fresh {stop : Nat} {start : Millis} {s : State} (h : FreshAnnounce stop start s) :
    judgeAnnounce stop start s =
      if (s.csr.config.lateLimit : Int) < lateness s.dclk.now start then countRxError s
      else placeAnnouncement stop start s := by
  obtain ⟨stale, known⟩ := (freshAnnounce_iff stop start s).mp h
  rw [judgeAnnounce_eq, stale, known]
  rfl

theorem makeCurrent_ahead {stop : Nat} {start : Millis} {s : State} (h : reached s.dclk.now start = false) :
    makeCurrent stop start s = { s with
      ann.current := some { stop := stop, start := start, chimeLen := none, phase := .waiting },
      ann.naming := { v0 := false, v1 := false, v2 := false, v3 := false }, ann.speakerName := .notNeeded } :=
  if_neg fun k => Bool.noConfusion (h.symm.trans k)

theorem makeCurrent_reached {stop : Nat} {start : Millis} {s : State} (h : reached s.dclk.now start = true) :
    makeCurrent stop start s = vaStart .chime .chime (instant start) { s with
      ann.current := some { stop := stop, start := start, chimeLen := none, phase := .chime },
      ann.naming := { v0 := false, v1 := false, v2 := false, v3 := false }, ann.speakerName := .notNeeded } :=
  if_pos h

theorem forSlots_returnSlot_of_none {s : State} (h : ∀ i, s.ann.naming.get i = false) : forSlots returnSlot s = s := by
  have each : ∀ i, returnSlot i s = s := fun i => if_neg (by rw [h i]; nofun)
  simp only [forSlots, each]

/-- An announcement that waits is displaced without a trace in the voices (R123). -/
theorem abandon_waiting {s : State} (hn : ∀ i, s.ann.naming.get i = false) (hc : s.ann.purpose ≠ .chime)
    (hm : s.ann.purpose ≠ .name) : abandon s = { s with ann.nameCap := none, ann.current := none } := by
  unfold abandon
  dsimp only
  rw [if_neg (by simp [hc, hm])]
  exact forSlots_returnSlot_of_none hn

/-- What displacing an announcement does: the cap timer stops and every naming slot returns to COMMENTARY and seeks
(R123, R126). -/
theorem abandon_law (s : State) : let t := abandon s
    t.csr.hand = s.csr.hand
    ∧ t.ann = { s.ann with
        current := none, nameCap := none, naming := { v0 := false, v1 := false, v2 := false, v3 := false },
        purpose := t.ann.purpose }
    ∧ ∀ i, s.ann.naming.get i = true → slotBusy s i = true →
        (t.vtab.slots.get i).content = .commentary ∧ t.csr.tags.get i = s.csr.tags.get i + 1 := by
  unfold abandon
  dsimp only
  split
  · obtain ⟨hhand, hann, -, -, hslots⟩ := forSlots_returnSlot (vaStop { s with ann.nameCap := none, ann.current := none })
    exact ⟨hhand, by rw [hann]; rfl, hslots⟩
  · obtain ⟨hhand, hann, -, -, hslots⟩ := forSlots_returnSlot { s with ann.nameCap := none, ann.current := none }
    exact ⟨hhand, by rw [hann], hslots⟩

theorem inAnnouncement_of_none {s : State} (h : s.ann.current = none) : inAnnouncement s = false := by
  unfold inAnnouncement
  rw [h]

theorem current_of_inAnnouncement {s : State} (h : inAnnouncement s = true) : s.ann.current.isSome = true := by
  unfold inAnnouncement at h
  cases hc : s.ann.current with
  | none => rw [hc] at h; cases h
  | some a => rfl

theorem placeAnnouncement_pending {stop : Nat} {start : Millis} {s : State} (hi : inAnnouncement s = true)
    (ha : reached s.dclk.now start = false) : placeAnnouncement stop start s =
      { s with ann.pending := some { stop := stop, start := start } } := if_pos (by simp [hi, ha])

theorem placeAnnouncement_first {stop : Nat} {start : Millis} {s : State} (h : s.ann.current = none) :
    placeAnnouncement stop start s = relightOverlay (makeCurrent stop start s) := by
  unfold placeAnnouncement
  rw [inAnnouncement_of_none h, h]
  rfl

theorem placeAnnouncement_displaces {stop : Nat} {start : Millis} {s : State} (hc : s.ann.current.isSome = true)
    (h : inAnnouncement s = false ∨ reached s.dclk.now start = true) :
    placeAnnouncement stop start s = relightOverlay (makeCurrent stop start (abandon s)) := by
  unfold placeAnnouncement
  rw [if_neg (by rcases h with h | h <;> simp [h]), if_pos hc]

/-- With the reader at rest, lighting the overlay moves the channels alone (R123, R155). -/
theorem serve_relightOverlay_is {s : State} (h : ReaderRests s) :
    ∃ chans, serve (relightOverlay s) = { s with lmp.chans := chans } := by
  obtain ⟨chans, hlit⟩ := relightOverlay_is s
  rw [hlit]
  exact ⟨chans, serve_of_rest (h.of_csr rfl)⟩

/-- A first announcement ahead of its start waits (R122). -/
theorem placeAnnouncement_waits {stop : Nat} {start : Millis} {s : State} (hr : ReaderRests s)
    (hc : s.ann.current = none) (ha : reached s.dclk.now start = false) :
    let t := serve (placeAnnouncement stop start s)
    t.ann.current = some { stop := stop, start := start, chimeLen := none, phase := .waiting }
    ∧ t.ann.pending = s.ann.pending ∧ t.vtab = s.vtab ∧ t.csr = s.csr ∧ t.line = s.line ∧ t.txq = s.txq
    ∧ t.dclk = s.dclk ∧ t.prg = s.prg ∧ t.jck = s.jck ∧ t.stc = s.stc ∧ t.lvl = s.lvl := by
  rw [placeAnnouncement_first hc, makeCurrent_ahead ha]
  obtain ⟨chans, hlit⟩ := serve_relightOverlay_is (s := { s with
    ann.current := some { stop := stop, start := start, chimeLen := none, phase := .waiting },
    ann.naming := { v0 := false, v1 := false, v2 := false, v3 := false }, ann.speakerName := .notNeeded }) (hr.of_csr rfl)
  rw [hlit]
  exact ⟨rfl, rfl, rfl, rfl, rfl, rfl, rfl, rfl, rfl, rfl, rfl⟩

/-- At its start a current announcement begins its chime (R122, R124). -/
theorem serve_makeCurrent_reached {stop : Nat} {start : Millis} {s : State} (hs : s.csr.hand.isSome = true)
    (ha : reached s.dclk.now start = true) : let t := serve (relightOverlay (makeCurrent stop start s))
    t.ann = { s.ann with
      current := some { stop := stop, start := start, chimeLen := none, phase := .chime },
      naming := { v0 := false, v1 := false, v2 := false, v3 := false }, speakerName := .notNeeded, purpose := .chime }
    ∧ (t.vtab.va.content = .chime ∧ t.vtab.va.play.state = .seeking ∧ t.vtab.va.play.anchor = { ms := start, us := 0 })
    ∧ (t.vtab.slots = s.vtab.slots ∧ t.csr.tags = s.csr.tags)
    ∧ t.line = s.line ∧ t.txq = s.txq ∧ t.dclk = s.dclk ∧ t.prg = s.prg ∧ t.jck = s.jck ∧ t.stc = s.stc
    ∧ t.lvl = s.lvl := by
  rw [makeCurrent_reached ha]
  obtain ⟨chans, hlit⟩ := serve_relightOverlay_is (s := vaStart .chime .chime (instant start) { s with
    ann.current := some { stop := stop, start := start, chimeLen := none, phase := .chime },
    ann.naming := { v0 := false, v1 := false, v2 := false, v3 := false }, ann.speakerName := .notNeeded }) (.inl hs)
  rw [hlit]
  exact ⟨rfl, ⟨rfl, rfl, rfl⟩, ⟨rfl, rfl⟩, rfl, rfl, rfl, rfl, rfl, rfl, rfl⟩

/-- A first announcement at its start begins its chime (R122). -/
theorem placeAnnouncement_begins {stop : Nat} {start : Millis} {s : State} (hs : s.csr.hand.isSome = true)
    (hc : s.ann.current = none) (ha : reached s.dclk.now start = true) :
    let t := serve (placeAnnouncement stop start s)
    t.ann.current = some { stop := stop, start := start, chimeLen := none, phase := .chime }
    ∧ t.ann.purpose = .chime ∧ t.vtab.va.content = .chime ∧ t.vtab.va.play.state = .seeking
    ∧ t.vtab.va.play.anchor = { ms := start, us := 0 } ∧ t.vtab.slots = s.vtab.slots
    ∧ t.ann.lastCompleted = s.ann.lastCompleted ∧ t.ann.pending = s.ann.pending
    ∧ t.line = s.line ∧ t.txq = s.txq ∧ t.dclk = s.dclk ∧ t.prg = s.prg ∧ t.jck = s.jck ∧ t.stc = s.stc
    ∧ t.lvl = s.lvl := by
  rw [placeAnnouncement_first hc]
  obtain ⟨hann, ⟨content, state, anchor⟩, ⟨slots, -⟩, rest⟩ := serve_makeCurrent_reached (stop := stop) hs ha
  intro t
  rw [show t.ann = _ from hann]
  exact ⟨rfl, rfl, content, state, anchor, slots, rfl, rfl, rest⟩

theorem inAnnouncement_of_waiting {a : Announcement} {s : State} (hc : s.ann.current = some a)
    (hw : a.phase = .waiting) : inAnnouncement s = false := by
  unfold inAnnouncement
  rw [hc]
  simp [hw]

/-- An announcement ahead of its start takes the place of one that waits (R123). -/
theorem placeAnnouncement_replaces {stop : Nat} {start : Millis} {a : Announcement} {s : State} (hr : ReaderRests s)
    (hc : s.ann.current = some a) (hw : a.phase = .waiting) (ha : reached s.dclk.now start = false)
    (hn : ∀ i, s.ann.naming.get i = false) (hchime : s.ann.purpose ≠ .chime) (hname : s.ann.purpose ≠ .name) :
    let t := serve (placeAnnouncement stop start s)
    t.ann.current = some { stop := stop, start := start, chimeLen := none, phase := .waiting }
    ∧ t.ann.lastCompleted = s.ann.lastCompleted ∧ t.ann.pending = s.ann.pending ∧ t.vtab = s.vtab
    ∧ t.csr = s.csr ∧ t.line = s.line ∧ t.txq = s.txq ∧ t.dclk = s.dclk ∧ t.prg = s.prg ∧ t.jck = s.jck
    ∧ t.stc = s.stc ∧ t.lvl = s.lvl := by
  rw [placeAnnouncement_displaces (by rw [hc]; rfl) (.inl (inAnnouncement_of_waiting hc hw)),
    abandon_waiting hn hchime hname,
    makeCurrent_ahead (s := { s with ann.nameCap := none, ann.current := none }) ha]
  obtain ⟨chans, hlit⟩ := serve_relightOverlay_is (s := { s with
    ann.nameCap := none, ann.current := some { stop := stop, start := start, chimeLen := none, phase := .waiting },
    ann.naming := { v0 := false, v1 := false, v2 := false, v3 := false }, ann.speakerName := .notNeeded }) (hr.of_csr rfl)
  rw [hlit]
  exact ⟨rfl, rfl, rfl, rfl, rfl, rfl, rfl, rfl, rfl, rfl, rfl, rfl⟩

/-- An announcement at its start displaces a chime or names without completing them (R123, R126). -/
theorem placeAnnouncement_cutsIn {stop : Nat} {start : Millis} {s : State} (hs : s.csr.hand.isSome = true)
    (hin : inAnnouncement s = true) (ha : reached s.dclk.now start = true) :
    let t := serve (placeAnnouncement stop start s)
    t.ann.current = some { stop := stop, start := start, chimeLen := none, phase := .chime }
    ∧ t.ann.lastCompleted = s.ann.lastCompleted ∧ t.ann.pending = s.ann.pending ∧ t.ann.nameCap = none
    ∧ (∀ i, t.ann.naming.get i = false) ∧ t.ann.speakerName = .notNeeded
    ∧ t.ann.purpose = .chime ∧ t.vtab.va.content = .chime ∧ t.vtab.va.play.state = .seeking
    ∧ t.vtab.va.play.anchor = { ms := start, us := 0 }
    ∧ (∀ i, s.ann.naming.get i = true → slotBusy s i = true →
        (t.vtab.slots.get i).content = .commentary ∧ t.csr.tags.get i = s.csr.tags.get i + 1)
    ∧ t.line = s.line ∧ t.txq = s.txq ∧ t.dclk = s.dclk ∧ t.prg = s.prg ∧ t.jck = s.jck ∧ t.stc = s.stc
    ∧ t.lvl = s.lvl := by
  obtain ⟨hhand, hbefore, hslots⟩ := abandon_law s
  have frame := (abandon_plays s).frame
  have lvl := (abandon_plays s).lvl
  rw [placeAnnouncement_displaces (current_of_inAnnouncement hin) (.inr ha)]
  generalize abandon s = v at hhand hbefore hslots frame lvl ⊢
  obtain ⟨hann, ⟨content, state, anchor⟩, ⟨slots, tags⟩, line, txq, dclk, prg, jck, stc, lvl'⟩ :=
    serve_makeCurrent_reached (stop := stop) (start := start) (s := v) (hhand ▸ hs) (frame.dclk ▸ ha)
  rw [hbefore] at hann
  intro t
  rw [show t.ann = _ from hann, show t.vtab.slots = _ from slots, show t.csr.tags = _ from tags]
  exact ⟨rfl, rfl, rfl, rfl, fun i => by cases i <;> rfl, rfl, rfl, content, state, anchor, hslots,
    line.trans frame.line, txq.trans frame.txq, dclk.trans frame.dclk, prg.trans frame.prg, jck.trans frame.jck,
    stc.trans frame.stc, lvl'.trans lvl⟩

/-- Settles O32: an arrival refused, stale or late by `judgeAnnounce_stale` and `judgeAnnounce_fresh`, one that is placed
by the law of its place. -/
theorem receiveAnnounce : Obligations.ReceiveAnnounce := by
  intro f s hh hj hr u stop start fresh
  have refused : 512 ≤ stop →
      exec (.receiveAnnounce f) s = .next { u with line.rxErrors := min 255 (s.line.rxErrors + 1) } := fun h =>
    congrArg _ (serve_receiveFrame_counted hh hj hr (decide_eq_false (by show ¬ stop < 512; omega)) _)
  have passed : stop ≤ 511 → exec (.receiveAnnounce f) s = .next (serve (judgeAnnounce stop start u)) := fun h =>
    congrArg (fun t => Host.Outcome.next (serve t)) (receiveFrame_passed hh hj (decide_eq_true (Nat.lt_succ_of_le h)) _)
  obtain ⟨clash, rx, capture, hu⟩ := heardFrom_is f s
  change u = _ at hu
  clear_value u
  subst hu
  have rests : ReaderRests { s with line.clash := clash, line.rx := rx, dclk.capture := capture } := hr.of_csr rfl
  have judged : stop ≤ 511 → fresh → lateness s.dclk.now start ≤ s.csr.config.lateLimit →
      exec (.receiveAnnounce f) s = .next (serve (placeAnnouncement stop start { s with
        line.clash := clash, line.rx := rx, dclk.capture := capture })) := fun h hfresh hlate => by
    rw [passed h, judgeAnnounce_fresh (s := { s with
      line.clash := clash, line.rx := rx, dclk.capture := capture }) hfresh, if_neg (not_lt.mpr hlate)]
  refine ⟨refused, fun h hstale => ?_, fun h hfresh hlate => ?_, fun h hfresh hlate hahead hin => ?_,
    fun h hfresh hlate hahead hnone => ⟨_, judged h hfresh hlate, placeAnnouncement_waits rests hnone hahead⟩,
    fun h hfresh hlate hreach hnone hs => ⟨_, judged h hfresh hlate, placeAnnouncement_begins hs hnone hreach⟩,
    fun a h hfresh hcur hwait hahead hlate hnaming hchime hname => ⟨_, judged h hfresh hlate,
      placeAnnouncement_replaces rests hcur hwait hahead hnaming hchime hname⟩,
    fun h hfresh hin hreach hlate hs => ⟨_, judged h hfresh hlate, placeAnnouncement_cutsIn hs hin hreach⟩⟩
  · rw [passed h, judgeAnnounce_stale (s := { s with
      line.clash := clash, line.rx := rx, dclk.capture := capture }) hstale, serve_of_rest rests]
  · rw [passed h, judgeAnnounce_fresh (s := { s with
      line.clash := clash, line.rx := rx, dclk.capture := capture }) hfresh, if_pos hlate]
    exact congrArg _ (serve_of_rest (rests.of_csr rfl))
  · rw [judged h hfresh hlate, placeAnnouncement_pending (s := { s with
      line.clash := clash, line.rx := rx, dclk.capture := capture }) hin hahead]
    exact congrArg _ (serve_of_rest (rests.of_csr rfl))

end Sys2Proof.Machine

namespace Sys2Proof.Machine

/-! ## Receiving TIME (R25, R62 to R65) -/

theorem Timer.isStopped_iff (t : Timer) : t.isStopped = true ↔ t = .stopped := by
  cases t <;> simp [Timer.isStopped]

theorem quietTime_stopped {s : State} (h : s.dclk.timer = .stopped) : quietTime s = withdraw .time s :=
  if_pos ((Timer.isStopped_iff _).mpr h)

/-- A timer that is not stopped restarts with a regular period (R64). -/
theorem quietTime_restarts {s : State} (h : s.dclk.timer ≠ .stopped) : quietTime s = { s with
    dclk.timer := s.dclk.timer.restart ((1000 + (lfsrSteps 16 s.txq.lfsr).toNat % 64) * 1000),
    dclk.firstPeriod := false,
    txq.records := (s.txq.withdraw .time).records, txq.lfsr := lfsrSteps 16 s.txq.lfsr } :=
  if_neg fun k => h ((Timer.isStopped_iff _).mp k)

theorem hastenTime_stopped {s : State} (h : s.dclk.timer = .stopped) : hastenTime s = s :=
  if_pos ((Timer.isStopped_iff _).mpr h)

/-- A timer that is not stopped keeps at most 16 + d ms (R65). -/
theorem hastenTime_shortens {s : State} (h : s.dclk.timer ≠ .stopped) : hastenTime s = { s with
    dclk.timer := s.dclk.timer.shorten ((16 + (lfsrSteps 16 s.txq.lfsr).toNat % 64) * 1000),
    txq.lfsr := lfsrSteps 16 s.txq.lfsr } :=
  if_neg fun k => h ((Timer.isStopped_iff _).mp k)

theorem takeTime_ahead {body : List Byte} {s : State} (h : 0 < (timeOfBody body).diffMicros s.dclk.capture) :
    takeTime body s = quietTime (forwardStep ((timeOfBody body).diffMicros s.dclk.capture).toNat s) := if_pos h

theorem takeTime_near {body : List Byte} {s : State} (hn : -500 ≤ (timeOfBody body).diffMicros s.dclk.capture)
    (h : (timeOfBody body).diffMicros s.dclk.capture ≤ 0) : takeTime body s = quietTime s :=
  (if_neg (not_lt.mpr h)).trans (if_pos hn)

theorem takeTime_behind {body : List Byte} {s : State} (h : (timeOfBody body).diffMicros s.dclk.capture < -500) :
    takeTime body s = hastenTime s :=
  (if_neg (by omega)).trans (if_neg (not_le.mpr h))

/-- With nothing awaited a step moves deck time alone (R58). -/
theorem forwardStep_of_nothingAwaited {s : State} (h : NothingAwaited s) (n : Nat) :
    forwardStep n s = { s with dclk.now := s.dclk.now.addMicros n } := by
  obtain ⟨hqueue, hann, hdoors, hclaims⟩ := h
  simp [forwardStep, promoteDue, expireDoors, chimeIfDue, expireClaims, claimLapsed, hqueue, hann, hdoors, hclaims]

/-- With nothing awaited a TIME ahead of the station's clock moves the clock, the timer and the own TIME alone (R63,
R64). -/
theorem takeTime_alone {body : List Byte} {s : State} (hn : NothingAwaited s) (hr : s.dclk.timer ≠ .stopped)
    (h : 0 < (timeOfBody body).diffMicros s.dclk.capture) : takeTime body s = { s with
      dclk.now := s.dclk.now.addMicros ((timeOfBody body).diffMicros s.dclk.capture).toNat,
      dclk.timer := s.dclk.timer.restart ((1000 + (lfsrSteps 16 s.txq.lfsr).toNat % 64) * 1000),
      dclk.firstPeriod := false,
      txq.records := (s.txq.withdraw .time).records, txq.lfsr := lfsrSteps 16 s.txq.lfsr } := by
  rw [takeTime_ahead h, forwardStep_of_nothingAwaited hn]
  exact quietTime_restarts (s := { s with
    dclk.now := s.dclk.now.addMicros ((timeOfBody body).diffMicros s.dclk.capture).toNat }) hr

/-- What a forward step carries past is reached at once (R58, R63). -/
theorem forwardStep_law (n : Nat) (s : State) : let t := forwardStep n s
    let now := s.dclk.now.addMicros n
    let due := s.prg.queue.filter fun e => reached now e.start
    (t.dclk = { s.dclk with now := now } ∧ t.txq.lfsr = s.txq.lfsr ∧ t.csr.hand = s.csr.hand)
    ∧ t.prg.queue = (s.prg.queue.filter fun e => !reached now e.start)
    ∧ (∀ c, due.getLast? = some c → t.prg.current = some c ∧ t.prg.lastTaken = some c)
    ∧ (due = [] → t.prg = s.prg)
    ∧ t.ann.doors = (s.ann.doors.filter fun d => !reached now d.expiry)
    ∧ (∀ p, t.lmp.claims.get p = if claimLapsed now (s.lmp.claims.get p) = true then none else s.lmp.claims.get p)
    ∧ (∀ a, s.ann.current = some a → a.phase = .waiting → reached now a.start = true →
        t.ann.current = some { a with phase := .chime, chimeLen := none } ∧ t.ann.purpose = .chime
        ∧ t.vtab.va.play.state = .seeking ∧ t.vtab.va.play.anchor = { ms := a.start, us := 0 })
    ∧ (∀ a, s.ann.current = some a → (a.phase ≠ .waiting ∨ reached now a.start = false) →
        t.ann.current = some a ∧ t.vtab.va = s.vtab.va)
    ∧ (s.ann.current = none → t.ann.current = none ∧ t.vtab.va = s.vtab.va)
    ∧ t.line = s.line ∧ t.jck = s.jck ∧ t.stc = s.stc ∧ t.lvl = s.lvl ∧ t.ann.latch = s.ann.latch := by
  intro t now due
  obtain ⟨⟨pLine, pJck, pStc⟩, pDclk, pTxq, pVa, pAnn, pLvl, pLmp, pHand, pDue, pQueue, pNone⟩ :=
    promoteDue_law { s with dclk.now := now }
  have ht : t = expireClaims (chimeIfDue (expireDoors (promoteDue { s with dclk.now := now }))) := rfl
  clear_value t
  generalize promoteDue { s with dclk.now := now } = v at *
  obtain ⟨⟨dLine, dJck, dStc⟩, dDclk, dTxq, dPrg, dCurrent, dVa, dLatch, dLvl, dHand, dDoors, dClaims⟩ := expireDoors_law v
  generalize expireDoors v = w at *
  obtain ⟨⟨cLine, cJck, cStc⟩, cDclk, cTxq, cPrg, cBegins, cStands, ⟨cDoors, cLatch⟩, cClaims, cLvl, cHand⟩ :=
    chimeIfDue_law w
  generalize chimeIfDue w = x at *
  obtain ⟨eLine, eDclk, ePrg, eHand, eStc, eAnn, eVtab, ⟨eJck, eLvl⟩, eClaims, eLfsr⟩ := expireClaims_law x
  rw [← ht] at eLine eDclk ePrg eHand eStc eAnn eVtab eJck eLvl eClaims eLfsr
  have dclk : w.dclk = { s.dclk with now := now } := dDclk.trans pDclk
  have current : w.ann.current = s.ann.current := dCurrent.trans (congrArg (·.current) pAnn)
  have va : w.vtab.va = s.vtab.va := dVa.trans pVa
  have prg : t.prg = v.prg := ePrg.trans (cPrg.trans dPrg)
  have stands : (∀ a, s.ann.current = some a → a.phase ≠ .waiting ∨ reached now a.start = false) →
      t.ann.current = s.ann.current ∧ t.vtab.va = s.vtab.va := fun h => by
    rw [eAnn, eVtab, cStands (by rw [current, dclk]; exact h)]
    exact ⟨current, va⟩
  rw [prg]
  refine ⟨⟨eDclk.trans (cDclk.trans dclk), ?draws, eHand.trans (cHand.trans (dHand.trans pHand))⟩, pQueue, pDue, pNone,
    ?doors, fun p => ?claims, fun a ha hw hr => ?begins, fun a ha hs => ?waits, fun hn => ?none,
    eLine.trans (cLine.trans (dLine.trans pLine)), eJck.trans (cJck.trans (dJck.trans pJck)),
    eStc.trans (cStc.trans (dStc.trans pStc)), eLvl.trans (cLvl.trans (dLvl.trans pLvl)), ?latch⟩
  case draws => rw [eLfsr, cTxq, dTxq, pTxq]
  case doors => rw [eAnn, cDoors, dDoors, pAnn, pDclk]
  case claims => rw [eClaims, cClaims, dClaims, pLmp, cDclk, dclk]
  case begins =>
    rw [eAnn, eVtab]
    exact cBegins a (current.trans ha) hw (by rw [dclk]; exact hr)
  case waits =>
    rw [← ha]
    refine stands fun b hb => ?_
    rwa [← Option.some.inj (ha.symm.trans hb)]
  case none =>
    rw [← hn]
    exact stands fun b hb => nomatch hn.symm.trans hb
  case latch => rw [eAnn, cLatch, dLatch, pAnn]

/-- A TIME ahead of the station's clock: what the step carries past, and the timer restarted (R63, R64). -/
theorem takeTime_steps {body : List Byte} {s : State} (hs : s.csr.hand.isSome = true) (hr : s.dclk.timer ≠ .stopped)
    (h : 0 < (timeOfBody body).diffMicros s.dclk.capture) : let t := serve (takeTime body s)
    let now := s.dclk.now.addMicros ((timeOfBody body).diffMicros s.dclk.capture).toNat
    let due := s.prg.queue.filter fun e => reached now e.start
    t.dclk.now = now
    ∧ t.dclk.timer = s.dclk.timer.restart ((1000 + (lfsrSteps 16 s.txq.lfsr).toNat % 64) * 1000)
    ∧ t.prg.queue = (s.prg.queue.filter fun e => !reached now e.start)
    ∧ (∀ c, due.getLast? = some c → t.prg.current = some c ∧ t.prg.lastTaken = some c)
    ∧ (due = [] → t.prg = s.prg)
    ∧ t.ann.doors = (s.ann.doors.filter fun d => !reached now d.expiry)
    ∧ (∀ p, t.lmp.claims.get p = if claimLapsed now (s.lmp.claims.get p) = true then none else s.lmp.claims.get p)
    ∧ (∀ a, s.ann.current = some a → a.phase = .waiting → reached now a.start = true →
        t.ann.current = some { a with phase := .chime, chimeLen := none } ∧ t.ann.purpose = .chime
        ∧ t.vtab.va.play.state = .seeking ∧ t.vtab.va.play.anchor = { ms := a.start, us := 0 })
    ∧ (∀ a, s.ann.current = some a → (a.phase ≠ .waiting ∨ reached now a.start = false) →
        t.ann.current = some a ∧ t.vtab.va = s.vtab.va)
    ∧ (s.ann.current = none → t.ann.current = none ∧ t.vtab.va = s.vtab.va)
    ∧ t.line = s.line ∧ t.jck = s.jck ∧ t.stc = s.stc ∧ t.lvl = s.lvl ∧ t.ann.latch = s.ann.latch := by
  obtain ⟨⟨hdclk, hlfsr, hhand⟩, hrest⟩ := forwardStep_law ((timeOfBody body).diffMicros s.dclk.capture).toNat s
  rw [takeTime_ahead h]
  generalize forwardStep ((timeOfBody body).diffMicros s.dclk.capture).toNat s = v at hdclk hlfsr hhand hrest ⊢
  rw [quietTime_restarts (by rw [hdclk]; exact hr), hlfsr, hdclk]
  intro t
  have ht : t = _ := serve_of_hand ((congrArg (·.isSome) hhand).trans hs)
  rw [ht]
  exact ⟨rfl, rfl, hrest⟩

/-- Settles O23: the three bands of the offset by `takeTime_ahead`, `takeTime_near` and `takeTime_behind`, a forward
step by `forwardStep_law`. -/
theorem receiveTime : Obligations.ReceiveTime := by
  refine ⟨fun f s hh hj hus hr hnone htimer => ?alone, fun f s hh hj hus hs htimer => ?steps, fun f s hh hj hr => ?rest⟩
  all_goals
    intro u offset
    have passed : field16 f.body 4 ≤ 999 → exec (.receiveTime f) s = .next (serve (takeTime f.body u)) := fun h =>
      congrArg (fun t => Host.Outcome.next (serve t)) (receiveFrame_passed hh hj (decide_eq_true h) _)
    have served : ReaderRests s → field16 f.body 4 ≤ 999 → ∀ {t}, takeTime f.body u = t → t.csr = s.csr →
        exec (.receiveTime f) s = .next t := fun hr h t ht hcsr => by
      rw [passed h, ht, serve_of_rest (hr.of_csr hcsr)]
  case rest =>
    have counted : 999 < field16 f.body 4 →
        exec (.receiveTime f) s = .next { u with line.rxErrors := min 255 (s.line.rxErrors + 1) } := fun h =>
      congrArg _ (serve_receiveFrame_counted hh hj hr (decide_eq_false (not_le.mpr h)) _)
    obtain ⟨clash, rx, capture, hu⟩ := heardFrom_is f s
    change u = _ at hu
    clear_value u
    subst hu
    exact ⟨counted,
      fun h hlow hhigh htimer => served hr h ((takeTime_near hlow hhigh).trans (quietTime_restarts htimer)) rfl,
      fun h hlow hhigh htimer => served hr h ((takeTime_near hlow hhigh).trans (quietTime_stopped htimer)) rfl,
      fun h hlow htimer => served hr h ((takeTime_behind hlow).trans (hastenTime_shortens htimer)) rfl,
      fun h hlow htimer => served hr h ((takeTime_behind hlow).trans (hastenTime_stopped htimer)) rfl⟩
  all_goals
    obtain ⟨clash, rx, capture, hu⟩ := heardFrom_is f s
    change u = _ at hu
    clear_value u
    subst hu
    intro hahead
  case alone => exact served hr hus (takeTime_alone hnone htimer hahead) rfl
  case steps => exact ⟨_, passed hus, takeTime_steps hs htimer hahead⟩

end Sys2Proof.Machine

namespace Sys2Proof.Machine

/-! ## Power-on (R36, R92, R111, R144, R154, R172, R173) -/

/-- A queue without records, under a line at its power-on value, is as safe as any (R36, R40). -/
theorem QueueSafe.of_empty {s : State} (hrecords : s.txq.records = []) (hdrops : s.txq.drops = 0)
    (hline : s.line = .initial) (hstc : s.stc.state = .starting ∨ s.stc.state = .loading) : QueueSafe s where
  size := by simp [hrecords]
  waiting := by simp [hrecords]
  flying := by simp [hrecords]
  orders := by simp [hrecords]
  fresh := by simp [hrecords]
  drops := by simp [hdrops]
  released := by simp [hrecords]
  shut _ := hrecords
  scan _ := by rw [hline]; rfl
  sender h := by rw [hline] at h; cases h
  parked h := by rcases hstc with e | e <;> simp [e] at h

theorem execPowerOn_queueSafe {o : Origin} {l : Bool} {s t : State} (h : execPowerOn o l s = .next t) : QueueSafe t := by
  unfold execPowerOn at h
  split at h <;> obtain rfl := Host.Outcome.next.inj h
  · exact .of_empty rfl rfl rfl (.inr rfl)
  · exact .of_empty rfl rfl rfl (.inl rfl)

/-- Settles O53: POWER_ON empties the queue, and every other step keeps the rules. -/
theorem queueStaysSafe : Obligations.QueueStaysSafe := by
  intro s t hs h
  rcases step_cases h with ⟨c, rest, hp, hexec⟩ | ⟨-, rfl⟩
  · by_cases hc : ∃ o l, c = .powerOn o l
    · obtain ⟨o, l, rfl⟩ := hc
      exact execPowerOn_queueSafe hexec
    · refine (step_keeps (fun o l hhead => hc ⟨o, l, ?_⟩) h).queue hs
      rw [hp] at hhead
      exact Option.some.inj hhead
  · exact (idle_keeps s).queue hs

/-- Settles O5: the two ends of POWER_ON, LOADING and the scan begun. -/
theorem powerOn : Obligations.PowerOn := by
  intro origin load s
  cases load with
  | true => exact ⟨_, rfl, by and_intros <;> rfl⟩
  | false => exact ⟨_, rfl, by and_intros <;> rfl⟩

/-- Settles O60, from the power-on values of O4. -/
theorem resetIsSafe : Obligations.ResetIsSafe := by
  obtain ⟨⟨hstate, -, -, -, -, -, hattempts⟩, ⟨-, hfails, herrors, -⟩, ⟨hrecords, hdrops⟩, -,
    ⟨-, -, hconfig, -, -, -, -, -, hrun, -⟩, -, ⟨-, ⟨-, hva⟩, hslots⟩, -, ⟨-, -, hseats⟩, ⟨-, -, houts⟩,
    ⟨-, -, -, -, hchans⟩⟩ := resetState
  have dark : ∀ c, (State.reset.lmp.chans.get c).target = 0 := fun c => by rw [hchans c]
  have outs : ∀ o, State.reset.lvl.out.get o = 0 := fun o => (houts o).1
  have slot : ∀ o, (State.reset.lvl.gains.get o).slot = -72 := fun o => (houts o).2.1
  have va : ∀ o, (State.reset.lvl.gains.get o).va = -72 := fun o => (houts o).2.2.1
  refine ⟨.of_empty hrecords hdrops rfl (.inl hstate),
    { out := fun o => by rw [outs]; decide
      slot := fun o => by rw [slot, hconfig]; decide
      va := fun o => by rw [va, hconfig]; decide
      scan := fun _ => ⟨hstate, fun j => by rw [(hseats j).1], fun o => ⟨slot o, va o⟩⟩ },
    ⟨fun _ => rfl, Nat.zero_le _⟩,
    ⟨fun _ => dark, fun c _ => dark c, fun c _ h => absurd (dark c) h⟩,
    herrors.trans_le (Nat.zero_le _), hdrops.trans_le (Nat.zero_le _), hattempts.trans_le (Nat.zero_le _),
    hfails.trans_le (Nat.zero_le _), hrun.trans_le (Nat.zero_le _), fun v => ?underruns, fun j => by rw [(hseats j).1]; decide⟩
  case underruns =>
    cases v with
    | slot i => exact (hslots i).1.2.trans_le (Nat.zero_le _)
    | va => exact hva.trans_le (Nat.zero_le _)

end Sys2Proof.Machine

namespace Sys2Proof.Machine

/-! ## Requests to the queue and its head (R37, R38, R40, R45 to R47) -/

theorem Record.waits_iff (r : Record) (k : TxKind) : r.waits k = true ↔ r.kind = k ∧ r.inFlight = false := by
  simp [Record.waits]

theorem lineAccepts_iff (l : Line) (k : TxKind) : lineAccepts l k = true ↔ ¬ (l.state = .off ∨ l.state = .asleep
    ∨ ((l.state = .quiet ∨ (l.state = .stuck ∧ l.quietLeft.isSome = true)) ∧ k.cls ≠ 0)) := by
  unfold lineAccepts
  cases l.state with
  | off => simp
  | asleep => simp
  | active => simp
  | quiet => simp
  | stuck => cases l.quietLeft <;> simp

theorem TxQueue.enqueue_merges {q : TxQueue} {k : TxKind} (h : ∃ r ∈ q.records, r.waits k = true) (body : List Byte) :
    q.enqueue k body = { q with
      records := q.records.map fun r => if r.waits k = true then { r with body := mergeBody k r.body body } else r } :=
  if_pos (List.any_eq_true.mpr h)

section NothingWaits

variable {q : TxQueue} {k : TxKind} (h : ∀ r ∈ q.records, r.waits k = false)
include h

theorem TxQueue.enqueue_places (hl : q.records.length ≤ 3) (body : List Byte) : q.enqueue k body = q.place k body :=
  (if_neg (by simpa using h)).trans (if_pos (Nat.lt_succ_of_le hl))

theorem TxQueue.enqueue_weighs (hl : 4 ≤ q.records.length) (body : List Byte) : q.enqueue k body = q.weigh k body :=
  (if_neg (by simpa using h)).trans (if_neg (Nat.not_lt.mpr hl))

end NothingWaits

/-- A record's urgency: class value, then queued order (R40). -/
def Record.urgency (r : Record) : ℕ ×ₗ ℕ := toLex (r.kind.cls, r.order)

theorem Record.before_iff (r o : Record) : r.before o = true ↔ r.urgency < o.urgency := by
  simp [Record.before, Record.urgency, Prod.Lex.toLex_lt_toLex]

theorem TxQueue.head_eq_argmin (q : TxQueue) : q.head = q.records.argmin Record.urgency := by
  unfold TxQueue.head List.argmin
  congr 1
  funext acc r
  cases acc with
  | none => rfl
  | some b => simp [List.argAux, Record.before_iff]

/-- Settles O13: the line's admission by `lineAccepts_iff`, a merge and a placing by the queue's own equations, and the
head as the least record by urgency. -/
theorem queueRequests : Obligations.QueueRequests := by
  refine ⟨fun k body s => ⟨fun hshut => ?shut, fun hopen => ?opened, rfl⟩,
    fun q k body => ⟨fun hwaits => ?merges, fun hnone hl => ?places, ?withdraws⟩, fun q => ⟨?empty, fun r hr => ?head⟩⟩
  case shut => exact if_neg fun h => (lineAccepts_iff _ _).mp h hshut
  case opened => exact if_pos ((lineAccepts_iff _ _).mpr hopen)
  case merges =>
    rw [TxQueue.enqueue_merges (by simpa only [Record.waits_iff] using hwaits)]
    simp only [Record.waits_iff]
    cases k <;> rfl
  case places =>
    exact TxQueue.enqueue_places (fun r hr => Bool.eq_false_iff.mpr fun h => hnone r hr ((r.waits_iff k).mp h)) hl body
  case withdraws => simp only [TxQueue.withdraw, Record.waits, beq_iff_eq]
  case empty => rw [q.head_eq_argmin, List.argmin_eq_none]
  case head =>
    rw [q.head_eq_argmin] at hr
    exact ⟨List.argmin_mem hr, fun o ho => Prod.Lex.toLex_le_toLex.mp (List.le_of_mem_argmin ho hr)⟩

end Sys2Proof.Machine

namespace Sys2Proof.Machine

/-! ## A full queue (R39, R51) -/

/-- From a class on, the fold of R39 is the maximum. -/
theorem foldl_worst (l : List Nat) (c : Nat) :
    l.foldl (fun acc c => some (max c (acc.getD 0))) (some c) = some (l.foldl max c) := by
  induction l generalizing c with
  | nil => rfl
  | cons a l ih => simp only [List.foldl_cons, Option.getD_some, ih, max_comm a c]

theorem TxQueue.leastUrgent_eq_max (q : TxQueue) :
    q.leastUrgent = ((q.records.filter fun r => !r.inFlight).map fun r => r.kind.cls).max? := by
  unfold TxQueue.leastUrgent
  generalize (q.records.filter fun r => !r.inFlight).map (fun r => r.kind.cls) = l
  cases l with
  | nil => rfl
  | cons c l =>
    rw [List.max?_cons', List.foldl_cons, Option.getD_none, Nat.max_zero]
    exact foldl_worst l c

theorem TxQueue.leastUrgent_eq_some (q : TxQueue) (c : Nat) : q.leastUrgent = some c ↔
    (∃ r ∈ q.records, r.inFlight = false ∧ r.kind.cls = c) ∧ ∀ r ∈ q.records, r.inFlight = false → r.kind.cls ≤ c := by
  rw [q.leastUrgent_eq_max, List.max?_eq_some_iff, List.forall_mem_map]
  simp [and_assoc]

theorem TxQueue.newestOf_eq {q : TxQueue} {w : Record} (hw : w ∈ q.records) (hf : w.inFlight = false)
    (newest : ∀ r ∈ q.records, r.inFlight = false → r.kind.cls = w.kind.cls → r.order ≤ w.order) :
    q.newestOf w.kind.cls = w.order := by
  unfold TxQueue.newestOf
  rw [List.foldl_max, List.max?_eq_some_iff.mpr ⟨List.mem_map.mpr ⟨w, ?mem, rfl⟩, ?bound⟩]
  · exact Nat.zero_max _
  case mem => exact List.mem_filter.mpr ⟨hw, by simp [hf]⟩
  case bound => exact List.forall_mem_map.mpr (by simpa using newest)

theorem TxQueue.weigh_evicts {q : TxQueue} {k : TxKind} {worst : Nat} (h : q.leastUrgent = some worst)
    (hk : k.cls < worst) (body : List Byte) : q.weigh k body = (({ q with
      records := q.records.filter fun r => r.inFlight || !(r.order == q.newestOf worst) }).place k body).drop 1 := by
  unfold TxQueue.weigh
  rw [h]
  exact if_pos hk

theorem TxQueue.weigh_drops {q : TxQueue} {k : TxKind} (h : ∀ worst, q.leastUrgent = some worst → worst ≤ k.cls)
    (body : List Byte) : q.weigh k body = q.drop 1 := by
  unfold TxQueue.weigh
  split
  · exact if_neg (Nat.not_lt.mpr (h _ ‹_›))
  · rfl

/-- Settles O14: with nothing to merge into a full queue weighs the arrival against the newest waiting record of its
least urgent class. -/
theorem fullQueue : Obligations.FullQueue := by
  intro q k body hfull hflies
  have weighs : q.enqueue k body = q.weigh k body := TxQueue.enqueue_weighs
    (fun r hr => by simpa [Record.waits] using hflies r hr) hfull body
  refine ⟨fun w hw hf hnewest hk => ?evicts, fun hurgent => ?drops⟩
  case evicts =>
    have worst : q.leastUrgent = some w.kind.cls := (q.leastUrgent_eq_some _).mpr
      ⟨⟨w, hw, hf, rfl⟩, fun r hr hrf => by rcases hnewest r hr hrf with h | h <;> omega⟩
    have newest : q.newestOf w.kind.cls = w.order :=
      TxQueue.newestOf_eq hw hf fun r hr hrf hc => by rcases hnewest r hr hrf with h | h <;> omega
    rw [weighs, TxQueue.weigh_evicts worst hk, newest]
    rfl
  case drops =>
    refine weighs.trans (TxQueue.weigh_drops (fun worst h => ?_) body)
    obtain ⟨⟨r, hr, hf, rfl⟩, -⟩ := (q.leastUrgent_eq_some worst).mp h
    exact hurgent r hr hf

end Sys2Proof.Machine

namespace Sys2Proof.Machine

/-! ## Deck time: what a clock reads, and the ways it moves (R55, R62, R63) -/

/-! ### Clocks -/

/-- Two stretches of time are one (R55). -/
theorem DeckTime.addMicros_addMicros (t : DeckTime) (m n : Nat) :
    (t.addMicros m).addMicros n = t.addMicros (m + n) := by
  have carry : (t.us + m) / 1000 + ((t.us + m) % 1000 + n) / 1000 = (t.us + (m + n)) / 1000 := by omega
  have rest : ((t.us + m) % 1000 + n) % 1000 = (t.us + (m + n)) % 1000 := by omega
  simp only [DeckTime.addMicros, BitVec.add_assoc, ← BitVec.ofNat_add, carry, rest]

/-- The signed reading of R56 plays no part in a positive difference: less than a millisecond of microseconds does not
outweigh a negative difference of milliseconds. -/
theorem DeckTime.diffMicros_of_pos {t u : DeckTime} (ht : t.us ≤ 999) (h : 0 < t.diffMicros u) :
    t.diffMicros u = ((t.ms - u.ms).toNat : Int) * 1000 + (t.us - u.us) := by
  unfold DeckTime.diffMicros at h ⊢
  have signed := (t.ms - u.ms).toInt_eq_toNat_cond
  split at signed <;> omega

/-- A positive difference, added whole, leads from the one time to the other (R56, R63). -/
theorem DeckTime.addMicros_diffMicros {t u : DeckTime} (ht : t.us ≤ 999) (h : 0 < t.diffMicros u) :
    u.addMicros (t.diffMicros u).toNat = t := by
  have diff := DeckTime.diffMicros_of_pos ht h
  have sum : u.us + (t.diffMicros u).toNat = t.us + 1000 * (t.ms - u.ms).toNat := by omega
  have carry : (t.us + 1000 * (t.ms - u.ms).toNat) / 1000 = (t.ms - u.ms).toNat := by omega
  have rest : (t.us + 1000 * (t.ms - u.ms).toNat) % 1000 = t.us := by omega
  simp only [DeckTime.addMicros, sum, carry, rest, BitVec.ofNat_toNat, BitVec.setWidth_eq, BitVec.add_comm u.ms,
    BitVec.sub_add_cancel]

/-- Settles O24: the offset takes the capture to the sender's time, and the elapsed time comes on top of both. -/
theorem stepAlignsClocks : Obligations.StepAlignsClocks := by
  intro sender capture elapsed hs _ hahead
  calc (capture.addMicros elapsed).addMicros (sender.diffMicros capture).toNat
      = (capture.addMicros (sender.diffMicros capture).toNat).addMicros elapsed := by
        rw [DeckTime.addMicros_addMicros, DeckTime.addMicros_addMicros, Nat.add_comm]
    _ = sender.addMicros elapsed := by rw [DeckTime.addMicros_diffMicros hs hahead]

/-! ### The idle step -/

theorem step_of_nothing_pending {s : State} (h : s.pending = []) : step s = .next (idle s) := by
  unfold step
  rw [h]

theorem idle_of_raised {s : State} (h : s.raised ≠ []) : idle s = takeRaised s :=
  if_neg (by simpa using h)

theorem idle_of_nothing_raised {s : State} (h : s.raised = []) : idle s = tickMicro s :=
  if_pos (by simpa using h)

/-- Settles O2: `idle`'s two ways. -/
theorem emptyQueueStep : Obligations.EmptyQueueStep := by
  intro s hpending
  rw [step_of_nothing_pending hpending]
  refine ⟨fun hraised => ?events, fun hnone => ⟨tickMicro s, ?micro, rfl, rfl, rfl, rfl, rfl, rfl, rfl⟩⟩
  case events =>
    rw [idle_of_raised hraised]
    rfl
  case micro => rw [idle_of_nothing_raised hnone]

/-! ### What moves deck time -/

/-- An idle step passes a microsecond of deck time, or none (R55). -/
theorem idle_now (s : State) : (idle s).dclk.now = s.dclk.now
    ∨ s.dclk.running = true ∧ (idle s).dclk.now = s.dclk.now.addMicros 1 := by
  by_cases hraised : s.raised = []
  · rw [idle_of_nothing_raised hraised]
    cases hrun : s.dclk.running
    · exact .inl (if_neg (by simp [hrun]))
    · exact .inr ⟨rfl, if_pos hrun⟩
  · rw [idle_of_raised hraised]
    exact .inl rfl

/-- A TIME moves deck time by a positive offset, added whole, and by no other (R62, R63). -/
theorem takeTime_now (body : List Byte) (s : State) : (takeTime body s).dclk.now = s.dclk.now
    ∨ 0 < (timeOfBody body).diffMicros s.dclk.capture
      ∧ (takeTime body s).dclk.now = s.dclk.now.addMicros ((timeOfBody body).diffMicros s.dclk.capture).toNat := by
  by_cases hahead : 0 < (timeOfBody body).diffMicros s.dclk.capture
  · obtain ⟨⟨hdclk, -⟩, -⟩ := forwardStep_law ((timeOfBody body).diffMicros s.dclk.capture).toNat s
    rw [takeTime_ahead hahead]
    refine .inr ⟨hahead, ((quietTime_keeps _ true).now rfl).trans ?_⟩
    rw [hdclk]
  · left
    by_cases hnear : -500 ≤ (timeOfBody body).diffMicros s.dclk.capture
    · rw [takeTime_near hnear (by omega)]
      exact (quietTime_keeps s true).now rfl
    · rw [takeTime_behind (by omega)]
      exact (hastenTime_keeps s true).now rfl

/-- A frame that is heard, good and not refused reaches its owner (R16); any other keeps the rules and leaves deck time,
whatever the owner does (R12, R15). -/
theorem receiveFrame_reaches_or_keeps (k : Nat) (f : RxFrame) (ok : Bool) (owner : State → State) (s : State) :
    (hears f s = true ∧ judgeFrame k f = .good ∧ receiveFrame k f ok owner s = owner (heardFrom f s))
      ∨ Keeps true s (receiveFrame k f ok owner s) := by
  by_cases reaches : hears f s = true ∧ judgeFrame k f = .good ∧ ok = true
  · obtain ⟨hh, hj, hok⟩ := reaches
    exact .inl ⟨hh, hj, receiveFrame_passed hh hj hok owner⟩
  · have same : receiveFrame k f ok owner s = receiveFrame k f ok id s := by
      simp only [not_and] at reaches
      unfold receiveFrame
      split
      · rename_i hh
        split
        case h_4 hj => simp [reaches hh hj]
        all_goals rfl
      · rfl
    rw [same]
    exact .inr (receiveFrame_keeps k f ok id s true fun u _ => .refl true u)

/-- RECEIVE_TIME moves deck time by the positive offset of a good frame heard, and in no other way (R62, R63). -/
theorem exec_receiveTime_now {f : RxFrame} {s t : State} (h : exec (.receiveTime f) s = .next t) :
    t.dclk.now = s.dclk.now
    ∨ hears f s = true ∧ judgeFrame 1 f = .good
      ∧ 0 < (timeOfBody f.body).diffMicros (heardFrom f s).dclk.capture
      ∧ t.dclk.now = s.dclk.now.addMicros ((timeOfBody f.body).diffMicros (heardFrom f s).dclk.capture).toNat := by
  obtain rfl := Host.Outcome.next.inj h
  rw [(serve_keeps _ true).now rfl]
  rcases receiveFrame_reaches_or_keeps 1 f (decide (field16 f.body 4 ≤ 999)) (takeTime f.body) s with
    ⟨hh, hj, reached⟩ | keeps
  · rw [reached, ← heardFrom_now f s]
    exact (takeTime_now f.body (heardFrom f s)).imp_right fun ⟨hahead, hnow⟩ => ⟨hh, hj, hahead, hnow⟩
  · exact .inl (keeps.now rfl)

/-- Hearing a frame copies deck time at its first TUNE edge, where it had one, into the capture (R60). -/
theorem heardFrom_capture (f : RxFrame) (s : State) : (heardFrom f s).dclk.capture =
    if f.heard.edge = none then s.dclk.capture else s.dclk.now.subMicros f.heard.age := by
  refine Eq.trans ?_ (heard_moves f.heard s).1
  unfold heardFrom noteClash
  split <;> rfl

theorem leavesNow_eq_false_iff (c : Instr) : leavesNow c = false ↔ ∃ f, c = .receiveTime f := by
  cases c <;> simp [leavesNow]

/-- Settles O58: an idle step by `idle_now`, a TIME by `exec_receiveTime_now`; every other command leaves deck time by
`exec_keeps`. -/
theorem deckTimeMoves : Obligations.DeckTimeMoves := by
  intro s t hstep hpower
  rcases step_cases hstep with ⟨c, rest, hpending, hexec⟩ | ⟨hpending, rfl⟩
  · have hfront : s.pending.head? = some c := by rw [hpending]; rfl
    cases hleaves : leavesNow c with
    | true =>
      obtain ⟨u, hu, keeps⟩ := exec_keeps c { s with pending := rest } fun o l hc =>
        hpower o l (hc ▸ hfront)
      obtain rfl : u = t := Host.Outcome.next.inj (hu.symm.trans hexec)
      exact .inl (keeps.now hleaves)
    | false =>
      obtain ⟨f, rfl⟩ := (leavesNow_eq_false_iff c).mp hleaves
      have moves := exec_receiveTime_now hexec
      rw [heardFrom_capture] at moves
      simp only [heardFrom_capture]
      exact moves.imp_right fun m => .inr ⟨f, hfront, m⟩
  · exact (idle_now s).imp_right fun ⟨hrun, hnow⟩ => .inl ⟨hpending, hrun, hnow⟩

end Sys2Proof.Machine

namespace Sys2Proof.Machine

/-! ## LOADING (R70, R172) -/

/-- Settles O57: every step but POWER_ON's keeps LOADING. -/
theorem loadingStays : Obligations.LoadingStays :=
  fun _ _ loaded hp h => (step_keeps hp h).load loaded

end Sys2Proof.Machine

namespace Sys2Proof.Machine

/-! ## The image scan's chunks (R71, R72) -/

/-- The directory entry that begins at byte `12 * i` of the bytes. -/
def entryAt (bs : List Byte) (i : Nat) : DirEntry := entryOf ((bs.drop (12 * i)).take 12)

/-- The key of the entry before entry `i`: the last one judged where `i` is the first. -/
def keyBefore (c : ScanState) (bs : List Byte) (i : Nat) : Option Key :=
  if i = 0 then c.lastKey else some (entryAt bs (i - 1)).key

/-- An entry passes: it has samples, lies inside the flash and its key is above the one before it (R71). -/
def EntryPasses (flashBlocks : Nat) (last : Option Key) (e : DirEntry) : Prop :=
  1 ≤ e.samples ∧ e.start + (e.samples + 255) / 256 ≤ flashBlocks ∧ ∀ k, last = some k → k.lt e.key = true

/-- The first `n` entries of the bytes pass in order (R71). -/
def EntriesPass (n : Nat) (c : ScanState) (bs : List Byte) : Prop :=
  ∀ i, i < n → EntryPasses c.flashBlocks (keyBefore c bs i) (entryAt bs i)

/-- The scan once the first `n` entries of the bytes have passed, the rest carried (R71). -/
def ScanState.judgedOf (n : Nat) (c : ScanState) (bs : List Byte) : ScanState :=
  { c with
    judged := c.judged + n, lastKey := keyBefore c bs n
    first := if c.first = none ∧ 1 ≤ n then some (entryAt bs 0) else c.first
    carry := bs.drop (12 * n) }

theorem entryPasses_iff (c : ScanState) (e : DirEntry) : EntryPasses c.flashBlocks c.lastKey e ↔
    1 ≤ e.samples ∧ e.start + blocksOf e.samples - 1 < c.flashBlocks
      ∧ (match c.lastKey with | some k => k.lt e.key | none => true) = true := by
  have inside : 1 ≤ e.samples → (e.start + (e.samples + 255) / 256 ≤ c.flashBlocks
      ↔ e.start + blocksOf e.samples - 1 < c.flashBlocks) := by
    unfold blocksOf
    omega
  refine and_congr_right fun h => and_congr (inside h) ?_
  cases c.lastKey <;> simp

theorem judgeEntry_passes {c : ScanState} {e : DirEntry} (h : EntryPasses c.flashBlocks c.lastKey e) :
    judgeEntry c e =
      some { c with judged := c.judged + 1, lastKey := some e.key, first := some (c.first.getD e) } := by
  refine (if_pos ((entryPasses_iff c e).mp h)).trans ?_
  cases c.first <;> rfl

theorem judgeEntry_fails {c : ScanState} {e : DirEntry} (h : ¬ EntryPasses c.flashBlocks c.lastKey e) :
    judgeEntry c e = none := if_neg (mt (entryPasses_iff c e).mpr h)

theorem entryAt_drop (bs : List Byte) (i : Nat) : entryAt (bs.drop 12) i = entryAt bs (i + 1) := by
  unfold entryAt
  rw [List.drop_drop, show 12 + 12 * i = 12 * (i + 1) by omega]

/-- What the entries after the first have before them does not change when the first one leaves. -/
theorem keyBefore_succ (c d : ScanState) (bs : List Byte) (i : Nat) (h : d.lastKey = some (entryAt bs 0).key) :
    keyBefore d (bs.drop 12) i = keyBefore c bs (i + 1) := by
  cases i with
  | zero => exact h
  | succ i =>
    show some (entryAt (bs.drop 12) i).key = some (entryAt bs (i + 1)).key
    rw [entryAt_drop]

/-- The entries in order: all pass and the rest is carried, or the first that fails ends the judging (R71). -/
theorem judgeEntries_eq (n : Nat) (c : ScanState) (bs : List Byte) :
    (EntriesPass n c bs → judgeEntries n c bs = some (c.judgedOf n bs))
    ∧ (¬ EntriesPass n c bs → judgeEntries n c bs = none) := by
  induction n generalizing c bs with
  | zero =>
    refine ⟨fun _ => ?_, fun h => absurd (fun i hi => absurd hi (Nat.not_lt_zero i)) h⟩
    simp [judgeEntries, ScanState.judgedOf, keyBefore]
  | succ n ih =>
    have entry : entryOf (bs.take 12) = entryAt bs 0 := rfl
    unfold judgeEntries
    rw [entry]
    by_cases first : EntryPasses c.flashBlocks c.lastKey (entryAt bs 0)
    · rw [judgeEntry_passes first]
      dsimp only
      generalize hd : ({ c with
        judged := c.judged + 1, lastKey := some (entryAt bs 0).key,
        first := some (c.first.getD (entryAt bs 0)) } : ScanState) = d
      have before : ∀ i, keyBefore d (bs.drop 12) i = keyBefore c bs (i + 1) := fun i =>
        keyBefore_succ c d bs i (by rw [← hd])
      have flash : d.flashBlocks = c.flashBlocks := by rw [← hd]
      have pass : EntriesPass n d (bs.drop 12) ↔ EntriesPass (n + 1) c bs := by
        unfold EntriesPass
        simp only [before, flash, entryAt_drop]
        refine ⟨fun h i hi => ?_, fun h i hi => h (i + 1) (by omega)⟩
        cases i with
        | zero => exact first
        | succ i => exact h i (by omega)
      have stands : d.judgedOf n (bs.drop 12) = c.judgedOf (n + 1) bs := by
        unfold ScanState.judgedOf
        rw [before, List.drop_drop, show 12 + 12 * n = 12 * (n + 1) by omega, ← hd]
        cases c.first <;> simp <;> omega
      rw [← pass, ← stands]
      exact ih d (bs.drop 12)
    · rw [judgeEntry_fails first]
      exact ⟨fun h => absurd (h 0 (by omega)) first, fun _ => rfl⟩

theorem exec_scanChunkDone {data : List Byte} {n left : Nat} {c : ScanState} {s : State}
    (hh : s.csr.hand = some { what := .chunk n, left := left }) (hc : s.csr.scan = some c) (hl : n ≤ data.length) :
    exec (.scanChunkDone data) s = .next (chunkRead c (data.take n) s) := by
  show execScanChunkDone data s = _
  unfold execScanChunkDone
  rw [hh, hc]
  exact if_pos hl

/-- A chunk whose entries do not all pass ends the scan BAD (R72). -/
theorem chunkRead_bad {c : ScanState} {bytes : List Byte} (s : State)
    (h : ¬ EntriesPass ((c.carry ++ bytes).length / 12) c (c.carry ++ bytes)) :
    chunkRead c bytes s = scanBad (transactionGood s) := by
  unfold chunkRead
  dsimp only
  rw [(judgeEntries_eq _ _ _).2 h]

/-- A chunk whose entries all pass ends the scan GOOD where it is the last, and asks for the next one otherwise (R71). -/
theorem chunkRead_passes {c : ScanState} {bytes : List Byte} (s : State)
    (h : EntriesPass ((c.carry ++ bytes).length / 12) c (c.carry ++ bytes)) :
    chunkRead c bytes s =
      if c.bytesLeft = 0
      then scanGood (c.judgedOf ((c.carry ++ bytes).length / 12) (c.carry ++ bytes)) (transactionGood s)
      else nextChunk (c.judgedOf ((c.carry ++ bytes).length / 12) (c.carry ++ bytes)) (transactionGood s) := by
  unfold chunkRead
  dsimp only
  rw [(judgeEntries_eq _ _ _).1 h]
  rfl

/-- What the scan's end leaves in every block, whatever it found of the image (R72, R173). -/
theorem scanEnd_law (c : ClipStore) (s : State) : let t := enterAwake { s with csr := c }
    t.csr = { c with places := t.csr.places, vaPlace := t.csr.vaPlace, hand := t.csr.hand,
                     tags := t.csr.tags, vaTag := t.csr.vaTag }
    ∧ t.stc.state = .awake ∧ t.line.state = .active ∧ t.dclk.now = s.dclk.now ∧ t.prg = s.prg
    ∧ t.jck.jacks = s.jck.jacks ∧ t.txq.records = s.txq.records := by
  obtain ⟨hcsr, hawake, hactive, -, hnow, hrecords, hprg, hjacks, -⟩ := enterAwake_law { s with csr := c }
  exact ⟨hcsr, hawake, hactive, hnow, hprg, hjacks, hrecords⟩

/-- The reader's record once the scan has ended BAD (R72). -/
def ClipStore.bad (c : ClipStore) : ClipStore :=
  { c with image := .bad, fleet := 0, config := .defaults, dirStart := 0, entryCount := 0, first := none, scan := none }

/-- The reader's record once the scan has ended GOOD (R71). -/
def ClipStore.good (c : ClipStore) (x : ScanState) : ClipStore :=
  { c with image := .good, fleet := x.fleet, config := configOf x.configBytes, dirStart := x.dirStart,
           entryCount := x.count, first := x.first, scan := none }

theorem scanBad_eq (s : State) : scanBad s = enterAwake { s with csr := s.csr.bad } := rfl

theorem scanGood_eq (x : ScanState) (s : State) : scanGood x s = enterAwake { s with csr := s.csr.good x } := rfl

/-- Settles O7: the entries by `judgeEntries_eq`, the two ends of the scan by what entry to AWAKE leaves. -/
theorem scanChunkDone : Obligations.ScanChunkDone := by
  intro data n left c s hh hc hl all m e before sound first
  have pass : EntriesPass m c all ↔ sound := Iff.rfl
  rw [exec_scanChunkDone hh hc hl]
  refine ⟨fun bad => ?_, fun good last => ?_, fun good more => ?_⟩
  · rw [chunkRead_bad s (mt pass.1 bad), scanBad_eq]
    obtain ⟨hcsr, hawake, hactive, hnow, hprg, -⟩ := scanEnd_law (transactionGood s).csr.bad (transactionGood s)
    refine ⟨_, rfl, ?_, ?_, ?_, ?_, ?_, hawake, hactive, ?_, hnow, hprg⟩ <;> exact congrArg _ hcsr
  · rw [chunkRead_passes s (pass.2 good), if_pos last, scanGood_eq]
    obtain ⟨hcsr, hawake, hactive, hnow, hprg, -⟩ :=
      scanEnd_law ((transactionGood s).csr.good (c.judgedOf m all)) (transactionGood s)
    refine ⟨_, rfl, ?_, ?_, ?_, ?_, ?_, ?_, hawake, hactive, ?_, hnow, hprg⟩ <;> exact congrArg _ hcsr
  · rw [chunkRead_passes s (pass.2 good), if_neg (by omega)]
    rfl

end Sys2Proof.Machine

namespace Sys2Proof.Machine

/-! ## The halving search (R33, R74, R75) -/

/-- A key's place in the directory's order: kind, then number, then language (R33). -/
def Key.rank (k : Key) : ℕ ×ₗ ℕ ×ₗ ℕ := toLex (k.kind, toLex (k.number, k.language))

theorem Key.lt_iff (k l : Key) : k.lt l = true ↔ k.rank < l.rank := by
  simp [Key.lt, Key.rank, Prod.Lex.toLex_lt_toLex]

/-- The directory's first `n` entries stand in the order of their keys (R33). -/
def DirSorted (dir : Nat → DirEntry) (n : Nat) : Prop := ∀ i j, i < j → j < n → (dir i).key.lt (dir j).key = true

theorem DirSorted.rank_lt {dir : Nat → DirEntry} {n i j : Nat} (h : DirSorted dir n) (hij : i < j) (hj : j < n) :
    (dir i).key.rank < (dir j).key.rank := (Key.lt_iff _ _).mp (h i j hij hj)

/-- An entry whose key is at or below another's does not stand after it. -/
theorem DirSorted.le_of_rank_le {dir : Nat → DirEntry} {n i j : Nat} (h : DirSorted dir n) (hi : i < n)
    (hr : (dir i).key.rank ≤ (dir j).key.rank) : i ≤ j := by
  by_contra hij
  exact absurd (h.rank_lt (not_le.mp hij) hi) hr.not_gt

theorem runSearch_result (dir : Nat → DirEntry) (c : ClipStore) (n : Nat) (r : Option Clip) :
    runSearch dir c n (.result r) = .result r := by
  cases n <;> rfl

/-- What a search over `[lo, hi]` comes to with `n` turns and `k` to spare: the clip of the entry with the key, or the
search goes on from absent with at least `k` turns left. -/
def SearchEnds (dir : Nat → DirEntry) (c : ClipStore) (l : LookupReq) (lo hi k : Nat) (answer : SearchNext) : Prop :=
  (∀ i, lo ≤ i → i ≤ hi → (dir i).key = l.key → answer = .result (some (dir i).clip))
  ∧ ((∀ i, lo ≤ i → i ≤ hi → (dir i).key ≠ l.key) →
      ∃ m, k ≤ m ∧ answer = runSearch dir c m (searchAbsent c.config.house l))

theorem searchHalve_of_le {house lo hi : Nat} (l : LookupReq) (h : lo ≤ hi) :
    searchHalve house l lo hi = .probe ((lo + hi) / 2) { l with bounds := some (lo, hi) } := if_pos h

theorem searchHalve_of_gt {house lo hi : Nat} (l : LookupReq) (h : hi < lo) :
    searchHalve house l lo hi = searchAbsent house l := if_neg (by omega)

/-- Fewer than `2 ^ n` entries are searched in `n` turns (R75). -/
theorem searchHalve_ends {dir : Nat → DirEntry} {c : ClipStore} (sorted : DirSorted dir c.entryCount) (l : LookupReq)
    (k n lo hi : Nat) (hlo : 1 ≤ lo) (hhi : hi < c.entryCount) (hn : hi + 1 - lo < 2 ^ n) :
    SearchEnds dir c l lo hi k (runSearch dir c (n + k) (searchHalve c.config.house l lo hi)) := by
  induction n generalizing lo hi with
  | zero =>
    rw [searchHalve_of_gt l (by omega)]
    exact ⟨fun i h1 h2 => absurd (h1.trans h2) (by omega), fun _ => ⟨0 + k, by omega, rfl⟩⟩
  | succ n ih =>
    rcases lt_or_ge hi lo with empty | le
    · rw [searchHalve_of_gt l empty]
      exact ⟨fun i h1 h2 => absurd (h1.trans h2) (by omega), fun _ => ⟨n + 1 + k, by omega, rfl⟩⟩
    obtain ⟨mid, hmid⟩ : ∃ mid, mid = (lo + hi) / 2 := ⟨_, rfl⟩
    rw [searchHalve_of_le l le, ← hmid, show n + 1 + k = (n + k) + 1 by omega]
    show SearchEnds dir c l lo hi k
      (runSearch dir c (n + k) (searchProbed c { l with bounds := some (lo, hi) } mid (dir mid)))
    unfold searchProbed
    dsimp only
    by_cases here : (dir mid).key = l.key
    · rw [if_pos here, runSearch_result]
      refine ⟨fun i _ h2 hi => ?_, fun none => absurd here (none mid (by omega) (by omega))⟩
      have same : (dir i).key.rank = (dir mid).key.rank := by rw [hi, here]
      rw [le_antisymm (sorted.le_of_rank_le (by omega) same.le) (sorted.le_of_rank_le (by omega) same.ge)]
    rw [if_neg here]
    by_cases below : l.key.lt (dir mid).key = true
    · rw [if_pos below]
      have left : ∀ i, i ≤ hi → (dir i).key = l.key → i ≤ mid - 1 := fun i h2 hi => by
        have i_lt : (dir i).key.rank < (dir mid).key.rank := hi ▸ (Key.lt_iff _ _).mp below
        have : i ≠ mid := fun e => i_lt.ne (by rw [e])
        have := sorted.le_of_rank_le (i := i) (by omega) i_lt.le
        omega
      obtain ⟨found, absent⟩ := ih lo (mid - 1) hlo (by omega) (by omega)
      exact ⟨fun i h1 h2 hi => found i h1 (left i h2 hi) hi, fun none => absent fun i h1 h2 => none i h1 (by omega)⟩
    · rw [if_neg below]
      have right : ∀ i, i ≤ hi → (dir i).key = l.key → mid + 1 ≤ i := fun i h2 hi => by
        have mid_le : (dir mid).key.rank ≤ (dir i).key.rank := by
          rw [hi]
          exact not_lt.mp fun h => below ((Key.lt_iff _ _).mpr h)
        have : i ≠ mid := fun e => here (e ▸ hi)
        have := sorted.le_of_rank_le (j := i) (by omega) mid_le
        omega
      obtain ⟨found, absent⟩ := ih (mid + 1) hi (by omega) hhi (by omega)
      exact ⟨fun i _ h2 hi => found i (right i h2 hi) h2 hi, fun none => absent fun i h1 h2 => none i (by omega) h2⟩

/-- A search from its beginning takes 15 turns at most in a directory of up to 32,768 entries (R75). -/
theorem searchNext_ends {dir : Nat → DirEntry} {c : ClipStore} (sorted : DirSorted dir c.entryCount)
    (h1 : 1 ≤ c.entryCount) (hmax : c.entryCount ≤ 32768) (first : c.first = some (dir 0)) {l : LookupReq}
    (hb : l.bounds = none) (k : Nat) :
    SearchEnds dir c l 0 (c.entryCount - 1) k (runSearch dir c (15 + k) (searchNext c l)) := by
  unfold searchNext
  rw [hb, first]
  dsimp only
  rw [if_neg (by omega)]
  by_cases below : l.key.lt (dir 0).key = true
  · rw [if_pos below]
    refine ⟨fun i _ hi e => ?_, fun _ => ⟨15 + k, by omega, rfl⟩⟩
    have i_lt : (dir i).key.rank < (dir 0).key.rank := e ▸ (Key.lt_iff _ _).mp below
    have := sorted.le_of_rank_le (i := i) (by omega) i_lt.le
    exact absurd (by rw [Nat.le_zero.mp this]) i_lt.ne
  rw [if_neg below]
  by_cases here : l.key = (dir 0).key
  · rw [if_pos here, runSearch_result]
    refine ⟨fun i _ hi e => ?_, fun none => absurd here.symm (none 0 le_rfl (by omega))⟩
    have := sorted.le_of_rank_le (i := i) (j := 0) (by omega) (by rw [e, here])
    rw [Nat.le_zero.mp this]
  · rw [if_neg here]
    obtain ⟨found, absent⟩ :=
      searchHalve_ends sorted l k 15 1 (c.entryCount - 1) le_rfl (by omega) (by omega)
    refine ⟨fun i _ hi e => found i ?_ hi e, fun none => absent fun i _ hi => none i (Nat.zero_le i) hi⟩
    by_contra hi
    obtain rfl : i = 0 := by omega
    exact here e.symm

/-- Absent in the language asked, a CUE or a STOP is searched for again in the house language (R74). -/
theorem searchAbsent_second {house : Nat} {l : LookupReq} (hk : l.key.kind = 0 ∨ l.key.kind = 1)
    (hs : l.second = false) (hl : l.key.language ≠ house) : searchAbsent house l =
      .second { key := { l.key with language := house }, second := true, bounds := none } :=
  if_pos ⟨hk, by simp [hs], hl⟩

/-- Absent where no second search is due, the answer is NONE (R74). -/
theorem searchAbsent_none {house : Nat} {l : LookupReq}
    (h : (l.key.kind = 0 ∨ l.key.kind = 1) → l.second = true ∨ l.key.language = house) :
    searchAbsent house l = .result none :=
  if_neg fun ⟨hk, hs, hl⟩ => (h hk).elim hs hl

/-- Settles O8: the first search by `searchNext_ends` with 16 turns to spare, of which one begins the second search and
15 make it. -/
theorem searchFindsKey : Obligations.SearchFindsKey := by
  intro dir c key h1 hmax hfirst sorted holds fallback answer
  have ends : ∀ (l : LookupReq) (k : Nat), l.bounds = none →
      SearchEnds dir c l 0 (c.entryCount - 1) k (runSearch dir c (15 + k) (searchNext c l)) :=
    fun l k hb => searchNext_ends sorted h1 hmax hfirst hb k
  have absentOf : ∀ {k : Key}, (∀ i, ¬ holds k i) → ∀ i, 0 ≤ i → i ≤ c.entryCount - 1 → (dir i).key ≠ k :=
    fun h i _ hi e => h i ⟨by omega, e⟩
  obtain ⟨found, absent⟩ := ends { key := key, second := false, bounds := none } 16 rfl
  have second : (∀ i, ¬ holds key i) → (key.kind = 0 ∨ key.kind = 1) → key.language ≠ c.config.house →
      ∃ m, answer = runSearch dir c (15 + m)
        (searchNext c { key := fallback, second := true, bounds := none }) := fun none hk hl => by
    obtain ⟨m, hm, e⟩ := absent (absentOf none)
    rw [searchAbsent_second hk rfl hl] at e
    obtain ⟨r, rfl⟩ : ∃ r, m = (15 + r) + 1 := ⟨m - 16, by omega⟩
    exact ⟨r, e⟩
  have sameKey : key.language = c.config.house → fallback = key := fun hl => by
    show { key with language := c.config.house } = key
    rw [← hl]
  refine ⟨fun i ⟨hi, e⟩ => found i (Nat.zero_le i) (by omega) e, fun none hk i ⟨hi, e⟩ => ?_, fun none noFallback => ?_⟩
  · obtain ⟨m, answered⟩ := second none hk fun hl => none i ⟨hi, e.trans (sameKey hl)⟩
    rw [answered]
    exact (ends _ m rfl).1 i (Nat.zero_le i) (by omega) e
  · by_cases due : (key.kind = 0 ∨ key.kind = 1) ∧ key.language ≠ c.config.house
    · obtain ⟨m, answered⟩ := second none due.1 due.2
      obtain ⟨m', -, e⟩ := (ends { key := fallback, second := true, bounds := Option.none } m rfl).2
        (absentOf (noFallback due.1))
      rw [answered, e, searchAbsent_none fun _ => .inl rfl, runSearch_result]
    · obtain ⟨m, -, e⟩ := absent (absentOf none)
      refine e.trans ?_
      rw [searchAbsent_none fun hk => .inr (by by_contra hl; exact due ⟨hk, hl⟩), runSearch_result]

end Sys2Proof.Machine

namespace Sys2Proof.Machine

/-! ## The failure run (R83, R84) -/

theorem transactionFailed_fault (s : State) :
    (transactionFailed s).csr.flashFault = (s.csr.flashFault || decide (7 ≤ s.csr.failureRun)) := by
  have full : (min 8 (s.csr.failureRun + 1) == 8) = decide (7 ≤ s.csr.failureRun) := by
    rw [Bool.eq_iff_iff, beq_iff_eq, decide_eq_true_iff]
    omega
  exact congrArg (s.csr.flashFault || ·) full

/-- What the judging of the image leaves: the failure run with its flag, deck time, the programme, the jacks' records
and the queue's. -/
structure ScanMoves (s t : State) : Prop where
  run : t.csr.failureRun = s.csr.failureRun
  fault : t.csr.flashFault = s.csr.flashFault
  now : t.dclk.now = s.dclk.now
  prg : t.prg = s.prg
  jacks : t.jck.jacks = s.jck.jacks
  records : t.txq.records = s.txq.records

theorem scanEnd_moves {c : ClipStore} {s : State} (hrun : c.failureRun = s.csr.failureRun)
    (hfault : c.flashFault = s.csr.flashFault) : ScanMoves s (enterAwake { s with csr := c }) := by
  obtain ⟨hcsr, -, -, hnow, hprg, hjacks, hrecords⟩ := scanEnd_law c s
  exact ⟨(congrArg ClipStore.failureRun hcsr).trans hrun, (congrArg ClipStore.flashFault hcsr).trans hfault,
    hnow, hprg, hjacks, hrecords⟩

theorem scanBad_moves (s : State) : ScanMoves s (scanBad s) := scanEnd_moves (c := s.csr.bad) rfl rfl

theorem scanGood_moves (c : ScanState) (s : State) : ScanMoves s (scanGood c s) :=
  scanEnd_moves (c := s.csr.good c) rfl rfl

theorem nextChunk_moves (c : ScanState) (s : State) : ScanMoves s (nextChunk c s) := ⟨rfl, rfl, rfl, rfl, rfl, rfl⟩

theorem headerRead_moves (data : List Byte) (s : State) : ScanMoves (transactionGood s) (headerRead data s) := by
  cases hp : headerPasses data with
  | false => rw [headerRead_bad hp]; exact scanBad_moves _
  | true =>
    rcases Nat.eq_zero_or_pos (field16 data 14) with hc | hc
    · rw [headerRead_empty hp hc]; exact scanGood_moves _ _
    · rw [headerRead_scans hp hc]; exact nextChunk_moves _ _

theorem chunkRead_moves (c : ScanState) (bytes : List Byte) (s : State) :
    ScanMoves (transactionGood s) (chunkRead c bytes s) := by
  by_cases h : EntriesPass ((c.carry ++ bytes).length / 12) c (c.carry ++ bytes)
  · rw [chunkRead_passes s h]
    split
    · exact scanGood_moves _ _
    · exact nextChunk_moves _ _
  · rw [chunkRead_bad s h]
    exact scanBad_moves _

/-- A good transaction of a form, by what it leaves beside the run (R84). -/
theorem ScanMoves.good {s t : State} (h : ScanMoves (transactionGood s) t) :
    t.csr.failureRun = 0 ∧ t.csr.flashFault = false ∧ t.dclk.now = s.dclk.now ∧ t.prg = s.prg
      ∧ t.jck.jacks = s.jck.jacks ∧ t.txq.records = s.txq.records :=
  ⟨h.run, h.fault, h.now, h.prg, h.jacks, h.records⟩

theorem VoiceFrame.good {s t : State} (h : VoiceFrame (transactionGood s) t) :
    t.csr.failureRun = 0 ∧ t.csr.flashFault = false ∧ t.dclk = s.dclk ∧ t.prg = s.prg
      ∧ t.line = s.line ∧ t.txq = s.txq ∧ t.jck = s.jck :=
  ⟨congrArg ClipStore.failureRun h.csr, congrArg ClipStore.flashFault h.csr, h.dclk, h.prg, h.line, h.txq, h.jck⟩

theorem exec_probeDone {data : List Byte} {v : VoiceId} {tag : Word16} {index left : Nat} {s : State}
    (hh : s.csr.hand = some { what := .probe v tag index, left := left }) (hl : 12 ≤ data.length) :
    exec (.probeDone data) s = .next (probeRead v index (entryOf data) s) := by
  show execProbeDone data s = _
  unfold execProbeDone
  rw [hh]
  exact if_pos hl

theorem exec_blockReadDone {data : List Byte} {v : VoiceId} {tag : Word16} {b : BlockReq} {left : Nat} {s : State}
    (hh : s.csr.hand = some { what := .block v tag b, left := left }) (hl : storedIn b.samples b.number ≤ data.length) :
    exec (.blockReadDone data) s = .next (blockRead v tag b (data.take (storedIn b.samples b.number)) s) := by
  show execBlockReadDone data s = _
  unfold execBlockReadDone
  rw [hh]
  exact if_pos hl

theorem probeRead_frame (v : VoiceId) (index : Nat) (e : DirEntry) (s : State) :
    VoiceFrame (transactionGood s) (probeRead v index e s) := by
  unfold probeRead
  dsimp only
  split
  · split
    · exact (lookupStands_frame _ _ _ _).trans (serve_frame _)
    · exact serve_frame _
  · exact serve_frame _

theorem blockRead_frame (v : VoiceId) (tag : Word16) (b : BlockReq) (stored : List Byte) (s : State) :
    VoiceFrame (transactionGood s) (blockRead v tag b stored s) :=
  ((closePlace_frame _ _).trans (deliverBlock_frame _ _ _ _ _)).trans (serve_frame _)

/-- The timeout of a transaction that is the scan's (R72, R83). -/
theorem exec_timeout_scan {h : InHand} {s : State} (hh : s.csr.hand = some h)
    (hw : h.what = .header ∨ ∃ n, h.what = .chunk n) :
    exec .transactionTimeout s = .next (scanBad (transactionFailed s)) := by
  show execTransactionTimeout s = _
  unfold execTransactionTimeout
  rw [hh]
  dsimp only
  rcases hw with hw | ⟨n, hw⟩ <;> rw [hw]

/-- The timeout of a transaction that serves a voice (R83). -/
theorem exec_timeout_voice {h : InHand} {s : State} (hh : s.csr.hand = some h)
    (hw : ¬ (h.what = .header ∨ ∃ n, h.what = .chunk n)) :
    ∃ t, exec .transactionTimeout s = .next t ∧ VoiceFrame (transactionFailed s) t := by
  show ∃ t, execTransactionTimeout s = .next t ∧ _
  unfold execTransactionTimeout
  rw [hh]
  dsimp only
  cases what : h.what with
  | header => exact absurd (.inl what) hw
  | chunk n => exact absurd (.inr ⟨n, what⟩) hw
  | probe v tag i =>
    exact ⟨_, rfl, ((closePlace_frame _ _).trans (deliverLookup_frame _ _ _ _)).trans (serve_frame _)⟩
  | block v tag b =>
    exact ⟨_, rfl, ((closePlace_frame _ _).trans (deliverBlock_frame _ _ _ _ _)).trans (serve_frame _)⟩

/-- Settles O11: what a transaction leaves, by its form: the scan's through `ScanMoves`, a voice's through
`VoiceFrame`. -/
theorem failureRun : Obligations.FailureRun := by
  intro h s hh
  refine ⟨?timeout, fun data => ⟨fun hw hl => ?header, fun n c hw hc hl => ?chunk, fun v tag i hw hl => ?probe,
    fun v tag b hw hl => ?block⟩⟩
  case timeout =>
    by_cases scan : h.what = .header ∨ ∃ n, h.what = .chunk n
    · have moves := scanBad_moves (transactionFailed s)
      obtain ⟨hcsr, hawake, -⟩ := scanEnd_law (transactionFailed s).csr.bad (transactionFailed s)
      refine ⟨_, exec_timeout_scan hh scan, moves.run, moves.fault.trans (transactionFailed_fault s), moves.now,
        moves.prg, moves.jacks, moves.records, fun voice => ?_, fun _ =>
        ⟨congrArg ClipStore.image hcsr, hawake, congrArg ClipStore.config hcsr⟩⟩
      rcases scan with w | ⟨_, w⟩ <;> rcases voice with ⟨_, _, _, w'⟩ | ⟨_, _, _, w'⟩ <;> rw [w] at w' <;> cases w'
    · obtain ⟨t, e, f⟩ := exec_timeout_voice hh scan
      exact ⟨t, e, congrArg ClipStore.failureRun f.csr,
        (congrArg ClipStore.flashFault f.csr).trans (transactionFailed_fault s), congrArg DeckClock.now f.dclk, f.prg,
        congrArg JackUnit.jacks f.jck, congrArg TxQueue.records f.txq, fun _ => ⟨f.line, f.txq, f.jck⟩,
        fun w => absurd w scan⟩
  all_goals
    obtain ⟨what, left⟩ := h
    obtain rfl : what = _ := hw
  · exact ⟨_, exec_headerReadDone hh hl, (headerRead_moves data s).good⟩
  · exact ⟨_, exec_scanChunkDone hh hc hl, (chunkRead_moves c _ s).good⟩
  · exact ⟨_, exec_probeDone hh hl, (probeRead_frame v i _ s).good⟩
  · exact ⟨_, exec_blockReadDone hh hl, (blockRead_frame v tag b _ s).good⟩

end Sys2Proof.Machine

namespace Sys2Proof.Machine

/-! ## The reader with one request waiting (R69, R77, R79) -/

/-- No voice but `v` has a request. -/
def OnlyRequests (v : VoiceId) (s : State) : Prop := ∀ w, w ≠ v → placeOf s w = none

theorem OnlyRequests.setPlace {v : VoiceId} {s : State} (h : OnlyRequests v s) (r : Option Request) :
    OnlyRequests v (setPlace v r s) := fun w hw => by rw [placeOf_setPlace, if_neg hw.symm, h w hw]

theorem OnlyRequests.rests {v : VoiceId} {s : State} (h : OnlyRequests v s) (hv : placeOf s v = none) :
    ReaderRests s :=
  .inr fun w => if e : w = v then e ▸ hv else h w e

@[simp] theorem placeOf_setPlay (v w : VoiceId) (p : Play) (s : State) :
    placeOf (setPlay w p s) v = placeOf s v := by
  cases v <;> simp [placeOf]

@[simp] theorem placeOf_transactionGood (s : State) (v : VoiceId) : placeOf (transactionGood s) v = placeOf s v := by
  cases v <;> rfl

@[simp] theorem tagOf_setPlace (v w : VoiceId) (r : Option Request) (s : State) :
    tagOf (setPlace w r s) v = tagOf s v := by
  cases v <;> simp [tagOf]

@[simp] theorem tagOf_setPlay (v w : VoiceId) (p : Play) (s : State) : tagOf (setPlay w p s) v = tagOf s v := by
  cases v <;> simp [tagOf]

theorem setPlace_setPlace (v : VoiceId) (r q : Option Request) (s : State) :
    setPlace v q (setPlace v r s) = setPlace v q s := by
  cases v with
  | slot i => cases i <;> rfl
  | va => rfl

theorem setPlace_setPlay (v w : VoiceId) (r : Option Request) (p : Play) (s : State) :
    setPlace v r (setPlay w p s) = setPlay w p (setPlace v r s) := by
  cases v <;> cases w <;> rfl

theorem begin_setPlace (v : VoiceId) (t : Transaction) (r : Option Request) (s : State) :
    begin t (setPlace v r s) = setPlace v r (begin t s) := by
  cases v <;> rfl

theorem begin_setPlay (v : VoiceId) (t : Transaction) (p : Play) (s : State) :
    begin t (setPlay v p s) = setPlay v p (begin t s) := by
  cases v <;> rfl

/-- The only request is chosen (R79). -/
theorem choose_only {v : VoiceId} {r : Request} {s : State} (hv : placeOf s v = some r) (hw : r.inHand = false)
    (h : OnlyRequests v s) : choose s = some (v, r) := by
  cases v with
  | va =>
    have here : s.csr.vaPlace = some r := hv
    simp [choose, here, hw]
  | slot i =>
    have va : s.csr.vaPlace = none := h .va nofun
    have others : ∀ k, k ≠ i → waitingAt s k = none := fun k hk => by
      have : s.csr.places.get k = none := h (.slot k) fun e => hk (VoiceId.slot.inj e)
      simp [waitingAt, this]
    have here : waitingAt s i = some (i, r, dueIn s r) := by
      have : s.csr.places.get i = some r := hv
      simp [waitingAt, this, hw]
    cases i <;> simp [choose, va, here, others, earlier]

theorem serveFor_of_hand (n : Nat) {s : State} (h : s.csr.hand.isSome = true) : serveFor n s = s := by
  cases n with
  | zero => rfl
  | succ n => exact if_pos h

/-- The only request is taken up, and the reader rests again (R69, R79). -/
theorem serve_only {v : VoiceId} {r : Request} {s : State} (hh : s.csr.hand = none) (hv : placeOf s v = some r)
    (hw : r.inHand = false) (h : OnlyRequests v s) (rests : (takeUp v r s).csr.hand.isSome = true) :
    serve s = takeUp v r s := by
  have once : serve s = serveFor 99 (takeUp v r s) := by
    unfold serve
    show serveFor (99 + 1) s = _
    unfold serveFor
    rw [hh, choose_only hv hw h]
    rfl
  exact once.trans (serveFor_of_hand 99 rests)

/-- A waiting lookup whose search wants a probe is the only request: the probe begins (R75, R80). -/
theorem serve_probes {v : VoiceId} {r : Request} {l l' : LookupReq} {index : Nat} {s : State} (hh : s.csr.hand = none)
    (hb : r.body = .lookup l) (hw : r.inHand = false) (h : OnlyRequests v s)
    (hn : searchNext s.csr l = .probe index l') :
    serve (setPlace v (some r) s) = setPlace v (some { r with body := .lookup l', inHand := true })
      (begin (.probe v r.tag index) s) := by
  have next : searchNext (setPlace v (some r) s).csr l = .probe index l' := by
    rw [← hn]
    cases v <;> rfl
  have up : takeUp v r (setPlace v (some r) s) = setPlace v (some { r with body := .lookup l', inHand := true })
      (begin (.probe v r.tag index) s) := by
    unfold takeUp
    rw [hb]
    dsimp only
    rw [next]
    dsimp only
    rw [setPlace_setPlace, begin_setPlace]
  rw [serve_only (by simpa using hh) (by simp) hw (h.setPlace _) (by rw [up]; simp), up]

/-- A waiting block of the clip is the only request: its read begins (R81). -/
theorem serve_reads {v : VoiceId} {r : Request} {b : BlockReq} {s : State} (hh : s.csr.hand = none)
    (hb : r.body = .block b) (hw : r.inHand = false) (h : OnlyRequests v s) (hn : b.number < blocksOf b.samples) :
    serve (setPlace v (some r) s) = setPlace v (some { r with inHand := true }) (begin (.block v r.tag b) s) := by
  have up : takeUp v r (setPlace v (some r) s) =
      setPlace v (some { r with inHand := true }) (begin (.block v r.tag b) s) := by
    unfold takeUp
    rw [hb]
    dsimp only
    rw [if_pos hn, setPlace_setPlace, begin_setPlace]
  rw [serve_only (by simpa using hh) (by simp) hw (h.setPlace _) (by rw [up]; simp), up]

/-- The block request of a voice's clip (R98, R100). -/
def Play.wants (p : Play) (c : Clip) (k : Nat) : BlockReq :=
  { start := c.start, samples := c.samples, number := k, need := p.anchor.addMicros (32000 * k) }

theorem settlePlay_asks (v : VoiceId) {o : PlayOut} {k : Nat} {c : Clip} (s : State) (hk : o.ask = some k)
    (hc : o.play.clip = .clip c) : settlePlay v o s =
      setPlace v (some { tag := tagOf s v, body := .block (o.play.wants c k), inHand := false }) (setPlay v o.play s) := by
  unfold settlePlay
  dsimp only
  rw [hk]
  dsimp only
  unfold issueBlock
  simp only [playOf_setPlay, if_true, hc]
  unfold issue
  rw [tagOf_setPlay]
  rfl

theorem settlePlay_quiet (v : VoiceId) {o : PlayOut} (s : State) (hk : o.ask = none) :
    settlePlay v o s = setPlay v o.play s := by
  unfold settlePlay
  dsimp only
  rw [hk]

/-- A step of playback that asks for a block, of a voice that has no other request: the block is read (R81, R98,
R100). -/
theorem serve_settlePlay_asks {v : VoiceId} {o : PlayOut} {k : Nat} {c : Clip} {s : State} (hh : s.csr.hand = none)
    (h : OnlyRequests v s) (hk : o.ask = some k) (hc : o.play.clip = .clip c) (hn : k < blocksOf c.samples) :
    serve (settlePlay v o s) = setPlay v o.play
      (setPlace v (some { tag := tagOf s v, body := .block (o.play.wants c k), inHand := true })
        (begin (.block v (tagOf s v) (o.play.wants c k)) s)) := by
  rw [settlePlay_asks v s hk hc, serve_reads (by simpa using hh) rfl rfl (fun w hw => by simpa using h w hw) hn,
    begin_setPlay, setPlace_setPlay]

/-! ## A probe's end (R74, R75, R80, R98) -/

theorem probeRead_lookup {v : VoiceId} {r : Request} {l : LookupReq} {s : State} (hv : placeOf s v = some r)
    (hw : r.inHand = true) (hb : r.body = .lookup l) (index : Nat) (e : DirEntry) :
    probeRead v index e s =
      serve (lookupStands v r (searchProbed (transactionGood s).csr l index e) (transactionGood s)) := by
  unfold probeRead
  dsimp only
  rw [placeOf_transactionGood, hv]
  dsimp only
  rw [hw, hb]

theorem searchProbed_found {c : ClipStore} {l : LookupReq} {index : Nat} {e : DirEntry} (h : l.key = e.key) :
    searchProbed c l index e = .result (some e.clip) := if_pos h.symm

theorem searchProbed_above {c : ClipStore} {l : LookupReq} {index lo hi : Nat} {e : DirEntry}
    (hb : l.bounds = some (lo, hi)) (hne : l.key ≠ e.key) (hlt : l.key.lt e.key = true) :
    searchProbed c l index e = searchHalve c.config.house l lo (index - 1) := by
  unfold searchProbed
  rw [if_neg hne.symm, hb]
  exact if_pos hlt

theorem searchProbed_below {c : ClipStore} {l : LookupReq} {index lo hi : Nat} {e : DirEntry}
    (hb : l.bounds = some (lo, hi)) (hne : l.key ≠ e.key) (hlt : l.key.lt e.key = false) :
    searchProbed c l index e = searchHalve c.config.house l (index + 1) hi := by
  unfold searchProbed
  rw [if_neg hne.symm, hb]
  exact if_neg (by simp [hlt])

/-- A search that goes on stands waiting and is probed at its new middle at once (R75, R80). -/
theorem serve_lookupStands_halve {v : VoiceId} {r : Request} {l : LookupReq} {lo hi : Nat} {s : State}
    (hh : s.csr.hand = none) (h : OnlyRequests v s) (le : lo ≤ hi) :
    serve (lookupStands v r (searchHalve s.csr.config.house l lo hi) s) =
      setPlace v (some { r with body := .lookup { l with bounds := some (lo, hi) }, inHand := true })
        (begin (.probe v r.tag ((lo + hi) / 2)) s) := by
  rw [searchHalve_of_le l le]
  exact serve_probes (r := { r with body := .lookup { l with bounds := some (lo, hi) }, inHand := false }) hh rfl rfl h
    (searchHalve_of_le _ le)

/-- A second search stands waiting, and its first probe is made at once where the first entry does not settle it (R74,
R75). -/
theorem serve_lookupStands_second {v : VoiceId} {r : Request} {l : LookupReq} {f : DirEntry} {s : State}
    (hh : s.csr.hand = none) (h : OnlyRequests v s) (hb : l.bounds = none) (hf : s.csr.first = some f)
    (hc : 2 ≤ s.csr.entryCount) (hne : l.key ≠ f.key) (hlt : l.key.lt f.key = false) :
    serve (lookupStands v r (.second l) s) =
      setPlace v (some { r with body := .lookup { l with bounds := some (1, s.csr.entryCount - 1) }, inHand := true })
        (begin (.probe v r.tag (s.csr.entryCount / 2)) s) := by
  have next : searchNext s.csr l = .probe (s.csr.entryCount / 2) { l with bounds := some (1, s.csr.entryCount - 1) } := by
    unfold searchNext
    rw [hb, hf]
    dsimp only
    rw [if_neg (by omega), if_neg (by simp [hlt]), if_neg hne, searchHalve_of_le l (by omega),
      show 1 + (s.csr.entryCount - 1) = s.csr.entryCount by omega]
  exact serve_probes (r := { r with body := .lookup l, inHand := false }) hh rfl rfl h next

/-- A lookup's result reaches a SEEKING slot under its present tag (R82). -/
theorem lookupStands_slot {i : SlotId} {r : Request} {s : State} (ht : r.tag = tagOf s (.slot i)) (x : Option Clip) :
    lookupStands (.slot i) r (.result x) s = actOn (.slot i) ((playOf s (.slot i)).lookedUp s.dclk.now x)
      (setPlace (.slot i) none s) := by
  show deliverLookup (.slot i) r.tag x (setPlace (.slot i) none s) = _
  unfold deliverLookup
  rw [if_pos (ht.trans (tagOf_setPlace _ _ _ _).symm)]
  rfl

/-- A step that leaves a voice not PLAYING and ends nothing is its record and its request alone. -/
theorem actOn_at_rest {v : VoiceId} {o : PlayOut} {s : State} (he : o.ended = false) (hp : o.play.state ≠ .playing) :
    actOn v o s = settlePlay v o s := by
  unfold actOn
  dsimp only
  rw [he, if_neg Bool.false_ne_true]
  exact topUpVoice_at_rest v _ (by rw [(settlePlay_law v o s).1 v, if_pos rfl]; exact hp)

/-- A COMMENTARY slot's clip is over: the slot is SILENT and nobody is told (R105). -/
theorem actOn_ends_commentary {i : SlotId} {s : State} (p : Play)
    (hc : (s.vtab.slots.get i).content = .commentary) :
    actOn (.slot i) p.ends s = setPlay (.slot i) p.silence s := by
  have told : voiceDone (.slot i) (setPlay (.slot i) p.silence s) = setPlay (.slot i) p.silence s := by
    have content : ((setPlay (.slot i) p.silence s).vtab.slots.get i).content = .commentary := by
      simpa [setPlay] using hc
    unfold voiceDone
    dsimp only
    rw [content]
  show topUpVoice (.slot i) (voiceDone (.slot i) (setPlay (.slot i) p.silence s)) = _
  rw [told]
  exact topUpVoice_at_rest _ _ (by simp [Play.silence])

/-- A clip looked up in time: the block that the timeline index stands in is asked for, block 0 before the anchor
(R98). -/
theorem Play.lookedUp_asks {p : Play} {now : DeckTime} {c : Clip}
    (h : now.diffMicros p.anchor < 0 ∨ (0 ≤ now.diffMicros p.anchor ∧ now.diffMicros p.anchor / 125 < c.samples)) :
    let k := (now.diffMicros p.anchor / 125).toNat / 256
    p.lookedUp now (some c) =
      { play := { p with clip := .clip c, bufX := .filling k }, ask := some k, ended := false } := by
  intro k
  unfold Play.lookedUp
  dsimp only
  rcases h with before | ⟨reached, inside⟩
  · have zero : k = 0 := by omega
    rw [if_pos (by simpa [beforeAnchor] using before), zero]
  · have index : indexNow now { p with clip := .clip c } < c.samples := by
      unfold indexNow timelineIndex
      dsimp only
      omega
    rw [if_neg (by simpa [beforeAnchor] using reached), if_neg (by omega)]
    rfl

/-- The block that holds an index inside a clip is a block of the clip. -/
theorem block_lt_blocksOf {late : Int} {samples : Nat} (h1 : 1 ≤ samples)
    (h : late < 0 ∨ (0 ≤ late ∧ late / 125 < samples)) : (late / 125).toNat / 256 < blocksOf samples := by
  unfold blocksOf
  omega

/-- The clip found for a SEEKING slot in time: its first block is read (R81, R98). -/
theorem serve_lookupStands_found {i : SlotId} {r : Request} {c : Clip} {s : State} (hh : s.csr.hand = none)
    (h : OnlyRequests (.slot i) s) (ht : r.tag = tagOf s (.slot i)) (hs : (playOf s (.slot i)).state = .seeking)
    (h1 : 1 ≤ c.samples) :
    let p := playOf s (.slot i)
    let late := s.dclk.now.diffMicros p.anchor
    let k := (late / 125).toNat / 256
    (late < 0 ∨ (0 ≤ late ∧ late / 125 < c.samples)) → serve (lookupStands (.slot i) r (.result (some c)) s) =
      setPlay (.slot i) { p with clip := .clip c, bufX := .filling k }
        (setPlace (.slot i) (some { tag := r.tag, body := .block (p.wants c k), inHand := true })
          (begin (.block (.slot i) r.tag (p.wants c k)) s)) := by
  intro p late k hin
  have asked : p.lookedUp s.dclk.now (some c) = _ := Play.lookedUp_asks hin
  rw [lookupStands_slot ht, asked, actOn_at_rest rfl (by show p.state ≠ _; rw [hs]; decide),
    serve_settlePlay_asks (by simpa using hh) (h.setPlace none) rfl rfl (block_lt_blocksOf h1 hin), begin_setPlace,
    setPlace_setPlace, tagOf_setPlace, ← ht]
  rfl

/-- No clip for a COMMENTARY slot: it is SILENT, its clip NONE (R98). -/
theorem serve_lookupStands_none {i : SlotId} {r : Request} {s : State} (h : OnlyRequests (.slot i) s)
    (ht : r.tag = tagOf s (.slot i)) (hc : (s.vtab.slots.get i).content = .commentary) :
    serve (lookupStands (.slot i) r (.result none) s) =
      setPlay (.slot i) { playOf s (.slot i) with clip := .none }.silence (setPlace (.slot i) none s) := by
  have ended : (playOf s (.slot i)).lookedUp s.dclk.now none = Play.ends { playOf s (.slot i) with clip := .none } := rfl
  have rest : OnlyRequests (.slot i) (setPlay (.slot i) { playOf s (.slot i) with clip := .none }.silence
      (setPlace (.slot i) none s)) := fun w hw => by rw [placeOf_setPlay, h.setPlace none w hw]
  rw [lookupStands_slot ht, ended, actOn_ends_commentary _ (by simpa using hc), serve_of_rest (rest.rests (by simp))]

/-- Settles O9: what the search makes of the entry read, and what the reader then takes up. -/
theorem probeDone : Obligations.ProbeDone := by
  intro data v tag index left lo hi r l s hh hl hv hw hb hbounds alone e u probes above below absent
  rw [exec_probeDone hh hl, probeRead_lookup hv hw hb]
  have only : OnlyRequests v u := fun w hw => (placeOf_transactionGood s w).trans (alone w hw)
  have searched : absent → searchProbed (transactionGood s).csr l index (entryOf data) =
      searchAbsent s.csr.config.house l := fun habsent => by
    rcases habsent with ⟨⟨hne, hlt⟩, gone⟩ | ⟨⟨hne, hlt⟩, gone⟩
    · rw [searchProbed_above hbounds hne hlt, searchHalve_of_gt l gone]
      rfl
    · rw [searchProbed_below hbounds hne hlt, searchHalve_of_gt l gone]
      rfl
  refine ⟨fun ⟨hne, hlt⟩ le => ?_, fun ⟨hne, hlt⟩ le => ?_, fun habsent hk hs hlang f hf hc => ?_,
    fun i hi hcontent htag hseek => ?_⟩
  · rw [searchProbed_above hbounds hne hlt]
    exact congrArg _ (serve_lookupStands_halve rfl only le)
  · rw [searchProbed_below hbounds hne hlt]
    exact congrArg _ (serve_lookupStands_halve rfl only le)
  · intro key hne hlt
    rw [searched habsent, searchAbsent_second hk hs hlang]
    exact congrArg _ (serve_lookupStands_second rfl only rfl hf hc hne hlt)
  · intro p c late k wanted
    subst hi
    refine ⟨fun hkey hin h1 => ?_, fun habsent hlast => ?_⟩
    · rw [searchProbed_found hkey]
      exact congrArg _ (serve_lookupStands_found (s := u) (c := c) rfl only htag hseek h1 hin)
    · rw [searched habsent, searchAbsent_none fun _ => hlast]
      exact congrArg _ (serve_lookupStands_none (s := u) only htag hcontent)

end Sys2Proof.Machine

namespace Sys2Proof.Machine

/-! ## A block's arrival (R81, R82, R99 to R101, R105) -/

theorem beforeAnchor_iff (now : DeckTime) (p : Play) : beforeAnchor now p = true ↔ now.diffMicros p.anchor < 0 :=
  decide_eq_true_iff

theorem Play.samples_of_clip {p : Play} {c : Clip} (h : p.clip = .clip c) : p.samples = c.samples := by
  unfold Play.samples
  rw [h]

/-- A timeline index that is not negative has reached a number of samples as it has done as a number (R98). -/
theorem le_indexNow_iff {n : Nat} {now : DeckTime} {p : Play} (h : 0 ≤ now.diffMicros p.anchor ∨ 1 ≤ n) :
    n ≤ indexNow now p ↔ (n : Int) ≤ now.diffMicros p.anchor / 125 := by
  unfold indexNow timelineIndex
  omega

section FirstBlock
variable {p : Play} {c : Clip} {now : DeckTime} {k : Nat} (xs : List Int)

/-- The first block before the anchor: PLAYING from position 0 (R99). -/
theorem Play.firstBlock_early (hx : p.bufX = .filling k) (h : now.diffMicros p.anchor < 0) :
    p.firstBlock now k xs = Play.same { p with bufX := .full k xs, state := .playing, position := 0 } := by
  unfold Play.firstBlock
  rw [if_pos (by simp [hx, Buffer.isFilling]), if_pos ((beforeAnchor_iff now p).mpr h)]

/-- The first block from the anchor on: past the clip's end, the block of the index, or another one (R99). -/
theorem Play.firstBlock_started (hx : p.bufX = .filling k) (hc : p.clip = .clip c) (h : 0 ≤ now.diffMicros p.anchor) :
    p.firstBlock now k xs =
      if c.samples ≤ indexNow now p then p.ends
      else if indexNow now p / 256 = k then
        Play.same { p with bufX := .full k xs, state := .playing, position := indexNow now p }
      else { play := { p with bufX := .filling (indexNow now p / 256) }, ask := some (indexNow now p / 256),
             ended := false } := by
  unfold Play.firstBlock
  rw [if_pos (by simp [hx, Buffer.isFilling]), if_neg (by rw [beforeAnchor_iff]; omega), Play.samples_of_clip hc]

end FirstBlock

/-- What follows a late block that the buffer's new record `p` has set aside (R101, R105; log entries 43 and 46). -/
theorem Play.afterLate_cases {p : Play} {c : Clip} {now : DeckTime} (hc : p.clip = .clip c) (h1 : 1 ≤ c.samples)
    (intoX : Bool) :
    let n := p.position / 256
    let past := c.samples ≤ p.position ∨ (c.samples : Int) ≤ now.diffMicros p.anchor / 125
    (past → p.afterLate now intoX = p.ends)
    ∧ (¬ past → (p.bufX.isFull n || p.bufY.isFull n) = true → p.afterLate now intoX = Play.same p)
    ∧ (¬ past → (p.bufX.isFull n || p.bufY.isFull n) = false → p.afterLate now intoX =
        { play := if intoX then { p with bufX := .filling n } else { p with bufY := .filling n }, ask := some n,
          ended := false }) := by
  intro n past
  have past_iff : (p.samples ≤ p.position ∨ p.samples ≤ indexNow now p) ↔ past := by
    rw [Play.samples_of_clip hc, le_indexNow_iff (.inr h1)]
  unfold Play.afterLate
  dsimp only
  simp only [past_iff]
  refine ⟨fun h => if_pos h, fun h full => ?_, fun h full => ?_⟩
  · rw [if_neg h, if_pos full]
  · rw [if_neg h, if_neg (by rw [full]; exact Bool.false_ne_true)]
    cases intoX <;> rfl

/-- A block that the position has passed leaves the buffer X that waited for it (R101). -/
theorem Play.placed_lateX {p : Play} {k : Nat} (hx : p.bufX = .filling k) (late : k < p.position / 256)
    (now : DeckTime) (xs : List Int) : p.placed now k xs = { p with bufX := .empty }.afterLate now true := by
  unfold Play.placed
  rw [if_pos (by simp [hx, Buffer.isFilling]), if_neg (by omega)]

/-- The same of buffer Y (R101). -/
theorem Play.placed_lateY {p : Play} {k : Nat} (hx : p.bufX.isFilling k = false) (hy : p.bufY = .filling k)
    (late : k < p.position / 256) (now : DeckTime) (xs : List Int) :
    p.placed now k xs = { p with bufY := .empty }.afterLate now false := by
  unfold Play.placed
  rw [if_neg (by simp [hx]), if_pos (by simp [hy, Buffer.isFilling]), if_neg (by omega)]

/-- A block that no buffer waits for is set aside (R101). -/
theorem Play.placed_unasked {p : Play} {k : Nat} (hx : p.bufX.isFilling k = false) (hy : p.bufY.isFilling k = false)
    (now : DeckTime) (xs : List Int) : p.placed now k xs = Play.same p := by
  unfold Play.placed
  rw [if_neg (by simp [hx]), if_neg (by simp [hy])]

theorem Play.blockCame_seeking {p : Play} (h : p.state = .seeking) (now : DeckTime) (k : Nat) (xs : List Int) :
    p.blockCame now k xs = p.firstBlock now k xs := by
  unfold Play.blockCame
  rw [h]

theorem Play.blockCame_playing {p : Play} (h : p.state = .playing) (now : DeckTime) (k : Nat) (xs : List Int) :
    p.blockCame now k xs = p.placed now k xs := by
  unfold Play.blockCame
  rw [h]

/-! ### The block of a PLAYING slot's position -/

/-- The state after a good read that leaves slot `i` with a playback record and a place, and a transaction in hand. -/
def slotServed (i : SlotId) (p : Play) (r : Option Request) (h : Option InHand) (s : State) : State :=
  { s with
    csr.failureRun := 0, csr.flashFault := false, csr.hand := h, csr.places := s.csr.places.set i r,
    vtab.slots := s.vtab.slots.set i { s.vtab.slots.get i with play := p } }

theorem playOf_slotServed (i : SlotId) (p : Play) (r : Option Request) (h : Option InHand) (s : State) :
    playOf (slotServed i p r h s) (.slot i) = p := by
  simp [playOf, slotServed]

/-- What such a read leaves in every block, beside what is said of the slot itself. -/
theorem slotServed_frame (i : SlotId) (p : Play) (r : Option Request) (h : Option InHand) (s : State) {slot : Prop}
    (hslot : slot) :
    let t := slotServed i p r h s
    t.csr.failureRun = 0 ∧ t.csr.flashFault = false ∧ t.line = s.line ∧ t.txq = s.txq ∧ t.dclk = s.dclk
      ∧ t.prg = s.prg ∧ t.ann = s.ann ∧ t.jck = s.jck ∧ t.lvl = s.lvl ∧ t.lmp = s.lmp ∧ t.stc = s.stc
      ∧ t.vtab.va = s.vtab.va ∧ (∀ k, k ≠ i → t.vtab.slots.get k = s.vtab.slots.get k) ∧ slot :=
  ⟨rfl, rfl, rfl, rfl, rfl, rfl, rfl, rfl, rfl, rfl, rfl, rfl, fun _ hk => by simp [slotServed, hk.symm], hslot⟩

/-- A step of playback that asks for nothing and ends nothing, of a voice with no request: its record stands, and the
next block is asked for where one is due (R100). -/
theorem actOn_idle_place {v : VoiceId} {q : Play} {s : State} (h : placeOf s v = none) :
    actOn v (Play.same q) s = settlePlay v (q.topUp false) s := by
  show topUpVoice v (setPlay v q s) = _
  unfold topUpVoice
  have none_out : outstanding (setPlay v q s) v = false := by
    rw [outstanding_setPlay]
    simp [outstanding, h]
  rw [none_out, playOf_setPlay, if_pos rfl]
  cases v <;> unfold settlePlay <;> dsimp only <;> rw [setPlay_setPlay]

/-- With its position's block FULL in X and Y EMPTY, a PLAYING voice asks for the next block of its clip into Y (R100). -/
theorem Play.topUp_intoY {p : Play} {c : Clip} {xs : List Int} (hp : p.state = .playing) (hc : p.clip = .clip c)
    (hb : p.atBoundary = false) (hx : p.bufX = .full (p.position / 256) xs) (hy : p.bufY = .empty) :
    p.topUp false = if p.position / 256 + 1 < blocksOf c.samples
      then { play := { p with bufY := .filling (p.position / 256 + 1) }, ask := some (p.position / 256 + 1),
             ended := false }
      else Play.same p := by
  unfold Play.topUp
  dsimp only
  rw [Play.samples_of_clip hc]
  by_cases more : p.position / 256 + 1 < blocksOf c.samples
  · simp [hp, hb, hx, hy, more, Buffer.holds, Buffer.isFull, Buffer.isFilling]
  · simp [more]

theorem closePlace_inHand {v : VoiceId} {r : Request} {s : State} (hv : placeOf s v = some r) (hw : r.inHand = true) :
    closePlace v s = setPlace v none s := by
  unfold closePlace
  rw [hv]
  exact if_pos hw

/-- A block reaches the voice it was read for, under its present tag (R82). -/
theorem blockRead_delivers {v : VoiceId} {tag : Word16} {r : Request} {s : State} (ht : tag = tagOf s v)
    (hv : placeOf s v = some r) (hw : r.inHand = true) (b : BlockReq) (stored : List Byte) :
    blockRead v tag b stored s = serve (actOn v ((playOf s v).blockCame s.dclk.now b.number (expandBlock stored))
      (setPlace v none (transactionGood s))) := by
  have tag_eq : tag = tagOf (setPlace v none (transactionGood s)) v := by
    rw [tagOf_setPlace, ht]
    cases v <;> rfl
  unfold blockRead deliverBlock
  rw [closePlace_inHand ((placeOf_transactionGood s v).trans hv) hw, if_pos tag_eq]
  cases v <;> rfl

/-- The block of a PLAYING slot's position has come: its buffer is FULL, and the next block of the clip is read into the
other one where there is one (R81, R100, R101). -/
theorem blockRead_position {i : SlotId} {tag : Word16} {r : Request} {c : Clip} {s : State} {b : BlockReq}
    (ht : tag = tagOf s (.slot i)) (hv : placeOf s (.slot i) = some r) (hw : r.inHand = true)
    (alone : OnlyRequests (.slot i) s) {p : Play} (hp : playOf s (.slot i) = p) (hs : p.state = .playing)
    (hc : p.clip = .clip c) (hb : p.atBoundary = false) (hx : p.bufX = .filling b.number) (hy : p.bufY = .empty)
    (hn : b.number = p.position / 256) (stored : List Byte) :
    let q : Play := { p with bufX := .full b.number (expandBlock stored) }
    blockRead (.slot i) tag b stored s =
      if b.number + 1 < blocksOf c.samples
      then slotServed i { q with bufY := .filling (b.number + 1) }
        (some { tag := tag, body := .block (p.wants c (b.number + 1)), inHand := true })
        (some { what := .block (.slot i) tag (p.wants c (b.number + 1)), left := 5000 }) s
      else slotServed i q none none s := by
  intro q
  have only : OnlyRequests (.slot i) (setPlace (.slot i) none (transactionGood s)) :=
    OnlyRequests.setPlace (fun w hw => (placeOf_transactionGood s w).trans (alone w hw)) none
  have came : p.blockCame s.dclk.now b.number (expandBlock stored) = Play.same q := by
    rw [Play.blockCame_playing hs]
    unfold Play.placed
    rw [if_pos (by simp [hx, Buffer.isFilling]), if_pos (by omega)]
  have asks : q.topUp false = _ := Play.topUp_intoY (c := c) hs hc hb (by rw [← hn]) hy
  rw [blockRead_delivers ht hv hw, hp, came, actOn_idle_place (by simp), asks, ← hn]
  by_cases more : b.number + 1 < blocksOf c.samples
  · rw [if_pos more, if_pos more, serve_settlePlay_asks (by simp) only rfl hc more, begin_setPlace, setPlace_setPlace,
      tagOf_setPlace]
    rw [show tagOf (transactionGood s) (.slot i) = tag from ht.symm]
    rfl
  · rw [if_neg more, if_neg more, settlePlay_quiet _ _ rfl, serve_of_rest]
    · rfl
    · exact OnlyRequests.rests (v := .slot i) (fun w hw => by rw [placeOf_setPlay, only w hw]) (by simp)

/-- Settles O10: the reader's part by `blockRead_position`, the voices' parts by the cases of a first block and of a
block placed. -/
theorem blockReadDone : Obligations.BlockReadDone := by
  refine ⟨fun data i tag b left r c s hh hl ht hv hw alone => ?position, fun p c now k xs hs hc hx => ?first,
    fun p c now k xs hs hc => ?late⟩
  case position =>
    intro p hs hc hb hx hy hn x
    rw [exec_blockReadDone hh hl, blockRead_position ht hv hw alone rfl hs hc hb hx hy hn]
    by_cases more : b.number + 1 < blocksOf c.samples
    · rw [if_pos more]
      exact ⟨_, rfl, slotServed_frame i _ _ _ s
        ⟨fun _ => ⟨playOf_slotServed i _ _ _ s, rfl⟩, fun last => absurd more (by omega)⟩⟩
    · rw [if_neg more]
      exact ⟨_, rfl, slotServed_frame i _ _ _ s
        ⟨fun next => absurd next more, fun _ => ⟨playOf_slotServed i _ _ _ s, rfl⟩⟩⟩
  case first =>
    intro index
    rw [Play.blockCame_seeking hs]
    refine ⟨Play.firstBlock_early xs hx, fun h inside same => ?_, fun h inside other => ?_, fun h past => ⟨?_, rfl⟩⟩
    all_goals
      rw [Play.firstBlock_started xs hx hc h]
      have toNat : indexNow now p = index.toNat := rfl
    · rw [if_neg (by omega), if_pos (by omega), toNat]
    · rw [if_neg (by omega), if_neg (by omega), toNat]
    · rw [if_pos (by omega)]
  case late =>
    intro n past silent
    rw [Play.blockCame_playing hs]
    refine ⟨fun hx late h1 => ?_, fun hy hx late h1 => ?_, fun hx hy => Play.placed_unasked hx hy now xs⟩
    · rw [Play.placed_lateX hx late]
      exact Play.afterLate_cases (p := { p with bufX := .empty }) hc h1 true
    · rw [Play.placed_lateY hx hy late]
      obtain ⟨ended, stands, asks⟩ := Play.afterLate_cases (p := { p with bufY := .empty }) (now := now) hc h1 false
      exact ⟨ended, fun h full => stands h (by rw [full]; rfl), fun h full => asks h (by rw [full]; rfl)⟩

end Sys2Proof.Machine

namespace Sys2Proof.Machine

/-! ## Slots given and taken (R93 to R96, R126, R147) -/

/-- `t` differs from `s` at most in the voices, their requests and tags, the naming set, the speaker's record and the
levels; the transaction in hand stays. -/
structure SlotFrame (s t : State) : Prop where
  frame : VoiceFrame s t
  lmp : t.lmp = s.lmp
  hand : t.csr.hand = s.csr.hand
  ann : t.ann = { s.ann with naming := t.ann.naming }

theorem SlotFrame.trans {s t u : State} (h : SlotFrame s t) (k : SlotFrame t u) : SlotFrame s u :=
  ⟨h.frame.trans k.frame, k.lmp.trans h.lmp, k.hand.trans h.hand, by rw [k.ann, h.ann]⟩

theorem SlotFrame.config {s t : State} (h : SlotFrame s t) : t.csr.config = s.csr.config := by
  rw [h.frame.csr]

theorem SlotFrame.inName {s t : State} (h : SlotFrame s t) : inName t = inName s := by
  unfold Machine.inName
  rw [h.ann]

/-- What such a change leaves of the other blocks. -/
theorem SlotFrame.outside {s t : State} (h : SlotFrame s t) : t.line = s.line ∧ t.txq = s.txq ∧ t.dclk = s.dclk
    ∧ t.prg = s.prg ∧ t.lmp = s.lmp ∧ t.stc = s.stc :=
  ⟨h.frame.line, h.frame.txq, h.frame.dclk, h.frame.prg, h.lmp, h.frame.stc⟩

/-- With a read in hand and outside NAME nothing follows such a change (R69, R129). -/
theorem SlotFrame.settles {s t : State} (h : SlotFrame s t) (hh : s.csr.hand.isSome = true)
    (hn : Machine.inName s = false) : serve (completeIfDone t) = t := by
  rw [completeIfDone_of_not_inName t (h.inName.trans hn), serve_of_hand (by rw [h.hand]; exact hh)]

theorem switchSource_slotFrame (o : Output) (s : State) : SlotFrame s (switchSource o s) :=
  ⟨switchSource_frame o s, rfl, rfl, rfl⟩

theorem closeOutput_slotFrame (o : Output) (s : State) : SlotFrame s (closeOutput o s) :=
  ⟨closeOutput_frame o s, rfl, rfl, rfl⟩

theorem joinSlot_slotFrame (o : Output) (i : SlotId) (s : State) : SlotFrame s (joinSlot o i s) :=
  ⟨joinSlot_frame o i s, rfl, rfl, rfl⟩

theorem setSpeaker_slotFrame (x : Speaker) (s : State) : SlotFrame s { s with vtab.speaker := x } :=
  ⟨setSpeaker_frame x s, rfl, rfl, rfl⟩

theorem leaveSlot_slotFrame {o : Output} {i : SlotId} {s : State} (h : slotHeardBy s o = some i) :
    SlotFrame s (leaveSlot o s) := by
  obtain ⟨-, -, -, -, hhand, -, hann, -, hlmp, -⟩ := leaveSlot_law o i s h
  exact ⟨leaveSlot_frame o s, hlmp, hhand, hann⟩

/-- Slot `k` has been taken for a language, listeners and a content, with its tag renewed; no other slot has moved (R78,
R93). -/
structure Takes (k : SlotId) (n : Nat) (l : Listeners) (c : SlotContent) (s t : State) : Prop where
  others : ∀ m, m ≠ k → slotView m t = slotView m s
  language : (t.vtab.slots.get k).language = n
  listeners : (t.vtab.slots.get k).listeners = l
  content : (t.vtab.slots.get k).content = c
  busy : (t.vtab.slots.get k).play.state ≠ .idle
  tag : t.csr.tags.get k = s.csr.tags.get k + 1

theorem Takes.slot {k : SlotId} {n : Nat} {l : Listeners} {c : SlotContent} {s t : State} (h : Takes k n l c s t)
    {m : SlotId} (hm : m ≠ k) : t.vtab.slots.get m = s.vtab.slots.get m := (slotView_eq (h.others m hm)).1

/-- A slot taken outside NAME seeks the current cue (R93, R97). -/
theorem takeSlot_takes (k : SlotId) (n : Nat) (l : Listeners) {s : State} (hn : inName s = false) :
    let t := takeSlot k n l s
    SlotFrame s t ∧ Takes k n l .commentary s t ∧ t.lvl = s.lvl ∧ t.vtab.speaker = s.vtab.speaker
      ∧ (s.prg.current ≠ none → (t.vtab.slots.get k).play.state = .seeking) := by
  intro t
  obtain ⟨others, language, listeners, content, busy, seeks, tag, hand, -, hann, hlvl, hlmp, hspeaker, -⟩ :=
    takeSlot_commentary k n l s hn
  exact ⟨⟨takeSlot_frame k n l s, hlmp, hand, hann.trans (by rw [hann])⟩,
    ⟨others, language, listeners, content, busy, tag⟩, hlvl, hspeaker, seeks⟩

/-! ### A source switch and the levels (R147) -/

/-- The output is silent for 8 ms from now, its slot pair at -72. -/
structure Silenced (o : Output) (t : State) : Prop where
  silence : t.lvl.silence.get o = some 8000
  slot : (t.lvl.gains.get o).slot = -72

/-- The output has switched its source, and its VA pair is as it was. -/
structure Switched (o : Output) (s t : State) : Prop extends Silenced o t where
  va : (t.lvl.gains.get o).va = (s.lvl.gains.get o).va

theorem switchSource_silenced (o : Output) (s : State) : Silenced o (switchSource o s) := ⟨by simp, by simp⟩

theorem switchSource_switched (o : Output) {s t : State} (h : t.lvl = s.lvl) : Switched o s (switchSource o t) :=
  ⟨switchSource_silenced o t, by simp [h]⟩

theorem Switched.of_lvl {o : Output} {s s' t : State} (h : Switched o s t) (hl : s.lvl = s'.lvl) : Switched o s' t :=
  ⟨h.toSilenced, hl ▸ h.va⟩

/-- The speaker's switch leaves a jack's. -/
theorem Switched.spk {j : Seat} {s t u : State} (h : Switched (.jack j) s t) (hu : u.lvl = t.lvl) :
    Switched (.jack j) s (switchSource .spk u) :=
  ⟨⟨by simp [hu, h.silence], by simp [hu, h.slot]⟩, by simp [hu, h.va]⟩

/-! ### Which slot is found -/

theorem slotOfLanguage_eq_none {s : State} {n : Nat} : slotOfLanguage s n = none ↔
    ∀ m, (s.vtab.slots.get m).play.state ≠ .idle → (s.vtab.slots.get m).language ≠ n := by
  unfold slotOfLanguage
  rw [Slots.first_eq_none]
  simp

theorem slotOfLanguage_only {s : State} {n : Nat} {k : SlotId} (hb : (s.vtab.slots.get k).play.state ≠ .idle)
    (hl : (s.vtab.slots.get k).language = n)
    (ho : ∀ m, m ≠ k → (s.vtab.slots.get m).play.state ≠ .idle → (s.vtab.slots.get m).language ≠ n) :
    slotOfLanguage s n = some k :=
  Slots.first_of_only _ _ k (by simp [hb, hl]) fun m hm => by simpa using ho m hm

theorem idleSlot_eq_none {s : State} : idleSlot s = none ↔ ∀ m, (s.vtab.slots.get m).play.state ≠ .idle := by
  unfold idleSlot
  rw [Slots.first_eq_none]
  simp

theorem idleSlot_only {s : State} {k : SlotId} (hk : (s.vtab.slots.get k).play.state = .idle)
    (ho : ∀ m, m ≠ k → (s.vtab.slots.get m).play.state ≠ .idle) : idleSlot s = some k :=
  Slots.first_of_only _ _ k (by simp [hk]) fun m hm => by simpa using ho m hm

theorem slotBusy_iff (s : State) (m : SlotId) : slotBusy s m = true ↔ (s.vtab.slots.get m).play.state ≠ .idle := by
  simp [slotBusy]

/-! ### The speaker's retry (R96) -/

theorem retrySpeaker_of_not_starved {s : State} (h : s.vtab.speaker ≠ .starved) : retrySpeaker s = s := by
  unfold retrySpeaker
  rw [if_neg (by simpa using h)]

theorem starveSpeaker_of_not_inName {s : State} (h : inName s = false) :
    starveSpeaker s = switchSource .spk { s with vtab.speaker := .starved } := by
  unfold starveSpeaker
  dsimp only
  have current : (switchSource .spk { s with vtab.speaker := .starved }).ann.current = s.ann.current := rfl
  rw [current]
  unfold inName at h
  cases hc : s.ann.current with
  | none => rfl
  | some a =>
    rw [hc] at h
    exact if_neg fun ⟨hp, _⟩ => by simp [hp] at h

theorem attachSpeaker_of_not_inName (i : SlotId) {s : State} (h : inName s = false) :
    attachSpeaker i s = switchSource .spk { s with vtab.speaker := .attached i } := by
  unfold attachSpeaker
  have same : inName (switchSource .spk { s with vtab.speaker := .attached i }) = inName s := rfl
  dsimp only
  rw [same, h]
  rfl

section Retry
variable {s : State} (hs : s.vtab.speaker = .starved)
include hs

/-- A STARVED speaker with no slot to be had stays STARVED (R96). -/
theorem retrySpeaker_waits (hl : slotOfLanguage s s.csr.config.house = none) (hi : idleSlot s = none) :
    retrySpeaker s = s := by
  have same : ({ s with vtab.speaker := .starved } : State) = s := by rw [← hs]
  unfold retrySpeaker placeSpeaker
  rw [hl, hi]
  dsimp only
  rw [same]
  split
  · split <;> rfl
  · rfl

theorem retrySpeaker_places : retrySpeaker s = placeSpeaker s := by
  unfold retrySpeaker
  rw [if_pos (by simp [hs])]

variable (ha : s.stc.state = .awake) (ho : s.csr.config.speakerOn = true) (hn : inName s = false)
include ha ho hn

/-- A STARVED speaker joins the busy slot of the house language (R96). -/
theorem retrySpeaker_joins {k : SlotId} (hl : slotOfLanguage s s.csr.config.house = some k) :
    retrySpeaker s = switchSource .spk { joinSlot .spk k s with vtab.speaker := .attached k } := by
  rw [retrySpeaker_places hs]
  unfold placeSpeaker
  rw [if_pos (by simp [ho, isAwake, ha]), hl]
  exact attachSpeaker_of_not_inName k (s := joinSlot .spk k s) hn

/-- A STARVED speaker takes an IDLE slot with the house language (R96). -/
theorem retrySpeaker_takes {k : SlotId} (hl : slotOfLanguage s s.csr.config.house = none) (hi : idleSlot s = some k) :
    retrySpeaker s = switchSource .spk
      { takeSlot k s.csr.config.house (only .spk) s with vtab.speaker := .attached k } := by
  rw [retrySpeaker_places hs]
  unfold placeSpeaker
  rw [if_pos (by simp [ho, isAwake, ha]), hl]
  dsimp only
  rw [hi]
  exact attachSpeaker_of_not_inName k (((takeSlot_takes k _ _ hn).1.inName).trans hn)

/-- What it then leaves (R96, R97, R147). -/
theorem retrySpeaker_takes_law {k : SlotId} (hl : slotOfLanguage s s.csr.config.house = none)
    (hi : idleSlot s = some k) : let t := retrySpeaker s
    SlotFrame s t ∧ Takes k s.csr.config.house (only .spk) .commentary s t ∧ Silenced .spk t
      ∧ t.vtab.speaker = .attached k ∧ (s.prg.current ≠ none → (t.vtab.slots.get k).play.state = .seeking)
      ∧ ∀ j u, Switched (.jack j) u s → Switched (.jack j) u t := by
  intro t
  obtain ⟨frame, takes, hlvl, -, seeks⟩ := takeSlot_takes k s.csr.config.house (only .spk) hn
  have ht : t = _ := retrySpeaker_takes hs ha ho hn hl hi
  rw [ht]
  exact ⟨(frame.trans (setSpeaker_slotFrame _ _)).trans (switchSource_slotFrame _ _),
    ⟨takes.others, takes.language, takes.listeners, takes.content, takes.busy, takes.tag⟩,
    switchSource_silenced _ _, rfl, seeks, fun j u switched => switched.spk hlvl⟩

end Retry

/-! ### A jack placed (R93) -/

theorem placeJack_joins {n : Nat} {k : SlotId} {s : State} (j : Seat) (hl : slotOfLanguage s n = some k) :
    placeJack j n s = switchSource (.jack j) (joinSlot (.jack j) k s) := by
  unfold placeJack
  rw [hl]

theorem placeJack_takes {n : Nat} {k : SlotId} {s : State} (j : Seat) (hl : slotOfLanguage s n = none)
    (hi : idleSlot s = some k) : placeJack j n s = switchSource (.jack j) (takeSlot k n (only (.jack j)) s) := by
  unfold placeJack
  rw [hl]
  dsimp only
  rw [hi]

/-- A jack with no slot to be had takes the one that the speaker alone hears (R93, R96). -/
theorem placeJack_starves {n : Nat} {k : SlotId} {s : State} (j : Seat) (hn : inName s = false)
    (hl : slotOfLanguage s n = none) (hi : idleSlot s = none) (hk : speakerOnlySlot s = some k) :
    placeJack j n s = switchSource .spk
      { switchSource (.jack j) (takeSlot k n (only (.jack j)) s) with vtab.speaker := .starved } := by
  unfold placeJack
  rw [hl]
  dsimp only
  rw [hi]
  dsimp only
  rw [hk]
  exact starveSpeaker_of_not_inName ((takeSlot_takes k n _ hn).1.inName.trans hn)

/-- A jack joins the busy slot of its language (R93). -/
theorem placeJack_joins_law {n : Nat} {k : SlotId} {s : State} (j : Seat) (hl : slotOfLanguage s n = some k) :
    let t := placeJack j n s
    SlotFrame s t ∧ Switched (.jack j) s t ∧ t.vtab.speaker = s.vtab.speaker ∧ t.csr = s.csr ∧ t.ann = s.ann
      ∧ t.vtab.slots.get k = { s.vtab.slots.get k with listeners := (s.vtab.slots.get k).listeners.put (.jack j) true }
      ∧ ∀ m, m ≠ k → slotView m t = slotView m s := by
  intro t
  have ht : t = _ := placeJack_joins j hl
  rw [ht]
  refine ⟨(joinSlot_slotFrame _ _ _).trans (switchSource_slotFrame _ _), switchSource_switched _ rfl, rfl, rfl, rfl, ?_,
    fun m hm => ?_⟩
  · simp [joinSlot, setListeners]
  · simp [slotView, joinSlot, setListeners, hm.symm]

/-- A jack takes an IDLE slot outside NAME (R93, R97). -/
theorem placeJack_takes_law {n : Nat} {k : SlotId} {s : State} (j : Seat) (hn : inName s = false)
    (hl : slotOfLanguage s n = none) (hi : idleSlot s = some k) : let t := placeJack j n s
    SlotFrame s t ∧ Switched (.jack j) s t ∧ Takes k n (only (.jack j)) .commentary s t
      ∧ t.vtab.speaker = s.vtab.speaker
      ∧ (s.prg.current ≠ none → (t.vtab.slots.get k).play.state = .seeking) := by
  intro t
  obtain ⟨frame, takes, hlvl, hspeaker, seeks⟩ := takeSlot_takes k n (only (.jack j)) hn
  have ht : t = _ := placeJack_takes j hl hi
  rw [ht]
  exact ⟨frame.trans (switchSource_slotFrame _ _), switchSource_switched _ hlvl,
    ⟨takes.others, takes.language, takes.listeners, takes.content, takes.busy, takes.tag⟩, hspeaker, seeks⟩

/-- A jack takes an IDLE slot in NAME: the slot is given the name and joins the naming set (R93, R97, R126). -/
theorem placeJack_named_law {n : Nat} {k : SlotId} {s : State} {a : Announcement} (j : Seat)
    (hc : s.ann.current = some a) (hp : a.phase = .name) (hcap : s.ann.nameCap.isSome = true)
    (hl : slotOfLanguage s n = none) (hi : idleSlot s = some k) : let t := placeJack j n s
    SlotFrame s t ∧ Switched (.jack j) s t ∧ Takes k n (only (.jack j)) (.name a.stop) s t
      ∧ t.vtab.speaker = s.vtab.speaker ∧ (t.vtab.slots.get k).play.state = .seeking
      ∧ (t.vtab.slots.get k).play.anchor = DeckTime.addMicros { ms := a.start, us := 0 } (125 * a.chimeLen.getD 0)
      ∧ t.ann = { s.ann with naming := s.ann.naming.set k true } := by
  intro t
  obtain ⟨others, language, listeners, content, seeks, anchor, tag, hand, -, hann, hlvl, hlmp, hspeaker, -⟩ :=
    takeSlot_named k n (only (.jack j)) s a hc hp hcap
  have ht : t = _ := placeJack_takes j hl hi
  rw [ht]
  have name_anchor : nameAnchor s = DeckTime.addMicros { ms := a.start, us := 0 } (125 * a.chimeLen.getD 0) := by
    unfold nameAnchor
    rw [hc]
    rfl
  have frame : SlotFrame s (takeSlot k n (only (.jack j)) s) :=
    ⟨takeSlot_frame _ _ _ _, hlmp, hand, hann.trans (by rw [hann])⟩
  exact ⟨frame.trans (switchSource_slotFrame _ _), switchSource_switched _ hlvl,
    ⟨others, language, listeners, content, by rw [switchSource_vtab, seeks]; decide, tag⟩, hspeaker, seeks,
    anchor.trans name_anchor, hann⟩

/-- A naming set with a slot in it is not empty, so nothing completes (R129). -/
theorem completeIfDone_of_naming {s : State} {k : SlotId} (h : s.ann.naming.get k = true) : completeIfDone s = s := by
  have full : namingEmpty s = false := by
    by_contra e
    rw [Bool.not_eq_false, namingEmpty_iff] at e
    rw [e k] at h
    cases h
  unfold completeIfDone
  rw [full]
  simp

/-- The speaker loses its slot to a jack and finds no other (R93, R96, R147; log entries 14 and 27). -/
theorem retry_placeJack_starves {n : Nat} {k : SlotId} {s : State} (j : Seat) (hn : inName s = false)
    (hl : slotOfLanguage s n = none) (hi : idleSlot s = none) (hk : speakerOnlySlot s = some k)
    (hne : n ≠ s.csr.config.house) (hh : ∀ m, m ≠ k → (s.vtab.slots.get m).language ≠ s.csr.config.house) :
    let t := retrySpeaker (placeJack j n s)
    SlotFrame s t ∧ Switched (.jack j) s t ∧ Silenced .spk t ∧ Takes k n (only (.jack j)) .commentary s t
      ∧ t.vtab.speaker = .starved ∧ (s.prg.current ≠ none → (t.vtab.slots.get k).play.state = .seeking) := by
  intro t
  obtain ⟨frame, takes, hlvl, -, seeks⟩ := takeSlot_takes k n (only (.jack j)) hn
  obtain ⟨y, hy⟩ : ∃ y, y = switchSource .spk
      { switchSource (.jack j) (takeSlot k n (only (.jack j)) s) with vtab.speaker := .starved } := ⟨_, rfl⟩
  have slots : y.vtab.slots = (takeSlot k n (only (.jack j)) s).vtab.slots := by rw [hy]; rfl
  have slotFrame : SlotFrame s y := by
    rw [hy]
    exact ((frame.trans (switchSource_slotFrame _ _)).trans (setSpeaker_slotFrame _ _)).trans (switchSource_slotFrame _ _)
  have busy : ∀ m, (y.vtab.slots.get m).play.state ≠ .idle := fun m => by
    rw [slots]
    by_cases e : m = k
    · rw [e]; exact takes.busy
    · rw [takes.slot e]; exact idleSlot_eq_none.mp hi m
  have other : ∀ m, (y.vtab.slots.get m).language ≠ y.csr.config.house := fun m => by
    rw [slots, slotFrame.config]
    by_cases e : m = k
    · rw [e, takes.language]; exact hne
    · rw [takes.slot e]; exact hh m e
  have stands : t = y := by
    show retrySpeaker (placeJack j n s) = y
    rw [placeJack_starves j hn hl hi hk, ← hy]
    exact retrySpeaker_waits (by rw [hy]; rfl) (slotOfLanguage_eq_none.mpr fun m _ => other m)
      (idleSlot_eq_none.mpr busy)
  rw [stands]
  refine ⟨slotFrame, ?_, ?_, ?_, ?_, ?_⟩ <;> rw [hy]
  · exact (switchSource_switched (.jack j) hlvl).spk rfl
  · exact switchSource_silenced _ _
  · exact ⟨takes.others, takes.language, takes.listeners, takes.content, takes.busy, takes.tag⟩
  · rfl
  · exact seeks

/-- A STARVED speaker joins a jack in the slot that the jack has taken with the house language (R93, R96, R147). -/
theorem retry_placeJack_house {k : SlotId} {s : State} (j : Seat) (hn : inName s = false)
    (hl : slotOfLanguage s s.csr.config.house = none) (hi : idleSlot s = some k) (hs : s.vtab.speaker = .starved)
    (ha : s.stc.state = .awake) (ho : s.csr.config.speakerOn = true) :
    let t := retrySpeaker (placeJack j s.csr.config.house s)
    SlotFrame s t ∧ Switched (.jack j) s t ∧ Silenced .spk t
      ∧ Takes k s.csr.config.house ((only (.jack j)).put .spk true) .commentary s t
      ∧ t.vtab.speaker = .attached k := by
  intro t
  obtain ⟨frame, switched, takes, hspeaker, -⟩ := placeJack_takes_law j hn hl hi
  obtain ⟨y, hy⟩ : ∃ y, y = placeJack j s.csr.config.house s := ⟨_, rfl⟩
  rw [← hy] at frame switched takes hspeaker
  have house : slotOfLanguage y y.csr.config.house = some k :=
    slotOfLanguage_only takes.busy (takes.language.trans (by rw [frame.config])) fun m hm hb => by
      rw [takes.slot hm] at hb ⊢
      rw [frame.config]
      exact slotOfLanguage_eq_none.mp hl m hb
  have ht : t = switchSource .spk { joinSlot .spk k y with vtab.speaker := .attached k } := by
    show retrySpeaker (placeJack j s.csr.config.house s) = _
    rw [← hy]
    exact retrySpeaker_joins (hspeaker.trans hs) (by rw [frame.frame.stc]; exact ha) (by rw [frame.config]; exact ho)
      (frame.inName.trans hn) house
  rw [ht]
  refine ⟨((frame.trans (joinSlot_slotFrame _ _ _)).trans (setSpeaker_slotFrame _ _)).trans (switchSource_slotFrame _ _),
    switched.spk rfl, switchSource_silenced _ _, ⟨fun m hm => ?_, ?_, ?_, ?_, ?_, takes.tag⟩, rfl⟩
  · rw [← takes.others m hm]
    simp [slotView, joinSlot, setListeners, hm.symm]
  · simpa [joinSlot, setListeners] using takes.language
  · simp [joinSlot, setListeners, takes.listeners]
  · simpa [joinSlot, setListeners] using takes.content
  · simpa [joinSlot, setListeners] using takes.busy

end Sys2Proof.Machine

namespace Sys2Proof.Machine

/-! ### A slot left (R94, R95) -/

/-- Leaving a slot neither reads nor moves the jacks' records. -/
theorem leaveSlot_jck (o : Output) (u : JackUnit) (s : State) :
    leaveSlot o { s with jck := u } = { leaveSlot o s with jck := u } := by
  have heard : slotHeardBy { s with jck := u } o = slotHeardBy s o := rfl
  unfold leaveSlot
  rw [heard]
  split
  · rfl
  · dsimp only
    split <;> rfl

section Leave
variable {o : Output} {i : SlotId} {s : State} (h : slotHeardBy s o = some i)
include h

theorem leaveSlot_slot {m : SlotId} (hm : m ≠ i) : (leaveSlot o s).vtab.slots.get m = s.vtab.slots.get m :=
  (slotView_eq ((leaveSlot_law o i s h).1 m hm)).1

theorem leaveSlot_language (m : SlotId) :
    ((leaveSlot o s).vtab.slots.get m).language = (s.vtab.slots.get m).language := by
  by_cases e : m = i
  · rw [e]
    exact (leaveSlot_law o i s h).2.1
  · rw [leaveSlot_slot h e]

/-- A slot busy after an output has left was busy before. -/
theorem leaveSlot_busy (m : SlotId) (hb : ((leaveSlot o s).vtab.slots.get m).play.state ≠ .idle) :
    (s.vtab.slots.get m).play.state ≠ .idle := by
  by_cases e : m = i
  · subst e
    obtain ⟨-, -, released, kept, -⟩ := leaveSlot_law o m s h
    by_cases empty : (s.vtab.slots.get m).listeners.put o false = .nobody
    · rw [(released empty).1] at hb
      exact absurd rfl hb
    · rw [(kept empty).1] at hb
      exact hb
  · rwa [leaveSlot_slot h e] at hb

theorem slotOfLanguage_leaveSlot_none {n : Nat} (hl : slotOfLanguage s n = none) :
    slotOfLanguage (leaveSlot o s) n = none :=
  slotOfLanguage_eq_none.mpr fun m hb => by
    rw [leaveSlot_language h]
    exact slotOfLanguage_eq_none.mp hl m (leaveSlot_busy h m hb)

theorem slotOfLanguage_leaveSlot_some {n : Nat} {k : SlotId} (hl : slotOfLanguage s n = some k) (hk : k ≠ i) :
    slotOfLanguage (leaveSlot o s) n = some k :=
  Slots.first_kept _ _ _ i k hl hk (fun m hm => by rw [leaveSlot_slot h hm]) fun still => by
    simp only [Bool.and_eq_true, Bool.not_eq_true', beq_eq_false_iff_ne, beq_iff_eq] at still ⊢
    exact ⟨leaveSlot_busy h i still.1, (leaveSlot_language h i).symm.trans still.2⟩

/-- A slot left by its last listener is IDLE (R95). -/
theorem leaveSlot_idle (empty : (s.vtab.slots.get i).listeners.put o false = .nobody) :
    ((leaveSlot o s).vtab.slots.get i).play.state = .idle := by
  rw [((leaveSlot_law o i s h).2.2.1 empty).1]
  rfl

end Leave

/-- What slot `i` of `s` is in `t` once a listener has left it with the listeners `l` (R94, R95). -/
def LeftBehind (i : SlotId) (l : Listeners) (s t : State) : Prop :=
  if l = .nobody
  then (t.vtab.slots.get i).play.state = .idle ∧ (t.vtab.slots.get i).play.clip = .none
    ∧ (t.vtab.slots.get i).play.position = 0 ∧ (t.vtab.slots.get i).play.bufX = .empty
    ∧ (t.vtab.slots.get i).play.bufY = .empty ∧ (t.vtab.slots.get i).listeners = .nobody
    ∧ (t.vtab.slots.get i).content = .commentary ∧ t.csr.tags.get i = s.csr.tags.get i + 1
    ∧ t.csr.places.get i = none
  else t.vtab.slots.get i = { s.vtab.slots.get i with listeners := l } ∧ t.csr.tags.get i = s.csr.tags.get i

/-- It stays so wherever the slot, its tag and its place stay. -/
theorem leaveSlot_leftBehind {o : Output} {i : SlotId} {s t : State} (h : slotHeardBy s o = some i)
    (hv : slotView i t = slotView i (leaveSlot o s)) :
    LeftBehind i ((s.vtab.slots.get i).listeners.put o false) s t := by
  obtain ⟨-, -, released, kept, -⟩ := leaveSlot_law o i s h
  obtain ⟨slot, tag, place, -⟩ := slotView_eq hv
  unfold LeftBehind
  rw [slot, tag, place]
  split
  next empty =>
    obtain ⟨play, listeners, content, tag, place⟩ := released empty
    rw [play]
    exact ⟨rfl, rfl, rfl, rfl, rfl, listeners, content, tag, place⟩
  next rest =>
    obtain ⟨slot, csr, -⟩ := kept rest
    exact ⟨slot, by rw [csr]⟩

/-! ## The speaker and its slot (R93, R95, R96, R126) -/

/-- SETTLE_END: the jack is LISTENING and placed, and the speaker retries (R134). -/
theorem exec_settleEnd {j : Seat} {s : State} (h : (s.jck.jacks.get j).state = .settling) :
    ∃ u : JackUnit, (u.jacks.get j).state = .listening ∧ exec (.settleEnd j) s = .next (serve (completeIfDone
      (retrySpeaker (placeJack j (s.jck.jacks.get j).language { s with jck := u })))) :=
  ⟨_, by simp, settleEnd_eq j s h⟩

/-- UNPLUG of a LISTENING jack: it leaves its slot, and the speaker retries (R135). -/
theorem exec_unplug {j : Seat} {s : State} (hs : s.stc.state = .awake ∨ s.stc.state = .parking ∨ s.stc.state = .parked)
    (h : (s.jck.jacks.get j).state = .listening) :
    ∃ u : JackUnit, (u.jacks.get j).state = .empty ∧ exec (.unplug j) s = .next (serve (completeIfDone
      (retrySpeaker (closeOutput (.jack j) { leaveSlot (.jack j) s with jck := u })))) := by
  refine ⟨(setJack j { s.jck.jacks.get j with state := .empty, settle := none }
    (setPanel j { s.jck.panels.get j with detect := .settled false } s)).jck, by simp, ?_⟩
  have listening : (jackOf s j).state = .listening := h
  show execUnplug j s = _
  unfold execUnplug
  rw [if_pos ⟨(filtersRun_iff s).mpr hs, by rw [listening]; decide⟩]
  dsimp only
  rw [if_pos listening, ← leaveSlot_jck]
  rfl

/-- Settles O29: where a jack and the speaker are placed by the laws of the placing and of the retry, and what a jack
leaves by `leaveSlot_law`. -/
theorem speakerPlaces : Obligations.SpeakerPlaces := by
  refine ⟨fun j i s hj hh => ?settles, fun j i s hs hh hj hi hempty hn => ?leaves⟩
  case settles =>
    intro n house
    obtain ⟨u, hu, e⟩ := exec_settleEnd hj
    refine ⟨fun hn hl hidle hk hne hother => ?_, fun hn heq hl hidle hst ha ho => ?_,
      fun a hc hp hcap hst hl hidle => ?_⟩
    · obtain ⟨frame, switched, silenced, takes, starved, -⟩ :=
        retry_placeJack_starves (s := { s with jck := u }) j hn hl hidle hk hne hother
      rw [frame.settles hh hn] at e
      exact ⟨_, e, by rw [frame.frame.jck]; exact hu, starved, takes.language, takes.listeners, takes.content, takes.tag,
        switched.silence, switched.slot, silenced.silence, silenced.slot, fun k hk => takes.slot hk, frame.outside⟩
    · have none : slotOfLanguage s house = none := by rw [← heq]; exact hl
      obtain ⟨frame, -, silenced, takes, attached⟩ :=
        retry_placeJack_house (s := { s with jck := u }) j hn none hidle hst ha ho
      rw [show (s.jck.jacks.get j).language = house from heq, frame.settles hh hn] at e
      exact ⟨_, e, attached, takes.language, takes.listeners, silenced.silence, fun k hk => takes.slot hk, frame.outside⟩
    · obtain ⟨frame, -, takes, speaker, seeks, anchor, hann⟩ :=
        placeJack_named_law (s := { s with jck := u }) j hc hp hcap hl hidle
      rw [retrySpeaker_of_not_starved (by rw [speaker]; exact hst),
        completeIfDone_of_naming (k := i) (by rw [hann]; simp), serve_of_hand (by rw [frame.hand]; exact hh)] at e
      exact ⟨_, e, takes.content, takes.language, takes.listeners, seeks, anchor, hann, frame.outside⟩
  case leaves =>
    obtain ⟨u, hu, e⟩ := exec_unplug hs hj
    have left : SlotFrame { s with jck := u } { leaveSlot (.jack j) s with jck := u } := by
      rw [← leaveSlot_jck]
      exact leaveSlot_slotFrame hi
    have frame := left.trans (closeOutput_slotFrame (.jack j) _)
    obtain ⟨others, -, released, -, -, hconfig, -, -, -, hspeaker, -⟩ := leaveSlot_law _ i s hi
    refine ⟨fun hst => ?_, fun hst ha ho hbusy => ?_⟩
    · obtain ⟨play, listeners, content, tag, place⟩ := released hempty
      rw [retrySpeaker_of_not_starved (by exact hspeaker ▸ hst), frame.settles hh hn] at e
      exact ⟨_, e, hu, hspeaker, congrArg Play.state play, congrArg Play.clip play, congrArg Play.position play,
        congrArg Play.bufX play, congrArg Play.bufY play, listeners, content, tag, place,
        fun k hk => leaveSlot_slot hi hk, frame.outside⟩
    · have language : slotOfLanguage (leaveSlot (.jack j) s) (leaveSlot (.jack j) s).csr.config.house = none :=
        slotOfLanguage_eq_none.mpr fun m hb => by
          by_cases hm : m = i
          · exact absurd (leaveSlot_idle hi hempty) (hm ▸ hb)
          · rw [leaveSlot_slot hi hm, hconfig]
            exact (hbusy m hm).2
      have idle : idleSlot (leaveSlot (.jack j) s) = some i :=
        idleSlot_only (leaveSlot_idle hi hempty) fun m hm => by
          rw [leaveSlot_slot hi hm]
          exact (slotBusy_iff s m).mp (hbusy m hm).1
      obtain ⟨retry, takes, silenced, attached, seeks, -⟩ := retrySpeaker_takes_law
        (s := closeOutput (.jack j) { leaveSlot (.jack j) s with jck := u }) (hspeaker.trans hst)
        (by rw [frame.frame.stc]; exact ha) (by rw [frame.config]; exact ho) (frame.inName.trans hn) language idle
      have whole := frame.trans retry
      rw [whole.settles hh hn] at e
      refine ⟨_, e, by rw [whole.frame.jck]; exact hu, attached, takes.language.trans (by rw [frame.config]), takes.listeners,
        takes.content, fun hc => seeks (by rw [frame.frame.prg]; exact hc), silenced.silence, silenced.slot,
        fun k hk => (takes.slot hk).trans (leaveSlot_slot hi hk), whole.outside⟩

end Sys2Proof.Machine

namespace Sys2Proof.Machine

/-! ## The LANG button (R94, R138, R139) -/

/-- A press while AWAKE starts the hold (R138). -/
theorem exec_langPress {j : Seat} {s : State} (h : s.stc.state = .awake) : exec (.langPress j) s = .next { s with
    jck.panels := s.jck.panels.set j
      { s.jck.panels.get j with lang := { accepted := true, run := 0 }, hold := some 1000000 } } := by
  show execLangPress j s = _
  unfold execLangPress
  rw [if_pos ((filtersRun_iff s).mpr (.inl h))]
  dsimp only
  rw [if_pos (by simp [isAwake, h])]
  simp only [setPanel, panelOf, Seats.get_set, if_true, Seats.set_set]
  rfl

/-- The hold's expiry toggles the reading request of the pair (R139). -/
theorem exec_langHoldExpiry {j : Seat} {s : State} (h : (s.jck.panels.get j).hold.isSome = true) :
    exec (.langHoldExpiry j) s = .next (toggleReading j (setPanel j { panelOf s j with hold := none } s)) := if_pos h

/-- A release that is spent, or that moves no jack (R138). -/
theorem exec_langRelease_still {j : Seat} {s : State} (ha : s.stc.state = .awake)
    (h : (s.jck.panels.get j).hold = none ∨ (s.jck.jacks.get j).state ≠ .listening ∨ s.csr.config.languages ≤ 1) :
    exec (.langRelease j) s = .next { s with
      jck.panels := s.jck.panels.set j
        { s.jck.panels.get j with lang := { accepted := false, run := 0 }, hold := none } } := by
  show execLangRelease j s = _
  unfold execLangRelease
  rw [if_pos ((filtersRun_iff s).mpr (.inl ha))]
  refine if_neg fun ⟨running, moves, many⟩ => ?_
  rcases h with h | h | h
  · simp [panelOf, h] at running
  · exact h (by simpa [listening, jackOf] using moves)
  · exact absurd (show 2 ≤ s.csr.config.languages from many) (by omega)

/-- A release in time: the jack's language moves on, the jack leaves its slot and is placed, and the speaker retries
(R94, R138). -/
theorem exec_langRelease_moves {j : Seat} {s : State} (ha : s.stc.state = .awake)
    (hp : (s.jck.panels.get j).hold.isSome = true) (hj : (s.jck.jacks.get j).state = .listening)
    (hn : 2 ≤ s.csr.config.languages) :
    let n := ((s.jck.jacks.get j).language + 1) % s.csr.config.languages
    ∃ u : JackUnit, ((u.jacks.get j).language = n ∧ (u.jacks.get j).state = .listening ∧ (u.panels.get j).hold = none)
      ∧ exec (.langRelease j) s = .next (serve (completeIfDone (retrySpeaker (placeJack j n
        { leaveSlot (.jack j) s with jck := u })))) := by
  intro n
  refine ⟨(setJack j { s.jck.jacks.get j with language := n }
    (setPanel j { s.jck.panels.get j with lang := .settled false, hold := none } s)).jck,
    ⟨by simp, by simpa using hj, by simp⟩, ?_⟩
  have heard : listening (s.jck.jacks.get j) = true := by simp [listening, hj]
  show execLangRelease j s = _
  unfold execLangRelease
  rw [if_pos ((filtersRun_iff s).mpr (.inl ha))]
  refine (if_pos ⟨hp, heard, hn⟩).trans ?_
  rw [← leaveSlot_jck]
  rfl

/-- What LANG_RELEASE leaves of the jack, its levels and the other blocks where it moves the jack. -/
def JackMoves (j : Seat) (n : Nat) (s t : State) : Prop :=
  exec (.langRelease j) s = .next t
    ∧ (t.jck.jacks.get j).language = n ∧ (t.jck.jacks.get j).state = .listening ∧ (t.jck.panels.get j).hold = none
    ∧ t.lvl.silence.get (.jack j) = some 8000 ∧ (t.lvl.gains.get (.jack j)).slot = -72
    ∧ (t.lvl.gains.get (.jack j)).va = (s.lvl.gains.get (.jack j)).va
    ∧ t.line = s.line ∧ t.txq = s.txq ∧ t.dclk = s.dclk ∧ t.prg = s.prg ∧ t.lmp = s.lmp ∧ t.stc = s.stc

/-- The slot that a jack moving to another language takes, the one it has left, and the rest. -/
def JackTakes (j : Seat) (n : Nat) (i k : SlotId) (s t : State) : Prop :=
  (t.vtab.slots.get k).language = n ∧ (t.vtab.slots.get k).listeners = only (.jack j)
    ∧ t.csr.tags.get k = (leaveSlot (.jack j) s).csr.tags.get k + 1
    ∧ (k ≠ i → LeftBehind i ((s.vtab.slots.get i).listeners.put (.jack j) false) s t)
    ∧ ∀ m, m ≠ i → m ≠ k → t.vtab.slots.get m = s.vtab.slots.get m

/-- A release in time of jack `j`, which hears slot `i`, with a read in hand: the state with the jack's record `u` in
which the jack has left its slot, before it is placed for language `n`. -/
structure Released (j : Seat) (n : Nat) (i : SlotId) (s : State) (u : JackUnit) : Prop where
  run : exec (.langRelease j) s = .next (serve (completeIfDone (retrySpeaker (placeJack j n
    { leaveSlot (.jack j) s with jck := u }))))
  jack : (u.jacks.get j).language = n ∧ (u.jacks.get j).state = .listening ∧ (u.panels.get j).hold = none
  heard : slotHeardBy s (.jack j) = some i
  awake : s.stc.state = .awake
  hand : s.csr.hand.isSome = true

section Released
variable {j : Seat} {n : Nat} {i k : SlotId} {s t : State} {u : JackUnit} (r : Released j n i s u)
include r

theorem Released.leaves : SlotFrame { s with jck := u } { leaveSlot (.jack j) s with jck := u } := by
  rw [← leaveSlot_jck]
  exact leaveSlot_slotFrame r.heard

theorem Released.lvl : (leaveSlot (.jack j) s).lvl = s.lvl := by
  obtain ⟨-, -, -, -, -, -, -, hlvl, -⟩ := leaveSlot_law _ i s r.heard
  exact hlvl

theorem Released.speaker : (leaveSlot (.jack j) s).vtab.speaker = s.vtab.speaker := by
  obtain ⟨-, -, -, -, -, -, -, -, -, hspeaker, -⟩ := leaveSlot_law _ i s r.heard
  exact hspeaker

theorem Released.settles (frame : SlotFrame { leaveSlot (.jack j) s with jck := u } t) (hn : inName s = false) :
    serve (completeIfDone t) = t := (r.leaves.trans frame).settles r.hand hn

theorem Released.moves (e : exec (.langRelease j) s = .next t)
    (frame : SlotFrame { leaveSlot (.jack j) s with jck := u } t)
    (switched : Switched (.jack j) { leaveSlot (.jack j) s with jck := u } t) : JackMoves j n s t := by
  have whole := r.leaves.trans frame
  have va := (switched.of_lvl (s' := s) r.lvl).va
  have jck : t.jck = u := whole.frame.jck
  subst jck
  obtain ⟨language, state, hold⟩ := r.jack
  exact ⟨e, language, state, hold, switched.silence, switched.slot, va, whole.outside⟩

/-- What a slot taken after the jack has left leaves of the other slots. -/
theorem Released.others {l : Listeners} {c : SlotContent} {m : Nat}
    (takes : Takes k m l c { leaveSlot (.jack j) s with jck := u } t) :
    (k ≠ i → LeftBehind i ((s.vtab.slots.get i).listeners.put (.jack j) false) s t)
      ∧ ∀ m, m ≠ i → m ≠ k → t.vtab.slots.get m = s.vtab.slots.get m :=
  ⟨fun hk => leaveSlot_leftBehind r.heard (takes.others i hk.symm),
    fun _ hm hk => (takes.slot hk).trans (leaveSlot_slot r.heard hm)⟩

theorem Released.takes {c : SlotContent}
    (takes : Takes k n (only (.jack j)) c { leaveSlot (.jack j) s with jck := u } t) : JackTakes j n i k s t :=
  ⟨takes.language, takes.listeners, takes.tag, r.others takes⟩

/-- The jack joins the busy slot of its new language (R93). -/
theorem Released.joins (hst : s.vtab.speaker ≠ .starved) (hn : inName s = false) (hl : slotOfLanguage s n = some k)
    (hk : k ≠ i) : ∃ t, JackMoves j n s t ∧ LeftBehind i ((s.vtab.slots.get i).listeners.put (.jack j) false) s t
      ∧ t.vtab.slots.get k = { s.vtab.slots.get k with listeners := (s.vtab.slots.get k).listeners.put (.jack j) true }
      ∧ (∀ m, m ≠ i → m ≠ k → t.vtab.slots.get m = s.vtab.slots.get m) ∧ t.vtab.speaker = s.vtab.speaker
      ∧ ((s.vtab.slots.get i).listeners.put (.jack j) false ≠ .nobody → t.csr = s.csr ∧ t.ann = s.ann) := by
  obtain ⟨frame, switched, speaker, csr, ann, joined, rest⟩ := placeJack_joins_law
    (s := { leaveSlot (.jack j) s with jck := u }) j (slotOfLanguage_leaveSlot_some r.heard hl hk)
  have e := r.run
  rw [retrySpeaker_of_not_starved (by rw [speaker]; exact r.speaker ▸ hst), r.settles frame hn] at e
  refine ⟨_, r.moves e frame switched, leaveSlot_leftBehind r.heard (rest i hk.symm), ?_, fun m hm hmk => ?_,
    speaker.trans r.speaker, fun hleft => ?_⟩
  · rw [joined]
    simp only [leaveSlot_slot r.heard hk]
  · exact (slotView_eq (rest m hmk)).1.trans (leaveSlot_slot r.heard hm)
  · obtain ⟨-, -, -, kept, -⟩ := leaveSlot_law _ i s r.heard
    obtain ⟨-, hcsr, hann⟩ := kept hleft
    exact ⟨csr.trans hcsr, ann.trans hann⟩

/-- The jack takes an IDLE slot outside NAME (R93). -/
theorem Released.takesIdle (hst : s.vtab.speaker ≠ .starved) (hn : inName s = false) (hl : slotOfLanguage s n = none)
    (hidle : idleSlot (leaveSlot (.jack j) s) = some k) : ∃ t, JackMoves j n s t ∧ JackTakes j n i k s t
      ∧ (t.vtab.slots.get k).content = .commentary
      ∧ (s.prg.current ≠ none → (t.vtab.slots.get k).play.state = .seeking) ∧ t.vtab.speaker = s.vtab.speaker := by
  obtain ⟨frame, switched, takes, speaker, seeks⟩ := placeJack_takes_law
    (s := { leaveSlot (.jack j) s with jck := u }) j (r.leaves.inName.trans hn)
    (slotOfLanguage_leaveSlot_none r.heard hl) hidle
  have e := r.run
  rw [retrySpeaker_of_not_starved (by rw [speaker]; exact r.speaker ▸ hst), r.settles frame hn] at e
  exact ⟨_, r.moves e frame switched, r.takes takes, takes.content,
    fun hc => seeks (by rw [r.leaves.frame.prg]; exact hc), speaker.trans r.speaker⟩

/-- The jack takes the slot that the speaker alone hears (R93, R96). -/
theorem Released.takesSpeakers (hn : inName s = false) (hl : slotOfLanguage s n = none)
    (hidle : idleSlot (leaveSlot (.jack j) s) = none) (hk : speakerOnlySlot (leaveSlot (.jack j) s) = some k)
    (hne : n ≠ s.csr.config.house) (hother : ∀ m, m ≠ k → (s.vtab.slots.get m).language ≠ s.csr.config.house) :
    ∃ t, JackMoves j n s t ∧ JackTakes j n i k s t ∧ (t.vtab.slots.get k).content = .commentary
      ∧ (s.prg.current ≠ none → (t.vtab.slots.get k).play.state = .seeking) ∧ t.vtab.speaker = .starved
      ∧ t.lvl.silence.get .spk = some 8000 ∧ (t.lvl.gains.get .spk).slot = -72 := by
  obtain ⟨frame, switched, silenced, takes, starved, seeks⟩ := retry_placeJack_starves
    (s := { leaveSlot (.jack j) s with jck := u }) j (r.leaves.inName.trans hn)
    (slotOfLanguage_leaveSlot_none r.heard hl) hidle hk (by rw [r.leaves.config]; exact hne)
    fun m hm => by rw [r.leaves.config]; exact (leaveSlot_language r.heard m).trans_ne (hother m hm)
  have e := r.run
  rw [r.settles frame hn] at e
  exact ⟨_, r.moves e frame switched, r.takes takes, takes.content,
    fun hc => seeks (by rw [r.leaves.frame.prg]; exact hc), starved, silenced.silence, silenced.slot⟩

/-- The jack takes an IDLE slot in NAME; the slot is given the name, so the announcement goes on (R126, R129; log entry
18). -/
theorem Released.takesNamed (hst : s.vtab.speaker ≠ .starved) (hl : slotOfLanguage s n = none)
    (hidle : idleSlot (leaveSlot (.jack j) s) = some k) {a : Announcement} (hc : s.ann.current = some a)
    (hp : a.phase = .name) (hcap : s.ann.nameCap.isSome = true) : ∃ t, JackMoves j n s t ∧ JackTakes j n i k s t
      ∧ (t.vtab.slots.get k).content = .name a.stop ∧ (t.vtab.slots.get k).play.state = .seeking
      ∧ (t.vtab.slots.get k).play.anchor = DeckTime.addMicros { ms := a.start, us := 0 } (125 * a.chimeLen.getD 0)
      ∧ t.ann = { s.ann with naming := (leaveSlot (.jack j) s).ann.naming.set k true } := by
  have left := r.leaves
  obtain ⟨frame, switched, takes, speaker, seeks, anchor, hann⟩ := placeJack_named_law
    (s := { leaveSlot (.jack j) s with jck := u }) j (by rw [left.ann]; exact hc) hp (by rw [left.ann]; exact hcap)
    (slotOfLanguage_leaveSlot_none r.heard hl) hidle
  have e := r.run
  rw [retrySpeaker_of_not_starved (by rw [speaker]; exact r.speaker ▸ hst),
    completeIfDone_of_naming (k := k) (by rw [hann]; simp), serve_of_hand (by rw [frame.hand, left.hand]; exact r.hand)] at e
  exact ⟨_, r.moves e frame switched, r.takes takes, takes.content, seeks, anchor, hann.trans (by rw [left.ann])⟩

/-- The jack joins the slot of its new language, and a STARVED speaker takes the slot that it has freed (R94, R96). -/
theorem Released.freesForSpeaker (hst : s.vtab.speaker = .starved) (ho : s.csr.config.speakerOn = true)
    (hn : inName s = false) (hl : slotOfLanguage s n = some k) (hk : k ≠ i)
    (hempty : (s.vtab.slots.get i).listeners.put (.jack j) false = .nobody)
    (hbusy : ∀ m, m ≠ i → slotBusy s m = true ∧ (s.vtab.slots.get m).language ≠ s.csr.config.house) :
    ∃ t, JackMoves j n s t ∧ (t.vtab.slots.get k).listeners = (s.vtab.slots.get k).listeners.put (.jack j) true
      ∧ t.vtab.speaker = .attached i ∧ (t.vtab.slots.get i).language = s.csr.config.house
      ∧ (t.vtab.slots.get i).listeners = only .spk ∧ (t.vtab.slots.get i).content = .commentary
      ∧ (s.prg.current ≠ none → (t.vtab.slots.get i).play.state = .seeking)
      ∧ t.lvl.silence.get .spk = some 8000 ∧ (t.lvl.gains.get .spk).slot = -72
      ∧ ∀ m, m ≠ i → m ≠ k → t.vtab.slots.get m = s.vtab.slots.get m := by
  obtain ⟨placed, switched, speaker, -, -, joined, rest⟩ := placeJack_joins_law
    (s := { leaveSlot (.jack j) s with jck := u }) j (slotOfLanguage_leaveSlot_some r.heard hl hk)
  have e := r.run
  obtain ⟨y, hy⟩ : ∃ y, y = placeJack j n { leaveSlot (.jack j) s with jck := u } := ⟨_, rfl⟩
  rw [← hy] at placed switched speaker joined rest e
  have before := r.leaves.trans placed
  have free : (y.vtab.slots.get i).play.state = .idle := by
    rw [(slotView_eq (rest i hk.symm)).1]
    exact leaveSlot_idle r.heard hempty
  have same : ∀ m, m ≠ i → (y.vtab.slots.get m).play = (s.vtab.slots.get m).play
      ∧ (y.vtab.slots.get m).language = (s.vtab.slots.get m).language := fun m hm => by
    rw [← leaveSlot_slot r.heard hm]
    by_cases at_k : m = k
    · rw [at_k, joined]
      exact ⟨rfl, rfl⟩
    · rw [(slotView_eq (rest m at_k)).1]
      exact ⟨rfl, rfl⟩
  have house : slotOfLanguage y y.csr.config.house = none := slotOfLanguage_eq_none.mpr fun m hb => by
    by_cases hm : m = i
    · exact absurd free (hm ▸ hb)
    · rw [(same m hm).2, before.config]
      exact (hbusy m hm).2
  have idle : idleSlot y = some i := idleSlot_only free fun m hm => by
    rw [(same m hm).1]
    exact (slotBusy_iff s m).mp (hbusy m hm).1
  obtain ⟨retry, takes, silenced, attached, seeks, keeps⟩ := retrySpeaker_takes_law
    (speaker.trans (r.speaker.trans hst)) (by rw [before.frame.stc]; exact r.awake) (by rw [before.config]; exact ho)
    (before.inName.trans hn) house idle
  rw [r.settles (placed.trans retry) hn] at e
  refine ⟨_, r.moves e (placed.trans retry) (keeps j _ switched), ?_, attached,
    takes.language.trans (by rw [before.config]), takes.listeners, takes.content,
    fun hc => seeks (by rw [before.frame.prg]; exact hc), silenced.silence, silenced.slot, fun m hm hmk => ?_⟩
  · rw [takes.slot hk, joined, ← leaveSlot_slot r.heard hk]
  · exact (takes.slot hm).trans ((slotView_eq (rest m hmk)).1.trans (leaveSlot_slot r.heard hm))

/-- The jack takes an IDLE slot with the house language, and a STARVED speaker joins it there (R93, R96). -/
theorem Released.joinedBySpeaker (hst : s.vtab.speaker = .starved) (ho : s.csr.config.speakerOn = true)
    (hn : inName s = false) (hl : slotOfLanguage s n = none) (hhouse : n = s.csr.config.house)
    (hidle : idleSlot (leaveSlot (.jack j) s) = some k) : ∃ t, JackMoves j n s t
      ∧ (t.vtab.slots.get k).language = s.csr.config.house ∧ t.vtab.speaker = .attached k
      ∧ (t.vtab.slots.get k).listeners = (only (.jack j)).put .spk true
      ∧ (t.vtab.slots.get k).content = .commentary
      ∧ t.csr.tags.get k = (leaveSlot (.jack j) s).csr.tags.get k + 1
      ∧ t.lvl.silence.get .spk = some 8000 ∧ (t.lvl.gains.get .spk).slot = -72
      ∧ (k ≠ i → LeftBehind i ((s.vtab.slots.get i).listeners.put (.jack j) false) s t)
      ∧ ∀ m, m ≠ i → m ≠ k → t.vtab.slots.get m = s.vtab.slots.get m := by
  have house : ({ leaveSlot (.jack j) s with jck := u } : State).csr.config.house = n := by
    rw [r.leaves.config, hhouse]
  obtain ⟨frame, switched, silenced, takes, attached⟩ := retry_placeJack_house
    (s := { leaveSlot (.jack j) s with jck := u }) j (r.leaves.inName.trans hn)
    (by rw [house]; exact slotOfLanguage_leaveSlot_none r.heard hl) hidle (r.speaker.trans hst)
    (by rw [r.leaves.frame.stc]; exact r.awake) (by rw [r.leaves.config]; exact ho)
  rw [house] at frame switched silenced takes attached
  have e := r.run
  rw [r.settles frame hn] at e
  obtain ⟨freed, rest⟩ := r.others takes
  exact ⟨_, r.moves e frame switched, takes.language.trans hhouse, attached, takes.listeners, takes.content, takes.tag,
    silenced.silence, silenced.slot, freed, rest⟩

end Released

/-- Settles O48: the button by its commands' equations, and each place a language change leads to by the law of the
placing, over the state in which the jack has left its slot. -/
theorem langButton : Obligations.LangButton := by
  intro j s x p
  refine ⟨exec_langPress, fun hp => ?expiry, exec_langRelease_still, fun ha hp hj hlang hh i k hi => ?moves⟩
  case expiry =>
    obtain ⟨jacks, panels, ab, cd, rest⟩ := toggleReading_law j (setPanel j { panelOf s j with hold := none } s)
    exact ⟨_, exec_langHoldExpiry hp, by rw [panels]; simp, jacks, ab, cd, rest⟩
  case moves =>
    obtain ⟨u, jack, run⟩ := exec_langRelease_moves ha hp hj hlang
    have r : Released j _ i s u := ⟨run, jack, hi, ha, hh⟩
    exact ⟨r.joins, r.takesIdle, r.takesSpeakers, fun hst hl hidle a hc => r.takesNamed hst hl hidle hc,
      r.freesForSpeaker, r.joinedBySpeaker⟩

end Sys2Proof.Machine

namespace Sys2Proof.Machine

/-! ## A jack that settles (R93, R97, R134, R147) -/

/-- Outside NAME a slot taken becomes COMMENTARY with its new language and listeners, and seeks (R93). -/
theorem takeSlot_of_not_inName (k : SlotId) (n : Nat) (l : Listeners) {s : State} (hn : inName s = false) :
    takeSlot k n l s = seekSlot k
      { putSlot k { s.vtab.slots.get k with language := n, listeners := l, content := .commentary } s with
        ann.naming := s.ann.naming.set k false } := by
  unfold takeSlot
  dsimp only
  rw [namedStop_of_not_inName _ (by exact hn)]
  rfl

/-- What such a slot seeks: the current cue from its start, or nothing (R97). -/
theorem takeSlot_seeks (k : SlotId) (n : Nat) (l : Listeners) {s : State} (hn : inName s = false) :
    let t := takeSlot k n l s
    (∀ c, s.prg.current = some c → (t.vtab.slots.get k).play = (s.vtab.slots.get k).play.seek (instant c.start)
      ∧ (t.csr.places.get k).isSome = true)
    ∧ (s.prg.current = none → (t.vtab.slots.get k).play = (s.vtab.slots.get k).play.seekNothing) := by
  intro t
  obtain ⟨cue, nothing⟩ := seekSlot_commentary k
    { putSlot k { s.vtab.slots.get k with language := n, listeners := l, content := .commentary } s with
      ann.naming := s.ann.naming.set k false } (by simp)
  rw [← takeSlot_of_not_inName k n l hn] at cue nothing
  refine ⟨fun c hc => ?_, fun hc => ?_⟩
  · obtain ⟨play, place⟩ := cue c hc
    exact ⟨by simpa using play, place⟩
  · simpa using (nothing hc).1

/-- The jack is LISTENING, its settle over, and not yet in a slot (R134). -/
def settled (j : Seat) (s : State) : State :=
  setJack j { s.jck.jacks.get j with state := .listening, settle := none } s

/-- SETTLE_END with a read in hand, no speaker waiting and outside NAME is the jack's placing (R93, R134). -/
theorem exec_settleEnd_places {j : Seat} {s t : State} (hj : (s.jck.jacks.get j).state = .settling)
    (hh : s.csr.hand.isSome = true) (hn : inName s = false)
    (ht : placeJack j (s.jck.jacks.get j).language (settled j s) = t) (frame : SlotFrame (settled j s) t)
    (hs : t.vtab.speaker ≠ .starved) :
    exec (.settleEnd j) s = .next t ∧ (t.jck.jacks.get j).state = .listening ∧ (t.jck.jacks.get j).settle = none
      ∧ (t.jck.jacks.get j).language = (s.jck.jacks.get j).language
      ∧ t.line = s.line ∧ t.txq = s.txq ∧ t.dclk = s.dclk ∧ t.prg = s.prg ∧ t.lmp = s.lmp := by
  have e := settleEnd_eq j s hj
  unfold settled at ht
  rw [ht, retrySpeaker_of_not_starved hs, frame.settles hh hn] at e
  have jack : t.jck.jacks.get j = { s.jck.jacks.get j with state := .listening, settle := none } := by
    rw [frame.frame.jck]
    simp [settled]
  obtain ⟨line, txq, dclk, prg, lmp, -⟩ := frame.outside
  rw [jack]
  exact ⟨e, rfl, rfl, rfl, line, txq, dclk, prg, lmp⟩

/-- Settles O28: the jack joins by `placeJack_joins_law`, takes a slot by `placeJack_takes_law`, and the slot taken
seeks by `takeSlot_seeks`. -/
theorem settleEnd : Obligations.SettleEnd := by
  intro j s hj hh hs hn n
  refine ⟨fun i hl => ?joins, fun i hl hi => ?takes⟩
  case joins =>
    obtain ⟨frame, switched, speaker, csr, ann, slot, -⟩ := placeJack_joins_law (s := settled j s) j hl
    obtain ⟨e, state, settle, language, line, txq, dclk, prg, lmp⟩ :=
      exec_settleEnd_places hj hh hn rfl frame (by rw [speaker]; exact hs)
    refine ⟨_, e, state, settle, language, ?hears, ?plays, csr, switched.silence, switched.slot, switched.va, ?out,
      line, txq, dclk, prg, ann, lmp⟩
    case hears =>
      rw [slot]
      simp
    case plays =>
      rw [slot]
      rfl
    case out =>
      have placed : placeJack j n (settled j s) = _ := placeJack_joins j hl
      rw [placed]
      simp
  case takes =>
    obtain ⟨frame, switched, takes, speaker, -⟩ := placeJack_takes_law (s := settled j s) j hn hl hi
    obtain ⟨cue, nothing⟩ := takeSlot_seeks (s := settled j s) i n (only (.jack j)) hn
    obtain ⟨e, state, -, -, line, txq, dclk, prg, lmp⟩ :=
      exec_settleEnd_places hj hh hn rfl frame (by rw [speaker]; exact hs)
    have placed : placeJack j n (settled j s) = _ := placeJack_takes j hl hi
    refine ⟨_, e, state, takes.language, takes.listeners, takes.content, takes.tag, fun c hc => ?_, fun hc => ?_,
      switched.silence, switched.slot, line, txq, dclk, prg, lmp⟩
    · obtain ⟨play, place⟩ := cue c hc
      rw [placed, switchSource_vtab, switchSource_csr, play]
      exact ⟨rfl, rfl, place⟩
    · rw [placed, switchSource_vtab, nothing hc]
      rfl

end Sys2Proof.Machine

namespace Sys2Proof.Machine

/-! ## Steps of playback (R100) -/

/-- `t` differs from `s` at most in the voices' records, their requests and the raised events. -/
structure VoicesMove (s t : State) : Prop where
  line : t.line = s.line
  txq : t.txq = s.txq
  dclk : t.dclk = s.dclk
  prg : t.prg = s.prg
  ann : t.ann = s.ann
  jck : t.jck = s.jck
  lvl : t.lvl = s.lvl
  lmp : t.lmp = s.lmp
  stc : t.stc = s.stc
  hand : t.csr.hand = s.csr.hand
  tags : t.csr.tags = s.csr.tags

theorem VoicesMove.refl (s : State) : VoicesMove s s := ⟨rfl, rfl, rfl, rfl, rfl, rfl, rfl, rfl, rfl, rfl, rfl⟩

theorem VoicesMove.trans {s t u : State} (h : VoicesMove s t) (k : VoicesMove t u) : VoicesMove s u :=
  ⟨k.line.trans h.line, k.txq.trans h.txq, k.dclk.trans h.dclk, k.prg.trans h.prg, k.ann.trans h.ann,
    k.jck.trans h.jck, k.lvl.trans h.lvl, k.lmp.trans h.lmp, k.stc.trans h.stc, k.hand.trans h.hand,
    k.tags.trans h.tags⟩

theorem setPlay_moves (v : VoiceId) (p : Play) (s : State) : VoicesMove s (setPlay v p s) := by
  constructor <;> simp

theorem issueBlock_moves (v : VoiceId) (k : Nat) (s : State) : VoicesMove s (issueBlock v k s) := by
  unfold issueBlock
  split
  · constructor <;> simp
  · exact .refl s

theorem settlePlay_moves (v : VoiceId) (o : PlayOut) (s : State) : VoicesMove s (settlePlay v o s) := by
  unfold settlePlay
  dsimp only
  split
  · exact (setPlay_moves v _ s).trans (issueBlock_moves v _ _)
  · exact setPlay_moves v _ s

theorem topUpVoice_moves (v : VoiceId) (s : State) : VoicesMove s (topUpVoice v s) := settlePlay_moves v _ s

theorem raise_moves (events : List Instr) (s : State) : VoicesMove s (raise events s) := by
  constructor <;> rfl

/-- A fold of operations that move the voices alone moves the voices alone. -/
theorem VoicesMove.foldl {f : State → VoiceId → State} (h : ∀ s v, VoicesMove s (f s v)) (l : List VoiceId)
    (s : State) : VoicesMove s (l.foldl f s) := by
  induction l generalizing s with
  | nil => exact .refl s
  | cons v l ih => exact (h s v).trans (ih _)

/-! ### The next block asked for -/

theorem SameVoice.refl (p : Play) : SameVoice p p := ⟨rfl, rfl, rfl, rfl, rfl⟩

theorem SameVoice.trans {p q r : Play} (h : SameVoice p q) (k : SameVoice q r) : SameVoice p r := by
  obtain ⟨position, state, underruns, anchor, clip⟩ := h
  obtain ⟨position', state', underruns', anchor', clip'⟩ := k
  exact ⟨position'.trans position, state'.trans state, underruns'.trans underruns, anchor'.trans anchor,
    clip'.trans clip⟩

/-- Asking for the next block moves buffers and requests alone (R100). -/
theorem topUpVoice_sameVoice (v w : VoiceId) (s : State) : SameVoice (playOf s w) (playOf (topUpVoice v s) w) := by
  unfold topUpVoice
  rw [(settlePlay_law v _ s).1 w]
  split
  next e =>
    subst e
    exact Play.topUp_law _ _
  next => exact .refl _

theorem topUpVoice_other {v w : VoiceId} (h : w ≠ v) (s : State) : playOf (topUpVoice v s) w = playOf s w := by
  unfold topUpVoice
  rw [(settlePlay_law v _ s).1 w, if_neg h.symm]

theorem topUpVoices_sameVoice (l : List VoiceId) (w : VoiceId) (s : State) :
    SameVoice (playOf s w) (playOf (l.foldl (fun s v => topUpVoice v s) s) w) := by
  induction l generalizing s with
  | nil => exact .refl _
  | cons v l ih => exact (topUpVoice_sameVoice v w s).trans (ih _)

/-! ## The sample tick (R100, R142, R149) -/

/-- With no clip over and no boundary to be judged nothing is left to settle (log entry 3). -/
theorem settleVoices_of_settled {s : State}
    (h : ∀ v, (playOf s v).over = false ∧ (playOf s v).atBoundary = false) : settleVoices s = s := by
  have still : ∀ v, crossBoundary v (endClip v s) = s := fun v => by
    obtain ⟨going, boundary⟩ := h v
    have same : endClip v s = s := if_neg (by simp [going])
    rw [same]
    exact if_neg (by simp [boundary])
  simp [settleVoices, allVoices, still]

/-- A tick moves the position of a voice that sounds by one, and nothing else but the boundary mark (R100). -/
theorem Play.tick_law (p : Play) (now : DeckTime) :
    (p.tick now).position = p.position + (if p.sounds now = true then 1 else 0) ∧ (p.tick now).state = p.state
      ∧ (p.tick now).underruns = p.underruns ∧ (p.tick now).anchor = p.anchor ∧ (p.tick now).clip = p.clip := by
  unfold Play.tick
  split <;> exact ⟨rfl, rfl, rfl, rfl, rfl⟩

theorem slotSamples_get (s : State) (i : SlotId) :
    (slotSamples s).get i = (s.vtab.slots.get i).play.tickSample s.dclk.now := by
  cases i <;> rfl

/-- Where an output carries 0 whatever the voices hand over (R142, R144, R147). -/
def Quiet (s : State) (o : Output) : Prop :=
  live s o = false ∨ (s.lvl.silence.get o).isSome = true ∨ (s.lvl.gains.get o).muted = true

theorem mix_of_quiet {s : State} {o : Output} (h : Quiet s o) (slots : Slots Int) (va : Int) :
    mix s slots va o = 0 := by
  refine if_pos ?_
  rcases h with h | h | h <;> simp [h]

/-- Elsewhere it carries the saturated sum of its two scaled sources (R149). -/
theorem mix_of_not_quiet {s : State} {o : Output} (h : ¬ Quiet s o) (slots : Slots Int) (va : Int) :
    mix s slots va o = max (-32767) (min 32767
      ((sourceOf s o).elim 0 (fun i => scale (slots.get i) (s.lvl.gains.get o).slot)
        + if vaFeeds s o = true then scale va (s.lvl.gains.get o).va else 0)) := by
  simp only [Quiet, not_or, Bool.not_eq_false, Bool.not_eq_true] at h
  obtain ⟨alive, sounding, unmuted⟩ := h
  unfold mix
  dsimp only
  rw [if_neg (by simp [alive, sounding, unmuted])]
  cases sourceOf s o <;> rfl

/-- The outputs as the samples handed over at a tick are mixed, and everything else as it was (R149). -/
def mixed (s : State) : State :=
  { s with lvl.out := Outputs.of (mix s (slotSamples s) (s.vtab.va.play.tickSample s.dclk.now)) }

theorem soundTick_moves (s : State) : VoicesMove (mixed s) (soundTick s) :=
  VoicesMove.foldl (fun s v => setPlay_moves v ((playOf s v).tick s.dclk.now) s) allVoices (mixed s)

/-- Every voice takes one step of the tick (R100). -/
theorem playOf_soundTick (s : State) (v : VoiceId) : playOf (soundTick s) v = (playOf s v).tick s.dclk.now := by
  show playOf (allVoices.foldl tickVoice (mixed s)) v = (playOf (mixed s) v).tick (mixed s).dclk.now
  rcases v with i | _
  · cases i <;> simp [allVoices, tickVoice]
  · simp [allVoices, tickVoice]

/-- SAMPLE_TICK with nothing left over and a read in hand: the outputs are mixed, every voice takes its step, what the
step brings about is raised, and the next blocks are asked for (R100, R149). -/
theorem exec_sampleTick {s t : State} (hh : s.csr.hand.isSome = true)
    (h : ∀ v, (playOf s v).over = false ∧ (playOf s v).atBoundary = false)
    (ht : allVoices.foldl (fun s v => topUpVoice v s)
      (raise (allVoices.flatMap (tickEvents (soundTick s))) (soundTick s)) = t) :
    exec .sampleTick s = .next t ∧ VoicesMove (mixed s) t
      ∧ ∀ v, SameVoice ((playOf s v).tick s.dclk.now) (playOf t v) := by
  have moves : VoicesMove (mixed s) t := by
    rw [← ht]
    exact ((soundTick_moves s).trans (raise_moves _ _)).trans
      (VoicesMove.foldl (fun s v => topUpVoice_moves v s) allVoices _)
  refine ⟨?_, moves, fun v => ?_⟩
  · show execSampleTick s = _
    unfold execSampleTick
    dsimp only
    rw [settleVoices_of_settled h, ht, serve_of_hand (by rw [moves.hand]; exact hh)]
  · rw [← playOf_soundTick, ← ht]
    exact topUpVoices_sameVoice allVoices v (raise _ (soundTick s))

/-- Settles O39: the outputs by `mix`'s two cases, the voices by `Play.tick_law`. -/
theorem sampleTick : Obligations.SampleTick := by
  intro s hh hv slotPart vaPart
  obtain ⟨e, moves, voices⟩ := exec_sampleTick hh hv rfl
  refine ⟨_, e, fun o => ?outputs, fun v => ?voices, ?_⟩
  case outputs =>
    rw [moves.lvl, mixed, Outputs.get_of]
    split
    next quiet => exact mix_of_quiet quiet _ _
    next sounds =>
      rw [mix_of_not_quiet sounds]
      cases source : sourceOf s o <;> simp [slotPart, vaPart, source, slotSamples_get]
  case voices =>
    obtain ⟨position, state, underruns, anchor, clip⟩ := voices v
    obtain ⟨position', state', underruns', anchor', clip'⟩ := (playOf s v).tick_law s.dclk.now
    exact ⟨position.trans position', state.trans state', underruns.trans underruns', anchor.trans anchor',
      clip.trans clip'⟩
  exact ⟨by rw [moves.lvl]; rfl, by rw [moves.lvl]; rfl, by rw [moves.lvl]; rfl, moves.line, moves.txq, moves.dclk,
    moves.prg, moves.ann, moves.jck, moves.lmp, moves.stc, moves.hand, moves.tags⟩

end Sys2Proof.Machine

namespace Sys2Proof.Machine

/-! ## A block boundary (R100, R103, R104) -/

/-- A PLAYING voice at an unjudged boundary crosses it (R100). -/
theorem crossBoundary_eq {v : VoiceId} {s : State} (hp : (playOf s v).state = .playing)
    (hb : (playOf s v).atBoundary = true) :
    crossBoundary v s = actOn v ((playOf s v).boundary s.dclk.now (outstanding s v)) s :=
  if_pos (by simp [hp, hb])

/-- The record of a voice that has crossed a boundary: the block just left is spent (R100). -/
def Play.crossed (p : Play) : Play :=
  { p with
    atBoundary := false, bufX := p.bufX.spent (p.position / 256 - 1), bufY := p.bufY.spent (p.position / 256 - 1) }

/-- Up to 64 samples behind, the voice enters the block; further behind it realigns (R103, R104). -/
theorem Play.boundary_eq (p : Play) (now : DeckTime) (outstanding : Bool) :
    p.boundary now outstanding = if (p.position : Int) + 64 < timelineIndex now p.anchor
      then p.crossed.realign (indexNow now p) outstanding else p.crossed.enter outstanding := rfl

/-- With a request outstanding a block entered plays on where a buffer is FULL with it, and is an underrun where none is
(R104). -/
theorem Play.enter_outstanding (p : Play) : p.enter true =
    if p.bufX.isFull (p.position / 256) || p.bufY.isFull (p.position / 256) then Play.same p
    else Play.same { p with underruns := min 65535 (p.underruns + 1) } := rfl

/-- A realignment inside the clip moves the position and the buffers alone (R103). -/
theorem Play.realign_inside {p : Play} {e : Nat} (h : e < p.samples) (outstanding : Bool) :
    let o := p.realign e outstanding
    o.ended = false ∧ o.play.position = e ∧ o.play.underruns = p.underruns ∧ o.play.state = p.state := by
  unfold Play.realign
  rw [if_neg (by omega)]
  dsimp only
  split_ifs <;> exact ⟨rfl, rfl, rfl, rfl⟩

/-- A step of playback that ends nothing moves its own voice alone. -/
theorem actOn_running {v : VoiceId} {o : PlayOut} (s : State) (he : o.ended = false) :
    VoicesMove s (actOn v o s) ∧ SameVoice o.play (playOf (actOn v o s) v)
      ∧ ∀ w, w ≠ v → playOf (actOn v o s) w = playOf s w := by
  have e : actOn v o s = topUpVoice v (settlePlay v o s) := by
    unfold actOn
    rw [he]
    rfl
  obtain ⟨record, -⟩ := settlePlay_law v o s
  rw [e]
  refine ⟨(settlePlay_moves v o s).trans (topUpVoice_moves v _), ?_, fun w hw => ?_⟩
  · have same := topUpVoice_sameVoice v v (settlePlay v o s)
    rwa [record v, if_pos rfl] at same
  · rw [topUpVoice_other hw, record w, if_neg hw.symm]

/-- BLOCK_BOUNDARY that ends nothing, with a read in hand (R69). -/
theorem exec_blockBoundary {v : VoiceId} {s : State} (hh : s.csr.hand.isSome = true)
    (hp : (playOf s v).state = .playing) (hb : (playOf s v).atBoundary = true) {o : PlayOut}
    (ho : (playOf s v).boundary s.dclk.now (outstanding s v) = o) (he : o.ended = false) :
    exec (.blockBoundary v) s = .next (actOn v o s) := by
  show Host.Outcome.next (serve (crossBoundary v s)) = _
  rw [crossBoundary_eq hp hb, ho, serve_of_hand (by rw [(actOn_running s he).1.hand]; exact hh)]

/-- Settles O41: by the two cases of `Play.boundary_eq`, entering by `Play.enter_outstanding` and realigning by
`Play.realign_inside`. -/
theorem blockBoundary : Obligations.BlockBoundary := by
  intro v s hh p e left q hp hb ho
  have enters : e ≤ p.position + 64 → p.boundary s.dclk.now (outstanding s v) = q.enter true := fun near => by
    rw [Play.boundary_eq, if_neg (by omega), ho]
    rfl
  refine ⟨fun near hx hy => ?underrun, fun near full => ?playsOn, fun far inside => ?realigns⟩
  case underrun =>
    have missing : q.enter true = Play.same { q with underruns := min 65535 (p.underruns + 1) } := by
      rw [Play.enter_outstanding]
      exact if_neg (by simpa using ⟨hx, hy⟩)
    rw [exec_blockBoundary hh hp hb ((enters near).trans missing) rfl, actOn_same v _ s ho]
  case playsOn =>
    have held : q.enter true = Play.same q := by
      rw [Play.enter_outstanding]
      exact if_pos (by simpa using full)
    rw [exec_blockBoundary hh hp hb ((enters near).trans held) rfl, actOn_same v _ s ho]
  case realigns =>
    have index : (indexNow s.dclk.now p : Int) = e := Int.toNat_of_nonneg (by omega)
    have within : indexNow s.dclk.now p < p.crossed.samples := by
      show _ < p.samples
      omega
    have away : p.boundary s.dclk.now (outstanding s v) =
        p.crossed.realign (indexNow s.dclk.now p) (outstanding s v) := by
      rw [Play.boundary_eq, if_pos far]
    obtain ⟨going, position, underruns, state⟩ := Play.realign_inside within (outstanding s v)
    obtain ⟨moves, ⟨position', state', underruns', -⟩, others⟩ := actOn_running (v := v) s going
    exact ⟨_, exec_blockBoundary hh hp hb away going, position'.trans position, underruns'.trans underruns,
      (state'.trans state).trans hp, others, moves.line, moves.txq, moves.dclk, moves.prg, moves.ann, moves.jck,
      moves.lvl, moves.lmp, moves.stc⟩

/-! ## A clip's end (R105, R110, R120, R126) -/

/-- A seek leaves a COMMENTARY slot not PLAYING (R97). -/
theorem seekSlot_not_playing {i : SlotId} {s : State} (h : (s.vtab.slots.get i).content = .commentary) :
    (playOf (seekSlot i s) (.slot i)).state ≠ .playing := by
  obtain ⟨cue, nothing⟩ := seekSlot_commentary i s h
  show ((seekSlot i s).vtab.slots.get i).play.state ≠ _
  cases hc : s.prg.current with
  | none =>
    rw [(nothing hc).1]
    exact nofun
  | some c =>
    rw [(cue c hc).1]
    exact nofun

/-- A busy slot of the naming set is returned by a seek as COMMENTARY (R126). -/
theorem returnSlot_seeks {i : SlotId} {s : State} (hn : s.ann.naming.get i = true) (hb : slotBusy s i = true) :
    returnSlot i s = seekSlot i (setContent i .commentary { s with ann.naming := s.ann.naming.set i false }) := by
  unfold returnSlot
  rw [if_pos hn]
  exact if_pos hb

/-- A slot whose name is done, with another slot still naming (R126, R129). -/
theorem voiceDone_named {i k : SlotId} {stop : Nat} {s : State} (hc : (s.vtab.slots.get i).content = .name stop)
    (hn : s.ann.naming.get i = true) (hki : k ≠ i) (hk : s.ann.naming.get k = true) :
    voiceDone (.slot i) s = returnSlot i s := by
  obtain ⟨-, -, ann, -⟩ := returnSlot_law i s
  have told : voiceDone (.slot i) s = slotDone i s := by
    unfold voiceDone
    dsimp only
    rw [hc]
  rw [told]
  unfold slotDone
  rw [if_pos hn, completeIfDone_of_naming (k := k) (by rw [ann]; simp [hki.symm, hk])]

/-- VA's tone is done (R120). -/
theorem voiceDone_tone {s : State} (h : s.ann.purpose = .tone) : voiceDone .va s = vaStop s := by
  show vaDone s = _
  unfold vaDone
  rw [h]

/-- Settles O42: each voice by what its end reports, from `clipEnd_eq`. -/
theorem clipEnd : Obligations.ClipEnd := by
  intro s hh
  refine ⟨fun i past content => ?commentary, fun past tone => ?tone, fun i k stop past content hn hki hk => ?named⟩
  case commentary =>
    show Host.Outcome.next (serve (endClip (.slot i) s)) = _
    have ends : endClip (.slot i) s = actOn (.slot i) (playOf s (.slot i)).ends s := if_pos past
    rw [ends, actOn_ends_commentary _ content, serve_of_hand (by simpa using hh)]
    rfl
  case tone =>
    obtain ⟨w, hw⟩ : ∃ w, w = setPlay .va (playOf s .va).silence s := ⟨_, rfl⟩
    have e := clipEnd_eq .va s past
    rw [← hw, voiceDone_tone (by rw [hw]; simpa using tone), topUpVoice_at_rest .va _ (by simp [playOf]),
      serve_of_hand (by rw [hw]; simpa using hh)] at e
    subst hw
    exact ⟨_, e, rfl, rfl, rfl, rfl, rfl, rfl, rfl, rfl, rfl, rfl, rfl, rfl⟩
  case named =>
    obtain ⟨w, hw⟩ : ∃ w, w = setPlay (.slot i) (playOf s (.slot i)).silence s := ⟨_, rfl⟩
    have slot : w.vtab.slots.get i = { s.vtab.slots.get i with play := (playOf s (.slot i)).silence } := by
      rw [hw]
      simp [setPlay]
    have same : VoicesMove s w := hw ▸ setPlay_moves _ _ _
    have naming : w.ann.naming.get i = true := by rw [same.ann]; exact hn
    have busy : slotBusy w i = true := (slotBusy_iff w i).mpr (by simp [slot, Play.silence])
    obtain ⟨others, hand, ann, lvl, -, returned⟩ := returnSlot_law i w
    obtain ⟨commentary, tag⟩ := returned naming busy
    have frame := returnSlot_frame i w
    have rests : (playOf (returnSlot i w) (.slot i)).state ≠ .playing := by
      rw [returnSlot_seeks naming busy]
      exact seekSlot_not_playing (by simp [setContent])
    have lamps : (returnSlot i w).lmp = w.lmp := by
      rw [returnSlot_seeks naming busy, (seekSlot_lamps i _).1]
      rfl
    have e := clipEnd_eq (.slot i) s past
    rw [← hw, voiceDone_named (by rw [slot]; exact content) naming hki (by rw [same.ann]; exact hk),
      topUpVoice_at_rest _ _ rests, serve_of_hand (by rw [hand, same.hand]; exact hh)] at e
    refine ⟨_, e, commentary, tag.trans (by rw [same.tags]), ann.trans (by rw [same.ann]), fun m hm => ?_,
      frame.line.trans same.line, frame.txq.trans same.txq, frame.dclk.trans same.dclk, frame.prg.trans same.prg,
      frame.jck.trans same.jck, lvl.trans same.lvl, lamps.trans same.lmp, frame.stc.trans same.stc⟩
    rw [(others m hm).1, hw]
    simp [setPlay, hm.symm]

end Sys2Proof.Machine

namespace Sys2Proof.Machine

/-! ## Jacks plugged and unplugged (R95, R133, R135, R136, R177) -/

/-- A wake request while no other is under way asks LINE for the WAKE pattern and starts the wake wait (R177). -/
theorem wakeRequest_asks {s : State} (ho : receiveOnly s = false) (hw : s.stc.wakeWait = none)
    (hk : s.line.wake = .none) : wakeRequest s = { s with line.wake := .held, stc.wakeWait := some 100000 } := by
  unfold wakeRequest
  rw [if_neg (by simp [ho]), if_neg (by simp [hw]), if_pos hk]
  rfl

/-- An EMPTY jack plugged while AWAKE settles (R133). -/
theorem exec_plug_awake {j : Seat} {s : State} (ha : s.stc.state = .awake)
    (hj : (s.jck.jacks.get j).state = .empty) : exec (.plug j) s =
      .next (setJack j ((s.jck.jacks.get j).plugged s.csr.config .settling (some Config.settleMicros))
        (setPanel j { panelOf s j with detect := .settled true } s)) := by
  show execPlug j s = _
  unfold execPlug
  rw [if_pos ⟨(filtersRun_iff s).mpr (.inl ha), hj⟩]
  exact if_pos (by simp [isAwake, ha])

/-- Plugged while PARKING or PARKED it is HELD, and PARKED it asks for the wake (R136, R177). -/
theorem exec_plug_asleep {j : Seat} {s : State} (hs : s.stc.state = .parking ∨ s.stc.state = .parked)
    (hj : (s.jck.jacks.get j).state = .empty) : exec (.plug j) s =
      .next (pressWakes (setJack j ((s.jck.jacks.get j).plugged s.csr.config .held none)
        (setPanel j { panelOf s j with detect := .settled true } s))) := by
  have awake : isAwake s = false := by rcases hs with h | h <;> simp [isAwake, h]
  show execPlug j s = _
  unfold execPlug
  rw [if_pos ⟨(filtersRun_iff s).mpr (.inr hs), hj⟩]
  refine (if_neg (by simpa [isAwake] using awake)).trans ?_
  exact (apply_ite Host.Outcome.next _ _ _).symm

/-- The jack's record and its detect filter once it has been unplugged (R135). -/
def unplugged (j : Seat) (s : State) : State :=
  setJack j { s.jck.jacks.get j with state := .empty, settle := none }
    (setPanel j { s.jck.panels.get j with detect := .settled false } s)

/-- UNPLUG makes a jack EMPTY; from LISTENING it leaves its slot as well (R135). -/
theorem exec_unplug_eq {j : Seat} {s : State}
    (hs : s.stc.state = .awake ∨ s.stc.state = .parking ∨ s.stc.state = .parked)
    (hj : (s.jck.jacks.get j).state ≠ .empty) : exec (.unplug j) s =
      .next (if (s.jck.jacks.get j).state = .listening then jackLeaves j (unplugged j s) else unplugged j s) := by
  show execUnplug j s = _
  unfold execUnplug
  rw [if_pos ⟨(filtersRun_iff s).mpr hs, hj⟩]
  exact (apply_ite Host.Outcome.next _ _ _).symm

/-- A jack leaves a slot that others hear: the slot plays on for them and the jack's output is closed (R95, R142,
R146). -/
theorem jackLeaves_shared {j : Seat} {i : SlotId} {s : State} (hi : slotHeardBy s (.jack j) = some i)
    (hl : (s.vtab.slots.get i).listeners.put (.jack j) false ≠ .nobody) (hs : s.vtab.speaker ≠ .starved)
    (hn : inName s = false) (hr : ReaderRests s) :
    jackLeaves j s = closeOutput (.jack j)
      (setListeners i ((s.vtab.slots.get i).listeners.put (.jack j) false) s) := by
  have left : leaveSlot (.jack j) s = setListeners i ((s.vtab.slots.get i).listeners.put (.jack j) false) s := by
    unfold leaveSlot
    rw [hi]
    exact if_neg hl
  unfold jackLeaves
  rw [left, retrySpeaker_of_not_starved (by exact hs), completeIfDone_of_not_inName _ (by exact hn)]
  exact serve_of_rest (hr.of_csr rfl)

/-- Settles O46: PLUG by the station's state, UNPLUG by `exec_unplug_eq`, and the slot left by `jackLeaves_shared`. -/
theorem jacks : Obligations.Jacks := by
  refine ⟨fun j s => ⟨?awake, ?parking, ?parked, ?unplug⟩,
    fun j i s hs hj hi hl hst hn hr => ?listening⟩
  case awake => exact exec_plug_awake
  case parking =>
    intro hp hj
    rw [exec_plug_asleep (.inl hp) hj]
    exact congrArg Host.Outcome.next (if_neg (by simp [hp]))
  case parked =>
    intro hp hj h0 h63 hw hk
    rw [exec_plug_asleep (.inr hp) hj]
    refine congrArg Host.Outcome.next ((if_pos hp).trans ?_)
    exact wakeRequest_asks (by simpa [receiveOnly] using receiveOnly_eq_false h0 h63) hw hk
  case unplug =>
    intro hs hj
    rw [exec_unplug_eq hs (by rcases hj with h | h <;> exact h.trans_ne nofun),
      if_neg (by rcases hj with h | h <;> exact h.trans_ne nofun)]
    rfl
  case listening =>
    have e := exec_unplug_eq (j := j) hs (by rw [hj]; exact nofun)
    rw [if_pos hj, jackLeaves_shared (s := unplugged j s) hi hl hst hn (hr.of_csr rfl)] at e
    obtain ⟨t, ht⟩ : ∃ t, t = closeOutput (.jack j)
      (setListeners i ((s.vtab.slots.get i).listeners.put (.jack j) false) (unplugged j s)) := ⟨_, rfl⟩
    have jack : t.jck.jacks.get j = { s.jck.jacks.get j with state := .empty, settle := none } := by
      simp [ht, unplugged]
    have slot : t.vtab.slots.get i =
        { s.vtab.slots.get i with listeners := (s.vtab.slots.get i).listeners.put (.jack j) false } := by
      simp [ht, unplugged, setListeners]
    have out : t.lvl.out.get (.jack j) = 0 := by simp [ht]
    have gains : t.lvl.gains.get (.jack j) = .closed := by simp [ht]
    refine ⟨t, by rw [ht]; exact e, ?_⟩
    rw [jack, slot, out, gains]
    subst ht
    exact ⟨rfl, rfl, rfl, rfl, rfl, rfl, rfl, rfl, rfl, rfl, rfl, rfl, rfl, rfl, rfl, rfl, rfl⟩

end Sys2Proof.Machine

namespace Sys2Proof.Machine

/-! ## The stop latch and the open-door table through every step (R115, R116) -/

/-- A step runs POWER_ON, or keeps every rule of Sys2Proof/Safety.lean. -/
theorem step_powersOn_or_keeps {s t : State} (h : step s = .next t) :
    (∃ o l u, execPowerOn o l u = .next t) ∨ Keeps false s t := by
  by_cases hp : ∀ o l, s.pending.head? ≠ some (.powerOn o l)
  · exact .inr (step_keeps hp h)
  · simp only [not_forall, not_not] at hp
    obtain ⟨o, l, front⟩ := hp
    obtain ⟨rest, hrest⟩ := List.head?_eq_some_iff.mp front
    rcases step_cases h with ⟨c, cs, hc, hexec⟩ | ⟨hnil, -⟩
    · obtain ⟨rfl, rfl⟩ := List.cons.inj (hrest.symm.trans hc)
      exact .inl ⟨o, l, _, hexec⟩
    · simp [hnil] at hrest

/-- POWER_ON empties the open-door table and clears the latch (R111). -/
theorem execPowerOn_latchSafe {o : Origin} {l : Bool} {s t : State} (h : execPowerOn o l s = .next t) : LatchSafe t := by
  unfold execPowerOn at h
  split at h <;> (obtain rfl := Host.Outcome.next.inj h; exact ⟨fun _ => rfl, Nat.zero_le _⟩)

/-- Settles O55: POWER_ON empties the table, and every other step keeps the rule. -/
theorem latchStaysSafe : Obligations.LatchStaysSafe := by
  intro s t hs h
  rcases step_powersOn_or_keeps h with ⟨o, l, u, hpower⟩ | keeps
  · exact execPowerOn_latchSafe hpower
  · exact keeps.latch hs

end Sys2Proof.Machine

namespace Sys2Proof.Machine

/-! ## Door entries and claims that lapse (R117, R165, R166) -/

/-- Entries whose expiry deck time has reached leave the table, with the channels lit anew (R117). -/
theorem expireDoors_is {s : State} (h : ∃ d ∈ s.ann.doors, reached s.dclk.now d.expiry = true) : ∃ chans,
    expireDoors s = { s with
      ann.doors := s.ann.doors.filter fun d => !reached s.dclk.now d.expiry, lmp.chans := chans } := by
  unfold expireDoors
  rw [if_pos (List.any_eq_true.mpr h)]
  exact relightOverlay_is _

/-- A claim as deck time leaves it (R165). -/
def claimLeft (now : DeckTime) (c : Option Claim) : Option Claim := if claimLapsed now c then none else c

/-- The claims table as deck time leaves it (R165). -/
def claimsLeft (now : DeckTime) (c : Prios (Option Claim)) : Prios (Option Claim) :=
  { p0 := claimLeft now c.p0, p1 := claimLeft now c.p1, p2 := claimLeft now c.p2, p3 := claimLeft now c.p3 }

theorem claimsLeft_get (now : DeckTime) (c : Prios (Option Claim)) (p : Nat) :
    (claimsLeft now c).get p = claimLeft now (c.get p) := by
  rcases p with _ | _ | _ | p <;> rfl

/-- Claims that lapse together are one change of the table (R165; log entry 19). -/
theorem expireClaims_eq {s : State} (h : ∃ p, claimLapsed s.dclk.now (s.lmp.claims.get p) = true) :
    expireClaims s = setClaims (claimsLeft s.dclk.now s.lmp.claims) (claimLapsed s.dclk.now s.lmp.claims.p0) s := by
  obtain ⟨p, lapsed⟩ := h
  unfold expireClaims
  refine if_pos ?_
  rcases p with _ | _ | _ | p <;> (simp only [Prios.get] at lapsed; simp [lapsed])

/-- Settles O35: the doors by `expireDoors_is`, the claims as one change of the table by `expireClaims_eq`. -/
theorem expiries : Obligations.Expiries := by
  refine fun s => ⟨fun lapsed => ?doors, fun lapsed => ?claims⟩
  case doors =>
    obtain ⟨chans, left⟩ := expireDoors_is lapsed
    exact ⟨_, congrArg Host.Outcome.next left, rfl, rfl, rfl, rfl, rfl, rfl, rfl, rfl, rfl, rfl, rfl⟩
  case claims =>
    obtain ⟨-, -, -, -, stc, line, dclk, csr, prg, vtab, ann, jck, lvl, claims, queue, chans⟩ :=
      setClaims_law (claimsLeft s.dclk.now s.lmp.claims) (claimLapsed s.dclk.now s.lmp.claims.p0) s
    refine ⟨_, congrArg Host.Outcome.next (expireClaims_eq lapsed), fun p => ?_, fun none => queue (.inr none),
      fun same => chans ?_, line, dclk, prg, vtab, csr, jck, stc, lvl, ann⟩
    · rw [claims, claimsLeft_get]
      rfl
    · rw [← same, currentScene, claims]

end Sys2Proof.Machine

namespace Sys2Proof.Machine

/-! ## The seat and door filters (R118, R131, R132) -/

/-- A filter's accepted state changes at the fifth differing sample alone (R131). -/
theorem changed_eq (f : Filter) (level : Bool) (press release : List Instr) : changed f level press release =
    if level ≠ f.accepted ∧ 4 ≤ f.run then (if level then press else release) else [] := by
  unfold changed Filter.sample
  by_cases differs : level = f.accepted
  · simp [differs]
  · by_cases fifth : 4 ≤ f.run <;> simp [differs, fifth]

/-- What an accepted change brings: the press at a level of true, the release at false. -/
theorem mem_changed {c : Instr} {f : Filter} {level : Bool} {press release : List Instr} :
    c ∈ changed f level press release ↔ (c ∈ press ∧ level = true ∧ f.accepted = false ∧ 4 ≤ f.run)
      ∨ (c ∈ release ∧ level = false ∧ f.accepted = true ∧ 4 ≤ f.run) := by
  rw [changed_eq]
  cases level <;> simp [and_comm]

/-- The levels sampled at a seat. -/
def levelsOf (l : SeatPins) : Seat → PanelLevels
  | .a => l.a
  | .b => l.b
  | .c => l.c
  | .d => l.d

/-- A seat sample moves every panel's filters and raises what they accept (R131). -/
theorem sampleSeats_eq (l : SeatPins) (s : State) : sampleSeats l s = { s with
    jck.panels := (sampleSeats l s).jck.panels
    raised := s.raised ++ [Seat.a, .b, .c, .d].flatMap fun j => panelEvents j (s.jck.panels.get j) (levelsOf l j) } := by
  simp [sampleSeats, raise, Seats.get, levelsOf]

theorem sampleSeats_panel (l : SeatPins) (s : State) (j : Seat) :
    (sampleSeats l s).jck.panels.get j = (s.jck.panels.get j).sample (levelsOf l j) := by
  cases j <;> rfl

/-- An event of a seat sample is a seat's own. -/
theorem mem_sampleSeats_raised {c : Instr} {l : SeatPins} {s : State} : c ∈ (sampleSeats l s).raised ↔
    c ∈ s.raised ∨ ∃ j, c ∈ panelEvents j (s.jck.panels.get j) (levelsOf l j) := by
  have seats : ∀ j : Seat, j ∈ [Seat.a, .b, .c, .d] := fun j => by cases j <;> simp
  rw [sampleSeats_eq]
  simp [List.mem_flatMap, -List.flatMap_cons, seats]

/-- What SEAT_INPUT_SAMPLE makes of the filters, the pins and the raised events (R118, R131). -/
theorem exec_seatInputSample {l : SeatPins} {s : State} (h : filtersRun s = true) :
    exec (.seatInputSample l) s = .next { s with
      pins.seats := l
      jck.panels := (sampleSeats l s).jck.panels
      ann.doorFilter := if doorSampled s then s.ann.doorFilter.sample l.door else s.ann.doorFilter
      raised := (sampleSeats l s).raised
        ++ if doorSampled s then changed s.ann.doorFilter l.door [.doorSwitchOpen] [.doorSwitchClosed] else [] } := by
  have seats : exec (.seatInputSample l) s = if doorSampled s
      then .next (sampleDoor l.door (sampleSeats l { s with pins.seats := l }))
      else .next (sampleSeats l { s with pins.seats := l }) := by
    simp only [exec, execSeatInputSample, show filtersRun { s with pins.seats := l } = true from h, if_true]
    rfl
  rw [seats]
  cases doorSampled s <;> simp [sampleSeats, sampleDoor, raise]

/-- Samples of one level that differ from the accepted state, fewer than five in all, lengthen the run alone (R131). -/
theorem levelSamples_short {level : Bool} {f : Filter} (differs : level ≠ f.accepted) {n : Nat} (h : f.run + n ≤ 4) :
    levelSamples level n f = { f with run := f.run + n } := by
  induction n generalizing f with
  | zero => rfl
  | succ n ih =>
    have next : f.sample level = { f with run := f.run + 1 } := by
      unfold Filter.sample
      rw [if_neg differs, if_neg (by omega)]
    have rest : levelSamples level n { f with run := f.run + 1 } = { f with run := f.run + 1 + n } :=
      ih (f := { f with run := f.run + 1 }) differs (by dsimp only; omega)
    show levelSamples level n (f.sample level) = _
    rw [next, rest, Nat.add_assoc, Nat.add_comm 1 n]

/-- Of several samples the last may be taken out. -/
theorem levelSamples_succ (level : Bool) (n : Nat) (f : Filter) :
    levelSamples level (n + 1) f = (levelSamples level n f).sample level := by
  induction n generalizing f with
  | zero => rfl
  | succ n ih => exact ih (f.sample level)

/-- Settles O45: the filters by `exec_seatInputSample`, the events by `mem_changed`, the runs by
`levelSamples_short`. -/
theorem seatInputSample : Obligations.SeatInputSample := by
  refine ⟨fun l s run => ?sample, fun f level fresh differs => ⟨fun n few => ?few, ?fifth⟩⟩
  case sample =>
    intro door d
    have sampled : doorSampled s = true ↔ door := by simp [doorSampled, isAwake, door]
    refine ⟨_, exec_seatInputSample ((filtersRun_iff s).mpr run), ?_, ?_, ?_, fun j => ?_⟩
    · by_cases sampling : door <;> simp [sampled, sampling, d]
    · simp [mem_sampleSeats_raised, panelEvents, mem_changed, ← sampled, d]
    · simp [mem_sampleSeats_raised, panelEvents, mem_changed, ← sampled, d]
    · cases j <;> simp [sampleSeats_panel, levelsOf, Panel.sample, mem_sampleSeats_raised, panelEvents, mem_changed]
  case few =>
    rw [levelSamples_short differs (by omega), fresh, Nat.zero_add]
  case fifth =>
    rw [levelSamples_succ, levelSamples_short differs (by omega), fresh]
    exact (if_neg differs).trans rfl

end Sys2Proof.Machine

namespace Sys2Proof.Machine

/-! ## The phases of an announcement (R122, R124, R128 to R130) -/

/-- An announcement has begun its chime: VA sounds it on every output from its start (R124). -/
theorem exec_chimeStart {a : Announcement} {s : State} (hc : s.ann.current = some a) (hw : a.phase = .waiting)
    (hr : reached s.dclk.now a.start = true) (hs : s.csr.hand.isSome = true) : ∃ chans,
    exec .chimeStart s = .next (vaStart .chime .chime (instant a.start) { s with
      ann.current := some { a with phase := .chime, chimeLen := none }, lmp.chans := chans }) := by
  have begun : chimeIfDue s = relightOverlay (vaStart .chime .chime (instant a.start) { s with
      ann.current := some { a with phase := .chime, chimeLen := none } }) := by
    unfold chimeIfDue startChime
    rw [hc]
    exact if_pos ⟨hw, hr⟩
  obtain ⟨chans, lit⟩ := serve_relightOverlay_is (s := vaStart .chime .chime (instant a.start) { s with
    ann.current := some { a with phase := .chime, chimeLen := none } }) (.inl hs)
  exact ⟨chans, congrArg Host.Outcome.next ((congrArg serve begun).trans lit)⟩

/-- The names as NAME_CAP_EXPIRY stops them, before the announcement completes (R128). -/
def namesStopped (s : State) : State :=
  if (forSlots returnSlot s).ann.purpose == .name then
    { vaStop (forSlots returnSlot s) with ann.speakerName := .done }
  else forSlots returnSlot s

theorem cutNames_eq (s : State) : cutNames s = complete (namesStopped s) := rfl

theorem namesStopped_plays (s : State) : PlaybackFrame s (namesStopped s) := by
  have returned := forSlots_plays (f := returnSlot) returnSlot_plays s
  unfold namesStopped
  split
  · exact (returned.trans (vaStop_plays _)).trans (setSpeakerName_plays .done _)
  · exact returned

/-- Stopping the names empties the naming set and stops VA where it gives one; every naming slot returns to COMMENTARY
and seeks (R126, R128). -/
theorem namesStopped_law (s : State) : let t := namesStopped s
    t.csr.hand = s.csr.hand
    ∧ t.ann = { s.ann with
        naming := { v0 := false, v1 := false, v2 := false, v3 := false },
        purpose := if s.ann.purpose = .name then .none else s.ann.purpose,
        speakerName := if s.ann.purpose = .name then .done else s.ann.speakerName }
    ∧ (s.ann.purpose = .name → t.vtab.va.play.state = .idle)
    ∧ (s.ann.purpose ≠ .name → t.vtab.va = s.vtab.va)
    ∧ ∀ i, s.ann.naming.get i = true → slotBusy s i = true →
        (t.vtab.slots.get i).content = .commentary ∧ t.csr.tags.get i = s.csr.tags.get i + 1 := by
  obtain ⟨hand, ann, -, va, slots⟩ := forSlots_returnSlot s
  unfold namesStopped
  by_cases naming : s.ann.purpose = .name
  · rw [if_pos (by rw [ann]; simp [naming])]
    exact ⟨hand, by simp [vaStop, ann, naming], fun _ => rfl, fun h => absurd naming h, slots⟩
  · rw [if_neg (by rw [ann]; simp [naming])]
    exact ⟨hand, by rw [ann, if_neg naming, if_neg naming], fun h => absurd h naming, fun _ => va, slots⟩

/-- NAME_CAP_EXPIRY in NAME stops the names and completes the announcement (R128). -/
theorem exec_nameCapExpiry {a : Announcement} {left : Nat} {s : State} (hc : s.ann.current = some a)
    (hp : a.phase = .name) (hl : s.ann.nameCap = some left) :
    exec .nameCapExpiry s = .next (serve (complete (namesStopped s))) :=
  if_pos (by simp [inName, hc, hp, hl])

/-- An announcement completes with none pending: it is the last completed, and none is current (R129). -/
theorem complete_alone {a : Announcement} {s : State} (hc : s.ann.current = some a) (hn : s.ann.pending = none) :
    ∃ chans, complete s = { s with
      ann.lastCompleted := some a.start, ann.nameCap := none, ann.current := none, lmp.chans := chans } := by
  rw [complete_without_pending a s hc hn]
  exact relightOverlay_is _

/-- An announcement completes with another pending, which becomes current (R129). -/
theorem complete_promotes {a : Announcement} {p : PendingAnn} {s : State} (hc : s.ann.current = some a)
    (hn : s.ann.pending = some p) : complete s = relightOverlay (makeCurrent p.stop p.start { s with
      ann.lastCompleted := some a.start, ann.nameCap := none, ann.current := none, ann.pending := none }) := by
  unfold complete
  rw [hc]
  dsimp only
  rw [hn]

/-- A current announcement waits for its start, or begins its chime where that is reached (R122, R124). -/
theorem serve_makeCurrent_law (stop : Nat) (start : Millis) {s : State} (hs : s.csr.hand.isSome = true) :
    let t := serve (relightOverlay (makeCurrent stop start s))
    t.ann = { s.ann with
      current := some {
        stop := stop, start := start, chimeLen := none
        phase := if reached s.dclk.now start = true then .chime else .waiting },
      naming := { v0 := false, v1 := false, v2 := false, v3 := false }, speakerName := .notNeeded,
      purpose := if reached s.dclk.now start = true then .chime else s.ann.purpose }
    ∧ (reached s.dclk.now start = true → t.vtab.va.play.state = .seeking
        ∧ t.vtab.va.play.anchor = { ms := start, us := 0 }) := by
  intro t
  cases hr : reached s.dclk.now start with
  | true =>
    obtain ⟨ann, ⟨-, state, anchor⟩, -⟩ := serve_makeCurrent_reached (stop := stop) hs hr
    exact ⟨ann, fun _ => ⟨state, anchor⟩⟩
  | false =>
    refine ⟨?_, nofun⟩
    obtain ⟨chans, lit⟩ := serve_relightOverlay_is (s := makeCurrent stop start s)
      (.inl (by rw [makeCurrent_ahead hr]; exact hs))
    show (serve _).ann = _
    rw [lit, makeCurrent_ahead hr]
    rfl

/-! ### The flags (R130) -/

theorem duckFlag_down {s : State} (hn : inName s = false)
    (h : s.ann.purpose = .none ∨ s.vtab.va.play.state = .idle) : duckFlag s = false := by
  unfold duckFlag vaIdle
  rcases h with h | h <;> simp [hn, h]

theorem duckFlag_chime {s : State} (hp : s.ann.purpose = .chime) (hv : s.vtab.va.play.state = .seeking) :
    duckFlag s = true := by
  simp [duckFlag, vaIdle, hp, hv]

theorem inAnnouncement_of_current {a : Announcement} {s : State} (hc : s.ann.current = some a) :
    inAnnouncement s = (a.phase == .chime || a.phase == .name) := by
  unfold inAnnouncement
  rw [hc]

/-- Settles O33: the chime's start by `exec_chimeStart`, the names' end by `namesStopped_law`, with what completing does
by `complete_alone` or `serve_makeCurrent_law`. -/
theorem announcementPhases : Obligations.AnnouncementPhases := by
  refine ⟨fun a s hc hw hr hs => ?chime, fun a left s hc hp hl hn hs => ?alone, fun a p left s hc hp hl hn hs => ?pending⟩
  case chime =>
    obtain ⟨chans, begins⟩ := exec_chimeStart hc hw hr hs
    exact ⟨_, begins, rfl, rfl, rfl, rfl, rfl, rfl, rfl, rfl, rfl, rfl, rfl, rfl, rfl, rfl, rfl, rfl, rfl, rfl, rfl⟩
  case alone =>
    obtain ⟨hand, ann, stopped, other, slots⟩ := namesStopped_law s
    have expires := exec_nameCapExpiry hc hp hl
    have frame := (namesStopped_plays s).trans ((complete_plays _).trans (serve_plays _))
    generalize namesStopped s = n at *
    obtain ⟨chans, done⟩ := complete_alone (a := a) (s := n) (by rw [ann]; exact hc) (by rw [ann]; exact hn)
    rw [done, serve_of_hand (by rw [hand]; exact hs)] at frame expires
    obtain ⟨frame, lvl, -⟩ := frame
    refine ⟨_, expires, rfl, rfl, rfl, fun i => ?naming, rfl, rfl, fun named => ?named, fun quiet => ?duck, slots,
      frame.line, frame.txq, frame.dclk, frame.prg, frame.jck, frame.stc, lvl, by rw [frame.ann], by rw [frame.ann]⟩
    case naming => simp only [ann]; cases i <;> rfl
    case named => exact ⟨stopped named, by simp [ann, named], by simp [ann, named]⟩
    case duck =>
      refine duckFlag_down rfl ?_
      by_cases named : s.ann.purpose = .name
      · exact .inr (stopped named)
      · simp only [ann, named, if_false, other named]
        exact quiet.imp_right fun h => h.resolve_left named
  case pending =>
    obtain ⟨hand, ann, -⟩ := namesStopped_law s
    have expires := exec_nameCapExpiry hc hp hl
    have stops := namesStopped_plays s
    have frame := stops.trans ((complete_plays _).trans (serve_plays _))
    generalize namesStopped s = n at *
    rw [complete_promotes (a := a) (p := p) (s := n) (by rw [ann]; exact hc) (by rw [ann]; exact hn)] at frame expires
    obtain ⟨placed, chime⟩ := serve_makeCurrent_law p.stop p.start (s := { n with
      ann.lastCompleted := some a.start, ann.nameCap := none, ann.current := none, ann.pending := none })
      (by rw [hand]; exact hs)
    generalize serve _ = t at *
    obtain ⟨frame, lvl, -⟩ := frame
    rw [show n.dclk.now = s.dclk.now by rw [stops.frame.dclk]] at placed chime
    refine ⟨t, expires, by rw [placed], by rw [placed], by rw [placed], by rw [placed], by rw [placed], fun i => ?naming,
      fun reach => ?begins, fun ahead => ?waits,
      frame.line, frame.txq, frame.dclk, frame.prg, frame.jck, frame.stc, lvl, by rw [frame.ann], by rw [frame.ann]⟩
    case naming => rw [placed]; cases i <;> rfl
    case begins =>
      obtain ⟨state, anchor⟩ := chime reach
      have purpose : t.ann.purpose = .chime := by rw [placed]; exact if_pos reach
      have sounds : inAnnouncement t = true := (inAnnouncement_of_current (by rw [placed])).trans (by simp [reach])
      exact ⟨purpose, state, anchor, duckFlag_chime purpose state, sounds⟩
    case waits =>
      have still : inAnnouncement t = false := (inAnnouncement_of_current (by rw [placed])).trans (by simp [ahead])
      exact ⟨still, still⟩

end Sys2Proof.Machine

namespace Sys2Proof.Machine

/-! ## Names given and names done (R125 to R127, R129) -/

/-! ### A voice's end (R105) -/

/-- CLIP_END of a voice whose end leaves it not PLAYING: the end is reported, and the reader serves (R105). -/
theorem exec_clipEnd_reports {v : VoiceId} {s u : State} (past : (playOf s v).over = true)
    (done : voiceDone v (setPlay v (playOf s v).silence s) = u) (rests : (playOf u v).state ≠ .playing) :
    exec (.clipEnd v) s = .next (serve u) := by
  rw [clipEnd_eq v s past, done, topUpVoice_at_rest v u rests]

theorem exec_clipEnd_plays {v : VoiceId} {s t : State} (h : exec (.clipEnd v) s = .next t) : PlaybackFrame s t := by
  obtain rfl := Host.Outcome.next.inj h
  exact (endClip_plays v s).trans (serve_plays _)

/-! ### Whether an announcement completes (R129) -/

theorem completeIfDone_of_playing {s : State} (h : s.ann.speakerName = .playing) : completeIfDone s = s := by
  unfold completeIfDone
  simp [h]

theorem completeIfDone_completes {a : Announcement} {s : State} (hc : s.ann.current = some a) (hp : a.phase = .name)
    (hn : ∀ i, s.ann.naming.get i = false) (hs : s.ann.speakerName ≠ .playing) : completeIfDone s = complete s :=
  if_pos (by simp [inName, hc, hp, (namingEmpty_iff s).mpr hn, hs])

/-- With a name just done and nothing pending, the announcement is complete where no slot is left to name, and goes on
where one is (R126, R127, R129). -/
theorem completeIfDone_alone {a : Announcement} {s : State} (hc : s.ann.current = some a) (hp : a.phase = .name)
    (hn : s.ann.pending = none) (hs : s.ann.speakerName ≠ .playing) : let t := completeIfDone s
    t.vtab = s.vtab ∧ t.csr = s.csr
    ∧ t.ann = { s.ann with
        current := t.ann.current, lastCompleted := t.ann.lastCompleted, nameCap := t.ann.nameCap }
    ∧ ((∀ i, s.ann.naming.get i = false) →
        t.ann.current = none ∧ t.ann.lastCompleted = some a.start ∧ t.ann.nameCap = none)
    ∧ ∀ i, s.ann.naming.get i = true → t = s := by
  by_cases empty : ∀ i, s.ann.naming.get i = false
  · obtain ⟨chans, completes⟩ := complete_alone hc hn
    rw [completeIfDone_completes hc hp empty hs, completes]
    exact ⟨rfl, rfl, rfl, fun _ => ⟨rfl, rfl, rfl⟩, fun i naming => Bool.noConfusion ((empty i).symm.trans naming)⟩
  · obtain ⟨k, naming⟩ := not_forall.mp empty
    rw [completeIfDone_of_naming (k := k) (by simpa using naming)]
    exact ⟨rfl, rfl, rfl, fun none => absurd none empty, fun _ _ => rfl⟩

/-! ### The beginning of NAME (R125, R127) -/

/-- NAME has begun and every busy slot has the name; the speaker's name is still to be settled (R125). -/
def namesGiven (a : Announcement) (s : State) : State :=
  forSlots (giveName a.stop) { vaStop s with
    ann.current := some { a with phase := .name }, ann.nameCap := some Config.nameCapMicros }

/-- What giving the names does: VA is stopped, the cap timer runs, and every busy slot seeks the name from the chime's
end (R125). -/
theorem namesGiven_law (a : Announcement) (s : State) : let t := namesGiven a s
    let anchor := DeckTime.addMicros { ms := a.start, us := 0 } (125 * a.chimeLen.getD 0)
    t.ann = { s.ann with
      current := some { a with phase := .name }, nameCap := some 15000000, purpose := .none, naming := t.ann.naming }
    ∧ t.csr.hand = s.csr.hand ∧ t.vtab.va.play.state = .idle ∧ t.vtab.speaker = s.vtab.speaker
    ∧ nameAnchor t = anchor
    ∧ (∀ i, slotBusy s i = true → t.ann.naming.get i = true ∧ (t.vtab.slots.get i).content = .name a.stop
        ∧ (t.vtab.slots.get i).play.state = .seeking ∧ (t.vtab.slots.get i).play.anchor = anchor
        ∧ t.csr.tags.get i = s.csr.tags.get i + 1)
    ∧ ∀ i, slotBusy s i = false → t.vtab.slots.get i = s.vtab.slots.get i := by
  obtain ⟨w, hw⟩ : ∃ w, w = { vaStop s with
    ann.current := some { a with phase := .name }, ann.nameCap := some Config.nameCapMicros } := ⟨_, rfl⟩
  obtain ⟨⟨ann, hand, va, speaker, -, -⟩, slots⟩ := giveNames_law a.stop w
  rw [show namesGiven a s = forSlots (giveName a.stop) w by rw [hw]; rfl]
  generalize forSlots (giveName a.stop) w = t at *
  subst hw
  refine ⟨ann, hand, congrArg (fun x => x.play.state) va, speaker, ?_, fun i busy => ?_, fun i idle => ?_⟩
  · unfold nameAnchor
    rw [ann]
    rfl
  · obtain ⟨content, state, anchor, tag, naming⟩ := (slots i).1 busy
    exact ⟨naming, content, state, anchor, tag⟩
  · exact (slotView_eq ((slots i).2 idle)).1

/-- The speaker's name at the beginning of NAME: its slot's, or VA's to give (R127). -/
def speakerNameSettled (stop : Nat) (s : State) : State :=
  match s.vtab.speaker with
  | .attached _ => { s with ann.speakerName := .notNeeded }
  | _ => nameOnSpeaker stop s

theorem startName_eq {a : Announcement} {s : State} (hc : s.ann.current = some a) :
    startName s = completeIfDone (speakerNameSettled a.stop (namesGiven a s)) := by
  unfold startName
  rw [hc]
  rfl

/-- A speaker in a slot hears the name there (R127). -/
theorem speakerNameSettled_attached {i : SlotId} {s : State} (h : s.vtab.speaker = .attached i) (stop : Nat) :
    speakerNameSettled stop s = { s with ann.speakerName := .notNeeded } := by
  unfold speakerNameSettled
  rw [h]

/-- A speaker in no slot is given the name by VA (R127). -/
theorem speakerNameSettled_unattached {s : State} (h : ∀ i, s.vtab.speaker ≠ .attached i) (stop : Nat) :
    speakerNameSettled stop s = nameOnSpeaker stop s := by
  unfold speakerNameSettled
  split
  · next i attached => exact absurd attached (h i)
  · rfl

/-- Where a slot or VA is to say the name, NAME begins and goes on (R125, R127, R129). -/
theorem startName_law {a : Announcement} {s : State} (hc : s.ann.current = some a)
    (h : (∃ i, slotBusy s i = true) ∨ ∀ i, s.vtab.speaker ≠ .attached i) : let t := startName s
    t.vtab.slots = (namesGiven a s).vtab.slots ∧ t.csr.tags = (namesGiven a s).csr.tags
    ∧ t.csr.hand = (namesGiven a s).csr.hand ∧ t.vtab.va.play.state ≠ .playing
    ∧ t.ann = { (namesGiven a s).ann with speakerName := t.ann.speakerName, purpose := t.ann.purpose }
    ∧ (∀ i, s.vtab.speaker = .attached i → t.ann.speakerName = .notNeeded ∧ t.ann.purpose = .none
        ∧ t.vtab.va.play.state = .idle)
    ∧ ((∀ i, s.vtab.speaker ≠ .attached i) → t.ann.speakerName = .playing ∧ t.ann.purpose = .name
        ∧ t.vtab.va.content = .name a.stop ∧ t.vtab.va.play.state = .seeking
        ∧ t.vtab.va.play.anchor = nameAnchor (namesGiven a s)) := by
  obtain ⟨ann, -, idle, speaker, -, given, -⟩ := namesGiven_law a s
  have purpose : (namesGiven a s).ann.purpose = .none := by rw [ann]
  rw [startName_eq hc]
  generalize namesGiven a s = g at *
  by_cases attached : ∃ i, s.vtab.speaker = .attached i
  · obtain ⟨i, hi⟩ := attached
    obtain ⟨k, busy⟩ := h.resolve_right fun none => none i hi
    obtain ⟨naming, -⟩ := given k busy
    rw [speakerNameSettled_attached (speaker.trans hi), completeIfDone_of_naming (k := k) (by exact naming)]
    exact ⟨rfl, rfl, rfl, by rw [idle]; exact nofun, rfl, fun _ _ => ⟨rfl, purpose, idle⟩, fun none => absurd hi (none i)⟩
  · rw [speakerNameSettled_unattached (by rw [speaker]; exact not_exists.mp attached), completeIfDone_of_playing rfl]
    exact ⟨rfl, rfl, rfl, nofun, rfl, fun i hi => absurd ⟨i, hi⟩ attached, fun _ => ⟨rfl, rfl, rfl, rfl, rfl⟩⟩

/-! ### What VA's end is to an announcement (R125, R127) -/

theorem voiceDone_chime {a : Announcement} {s : State} (hc : s.ann.current = some a) (hp : a.phase = .chime)
    (hv : s.ann.purpose = .chime) : voiceDone .va s = startName s := by
  show vaDone s = _
  unfold vaDone
  rw [hv]
  exact if_pos (by simp [inChime, hc, hp])

theorem voiceDone_speakerName {s : State} (hv : s.ann.purpose = .name) :
    voiceDone .va s = completeIfDone { vaStop s with ann.speakerName := .done } := by
  show vaDone s = _
  unfold vaDone
  rw [hv]

/-- The last slot's name is done (R126). -/
theorem voiceDone_lastName {i : SlotId} {stop : Nat} {s : State} (hc : (s.vtab.slots.get i).content = .name stop)
    (hn : s.ann.naming.get i = true) : voiceDone (.slot i) s = completeIfDone (returnSlot i s) := by
  unfold voiceDone
  dsimp only
  rw [hc]
  exact if_pos hn

/-- A naming slot whose name is done returns to COMMENTARY and seeks (R126). -/
theorem nameDone_law {i : SlotId} {s : State} (hn : s.ann.naming.get i = true) :
    let t := returnSlot i (setPlay (.slot i) (playOf s (.slot i)).silence s)
    t.csr.hand = s.csr.hand ∧ t.ann = { s.ann with naming := s.ann.naming.set i false } ∧ t.vtab.va = s.vtab.va
    ∧ (t.vtab.slots.get i).content = .commentary ∧ t.csr.tags.get i = s.csr.tags.get i + 1
    ∧ (playOf t (.slot i)).state ≠ .playing := by
  obtain ⟨w, hw⟩ : ∃ w, w = setPlay (.slot i) (playOf s (.slot i)).silence s := ⟨_, rfl⟩
  have naming : w.ann.naming.get i = true := by rw [hw]; exact hn
  have busy : slotBusy w i = true := (slotBusy_iff w i).mpr (by simp [hw, setPlay, Play.silence])
  obtain ⟨-, hand, ann, -, va, returned⟩ := returnSlot_law i w
  obtain ⟨content, tag⟩ := returned naming busy
  have rests : (playOf (returnSlot i w) (.slot i)).state ≠ .playing := by
    rw [returnSlot_seeks naming busy]
    exact seekSlot_not_playing (by simp [setContent])
  rw [← hw]
  generalize returnSlot i w = t at *
  subst hw
  exact ⟨hand, ann, va, content, tag, rests⟩

/-- Settles O34: NAME begins by `startName_law` and `namesGiven_law`; a name that is done, a slot's by
`nameDone_law`, ends the announcement or not by `completeIfDone_alone`. -/
theorem namePhase : Obligations.NamePhase := by
  refine ⟨fun a s hh past hc hp hv named => ?begins,
    fun a i stop s hh hc hp hn past content naming last quiet => ?slot, fun a s hh past hc hp hv hn => ?speaker⟩
  case begins =>
    intro anchor
    obtain ⟨w, hw⟩ : ∃ w, w = setPlay .va (playOf s .va).silence s := ⟨_, rfl⟩
    obtain ⟨slots, tags, hand, rests, ann, attached, unattached⟩ := startName_law (a := a) (s := w) (by rw [hw]; exact hc)
      (by rw [hw]; exact named)
    obtain ⟨ann', hand', -, -, anchor', given, idle⟩ := namesGiven_law a w
    have ends := exec_clipEnd_reports (v := .va) past
      (by rw [← hw]; exact voiceDone_chime (by rw [hw]; exact hc) hp (by rw [hw]; exact hv)) rests
    have hand'' : w.csr.hand = s.csr.hand := by rw [hw]; rfl
    rw [serve_of_hand (by rw [hand, hand', hand'']; exact hh)] at ends
    obtain ⟨frame, lvl, -⟩ := exec_clipEnd_plays ends
    generalize startName w = t at *
    generalize namesGiven a w = g at *
    rw [ann'] at ann
    rw [anchor'] at unattached
    rw [← slots, ← tags] at given
    rw [← slots] at idle
    subst hw
    exact ⟨t, ends, by rw [ann], by rw [ann],
      fun i busy => ⟨by rw [ann]; exact (given i busy).1, (given i busy).2⟩, idle, attached, unattached,
      frame.line, frame.txq, frame.dclk, frame.prg, frame.jck, frame.stc, lvl, by rw [frame.ann], by rw [frame.ann],
      by rw [ann]; rfl⟩
  case slot =>
    obtain ⟨w, hw⟩ : ∃ w, w = setPlay (.slot i) (playOf s (.slot i)).silence s := ⟨_, rfl⟩
    have reported : voiceDone (.slot i) w = completeIfDone (returnSlot i w) :=
      voiceDone_lastName (stop := stop) (by simpa [hw, setPlay] using content) (by simpa [hw] using naming)
    obtain ⟨hand, ann, va, content', tag, rests⟩ := nameDone_law naming
    rw [← hw] at hand ann va content' tag rests
    generalize returnSlot i w = r at *
    rw [hw] at reported
    obtain ⟨vtab, csr, ann', completed, -⟩ := completeIfDone_alone (a := a) (s := r) (by rw [ann]; exact hc) hp
      (by rw [ann]; exact hn) (by rw [ann]; exact quiet)
    have empty : ∀ k, r.ann.naming.get k = false := fun k => by
      rw [ann, Slots.get_set]
      split
      · rfl
      · next other => exact last k (Ne.symm other)
    have ends := exec_clipEnd_reports past reported (by simpa only [playOf, vtab] using rests)
    generalize completeIfDone r = t at *
    rw [serve_of_hand (by rw [csr, hand]; exact hh)] at ends
    obtain ⟨current, lastCompleted, nameCap⟩ := completed empty
    obtain ⟨frame, lvl, -⟩ := exec_clipEnd_plays ends
    exact ⟨t, ends, current, lastCompleted, nameCap, by rw [ann']; exact empty, by rw [vtab]; exact content',
      by rw [csr]; exact tag, frame.line, frame.txq, frame.dclk, frame.prg, frame.jck, frame.stc, lvl,
      by rw [vtab]; exact va, by rw [frame.ann], by rw [frame.ann]⟩
  case speaker =>
    obtain ⟨u, hu⟩ : ∃ u : State, u = { vaStop (setPlay .va (playOf s .va).silence s) with ann.speakerName := .done } :=
      ⟨_, rfl⟩
    have reported : voiceDone .va (setPlay .va (playOf s .va).silence s) = completeIfDone u := by
      rw [hu]
      exact voiceDone_speakerName hv
    have ann : u.ann = { s.ann with purpose := .none, speakerName := .done } := by rw [hu]; rfl
    have hand : u.csr.hand = s.csr.hand := by rw [hu]; rfl
    have idle : u.vtab.va.play.state = .idle := by rw [hu]; rfl
    have slots : u.vtab.slots = s.vtab.slots := by rw [hu]; rfl
    obtain ⟨vtab, csr, ann', completed, goesOn⟩ := completeIfDone_alone (a := a) (s := u) (by rw [ann]; exact hc) hp
      (by rw [ann]; exact hn) (by rw [ann]; exact nofun)
    rw [ann] at completed goesOn
    have ends := exec_clipEnd_reports (v := .va) past reported (by simp [playOf, vtab, idle])
    generalize completeIfDone u = t at *
    rw [serve_of_hand (by rw [csr, hand]; exact hh)] at ends
    obtain ⟨frame, lvl, -⟩ := exec_clipEnd_plays ends
    rw [ann] at ann'
    exact ⟨t, ends, by rw [ann'], by rw [ann'], by rw [vtab]; exact idle, completed,
      fun i naming => by rw [goesOn i naming, ann]; exact ⟨hc, rfl⟩, by rw [ann'], by rw [vtab]; exact slots,
      frame.line, frame.txq, frame.dclk, frame.prg, frame.jck, frame.stc, lvl⟩

end Sys2Proof.Machine

namespace Sys2Proof.Machine

/-! ## Gains and outputs through every step (R142, R144, R146, R149) -/

theorem LevelChain.initial_out (o : Output) : LevelChain.initial.out.get o = 0 := by
  rcases o with j | _
  · cases j <;> rfl
  · rfl

theorem LevelChain.initial_gains (o : Output) : LevelChain.initial.gains.get o = .closed := by
  rcases o with j | _
  · cases j <;> rfl
  · rfl

theorem PairGains.closed_slot : PairGains.closed.slot = -72 := rfl
theorem PairGains.closed_va : PairGains.closed.va = -72 := rfl

/-- The Level Chain at its power-on values is safe under every cap, and while an image scan runs with every jack EMPTY
(R142, R144). -/
theorem SoundSafe.of_initial {s : State} (hlvl : s.lvl = .initial)
    (hscan : scanning s = true → s.stc.state = .starting ∧ ∀ j, (s.jck.jacks.get j).state = .empty) :
    SoundSafe s where
  out o := by rw [hlvl, LevelChain.initial_out]; decide
  slot o := by rw [hlvl, LevelChain.initial_gains, PairGains.closed_slot]; omega
  va o := by rw [hlvl, LevelChain.initial_gains, PairGains.closed_va]; omega
  scan h :=
    have ⟨starting, empty⟩ := hscan h
    ⟨starting, empty, fun o => by rw [hlvl, LevelChain.initial_gains]; exact ⟨rfl, rfl⟩⟩

/-- POWER_ON sets the Level Chain to its initial values, and begins the scan in STARTING with every jack EMPTY (R133,
R173). -/
theorem execPowerOn_soundSafe {o : Origin} {l : Bool} {s t : State} (h : execPowerOn o l s = .next t) : SoundSafe t := by
  unfold execPowerOn at h
  split at h <;> obtain rfl := Host.Outcome.next.inj h
  case isTrue => exact .of_initial rfl fun scan => by cases scan
  case isFalse => exact .of_initial rfl fun _ => ⟨rfl, fun j => by cases j <;> rfl⟩

/-- Settles O54: POWER_ON closes every gain and output, and every other step keeps the bounds (`updatedGains_bounds` for
the gains' update, `VoiceFrame.keeps` for the sample tick). -/
theorem soundStaysSafe : Obligations.SoundStaysSafe := by
  intro s t hs h
  rcases step_powersOn_or_keeps h with ⟨o, l, u, hpower⟩ | keeps
  · exact execPowerOn_soundSafe hpower
  · exact keeps.sound hs

end Sys2Proof.Machine

namespace Sys2Proof.Machine

/-! ## A scaled sample (R148) -/

/-- `q` is the integer nearest to `p / d`, and a tie between two is taken away from zero. -/
def NearestAway (p q d : Int) : Prop :=
  -d ≤ 2 * (p - q * d) ∧ 2 * (p - q * d) ≤ d
    ∧ (2 * (p - q * d) = d → p < 0) ∧ (2 * (p - q * d) = -d → 0 ≤ p)

/-- Rounding away from zero is the same on both sides of it. -/
theorem NearestAway.neg {p q d : Int} (hp : 0 < p) (h : NearestAway p q d) : NearestAway (-p) (-q) d := by
  unfold NearestAway at h ⊢
  have flip : 2 * (-p - -q * d) = -(2 * (p - q * d)) := by ring
  rw [flip]
  omega

/-- Half the divisor added before the division makes it the nearest integer, and a tie the greater of the two (R148). -/
theorem scaleMagnitude_nearest (m : Nat) {shift : Nat} (hs : 1 ≤ shift) :
    NearestAway m (scaleMagnitude m shift) (2 ^ shift) := by
  obtain ⟨k, rfl⟩ := Nat.exists_eq_add_of_le' hs
  have half : (2 : Nat) ^ (k + 1) = 2 * 2 ^ k := by ring
  have parts := Nat.div_add_mod (m + 2 ^ k) (2 ^ (k + 1))
  have rest := Nat.mod_lt (m + 2 ^ k) (Nat.two_pow_pos (k + 1))
  have whole : m + 2 ^ k = scaleMagnitude m (k + 1) * 2 ^ (k + 1) + (m + 2 ^ k) % 2 ^ (k + 1) := by
    unfold scaleMagnitude
    rw [Nat.add_sub_cancel, Nat.mul_comm, parts]
  generalize (m + 2 ^ k) % 2 ^ (k + 1) = r at rest whole
  generalize scaleMagnitude m (k + 1) = n at whole
  zify at half rest whole
  unfold NearestAway
  omega

theorem scaleMagnitude_zero {shift : Nat} (hs : 1 ≤ shift) : scaleMagnitude 0 shift = 0 := by
  unfold scaleMagnitude
  rw [Nat.zero_add]
  exact Nat.div_eq_of_lt (Nat.pow_lt_pow_right Nat.one_lt_two (Nat.sub_lt hs Nat.one_pos))

theorem t8_bounds (k : Nat) : 1 ≤ Config.t8 k ∧ Config.t8 k ≤ 60097 := by
  unfold Config.t8
  split <;> decide

/-- The shift of a gain within -72..16 (R148). -/
theorem shift_bounds {g : Int} (hlo : -72 ≤ g) (hhi : g ≤ 16) : 13 ≤ 15 - g / 8 ∧ 15 - g / 8 ≤ 24 := by omega

theorem scale_of_nonneg {x : Int} (hx : 0 ≤ x) (g : Int) :
    scale x g = scaleMagnitude (x.natAbs * Config.t8 (g % 8).toNat) (15 - g / 8).toNat :=
  if_neg (by omega)

section InRange
variable {g : Int} (hlo : -72 ≤ g) (hhi : g ≤ 16)
include hlo hhi

theorem scale_zero : scale 0 g = 0 := by
  have shift := shift_bounds hlo hhi
  rw [scale_of_nonneg le_rfl, Int.natAbs_zero, Nat.zero_mul, scaleMagnitude_zero (by omega)]
  rfl

/-- The sign is set aside and restored (R148). -/
theorem scale_neg (x : Int) : scale (-x) g = -scale x g := by
  rcases lt_trichotomy x 0 with neg | rfl | pos
  · unfold scale
    dsimp only
    rw [if_neg (by omega), if_pos neg, Int.natAbs_neg, neg_neg]
  · rw [neg_zero, scale_zero hlo hhi, neg_zero]
  · unfold scale
    dsimp only
    rw [if_pos (by omega), if_neg (by omega), Int.natAbs_neg]

theorem scale_nearest_of_nonneg {x : Int} (hx : 0 ≤ x) :
    NearestAway (x * Config.t8 (g % 8).toNat) (scale x g) (2 ^ (15 - g / 8).toNat) := by
  have shift := shift_bounds hlo hhi
  have nearest := scaleMagnitude_nearest (x.natAbs * Config.t8 (g % 8).toNat) (shift := (15 - g / 8).toNat) (by omega)
  rwa [Nat.cast_mul, Int.natAbs_of_nonneg hx, ← scale_of_nonneg hx] at nearest

theorem scale_nearest (x : Int) :
    NearestAway (x * Config.t8 (g % 8).toNat) (scale x g) (2 ^ (15 - g / 8).toNat) := by
  rcases le_or_gt 0 x with nonneg | neg
  · exact scale_nearest_of_nonneg hlo hhi nonneg
  · have positive : 0 < -x * (Config.t8 (g % 8).toNat : Int) :=
      mul_pos (by omega) (by exact_mod_cast (t8_bounds _).1)
    have mirrored := (scale_nearest_of_nonneg hlo hhi (x := -x) (by omega)).neg positive
    rwa [scale_neg hlo hhi, neg_neg, neg_mul, neg_neg] at mirrored

end InRange

/-- A product of R148 fits in 32 bits. -/
theorem product_bounds {x : Int} (hlo : -31616 ≤ x) (hhi : x ≤ 31616) (k : Nat) :
    -1900026752 ≤ x * (Config.t8 k : Int) ∧ x * (Config.t8 k : Int) ≤ 1900026752 := by
  have magnitude : |x * (Config.t8 k : Int)| ≤ 31616 * 60097 := by
    rw [abs_mul, Nat.abs_cast]
    exact mul_le_mul (abs_le.mpr ⟨hlo, hhi⟩) (by exact_mod_cast (t8_bounds k).2) (by positivity) (by decide)
  exact abs_le.mp magnitude

/-- Settles O40, by the nearest quotient of a magnitude and the mirror of `scale` at 0. -/
theorem scaleIsNearest : Obligations.ScaleIsNearest := by
  refine ⟨rfl, fun x g hlo hhi => ?_⟩
  obtain ⟨least, most⟩ := shift_bounds hlo hhi
  obtain ⟨above, below, up, down⟩ := scale_nearest hlo hhi x
  exact ⟨fun h h' => product_bounds h h' _, least, most, above, below, up, down, scale_neg hlo hhi x, scale_zero hlo hhi⟩

end Sys2Proof.Machine

namespace Sys2Proof.Machine

/-! ## The gains of a pair (R142 to R144, R146, R147) -/

/-! ### The three cases of an update -/

theorem updatedGains_of_not_live {s : State} {o : Output} (h : live s o = false) : updatedGains s o = .closed := by
  simp [updatedGains, h]

theorem updatedGains_of_mutes {s : State} {o : Output} (h : live s o = true) (hm : mutes s o = true) :
    updatedGains s o = { PairGains.closed with muted := true } := by
  simp [updatedGains, h, hm]

theorem updatedGains_of_sounding {s : State} {o : Output} (h : live s o = true) (hm : mutes s o = false) :
    updatedGains s o =
      { slot := if (s.lvl.silence.get o).isSome then (s.lvl.gains.get o).slot
          else toward (s.lvl.gains.get o).slot (slotTarget s o)
        va := toward (s.lvl.gains.get o).va (vaTarget s o)
        muted := false } := by
  simp [updatedGains, h, hm]

/-- An output that is not live, or is muted, has both pairs at -72 (R144, R146). -/
theorem updatedGains_floor {s : State} {o : Output} (h : live s o = false ∨ mutes s o = true) :
    (updatedGains s o).slot = -72 ∧ (updatedGains s o).va = -72 := by
  cases hl : live s o with
  | false => rw [updatedGains_of_not_live hl]; exact ⟨rfl, rfl⟩
  | true => rw [updatedGains_of_mutes hl (h.resolve_left (by simp [hl]))]; exact ⟨rfl, rfl⟩

theorem updatedGains_muted (s : State) (o : Output) : (updatedGains s o).muted = (live s o && mutes s o) := by
  cases hl : live s o with
  | false => rw [updatedGains_of_not_live hl]; rfl
  | true =>
    cases hm : mutes s o with
    | true => rw [updatedGains_of_mutes hl hm]; rfl
    | false => rw [updatedGains_of_sounding hl hm]; rfl

theorem mutes_jack {s : State} {j : Seat} : mutes s (.jack j) = decide (effectiveStep s j = 0) := rfl

theorem live_jack {s : State} {j : Seat} : live s (.jack j) = decide ((s.jck.jacks.get j).state = .listening) := rfl

/-- No output but a jack of effective step 0 is muted (R144). -/
theorem mutes_eq_false {s : State} {o : Output} (h : ∀ j, o = .jack j → 1 ≤ effectiveStep s j) : mutes s o = false := by
  cases o with
  | jack j => rw [mutes_jack, decide_eq_false (by have := h j rfl; omega)]
  | spk => rfl

/-! ### Targets (R144) -/

theorem slotTarget_of_source {s : State} {o : Output} {i : SlotId} (h : sourceOf s o = some i) :
    slotTarget s o = targetGain s o (s.vtab.slots.get i).play.trim (duckTerm s (s.vtab.slots.get i).content) := by
  rw [slotTarget, h]

theorem slotTarget_of_no_source {s : State} {o : Output} (h : sourceOf s o = none) :
    slotTarget s o = targetGain s o 0 0 := by
  rw [slotTarget, h]

theorem duckTerm_eq (s : State) (c : SlotContent) :
    duckTerm s c = if duckFlag s = true ∧ c = .commentary then -(s.csr.config.duckDepth : Int) else 0 := by
  simp [duckTerm]

theorem targetGain_eq (s : State) (o : Output) (trim duck : Int) :
    targetGain s o trim duck
      = max (-72) (min (s.csr.config.cap : Int) (baseLevel s o + trim + (s.lvl.wind.boost : Int) + duck)) := rfl

/-! ### SOURCE_SILENCE_END (R147) -/

theorem exec_sourceSilenceEnd_of_over {s : State} {o : Output} (h : s.lvl.silence.get o = some 0) :
    exec (.sourceSilenceEnd o) s = .next { s with lvl.silence := s.lvl.silence.set o none } :=
  if_pos h

theorem exec_sourceSilenceEnd_of_not_over {s : State} {o : Output} (h : s.lvl.silence.get o ≠ some 0) :
    exec (.sourceSilenceEnd o) s = .next s :=
  if_neg h

/-- Settles O43: the update by the three cases of `updatedGains`, the targets by `targetGain_eq`. -/
theorem gains : Obligations.Gains := by
  refine ⟨fun s => ⟨⟨{ s with lvl.gains := Outputs.of (updatedGains s) }, rfl, rfl, ?_⟩,
    fun o => ⟨exec_sourceSilenceEnd_of_over, exec_sourceSilenceEnd_of_not_over⟩⟩,
    fun s => ⟨fun j => rfl, fun o => ?targets⟩⟩
  case targets =>
    intro base hold
    have base_eq : baseLevel s o = base := by cases o <;> rfl
    refine ⟨fun none => ?_, fun i source => ?_, ?_⟩
    · rw [slotTarget_of_no_source none, targetGain_eq, base_eq, add_zero, add_zero]
    · rw [slotTarget_of_source source, targetGain_eq, base_eq, duckTerm_eq]
    · rw [vaTarget, targetGain_eq, base_eq, add_zero]
  simp only [Outputs.get_of]
  refine ⟨fun o dead => updatedGains_floor (.inl dead), fun j zero => updatedGains_floor (.inr ?_),
    fun o alive step => ?sounding, fun j => ?_, ?_⟩
  case sounding =>
    rw [updatedGains_of_sounding alive (mutes_eq_false step)]
    exact ⟨rfl, fun silent => if_pos silent, fun heard => if_neg (by simp [heard])⟩
  · rw [mutes_jack, decide_eq_true zero]
  · rw [updatedGains_muted, live_jack, mutes_jack]
  · rw [updatedGains_muted]
    exact Bool.and_false _

end Sys2Proof.Machine

namespace Sys2Proof.Machine

/-! ## The wind tracker (R150 to R152) -/

/-- WIND_SAMPLE into a window not yet full (R150). -/
theorem exec_windSample {level : Byte} {s : State} (awake : s.stc.state = .awake) (h : s.lvl.wind.count ≤ 7) :
    exec (.windSample level) s = .next
      (raise (if s.lvl.wind.count = 7 then [.windWindowEnd] else [])
        (windTake level.toNat { s with pins.noise := level })) := by
  show execWindSample level s = _
  have room : ¬ 8 ≤ s.lvl.wind.count := by omega
  have full : 8 ≤ s.lvl.wind.count + 1 ↔ s.lvl.wind.count = 7 := by omega
  simp only [execWindSample, isAwake, awake, room, windTake, full, beq_self_eq_true, if_true, if_false]
  split
  · rfl
  · simp [raise]

theorem exec_windWindowEnd {s : State} (awake : s.stc.state = .awake) (h : 8 ≤ s.lvl.wind.count) :
    exec .windWindowEnd s = .next (windEnd s) :=
  if_pos (by simp [isAwake, awake, h])

theorem windEnd_of_spoiled {s : State} (h : s.lvl.wind.spoiled = true ∨ s.vtab.va.play.state ≠ .idle) :
    windEnd s = { s with lvl.wind := s.lvl.wind.cleared } :=
  if_pos (by simpa [vaIdle] using h)

theorem windEnd_of_clean {s : State} (h : s.lvl.wind.spoiled = false) (hva : s.vtab.va.play.state = .idle) :
    windEnd s = { s with lvl.wind := (s.lvl.wind.update s.csr.config.noiseFloor).cleared } :=
  if_neg (by simp [vaIdle, h, hva])

/-- The boost's target lies within 0..8, so that nothing is lost in the natural number (R152). -/
theorem boostTarget_eq (average noiseFloor : Nat) :
    (boostTarget average noiseFloor : Int) = max 0 (min 8 (((average : Int) - noiseFloor) / 12)) :=
  Int.toNat_of_nonneg (le_max_left _ _)

/-- One unit toward the target, which stands when reached (R152). -/
theorem boostStep_law (w target : Nat) : (w < target → boostStep w target = w + 1)
    ∧ (target < w → boostStep w target = w - 1) ∧ (target = w → boostStep w target = w) := by
  unfold boostStep
  split_ifs <;> omega

/-- Settles O44: WIND_SAMPLE by the count, WIND_WINDOW_END by whether the window is spoiled. -/
theorem wind : Obligations.Wind := by
  intro level s awake w d average target
  refine ⟨fun room => exec_windSample awake room, fun full clean idle nonneg => ?clean, fun full spoiled => ?spoiled⟩
  case spoiled => rw [exec_windWindowEnd awake full, windEnd_of_spoiled spoiled]; rfl
  case clean =>
    have average_eq : ((w.update s.csr.config.noiseFloor).average : Int) = average := Int.toNat_of_nonneg nonneg
    have target_eq :
        (boostTarget (w.update s.csr.config.noiseFloor).average s.csr.config.noiseFloor : Int) = target := by
      rw [boostTarget_eq, average_eq]
    obtain ⟨rises, falls, stands⟩ := boostStep_law w.boost
      (boostTarget (w.update s.csr.config.noiseFloor).average s.csr.config.noiseFloor)
    refine ⟨_, (exec_windWindowEnd awake full).trans (congrArg _ (windEnd_of_clean clean idle)), rfl, rfl, rfl, rfl,
      average_eq, fun lt => rises ?_, fun lt => falls ?_, fun eq => stands ?_⟩ <;> omega

end Sys2Proof.Machine

namespace Sys2Proof.Machine

/-! ## The lamps' targets through every step (R154, R157, R162) -/

/-- Lamps whose targets are all 0 are safe in every state of the station (R154, R157, R162). -/
theorem LampSafe.of_dark {s : State} (dark : ∀ c, (s.lmp.chans.get c).target = 0) : LampSafe s :=
  ⟨fun _ => dark, fun c _ => dark c, fun c _ lit => absurd (dark c) lit⟩

theorem LampUnit.initial_target (c : Chan) : (LampUnit.initial.chans.get c).target = 0 := by
  cases c <;> rfl

/-- POWER_ON sets every target to 0 (R154). -/
theorem execPowerOn_lampSafe {o : Origin} {l : Bool} {s t : State} (h : execPowerOn o l s = .next t) : LampSafe t := by
  unfold execPowerOn at h
  split at h <;> (obtain rfl := Host.Outcome.next.inj h; exact .of_dark LampUnit.initial_target)

/-- Settles O56: POWER_ON darkens every target, and every other step keeps the rules: targets move only where they are
recomputed while AWAKE (`targetOf_lit`, `latchRelight_keeps`, `settleUp_lampSafe`) and where PARKING sets them to 0. -/
theorem lampsStaySafe : Obligations.LampsStaySafe := by
  intro s t hs h
  rcases step_powersOn_or_keeps h with ⟨o, l, u, hpower⟩ | keeps
  · exact execPowerOn_lampSafe hpower
  · exact keeps.lamp hs

end Sys2Proof.Machine

namespace Sys2Proof.Machine

/-! ## Fades (R160, R161) -/

theorem distance_eq_zero {x y : Nat} : distance x y = 0 ↔ x = y := by
  unfold distance
  split <;> omega

theorem lampsRun_iff {s : State} : lampsRun s = true ↔ s.stc.state = .awake ∨ s.stc.state = .parking := by
  simp [lampsRun]

/-- A fade tick moves the level alone (R160). -/
theorem Channel.tick_eq (c : Channel) : c.tick = { c with
    level := if distance c.level (c.target * 256) ≤ c.step then c.target * 256
      else if c.level < c.target * 256 then c.level + c.step else c.level - c.step } := by
  unfold Channel.tick
  dsimp only
  split_ifs <;> rfl

theorem exec_fadeTick {s : State} (h : s.stc.state = .awake ∨ s.stc.state = .parking) :
    exec .fadeTick s = .next { s with lmp.chans := s.lmp.chans.imap fun _ ch => ch.tick } :=
  if_pos (lampsRun_iff.mpr h)

/-- Every tick takes one step off the distance, until none is left (R160). -/
theorem fadeTicks_distance (n : Nat) (c : Channel) :
    distance (fadeTicks n c).level (c.target * 256) = distance c.level (c.target * 256) - n * c.step := by
  induction n generalizing c with
  | zero => simp [fadeTicks]
  | succ n ih =>
    obtain ⟨target, step⟩ := c.tick_target
    have later := ih c.tick
    rw [target, step, Channel.tick_distance] at later
    rw [fadeTicks, later, Nat.sub_sub, Nat.succ_mul, Nat.add_comm]

/-- A fade of some length leaves the level, and takes its step from the distance (R161). -/
theorem Channel.fadeTo_of_pos (c : Channel) (target : Nat) {f : Nat} (h : 1 ≤ f) :
    c.fadeTo target f = { c with target := target, step := fadeStep (distance c.level (target * 256)) f } :=
  if_neg (by omega)

/-- Settles O50: a tick is `Channel.tick_eq` on every channel; a fade has landed when its ticks, each one step off the
distance, have taken all of it. -/
theorem fades : Obligations.Fades := by
  refine ⟨fun s running => ⟨_, exec_fadeTick running, rfl, fun c => ?tick⟩, fun c target f positive => ?fade⟩
  case tick => exact (Chans.get_imap _ _ c).trans (Channel.tick_eq _)
  case fade =>
    intro d step ticks
    have left (n : Nat) : distance (fadeTicks n (c.fadeTo target f)).level (target * 256) = d - n * step := by
      rw [c.fadeTo_of_pos target positive]
      exact fadeTicks_distance n _
    have lands (n : Nat) : ticks ≤ n ↔ d ≤ n * step := by
      have step_pos : 0 < step := le_max_left 1 _
      calc ticks ≤ n ↔ d ⌈/⌉ step ≤ n := by rw [Nat.ceilDiv_eq_add_pred_div]
        _ ↔ d ≤ n * step := by rw [ceilDiv_le_iff_le_mul step_pos, mul_comm]
    refine ⟨by rw [c.fadeTo_of_pos target positive], fun n enough => distance_eq_zero.mp ?_, fun n _ => left n⟩
    rw [left, Nat.sub_eq_zero_of_le ((lands n).mp enough)]

end Sys2Proof.Machine

namespace Sys2Proof.Machine

/-! ## Ambient samples and the own scene request (R167, R168) -/

/-- The length of a run of `k` after a sample of its class (R167). -/
def runLength (k : RunKind) (s : State) : Nat :=
  if k = .none then 0 else if s.lmp.runKind = k then min 120 (s.lmp.runLen + 1) else 1

theorem runMoved_eq (k : RunKind) (s : State) :
    runMoved k s = { s with lmp.runKind := k, lmp.runLen := runLength k s } := by
  unfold runMoved runLength
  split
  next => rfl
  next isClass =>
    rw [if_neg isClass]
    split
    next same => subst same; rfl
    next => rfl

/-- A wish is due at the end of a run of 120 of a class whose wish does not stand yet (R167). -/
theorem wishDue_iff {s : State} :
    wishDue s = true ↔ 120 ≤ s.lmp.runLen ∧ s.lmp.runKind ≠ .none ∧ s.lmp.wish ≠ wishOf s.lmp.runKind := by
  simp [wishDue, and_assoc]

/-- No wish is due while the run is short, nor while the wish is the run's. -/
theorem wishDue_of_settled {s : State} (h : s.lmp.runLen ≤ 119 ∨ s.lmp.wish = wishOf s.lmp.runKind) :
    wishDue s = false := by
  rw [Bool.eq_false_iff, Ne, wishDue_iff]
  rintro ⟨long, -, wish⟩
  rcases h with short | stands
  · omega
  · exact wish stands

theorem setWish_of_settled {s : State} (h : wishDue s = false) : setWish s = s :=
  if_neg (by simp [h])

theorem setWish_of_due {s : State} (h : wishDue s = true) :
    setWish s = { s with lmp.wish := wishOf s.lmp.runKind } :=
  if_pos h

/-- AMBIENT_SAMPLE with no wish left over: the run moves, and a wish it makes due is left to WISH_SET (R167, R168). -/
theorem exec_ambientSample {level : Byte} {s : State} (awake : s.stc.state = .awake) (settled : wishDue s = false) :
    exec (.ambientSample level) s =
      let t := runMoved (ambientClass s.csr.config level.toNat) { s with pins.ambient := level }
      if wishDue t then .next (raise [.wishSet] t) else .next (evaluateRequest t) := by
  have stands : setWish { s with pins.ambient := level } = { s with pins.ambient := level } :=
    setWish_of_settled settled
  show execAmbientSample level s = _
  simp only [execAmbientSample, isAwake, awake, beq_self_eq_true, if_true, stands]

/-- WISH_SET at the end of a run sets the run's wish and evaluates with it (R167, R168). -/
theorem exec_wishSet {s : State} {k : RunKind} (awake : s.stc.state = .awake) (full : s.lmp.runLen = 120)
    (kind : s.lmp.runKind = k) (isClass : k ≠ .none) (new : s.lmp.wish ≠ wishOf k) :
    exec .wishSet s = .next (evaluateRequest { s with lmp.wish := wishOf k }) := by
  subst kind
  have due : wishDue s = true := wishDue_iff.mpr ⟨full.ge, isClass, new⟩
  show execWishSet s = _
  rw [execWishSet, if_pos (by simp [isAwake, awake, due]), setWish_of_due due]

/-- The scene of a wish (R167). -/
theorem wishedScene_eq {s : State} {wished : Nat}
    (h : (s.lmp.wish = .dark ∧ wished = s.csr.config.darkScene) ∨ (s.lmp.wish = .light ∧ wished = s.csr.config.lightScene)) :
    s.lmp.wish ≠ .none ∧ wishedScene s = wished := by
  unfold wishedScene
  rcases h with ⟨wish, rfl⟩ | ⟨wish, rfl⟩ <;> rw [wish] <;> exact ⟨nofun, rfl⟩

/-- The own request is due under the conditions (a), (b) and (c) of R168. -/
theorem requestDue_iff {s : State} : requestDue s = true ↔
    s.lmp.claims.p0 = none
    ∨ (∃ k, s.lmp.claims.p0 = some k ∧ k.scene ≠ wishedScene s ∧ (s.lmp.wish = .dark ∨ k.origin = s.stc.origin))
    ∨ ∃ k e, s.lmp.claims.p0 = some k ∧ k.scene = wishedScene s ∧ k.expiry = some e
      ∧ reached s.dclk.now (e - BitVec.ofNat 32 (refreshMargin s.stc.origin)) = true := by
  unfold requestDue
  cases claim : s.lmp.claims.p0 with
  | none => simp
  | some k =>
    by_cases same : k.scene = wishedScene s
    · cases expiry : k.expiry <;> simp [same, expiry]
    · simp [same]

/-- A due request is enqueued at priority 0 with hold 300; one that is not due is withdrawn (R168). -/
theorem evaluateRequest_of_wish {s : State} (h : s.lmp.wish ≠ .none) :
    evaluateRequest s = if requestDue s = true
      then enqueue .scene [BitVec.ofNat 8 (wishedScene s), 0, 0x01, 0x2C] s else withdraw .scene s :=
  if_neg (by simpa using h)

/-- Settles O51: the sample by whether it brings a run to a new wish, the request by R168's three conditions. -/
theorem ambientRequest : Obligations.AmbientRequest := by
  refine ⟨?sample, fun s wished h => ?request⟩
  case sample =>
    intro level s awake kind long own moved settled
    have run : runMoved (ambientClass s.csr.config level.toNat) { s with pins.ambient := level } = moved :=
      runMoved_eq _ _
    have kind_own : own = wishOf kind := rfl
    have sampled (h : settled) : exec (.ambientSample level) s =
        if wishDue moved then .next (raise [.wishSet] moved) else .next (evaluateRequest moved) := by
      rw [exec_ambientSample awake (wishDue_of_settled ?_), run]
      rcases h with short | ⟨dark, wish⟩ | ⟨bright, wish⟩
      · exact .inl short
      · exact .inr (by rw [wish, dark]; rfl)
      · exact .inr (by rw [wish, bright]; rfl)
    have stands (h : settled) (k : long ≤ 119 ∨ s.lmp.wish = own) :
        exec (.ambientSample level) s = .next (evaluateRequest moved) := by
      have none_due : wishDue moved = false := wishDue_of_settled (k.imp_right fun wish => wish.trans kind_own)
      rw [sampled h, none_due]
      rfl
    refine ⟨stands, fun none h short => ?nothing, fun h full new => ?completes,
      fun full dark new => exec_wishSet awake full dark nofun new,
      fun full bright new => exec_wishSet awake full bright nofun new⟩
    case nothing => rw [stands h (.inl short), evaluateRequest_of_none moved none]
    case completes =>
      have kind_ne : kind ≠ .none := fun none => by simp [long, none] at full
      have due : wishDue moved = true := wishDue_iff.mpr ⟨full.ge, kind_ne, fun wish => new (wish.trans kind_own.symm)⟩
      rw [sampled h, due]
      rfl
  case request =>
    obtain ⟨wish, rfl⟩ := wishedScene_eq h
    rw [evaluateRequest_of_wish wish]
    exact ⟨fun due => if_pos (requestDue_iff.mpr due), fun idle => if_neg (mt requestDue_iff.mp idle)⟩

end Sys2Proof.Machine

namespace Sys2Proof.Machine

/-! ## The lamps' targets by role (R154 to R158) -/

theorem Chan.exists_iff {p : Chan → Prop} :
    (∃ c, p c) ↔ p .ch0 ∨ p .ch1 ∨ p .ch2 ∨ p .ch3 ∨ p .ch4 ∨ p .ch5 := by
  constructor
  · rintro ⟨c, h⟩
    cases c <;> simp [h]
  · rintro (h | h | h | h | h | h) <;> exact ⟨_, h⟩

theorem Chan.forall_iff {p : Chan → Prop} :
    (∀ c, p c) ↔ p .ch0 ∧ p .ch1 ∧ p .ch2 ∧ p .ch3 ∧ p .ch4 ∧ p .ch5 :=
  ⟨fun h => ⟨h _, h _, h _, h _, h _, h _⟩, fun ⟨h0, h1, h2, h3, h4, h5⟩ c => by cases c <;> assumption⟩

/-- The condition of R158, channel by channel. -/
theorem substitution_iff {s : State} : substitution s = true ↔
    s.ann.latch = true ∧ (∃ d, (s.lmp.chans.get d).role = .stopInd)
      ∧ ∀ d, (s.lmp.chans.get d).role = .stopInd → (s.lmp.chans.get d).fault = true := by
  rw [Chan.exists_iff, Chan.forall_iff]
  simp [substitution, Chans.get, and_assoc, ← imp_iff_not_or]

/-- The highest value of a function over the six channels. -/
def highest (f : Chan → Nat) : Nat :=
  max (f .ch0) (max (f .ch1) (max (f .ch2) (max (f .ch3) (max (f .ch4) (f .ch5)))))

theorem le_highest (f : Chan → Nat) (c : Chan) : f c ≤ highest f := by
  cases c <;> simp [highest]

theorem highest_attained (f : Chan → Nat) : ∃ c, highest f = f c := by
  rw [Chan.exists_iff]
  unfold highest
  omega

/-- The current scene's level of a STOP_IND channel, 0 of any other (R158). -/
def indicatorLevel (s : State) (d : Chan) : Nat :=
  if (s.lmp.chans.get d).role == .stopInd then (sceneEntry s).levels.get d else 0

theorem stopIndLevel_eq (s : State) : stopIndLevel s = highest (indicatorLevel s) := rfl

theorem indicatorLevel_of_stopInd {s : State} {d : Chan} (h : (s.lmp.chans.get d).role = .stopInd) :
    indicatorLevel s d = (sceneEntry s).levels.get d :=
  if_pos (beq_iff_eq.mpr h)

theorem indicatorLevel_of_other {s : State} {d : Chan} (h : (s.lmp.chans.get d).role ≠ .stopInd) :
    indicatorLevel s d = 0 :=
  if_neg (mt beq_iff_eq.mp h)

/-- No STOP_IND channel has a higher level in the current scene (R158). -/
theorem le_stopIndLevel {s : State} {d : Chan} (h : (s.lmp.chans.get d).role = .stopInd) :
    (sceneEntry s).levels.get d ≤ stopIndLevel s := by
  rw [stopIndLevel_eq, ← indicatorLevel_of_stopInd h]
  exact le_highest _ d

/-- Some STOP_IND channel has that level in the current scene, where there is one (R158). -/
theorem stopIndLevel_attained {s : State} (h : ∃ d, (s.lmp.chans.get d).role = .stopInd) :
    ∃ d, (s.lmp.chans.get d).role = .stopInd ∧ stopIndLevel s = (sceneEntry s).levels.get d := by
  obtain ⟨top, attained⟩ := highest_attained (indicatorLevel s)
  rw [← stopIndLevel_eq] at attained
  by_cases role : (s.lmp.chans.get top).role = .stopInd
  · exact ⟨top, role, attained.trans (indicatorLevel_of_stopInd role)⟩
  · obtain ⟨d, hd⟩ := h
    have zero : stopIndLevel s = 0 := attained.trans (indicatorLevel_of_other role)
    exact ⟨d, hd, by have := le_stopIndLevel hd; omega⟩

section
variable {s : State} {c : Chan}

theorem targetOf_aisle (h : (s.lmp.chans.get c).role = .aisle) : targetOf s c =
    if doorOpen s then max ((sceneEntry s).levels.get c) s.csr.config.boardingLevel
    else (sceneEntry s).levels.get c := by simp only [targetOf, h]

theorem targetOf_readAB (h : (s.lmp.chans.get c).role = .readAB) :
    targetOf s c = if s.jck.readAB then (sceneEntry s).levels.get c else 0 := by simp only [targetOf, h]

theorem targetOf_readCD (h : (s.lmp.chans.get c).role = .readCD) :
    targetOf s c = if s.jck.readCD then (sceneEntry s).levels.get c else 0 := by simp only [targetOf, h]

theorem targetOf_stopInd (h : (s.lmp.chans.get c).role = .stopInd) :
    targetOf s c = if s.ann.latch then (sceneEntry s).levels.get c else 0 := by simp only [targetOf, h]

theorem targetOf_accent (h : (s.lmp.chans.get c).role = .accent) : targetOf s c =
    if substitution s then stopIndLevel s
    else if overlayFlag s then s.csr.config.announceLevel else (sceneEntry s).levels.get c := by
  simp only [targetOf, h]

theorem targetOf_unused (h : (s.lmp.chans.get c).role = .unused) : targetOf s c = 0 := by
  simp only [targetOf, h]

end

/-- Settles O49, role by role; an ACCENT channel that stands in has the highest level of the indicators. -/
theorem lampTargets : Obligations.LampTargets := by
  intro s c role level stands
  refine ⟨fun aisle closed => ?closed, fun aisle opened => ?opened, targetOf_readAB, targetOf_readCD, targetOf_stopInd,
    fun accent alone => ?overlay, fun accent standsIn => ?standsIn, targetOf_unused⟩
  case closed => rw [targetOf_aisle aisle, doorOpen_of_empty closed]; rfl
  case opened => rw [targetOf_aisle aisle, (doorOpen_iff s).mpr opened]; rfl
  case overlay => rw [targetOf_accent accent, if_neg (mt substitution_iff.mp alone)]
  case standsIn =>
    rw [targetOf_accent accent, if_pos (substitution_iff.mpr standsIn)]
    exact ⟨stopIndLevel_attained standsIn.2.1, fun d => le_stopIndLevel⟩

end Sys2Proof.Machine

namespace Sys2Proof.Machine

/-! ## Lamp faults (R159, R170, R171) -/

/-- One reading of a channel moves its run alone (R170). -/
theorem Channel.check_eq (c : Channel) (open_ : Bool) : c.check open_ = { c with
    faultRun := if c.level / 256 ≤ 15 then c.faultRun else if open_ = c.fault then 0 else c.faultRun + 1 } := by
  by_cases dark : c.level / 256 ≤ 15
  · rw [if_pos dark, Channel.check, if_neg (by omega)]
  · rw [if_neg dark, Channel.check, if_pos (by omega)]
    split_ifs <;> rfl

/-- A run of at most 2 reaches 3 by a disagreeing reading of a lit channel alone (R170). -/
theorem Channel.check_run {c : Channel} {open_ : Bool} (h : c.faultRun ≤ 2) :
    3 ≤ (c.check open_).faultRun ↔ 16 ≤ c.level / 256 ∧ open_ ≠ c.fault ∧ c.faultRun = 2 := by
  rw [Channel.check_eq]
  dsimp only
  split_ifs with dark agrees
  · omega
  · simp [agrees]
  · simp only [agrees, ne_eq, not_false_eq_true, true_and]
    omega

theorem Channel.flip_of_full {c : Channel} (h : 3 ≤ c.faultRun) : c.flip = { c with fault := !c.fault, faultRun := 0 } :=
  if_pos h

theorem faultChange_of_short {c : Chan} {s : State} (h : (s.lmp.chans.get c).faultRun ≤ 2) : faultChange c s = s :=
  if_neg (by omega)

/-- With no run of 3 there is no change left over (log entry 3). -/
theorem settleLamps_of_short {s : State} (h : ∀ c, (s.lmp.chans.get c).faultRun ≤ 2) : settleLamps s = s := by
  unfold settleLamps
  generalize allChans = l
  induction l with
  | nil => rfl
  | cons c l ih => rw [List.foldl_cons, faultChange_of_short (h c), ih]

theorem mem_allChans (c : Chan) : c ∈ allChans := by
  cases c <;> decide

/-- The changes raised are those of the channels whose run is 3 (R170). -/
theorem mem_raiseLampChanges {c : Chan} {s : State} : .lampFaultChange c ∈ (raiseLampChanges s).raised ↔
    .lampFaultChange c ∈ s.raised ∨ 3 ≤ (s.lmp.chans.get c).faultRun := by
  simp [raiseLampChanges, mem_allChans]

/-- LAMP_CHECK with no change left over (R170). -/
theorem exec_lampCheck {l : SenseLines} {s : State} (h : s.stc.state = .awake ∨ s.stc.state = .parking)
    (short : ∀ c, (s.lmp.chans.get c).faultRun ≤ 2) :
    exec (.lampCheck l) s = .next (raiseLampChanges (checkLamps l { s with pins.sense := l })) := by
  have settled : settleLamps { s with pins.sense := l } = { s with pins.sense := l } := settleLamps_of_short short
  refine (if_pos (lampsRun_iff (s := { s with pins.sense := l }).mpr h)).trans ?_
  rw [settled]

/-- A recomputation leaves what the targets are formed from (R155 to R159). -/
theorem targetOf_relightOverlay (s : State) (c : Chan) : targetOf (relightOverlay s) c = targetOf s c :=
  targetOf_congr
    (fun d => ⟨((relightOverlay_frame s).chan d).1, ((relightOverlay_frame s).chan d).2.1⟩)
    (relightOverlay_claims s) (relightOverlay_ann s) (by rw [relightOverlay_csr])
    ⟨by rw [relightOverlay_jck], by rw [relightOverlay_jck]⟩ c

/-- LAMP_FAULT_CHANGE at a run of 3 (R170, R171). -/
theorem faultChange_of_full {c : Chan} {s : State} (h : 3 ≤ (s.lmp.chans.get c).faultRun) : faultChange c s =
    relightOverlay { s with lmp.chans := s.lmp.chans.set c (s.lmp.chans.get c).flip } :=
  if_pos h

/-- Settles O52: the check channel by channel, and the change as a flip and a recomputation. -/
theorem lampFaults : Obligations.LampFaults := by
  refine ⟨fun l s running short => ?check, fun c s full => ?change⟩
  case check =>
    refine ⟨_, exec_lampCheck running short, rfl, fun c => ?_⟩
    intro x
    have checked : (checkLamps l { s with pins.sense := l }).lmp.chans.get c = x.check (senseOf l c) :=
      Chans.get_imap _ _ c
    refine ⟨checked.trans (Channel.check_eq _ _), ?_⟩
    rw [mem_raiseLampChanges, checked, Channel.check_run (short c)]
    rfl
  case change =>
    obtain ⟨u, hu⟩ : ∃ u : State, u = { s with lmp.chans := s.lmp.chans.set c (s.lmp.chans.get c).flip } := ⟨_, rfl⟩
    have flipped (d : Chan) :
        u.lmp.chans.get d = if c = d then (s.lmp.chans.get c).flip else s.lmp.chans.get d := by
      rw [hu, Chans.get_set]
    have changed : exec (.lampFaultChange c) s = .next (relightOverlay u) := by
      rw [hu, ← faultChange_of_full full.ge]
      rfl
    have kept (d : Chan) := ((relightOverlay_frame u).chan d).2
    obtain ⟨chans, recomputed⟩ := relightOverlay_is u
    refine ⟨_, changed, by rw [recomputed, hu], ?_, ?_, fun d other => ?_, fun awake d => ?_⟩
    · rw [(kept c).1, flipped, if_pos rfl, Channel.flip_of_full full.ge]
    · rw [(kept c).2, flipped, if_pos rfl, Channel.flip_of_full full.ge]
    · rw [(kept d).1, (kept d).2, flipped, if_neg other.symm]
      exact ⟨rfl, rfl⟩
    · rw [targetOf_relightOverlay]
      exact relight_target _ u d (by simp [isAwake, hu, awake])

end Sys2Proof.Machine

namespace Sys2Proof.Machine

/-! ## The step and the commands as a whole -/

/-- Settles O1: the first branch of `step`. -/
theorem frontCommandRuns : Obligations.FrontCommandRuns :=
  fun _ _ _ => rfl

/-- Settles O3: POWER_ON by O5, every other command by the rules it keeps. -/
theorem everyCommandCompletes : Obligations.EveryCommandCompletes := by
  intro c s
  by_cases hc : ∃ o l, c = .powerOn o l
  · obtain ⟨o, l, rfl⟩ := hc
    obtain ⟨t, poweredUp, -⟩ := powerOn o l s
    exact ⟨t, poweredUp⟩
  · obtain ⟨t, answered, -⟩ := exec_keeps c s fun o l e => hc ⟨o, l, e⟩
    exact ⟨t, answered⟩

end Sys2Proof.Machine
